-- ==== Sys2Proof/Word.lean ====
section
/-! DEFINITION. The word types of the Am29000 (00 R6): 32-bit words, 8-bit bytes and register numbers, 30-bit word addresses of instructions. -/

namespace Sys2Proof

/-- A 32-bit word: a register, an operand, an instruction, an address of a data access (00 R6). -/
abbrev Word := BitVec 32

/-- An 8-bit byte of memory (00 R19). -/
abbrev Byte := BitVec 8

/-- An 8-bit register number, a field of an instruction or an absolute register-number (10 R31, R36). -/
abbrev RegNum := BitVec 8

/-- A 30-bit word address of an instruction (10 R33). -/
abbrev IAddr := BitVec 30

end Sys2Proof
end

