-- ==== Sys2Proof/Syntax.lean ====
section
/-! DEFINITION. The abstract syntax of the Am29000: one constructor per row of spec/opcode_table.json, with the fields of its format (30 R210, R212). -/

namespace Sys2Proof

/-- The `RB or I` operand: a register number (M = 0) or an 8-bit constant (M = 1) (30 R204). -/
inductive Src2 where
  | reg (rb : RegNum)
  | imm (i : BitVec 8)
deriving DecidableEq, Repr

/-- The 115 instructions (00 R5). `ctl` is the CE//CNTL field of a load or store (30 R208), `a` the A bit of a branch
(30 R203), `i16` the 16-bit constant or address (30 R206, R207), `vn` a trap vector number (30 R209), `sa` a
special-purpose register-number (10 R40). Reserved fields are not carried (30 R205). -/
inductive Instr where
  -- Integer Arithmetic (40)
  /-- ADD, Add (opcodes 0x14, 0x15; R242). -/
  | add (rc ra : RegNum) (rb : Src2)
  /-- ADDS, Add, Signed (opcodes 0x10, 0x11; R243). -/
  | adds (rc ra : RegNum) (rb : Src2)
  /-- ADDU, Add, Unsigned (opcodes 0x12, 0x13; R244). -/
  | addu (rc ra : RegNum) (rb : Src2)
  /-- ADDC, Add with Carry (opcodes 0x1C, 0x1D; R245). -/
  | addc (rc ra : RegNum) (rb : Src2)
  /-- ADDCS, Add with Carry, Signed (opcodes 0x18, 0x19; R246). -/
  | addcs (rc ra : RegNum) (rb : Src2)
  /-- ADDCU, Add with Carry, Unsigned (opcodes 0x1A, 0x1B; R247). -/
  | addcu (rc ra : RegNum) (rb : Src2)
  /-- SUB, Subtract (opcodes 0x24, 0x25; R248). -/
  | sub (rc ra : RegNum) (rb : Src2)
  /-- SUBS, Subtract, Signed (opcodes 0x20, 0x21; R249). -/
  | subs (rc ra : RegNum) (rb : Src2)
  /-- SUBU, Subtract, Unsigned (opcodes 0x22, 0x23; R250). -/
  | subu (rc ra : RegNum) (rb : Src2)
  /-- SUBC, Subtract with Carry (opcodes 0x2C, 0x2D; R251). -/
  | subc (rc ra : RegNum) (rb : Src2)
  /-- SUBCS, Subtract with Carry, Signed (opcodes 0x28, 0x29; R252). -/
  | subcs (rc ra : RegNum) (rb : Src2)
  /-- SUBCU, Subtract with Carry, Unsigned (opcodes 0x2A, 0x2B; R253). -/
  | subcu (rc ra : RegNum) (rb : Src2)
  /-- SUBR, Subtract Reverse (opcodes 0x34, 0x35; R254). -/
  | subr (rc ra : RegNum) (rb : Src2)
  /-- SUBRS, Subtract Reverse, Signed (opcodes 0x30, 0x31; R255). -/
  | subrs (rc ra : RegNum) (rb : Src2)
  /-- SUBRU, Subtract Reverse, Unsigned (opcodes 0x32, 0x33; R256). -/
  | subru (rc ra : RegNum) (rb : Src2)
  /-- SUBRC, Subtract Reverse with Carry (opcodes 0x3C, 0x3D; R257). -/
  | subrc (rc ra : RegNum) (rb : Src2)
  /-- SUBRCS, Subtract Reverse with Carry, Signed (opcodes 0x38, 0x39; R258). -/
  | subrcs (rc ra : RegNum) (rb : Src2)
  /-- SUBRCU, Subtract Reverse with Carry, Unsigned (opcodes 0x3A, 0x3B; R259). -/
  | subrcu (rc ra : RegNum) (rb : Src2)
  /-- MUL, Multiply Step (opcodes 0x64, 0x65; R260). -/
  | mul (rc ra : RegNum) (rb : Src2)
  /-- MULL, Multiply Last Step (opcodes 0x66, 0x67; R261). -/
  | mull (rc ra : RegNum) (rb : Src2)
  /-- MULTIPLY, Integer Multiply (opcodes 0xE0; R262). -/
  | multiply (rc ra rb : RegNum)
  /-- DIVIDE, Integer Divide (opcodes 0xE1; R263). -/
  | divide (rc ra rb : RegNum)
  /-- MULU, Multiply Step, Unsigned (opcodes 0x74, 0x75; R264). -/
  | mulu (rc ra : RegNum) (rb : Src2)
  /-- DIV0, Divide Initialize (opcodes 0x68, 0x69; R265). -/
  | div0 (rc : RegNum) (rb : Src2)
  /-- DIV, Divide Step (opcodes 0x6A, 0x6B; R266). -/
  | div (rc ra : RegNum) (rb : Src2)
  /-- DIVL, Divide Last Step (opcodes 0x6C, 0x6D; R267). -/
  | divl (rc ra : RegNum) (rb : Src2)
  /-- DIVREM, Divide Remainder (opcodes 0x6E, 0x6F; R268). -/
  | divrem (rc ra : RegNum) (rb : Src2)
  -- Compare (41)
  /-- CPEQ, Compare Equal To (opcodes 0x60, 0x61; R291). -/
  | cpeq (rc ra : RegNum) (rb : Src2)
  /-- CPNEQ, Compare Not Equal To (opcodes 0x62, 0x63; R292). -/
  | cpneq (rc ra : RegNum) (rb : Src2)
  /-- CPLT, Compare Less Than (opcodes 0x40, 0x41; R293). -/
  | cplt (rc ra : RegNum) (rb : Src2)
  /-- CPLTU, Compare Less Than, Unsigned (opcodes 0x42, 0x43; R294). -/
  | cpltu (rc ra : RegNum) (rb : Src2)
  /-- CPLE, Compare Less Than or Equal To (opcodes 0x44, 0x45; R295). -/
  | cple (rc ra : RegNum) (rb : Src2)
  /-- CPLEU, Compare Less Than or Equal To, Unsigned (opcodes 0x46, 0x47; R296). -/
  | cpleu (rc ra : RegNum) (rb : Src2)
  /-- CPGT, Compare Greater Than (opcodes 0x48, 0x49; R297). -/
  | cpgt (rc ra : RegNum) (rb : Src2)
  /-- CPGTU, Compare Greater Than, Unsigned (opcodes 0x4A, 0x4B; R298). -/
  | cpgtu (rc ra : RegNum) (rb : Src2)
  /-- CPGE, Compare Greater Than or Equal To (opcodes 0x4C, 0x4D; R299). -/
  | cpge (rc ra : RegNum) (rb : Src2)
  /-- CPGEU, Compare Greater Than or Equal To, Unsigned (opcodes 0x4E, 0x4F; R300). -/
  | cpgeu (rc ra : RegNum) (rb : Src2)
  /-- CPBYTE, Compare Bytes (opcodes 0x2E, 0x2F; R301). -/
  | cpbyte (rc ra : RegNum) (rb : Src2)
  /-- ASEQ, Assert Equal To (opcodes 0x70, 0x71; R305). -/
  | aseq (vn : BitVec 8) (ra : RegNum) (rb : Src2)
  /-- ASNEQ, Assert Not Equal To (opcodes 0x72, 0x73; R306). -/
  | asneq (vn : BitVec 8) (ra : RegNum) (rb : Src2)
  /-- ASLT, Assert Less Than (opcodes 0x50, 0x51; R307). -/
  | aslt (vn : BitVec 8) (ra : RegNum) (rb : Src2)
  /-- ASLTU, Assert Less Than, Unsigned (opcodes 0x52, 0x53; R308). -/
  | asltu (vn : BitVec 8) (ra : RegNum) (rb : Src2)
  /-- ASLE, Assert Less Than or Equal To (opcodes 0x54, 0x55; R309). -/
  | asle (vn : BitVec 8) (ra : RegNum) (rb : Src2)
  /-- ASLEU, Assert Less Than or Equal To, Unsigned (opcodes 0x56, 0x57; R310). -/
  | asleu (vn : BitVec 8) (ra : RegNum) (rb : Src2)
  /-- ASGT, Assert Greater Than (opcodes 0x58, 0x59; R311). -/
  | asgt (vn : BitVec 8) (ra : RegNum) (rb : Src2)
  /-- ASGTU, Assert Greater Than, Unsigned (opcodes 0x5A, 0x5B; R312). -/
  | asgtu (vn : BitVec 8) (ra : RegNum) (rb : Src2)
  /-- ASGE, Assert Greater Than or Equal To (opcodes 0x5C, 0x5D; R313). -/
  | asge (vn : BitVec 8) (ra : RegNum) (rb : Src2)
  /-- ASGEU, Assert Greater Than or Equal To, Unsigned (opcodes 0x5E, 0x5F; R314). -/
  | asgeu (vn : BitVec 8) (ra : RegNum) (rb : Src2)
  -- Logical (42)
  /-- AND, AND Logical (opcodes 0x90, 0x91; R331). -/
  | and (rc ra : RegNum) (rb : Src2)
  /-- ANDN, AND-NOT Logical (opcodes 0x9C, 0x9D; R332). -/
  | andn (rc ra : RegNum) (rb : Src2)
  /-- NAND, NAND Logical (opcodes 0x9A, 0x9B; R333). -/
  | nand (rc ra : RegNum) (rb : Src2)
  /-- OR, OR Logical (opcodes 0x92, 0x93; R334). -/
  | or (rc ra : RegNum) (rb : Src2)
  /-- NOR, NOR Logical (opcodes 0x98, 0x99; R335). -/
  | nor (rc ra : RegNum) (rb : Src2)
  /-- XOR, Exclusive-OR Logical (opcodes 0x94, 0x95; R336). -/
  | xor (rc ra : RegNum) (rb : Src2)
  /-- XNOR, Exclusive-NOR Logical (opcodes 0x96, 0x97; R337). -/
  | xnor (rc ra : RegNum) (rb : Src2)
  -- Shift (43)
  /-- SLL, Shift Left Logical (opcodes 0x80, 0x81; R351). -/
  | sll (rc ra : RegNum) (rb : Src2)
  /-- SRL, Shift Right Logical (opcodes 0x82, 0x83; R352). -/
  | srl (rc ra : RegNum) (rb : Src2)
  /-- SRA, Shift Right Arithmetic (opcodes 0x86, 0x87; R353). -/
  | sra (rc ra : RegNum) (rb : Src2)
  /-- EXTRACT, Extract Word, Bit-Aligned (opcodes 0x7A, 0x7B; R354). -/
  | extract (rc ra : RegNum) (rb : Src2)
  -- Data Movement (44)
  /-- LOAD, Load (opcodes 0x16, 0x17; R380). -/
  | load (ctl : BitVec 8) (ra : RegNum) (rb : Src2)
  /-- LOADL, Load and Lock (opcodes 0x06, 0x07; R381). -/
  | loadl (ctl : BitVec 8) (ra : RegNum) (rb : Src2)
  /-- LOADSET, Load and Set (opcodes 0x26, 0x27; R382). -/
  | loadset (ctl : BitVec 8) (ra : RegNum) (rb : Src2)
  /-- STORE, Store (opcodes 0x1E, 0x1F; R383). -/
  | store (ctl : BitVec 8) (ra : RegNum) (rb : Src2)
  /-- STOREL, Store and Lock (opcodes 0x0E, 0x0F; R384). -/
  | storel (ctl : BitVec 8) (ra : RegNum) (rb : Src2)
  /-- LOADM, Load Multiple (opcodes 0x36, 0x37; R387). -/
  | loadm (ctl : BitVec 8) (ra : RegNum) (rb : Src2)
  /-- STOREM, Store Multiple (opcodes 0x3E, 0x3F; R388). -/
  | storem (ctl : BitVec 8) (ra : RegNum) (rb : Src2)
  /-- EXBYTE, Extract Byte (opcodes 0x0A, 0x0B; R393). -/
  | exbyte (rc ra : RegNum) (rb : Src2)
  /-- EXHW, Extract Half-Word (opcodes 0x7C, 0x7D; R394). -/
  | exhw (rc ra : RegNum) (rb : Src2)
  /-- EXHWS, Extract Half-Word, Sign-Extended (opcodes 0x7E; R395). -/
  | exhws (rc ra : RegNum)
  /-- INBYTE, Insert Byte (opcodes 0x0C, 0x0D; R396). -/
  | inbyte (rc ra : RegNum) (rb : Src2)
  /-- INHW, Insert Half-Word (opcodes 0x78, 0x79; R397). -/
  | inhw (rc ra : RegNum) (rb : Src2)
  /-- MFSR, Move from Special Register (opcodes 0xC6; R400). -/
  | mfsr (rc : RegNum) (sa : BitVec 8)
  /-- MTSR, Move to Special Register (opcodes 0xCE; R401). -/
  | mtsr (sa : BitVec 8) (rb : RegNum)
  /-- MTSRIM, Move to Special Register Immediate (opcodes 0x04; R402). -/
  | mtsrim (sa : BitVec 8) (i16 : BitVec 16)
  /-- MFTLB, Move from Translation Look-Aside Buffer Register (opcodes 0xB6; R403). -/
  | mftlb (rc ra : RegNum)
  /-- MTTLB, Move to Translation Look-Aside Buffer Register (opcodes 0xBE; R404). -/
  | mttlb (ra rb : RegNum)
  -- Constant (45)
  /-- CONST, Constant (opcodes 0x03; R421). -/
  | const (ra : RegNum) (i16 : BitVec 16)
  /-- CONSTH, Constant, High (opcodes 0x02; R422). -/
  | consth (ra : RegNum) (i16 : BitVec 16)
  /-- CONSTN, Constant, Negative (opcodes 0x01; R423). -/
  | constn (ra : RegNum) (i16 : BitVec 16)
  -- Floating-Point (46)
  /-- FADD, Floating-Point Add, Single-Precision (opcodes 0xF0; R431). -/
  | fadd (rc ra rb : RegNum)
  /-- DADD, Floating-Point Add, Double-Precision (opcodes 0xF1; R432). -/
  | dadd (rc ra rb : RegNum)
  /-- FSUB, Floating-Point Subtract, Single-Precision (opcodes 0xF2; R433). -/
  | fsub (rc ra rb : RegNum)
  /-- DSUB, Floating-Point Subtract, Double-Precision (opcodes 0xF3; R434). -/
  | dsub (rc ra rb : RegNum)
  /-- FMUL, Floating-Point Multiply, Single-Precision (opcodes 0xF4; R435). -/
  | fmul (rc ra rb : RegNum)
  /-- DMUL, Floating-Point Multiply, Double-Precision (opcodes 0xF5; R436). -/
  | dmul (rc ra rb : RegNum)
  /-- FDIV, Floating-Point Divide, Single-Precision (opcodes 0xF6; R437). -/
  | fdiv (rc ra rb : RegNum)
  /-- DDIV, Floating-Point Divide, Double-Precision (opcodes 0xF7; R438). -/
  | ddiv (rc ra rb : RegNum)
  /-- FEQ, Floating-Point Equal To, Single-Precision (opcodes 0xEA; R439). -/
  | feq (rc ra rb : RegNum)
  /-- DEQ, Floating-Point Equal To, Double-Precision (opcodes 0xEB; R440). -/
  | deq (rc ra rb : RegNum)
  /-- FLT, Floating-Point Less Than, Single-Precision (opcodes 0xEE; R441). -/
  | flt (rc ra rb : RegNum)
  /-- DLT, Floating-Point Less Than, Double-Precision (opcodes 0xEF; R442). -/
  | dlt (rc ra rb : RegNum)
  /-- FGT, Floating-Point Greater Than, Single-Precision (opcodes 0xEC; R443). -/
  | fgt (rc ra rb : RegNum)
  /-- DGT, Floating-Point Greater Than, Double-Precision (opcodes 0xED; R444). -/
  | dgt (rc ra rb : RegNum)
  /-- CVINTF, Convert Integer to Floating-Point, Single-Precision (opcodes 0xE4; R445). -/
  | cvintf (rc ra : RegNum)
  /-- CVINTD, Convert Integer to Floating-Point, Double-Precision (opcodes 0xE5; R446). -/
  | cvintd (rc ra : RegNum)
  /-- CVFINT, Convert Floating-Point, Single-Precision to Integer (opcodes 0xE6; R447). -/
  | cvfint (rc ra : RegNum)
  /-- CVDINT, Convert Floating-Point, Double-Precision to Integer (opcodes 0xE7; R448). -/
  | cvdint (rc ra : RegNum)
  /-- CVFD, Convert Floating-Point, Single- to Double-Precision (opcodes 0xE8; R449). -/
  | cvfd (rc ra : RegNum)
  /-- CVDF, Convert Floating-Point, Double- to Single-Precision (opcodes 0xE9; R450). -/
  | cvdf (rc ra : RegNum)
  -- Branch (47)
  /-- JMP, Jump (opcodes 0xA0, 0xA1; R471). -/
  | jmp (a : Bool) (i16 : BitVec 16)
  /-- JMPI, Jump Indirect (opcodes 0xC0; R472). -/
  | jmpi (rb : RegNum)
  /-- JMPT, Jump True (opcodes 0xAC, 0xAD; R473). -/
  | jmpt (a : Bool) (ra : RegNum) (i16 : BitVec 16)
  /-- JMPF, Jump False (opcodes 0xA4, 0xA5; R474). -/
  | jmpf (a : Bool) (ra : RegNum) (i16 : BitVec 16)
  /-- JMPTI, Jump True Indirect (opcodes 0xCC; R475). -/
  | jmpti (ra rb : RegNum)
  /-- JMPFI, Jump False Indirect (opcodes 0xC4; R476). -/
  | jmpfi (ra rb : RegNum)
  /-- JMPFDEC, Jump False and Decrement (opcodes 0xB4, 0xB5; R477). -/
  | jmpfdec (a : Bool) (ra : RegNum) (i16 : BitVec 16)
  /-- CALL, Call Subroutine (opcodes 0xA8, 0xA9; R478). -/
  | call (a : Bool) (ra : RegNum) (i16 : BitVec 16)
  /-- CALLI, Call Subroutine, Indirect (opcodes 0xC8; R479). -/
  | calli (ra rb : RegNum)
  -- Miscellaneous (48)
  /-- CLZ, Count Leading Zeros (opcodes 0x08, 0x09; R501). -/
  | clz (rc : RegNum) (rb : Src2)
  /-- SETIP, Set Indirect Pointers (opcodes 0x9E; R502). -/
  | setip (rc ra rb : RegNum)
  /-- EMULATE, Trap to Software Emulation Routine (opcodes 0xF8; R503). -/
  | emulate (vn : BitVec 8) (ra rb : RegNum)
  /-- INV, Invalidate (opcodes 0x9F; R504). -/
  | inv
  /-- IRET, Interrupt Return (opcodes 0x88; R505). -/
  | iret
  /-- IRETINV, Interrupt Return and Invalidate (opcodes 0x8C; R506). -/
  | iretinv
  /-- HALT, Enter Halt Mode (opcodes 0x89; R507). -/
  | halt
deriving DecidableEq, Repr

end Sys2Proof
end

