-- ==== Sys2Proof/Decode.lean ====
section
/-! DEFINITION. The decoder, total on any bytes (30 R211 to R215), and the encoder written from the same tables. -/

namespace Sys2Proof

/-- Why a decoding fails. -/
inductive DecodeError where
  /-- the opcode is assigned to no instruction: executing the word raises Illegal Opcode (30 R213) -/
  | illegalOpcode (op : BitVec 8)
  /-- fewer than the four bytes of an instruction word (30 R200) -/
  | truncated
deriving DecidableEq, Repr

/-- Bits 31-24 of an instruction word: the operation (30 R201). -/
def opField (w : Word) : BitVec 8 := w.extractLsb' 24 8

/-- Bits 23-16: RC, VN, CE//CNTL or the high half of a 16-bit constant (30 R201). -/
def field2 (w : Word) : BitVec 8 := w.extractLsb' 16 8

/-- Bits 15-8: RA or SA (30 R201). -/
def field1 (w : Word) : BitVec 8 := w.extractLsb' 8 8

/-- Bits 7-0: RB, I or the low half of a 16-bit constant (30 R201). -/
def field0 (w : Word) : BitVec 8 := w.extractLsb' 0 8

/-- Opcodes 00 to 0F of the opcode map (30 R212). -/
def decodeRow0 (lo : Nat) (f2 f1 f0 : BitVec 8) : Except DecodeError Instr :=
  match lo with
  | 0x1 => .ok (.constn f1 (f2 ++ f0))
  | 0x2 => .ok (.consth f1 (f2 ++ f0))
  | 0x3 => .ok (.const f1 (f2 ++ f0))
  | 0x4 => .ok (.mtsrim f1 (f2 ++ f0))
  | 0x6 => .ok (.loadl f2 f1 (.reg f0))
  | 0x7 => .ok (.loadl f2 f1 (.imm f0))
  | 0x8 => .ok (.clz f2 (.reg f0))
  | 0x9 => .ok (.clz f2 (.imm f0))
  | 0xA => .ok (.exbyte f2 f1 (.reg f0))
  | 0xB => .ok (.exbyte f2 f1 (.imm f0))
  | 0xC => .ok (.inbyte f2 f1 (.reg f0))
  | 0xD => .ok (.inbyte f2 f1 (.imm f0))
  | 0xE => .ok (.storel f2 f1 (.reg f0))
  | 0xF => .ok (.storel f2 f1 (.imm f0))
  | _ => .error (.illegalOpcode (BitVec.ofNat 8 (0x00 + lo)))

/-- Opcodes 10 to 1F of the opcode map (30 R212). -/
def decodeRow1 (lo : Nat) (f2 f1 f0 : BitVec 8) : Except DecodeError Instr :=
  match lo with
  | 0x0 => .ok (.adds f2 f1 (.reg f0))
  | 0x1 => .ok (.adds f2 f1 (.imm f0))
  | 0x2 => .ok (.addu f2 f1 (.reg f0))
  | 0x3 => .ok (.addu f2 f1 (.imm f0))
  | 0x4 => .ok (.add f2 f1 (.reg f0))
  | 0x5 => .ok (.add f2 f1 (.imm f0))
  | 0x6 => .ok (.load f2 f1 (.reg f0))
  | 0x7 => .ok (.load f2 f1 (.imm f0))
  | 0x8 => .ok (.addcs f2 f1 (.reg f0))
  | 0x9 => .ok (.addcs f2 f1 (.imm f0))
  | 0xA => .ok (.addcu f2 f1 (.reg f0))
  | 0xB => .ok (.addcu f2 f1 (.imm f0))
  | 0xC => .ok (.addc f2 f1 (.reg f0))
  | 0xD => .ok (.addc f2 f1 (.imm f0))
  | 0xE => .ok (.store f2 f1 (.reg f0))
  | 0xF => .ok (.store f2 f1 (.imm f0))
  | _ => .error (.illegalOpcode (BitVec.ofNat 8 (0x10 + lo)))

/-- Opcodes 20 to 2F of the opcode map (30 R212). -/
def decodeRow2 (lo : Nat) (f2 f1 f0 : BitVec 8) : Except DecodeError Instr :=
  match lo with
  | 0x0 => .ok (.subs f2 f1 (.reg f0))
  | 0x1 => .ok (.subs f2 f1 (.imm f0))
  | 0x2 => .ok (.subu f2 f1 (.reg f0))
  | 0x3 => .ok (.subu f2 f1 (.imm f0))
  | 0x4 => .ok (.sub f2 f1 (.reg f0))
  | 0x5 => .ok (.sub f2 f1 (.imm f0))
  | 0x6 => .ok (.loadset f2 f1 (.reg f0))
  | 0x7 => .ok (.loadset f2 f1 (.imm f0))
  | 0x8 => .ok (.subcs f2 f1 (.reg f0))
  | 0x9 => .ok (.subcs f2 f1 (.imm f0))
  | 0xA => .ok (.subcu f2 f1 (.reg f0))
  | 0xB => .ok (.subcu f2 f1 (.imm f0))
  | 0xC => .ok (.subc f2 f1 (.reg f0))
  | 0xD => .ok (.subc f2 f1 (.imm f0))
  | 0xE => .ok (.cpbyte f2 f1 (.reg f0))
  | 0xF => .ok (.cpbyte f2 f1 (.imm f0))
  | _ => .error (.illegalOpcode (BitVec.ofNat 8 (0x20 + lo)))

/-- Opcodes 30 to 3F of the opcode map (30 R212). -/
def decodeRow3 (lo : Nat) (f2 f1 f0 : BitVec 8) : Except DecodeError Instr :=
  match lo with
  | 0x0 => .ok (.subrs f2 f1 (.reg f0))
  | 0x1 => .ok (.subrs f2 f1 (.imm f0))
  | 0x2 => .ok (.subru f2 f1 (.reg f0))
  | 0x3 => .ok (.subru f2 f1 (.imm f0))
  | 0x4 => .ok (.subr f2 f1 (.reg f0))
  | 0x5 => .ok (.subr f2 f1 (.imm f0))
  | 0x6 => .ok (.loadm f2 f1 (.reg f0))
  | 0x7 => .ok (.loadm f2 f1 (.imm f0))
  | 0x8 => .ok (.subrcs f2 f1 (.reg f0))
  | 0x9 => .ok (.subrcs f2 f1 (.imm f0))
  | 0xA => .ok (.subrcu f2 f1 (.reg f0))
  | 0xB => .ok (.subrcu f2 f1 (.imm f0))
  | 0xC => .ok (.subrc f2 f1 (.reg f0))
  | 0xD => .ok (.subrc f2 f1 (.imm f0))
  | 0xE => .ok (.storem f2 f1 (.reg f0))
  | 0xF => .ok (.storem f2 f1 (.imm f0))
  | _ => .error (.illegalOpcode (BitVec.ofNat 8 (0x30 + lo)))

/-- Opcodes 40 to 4F of the opcode map (30 R212). -/
def decodeRow4 (lo : Nat) (f2 f1 f0 : BitVec 8) : Except DecodeError Instr :=
  match lo with
  | 0x0 => .ok (.cplt f2 f1 (.reg f0))
  | 0x1 => .ok (.cplt f2 f1 (.imm f0))
  | 0x2 => .ok (.cpltu f2 f1 (.reg f0))
  | 0x3 => .ok (.cpltu f2 f1 (.imm f0))
  | 0x4 => .ok (.cple f2 f1 (.reg f0))
  | 0x5 => .ok (.cple f2 f1 (.imm f0))
  | 0x6 => .ok (.cpleu f2 f1 (.reg f0))
  | 0x7 => .ok (.cpleu f2 f1 (.imm f0))
  | 0x8 => .ok (.cpgt f2 f1 (.reg f0))
  | 0x9 => .ok (.cpgt f2 f1 (.imm f0))
  | 0xA => .ok (.cpgtu f2 f1 (.reg f0))
  | 0xB => .ok (.cpgtu f2 f1 (.imm f0))
  | 0xC => .ok (.cpge f2 f1 (.reg f0))
  | 0xD => .ok (.cpge f2 f1 (.imm f0))
  | 0xE => .ok (.cpgeu f2 f1 (.reg f0))
  | 0xF => .ok (.cpgeu f2 f1 (.imm f0))
  | _ => .error (.illegalOpcode (BitVec.ofNat 8 (0x40 + lo)))

/-- Opcodes 50 to 5F of the opcode map (30 R212). -/
def decodeRow5 (lo : Nat) (f2 f1 f0 : BitVec 8) : Except DecodeError Instr :=
  match lo with
  | 0x0 => .ok (.aslt f2 f1 (.reg f0))
  | 0x1 => .ok (.aslt f2 f1 (.imm f0))
  | 0x2 => .ok (.asltu f2 f1 (.reg f0))
  | 0x3 => .ok (.asltu f2 f1 (.imm f0))
  | 0x4 => .ok (.asle f2 f1 (.reg f0))
  | 0x5 => .ok (.asle f2 f1 (.imm f0))
  | 0x6 => .ok (.asleu f2 f1 (.reg f0))
  | 0x7 => .ok (.asleu f2 f1 (.imm f0))
  | 0x8 => .ok (.asgt f2 f1 (.reg f0))
  | 0x9 => .ok (.asgt f2 f1 (.imm f0))
  | 0xA => .ok (.asgtu f2 f1 (.reg f0))
  | 0xB => .ok (.asgtu f2 f1 (.imm f0))
  | 0xC => .ok (.asge f2 f1 (.reg f0))
  | 0xD => .ok (.asge f2 f1 (.imm f0))
  | 0xE => .ok (.asgeu f2 f1 (.reg f0))
  | 0xF => .ok (.asgeu f2 f1 (.imm f0))
  | _ => .error (.illegalOpcode (BitVec.ofNat 8 (0x50 + lo)))

/-- Opcodes 60 to 6F of the opcode map (30 R212). -/
def decodeRow6 (lo : Nat) (f2 f1 f0 : BitVec 8) : Except DecodeError Instr :=
  match lo with
  | 0x0 => .ok (.cpeq f2 f1 (.reg f0))
  | 0x1 => .ok (.cpeq f2 f1 (.imm f0))
  | 0x2 => .ok (.cpneq f2 f1 (.reg f0))
  | 0x3 => .ok (.cpneq f2 f1 (.imm f0))
  | 0x4 => .ok (.mul f2 f1 (.reg f0))
  | 0x5 => .ok (.mul f2 f1 (.imm f0))
  | 0x6 => .ok (.mull f2 f1 (.reg f0))
  | 0x7 => .ok (.mull f2 f1 (.imm f0))
  | 0x8 => .ok (.div0 f2 (.reg f0))
  | 0x9 => .ok (.div0 f2 (.imm f0))
  | 0xA => .ok (.div f2 f1 (.reg f0))
  | 0xB => .ok (.div f2 f1 (.imm f0))
  | 0xC => .ok (.divl f2 f1 (.reg f0))
  | 0xD => .ok (.divl f2 f1 (.imm f0))
  | 0xE => .ok (.divrem f2 f1 (.reg f0))
  | 0xF => .ok (.divrem f2 f1 (.imm f0))
  | _ => .error (.illegalOpcode (BitVec.ofNat 8 (0x60 + lo)))

/-- Opcodes 70 to 7F of the opcode map (30 R212). -/
def decodeRow7 (lo : Nat) (f2 f1 f0 : BitVec 8) : Except DecodeError Instr :=
  match lo with
  | 0x0 => .ok (.aseq f2 f1 (.reg f0))
  | 0x1 => .ok (.aseq f2 f1 (.imm f0))
  | 0x2 => .ok (.asneq f2 f1 (.reg f0))
  | 0x3 => .ok (.asneq f2 f1 (.imm f0))
  | 0x4 => .ok (.mulu f2 f1 (.reg f0))
  | 0x5 => .ok (.mulu f2 f1 (.imm f0))
  | 0x8 => .ok (.inhw f2 f1 (.reg f0))
  | 0x9 => .ok (.inhw f2 f1 (.imm f0))
  | 0xA => .ok (.extract f2 f1 (.reg f0))
  | 0xB => .ok (.extract f2 f1 (.imm f0))
  | 0xC => .ok (.exhw f2 f1 (.reg f0))
  | 0xD => .ok (.exhw f2 f1 (.imm f0))
  | 0xE => .ok (.exhws f2 f1)
  | _ => .error (.illegalOpcode (BitVec.ofNat 8 (0x70 + lo)))

/-- Opcodes 80 to 8F of the opcode map (30 R212). -/
def decodeRow8 (lo : Nat) (f2 f1 f0 : BitVec 8) : Except DecodeError Instr :=
  match lo with
  | 0x0 => .ok (.sll f2 f1 (.reg f0))
  | 0x1 => .ok (.sll f2 f1 (.imm f0))
  | 0x2 => .ok (.srl f2 f1 (.reg f0))
  | 0x3 => .ok (.srl f2 f1 (.imm f0))
  | 0x6 => .ok (.sra f2 f1 (.reg f0))
  | 0x7 => .ok (.sra f2 f1 (.imm f0))
  | 0x8 => .ok .iret
  | 0x9 => .ok .halt
  | 0xC => .ok .iretinv
  | _ => .error (.illegalOpcode (BitVec.ofNat 8 (0x80 + lo)))

/-- Opcodes 90 to 9F of the opcode map (30 R212). -/
def decodeRow9 (lo : Nat) (f2 f1 f0 : BitVec 8) : Except DecodeError Instr :=
  match lo with
  | 0x0 => .ok (.and f2 f1 (.reg f0))
  | 0x1 => .ok (.and f2 f1 (.imm f0))
  | 0x2 => .ok (.or f2 f1 (.reg f0))
  | 0x3 => .ok (.or f2 f1 (.imm f0))
  | 0x4 => .ok (.xor f2 f1 (.reg f0))
  | 0x5 => .ok (.xor f2 f1 (.imm f0))
  | 0x6 => .ok (.xnor f2 f1 (.reg f0))
  | 0x7 => .ok (.xnor f2 f1 (.imm f0))
  | 0x8 => .ok (.nor f2 f1 (.reg f0))
  | 0x9 => .ok (.nor f2 f1 (.imm f0))
  | 0xA => .ok (.nand f2 f1 (.reg f0))
  | 0xB => .ok (.nand f2 f1 (.imm f0))
  | 0xC => .ok (.andn f2 f1 (.reg f0))
  | 0xD => .ok (.andn f2 f1 (.imm f0))
  | 0xE => .ok (.setip f2 f1 f0)
  | 0xF => .ok .inv
  | _ => .error (.illegalOpcode (BitVec.ofNat 8 (0x90 + lo)))

/-- Opcodes A0 to AF of the opcode map (30 R212). -/
def decodeRowA (lo : Nat) (f2 f1 f0 : BitVec 8) : Except DecodeError Instr :=
  match lo with
  | 0x0 => .ok (.jmp false (f2 ++ f0))
  | 0x1 => .ok (.jmp true (f2 ++ f0))
  | 0x4 => .ok (.jmpf false f1 (f2 ++ f0))
  | 0x5 => .ok (.jmpf true f1 (f2 ++ f0))
  | 0x8 => .ok (.call false f1 (f2 ++ f0))
  | 0x9 => .ok (.call true f1 (f2 ++ f0))
  | 0xC => .ok (.jmpt false f1 (f2 ++ f0))
  | 0xD => .ok (.jmpt true f1 (f2 ++ f0))
  | _ => .error (.illegalOpcode (BitVec.ofNat 8 (0xA0 + lo)))

/-- Opcodes B0 to BF of the opcode map (30 R212). -/
def decodeRowB (lo : Nat) (f2 f1 f0 : BitVec 8) : Except DecodeError Instr :=
  match lo with
  | 0x4 => .ok (.jmpfdec false f1 (f2 ++ f0))
  | 0x5 => .ok (.jmpfdec true f1 (f2 ++ f0))
  | 0x6 => .ok (.mftlb f2 f1)
  | 0xE => .ok (.mttlb f1 f0)
  | _ => .error (.illegalOpcode (BitVec.ofNat 8 (0xB0 + lo)))

/-- Opcodes C0 to CF of the opcode map (30 R212). -/
def decodeRowC (lo : Nat) (f2 f1 f0 : BitVec 8) : Except DecodeError Instr :=
  match lo with
  | 0x0 => .ok (.jmpi f0)
  | 0x4 => .ok (.jmpfi f1 f0)
  | 0x6 => .ok (.mfsr f2 f1)
  | 0x8 => .ok (.calli f1 f0)
  | 0xC => .ok (.jmpti f1 f0)
  | 0xE => .ok (.mtsr f1 f0)
  | _ => .error (.illegalOpcode (BitVec.ofNat 8 (0xC0 + lo)))

/-- Opcodes E0 to EF of the opcode map (30 R212). -/
def decodeRowE (lo : Nat) (f2 f1 f0 : BitVec 8) : Except DecodeError Instr :=
  match lo with
  | 0x0 => .ok (.multiply f2 f1 f0)
  | 0x1 => .ok (.divide f2 f1 f0)
  | 0x4 => .ok (.cvintf f2 f1)
  | 0x5 => .ok (.cvintd f2 f1)
  | 0x6 => .ok (.cvfint f2 f1)
  | 0x7 => .ok (.cvdint f2 f1)
  | 0x8 => .ok (.cvfd f2 f1)
  | 0x9 => .ok (.cvdf f2 f1)
  | 0xA => .ok (.feq f2 f1 f0)
  | 0xB => .ok (.deq f2 f1 f0)
  | 0xC => .ok (.fgt f2 f1 f0)
  | 0xD => .ok (.dgt f2 f1 f0)
  | 0xE => .ok (.flt f2 f1 f0)
  | 0xF => .ok (.dlt f2 f1 f0)
  | _ => .error (.illegalOpcode (BitVec.ofNat 8 (0xE0 + lo)))

/-- Opcodes F0 to FF of the opcode map (30 R212). -/
def decodeRowF (lo : Nat) (f2 f1 f0 : BitVec 8) : Except DecodeError Instr :=
  match lo with
  | 0x0 => .ok (.fadd f2 f1 f0)
  | 0x1 => .ok (.dadd f2 f1 f0)
  | 0x2 => .ok (.fsub f2 f1 f0)
  | 0x3 => .ok (.dsub f2 f1 f0)
  | 0x4 => .ok (.fmul f2 f1 f0)
  | 0x5 => .ok (.dmul f2 f1 f0)
  | 0x6 => .ok (.fdiv f2 f1 f0)
  | 0x7 => .ok (.ddiv f2 f1 f0)
  | 0x8 => .ok (.emulate f2 f1 f0)
  | _ => .error (.illegalOpcode (BitVec.ofNat 8 (0xF0 + lo)))

/-- The instruction of opcode `op` with its three other fields. The opcode alone selects the operation (30 R211);
reserved fields are not looked at (30 R205); an unassigned opcode is rejected by its number (30 R213). -/
def decodeFields (op f2 f1 f0 : BitVec 8) : Except DecodeError Instr :=
  match op.toNat / 16 with
  | 0x0 => decodeRow0 (op.toNat % 16) f2 f1 f0
  | 0x1 => decodeRow1 (op.toNat % 16) f2 f1 f0
  | 0x2 => decodeRow2 (op.toNat % 16) f2 f1 f0
  | 0x3 => decodeRow3 (op.toNat % 16) f2 f1 f0
  | 0x4 => decodeRow4 (op.toNat % 16) f2 f1 f0
  | 0x5 => decodeRow5 (op.toNat % 16) f2 f1 f0
  | 0x6 => decodeRow6 (op.toNat % 16) f2 f1 f0
  | 0x7 => decodeRow7 (op.toNat % 16) f2 f1 f0
  | 0x8 => decodeRow8 (op.toNat % 16) f2 f1 f0
  | 0x9 => decodeRow9 (op.toNat % 16) f2 f1 f0
  | 0xA => decodeRowA (op.toNat % 16) f2 f1 f0
  | 0xB => decodeRowB (op.toNat % 16) f2 f1 f0
  | 0xC => decodeRowC (op.toNat % 16) f2 f1 f0
  | 0xE => decodeRowE (op.toNat % 16) f2 f1 f0
  | 0xF => decodeRowF (op.toNat % 16) f2 f1 f0
  | _ => .error (.illegalOpcode op)

/-- Decode one instruction word (30 R215). -/
def decode (w : Word) : Except DecodeError Instr :=
  decodeFields (opField w) (field2 w) (field1 w) (field0 w)

/-- The word held by four bytes, the first of them bits 31-24 (entry 6). -/
def wordOfBytes (b0 b1 b2 b3 : Byte) : Word := b0 ++ b1 ++ b2 ++ b3

/-- The four bytes that hold a word, the byte at the lowest address first: bits 31-24 first (entry 6). -/
def bytesOfWord (w : Word) : List Byte := [opField w, field2 w, field1 w, field0 w]

/-- Decode the first instruction of a list of bytes: every instruction is four bytes long (30 R200). -/
def decodeBytes (bs : List Byte) : Except DecodeError (Instr × List Byte) :=
  match bs with
  | b0 :: b1 :: b2 :: b3 :: rest =>
    match decode (wordOfBytes b0 b1 b2 b3) with
    | .ok i => .ok (i, rest)
    | .error e => .error e
  | _ => .error .truncated

/-- An instruction word from its four fields (30 R201). -/
def word (op f2 f1 f0 : BitVec 8) : Word := op ++ f2 ++ f1 ++ f0

/-- Bits 7-0 of an instruction with an `RB or I` operand (30 R204). -/
def Src2.field (b : Src2) : BitVec 8 :=
  match b with
  | .reg rb => rb
  | .imm i => i

/-- The opcode of an instruction with an M bit: `base` is the M = 0 form (30 R204). -/
def opM (base : BitVec 8) (b : Src2) : BitVec 8 :=
  match b with
  | .reg _ => base
  | .imm _ => base ||| 1#8

/-- The opcode of an instruction with an A bit: `base` is the A = 0 form (30 R203). -/
def opA (base : BitVec 8) (a : Bool) : BitVec 8 := if a then base ||| 1#8 else base

/-- High byte of a 16-bit constant, bits 23-16 of the instruction (30 R206, R207). -/
def hi (i16 : BitVec 16) : BitVec 8 := i16.extractLsb' 8 8

/-- Low byte of a 16-bit constant, bits 7-0 of the instruction (30 R206, R207). -/
def lo (i16 : BitVec 16) : BitVec 8 := i16.extractLsb' 0 8

/-- The word of an instruction, reserved fields zero (30 R205, R212). -/
def encode (i : Instr) : Word :=
  match i with
  | .add rc ra rb => word (opM 0x14#8 rb) rc ra rb.field
  | .adds rc ra rb => word (opM 0x10#8 rb) rc ra rb.field
  | .addu rc ra rb => word (opM 0x12#8 rb) rc ra rb.field
  | .addc rc ra rb => word (opM 0x1C#8 rb) rc ra rb.field
  | .addcs rc ra rb => word (opM 0x18#8 rb) rc ra rb.field
  | .addcu rc ra rb => word (opM 0x1A#8 rb) rc ra rb.field
  | .sub rc ra rb => word (opM 0x24#8 rb) rc ra rb.field
  | .subs rc ra rb => word (opM 0x20#8 rb) rc ra rb.field
  | .subu rc ra rb => word (opM 0x22#8 rb) rc ra rb.field
  | .subc rc ra rb => word (opM 0x2C#8 rb) rc ra rb.field
  | .subcs rc ra rb => word (opM 0x28#8 rb) rc ra rb.field
  | .subcu rc ra rb => word (opM 0x2A#8 rb) rc ra rb.field
  | .subr rc ra rb => word (opM 0x34#8 rb) rc ra rb.field
  | .subrs rc ra rb => word (opM 0x30#8 rb) rc ra rb.field
  | .subru rc ra rb => word (opM 0x32#8 rb) rc ra rb.field
  | .subrc rc ra rb => word (opM 0x3C#8 rb) rc ra rb.field
  | .subrcs rc ra rb => word (opM 0x38#8 rb) rc ra rb.field
  | .subrcu rc ra rb => word (opM 0x3A#8 rb) rc ra rb.field
  | .mul rc ra rb => word (opM 0x64#8 rb) rc ra rb.field
  | .mull rc ra rb => word (opM 0x66#8 rb) rc ra rb.field
  | .multiply rc ra rb => word 0xE0#8 rc ra rb
  | .divide rc ra rb => word 0xE1#8 rc ra rb
  | .mulu rc ra rb => word (opM 0x74#8 rb) rc ra rb.field
  | .div0 rc rb => word (opM 0x68#8 rb) rc 0#8 rb.field
  | .div rc ra rb => word (opM 0x6A#8 rb) rc ra rb.field
  | .divl rc ra rb => word (opM 0x6C#8 rb) rc ra rb.field
  | .divrem rc ra rb => word (opM 0x6E#8 rb) rc ra rb.field
  | .cpeq rc ra rb => word (opM 0x60#8 rb) rc ra rb.field
  | .cpneq rc ra rb => word (opM 0x62#8 rb) rc ra rb.field
  | .cplt rc ra rb => word (opM 0x40#8 rb) rc ra rb.field
  | .cpltu rc ra rb => word (opM 0x42#8 rb) rc ra rb.field
  | .cple rc ra rb => word (opM 0x44#8 rb) rc ra rb.field
  | .cpleu rc ra rb => word (opM 0x46#8 rb) rc ra rb.field
  | .cpgt rc ra rb => word (opM 0x48#8 rb) rc ra rb.field
  | .cpgtu rc ra rb => word (opM 0x4A#8 rb) rc ra rb.field
  | .cpge rc ra rb => word (opM 0x4C#8 rb) rc ra rb.field
  | .cpgeu rc ra rb => word (opM 0x4E#8 rb) rc ra rb.field
  | .cpbyte rc ra rb => word (opM 0x2E#8 rb) rc ra rb.field
  | .aseq vn ra rb => word (opM 0x70#8 rb) vn ra rb.field
  | .asneq vn ra rb => word (opM 0x72#8 rb) vn ra rb.field
  | .aslt vn ra rb => word (opM 0x50#8 rb) vn ra rb.field
  | .asltu vn ra rb => word (opM 0x52#8 rb) vn ra rb.field
  | .asle vn ra rb => word (opM 0x54#8 rb) vn ra rb.field
  | .asleu vn ra rb => word (opM 0x56#8 rb) vn ra rb.field
  | .asgt vn ra rb => word (opM 0x58#8 rb) vn ra rb.field
  | .asgtu vn ra rb => word (opM 0x5A#8 rb) vn ra rb.field
  | .asge vn ra rb => word (opM 0x5C#8 rb) vn ra rb.field
  | .asgeu vn ra rb => word (opM 0x5E#8 rb) vn ra rb.field
  | .and rc ra rb => word (opM 0x90#8 rb) rc ra rb.field
  | .andn rc ra rb => word (opM 0x9C#8 rb) rc ra rb.field
  | .nand rc ra rb => word (opM 0x9A#8 rb) rc ra rb.field
  | .or rc ra rb => word (opM 0x92#8 rb) rc ra rb.field
  | .nor rc ra rb => word (opM 0x98#8 rb) rc ra rb.field
  | .xor rc ra rb => word (opM 0x94#8 rb) rc ra rb.field
  | .xnor rc ra rb => word (opM 0x96#8 rb) rc ra rb.field
  | .sll rc ra rb => word (opM 0x80#8 rb) rc ra rb.field
  | .srl rc ra rb => word (opM 0x82#8 rb) rc ra rb.field
  | .sra rc ra rb => word (opM 0x86#8 rb) rc ra rb.field
  | .extract rc ra rb => word (opM 0x7A#8 rb) rc ra rb.field
  | .load ctl ra rb => word (opM 0x16#8 rb) ctl ra rb.field
  | .loadl ctl ra rb => word (opM 0x06#8 rb) ctl ra rb.field
  | .loadset ctl ra rb => word (opM 0x26#8 rb) ctl ra rb.field
  | .store ctl ra rb => word (opM 0x1E#8 rb) ctl ra rb.field
  | .storel ctl ra rb => word (opM 0x0E#8 rb) ctl ra rb.field
  | .loadm ctl ra rb => word (opM 0x36#8 rb) ctl ra rb.field
  | .storem ctl ra rb => word (opM 0x3E#8 rb) ctl ra rb.field
  | .exbyte rc ra rb => word (opM 0x0A#8 rb) rc ra rb.field
  | .exhw rc ra rb => word (opM 0x7C#8 rb) rc ra rb.field
  | .exhws rc ra => word 0x7E#8 rc ra 0#8
  | .inbyte rc ra rb => word (opM 0x0C#8 rb) rc ra rb.field
  | .inhw rc ra rb => word (opM 0x78#8 rb) rc ra rb.field
  | .mfsr rc sa => word 0xC6#8 rc sa 0#8
  | .mtsr sa rb => word 0xCE#8 0#8 sa rb
  | .mtsrim sa i16 => word 0x04#8 (hi i16) sa (lo i16)
  | .mftlb rc ra => word 0xB6#8 rc ra 0#8
  | .mttlb ra rb => word 0xBE#8 0#8 ra rb
  | .const ra i16 => word 0x03#8 (hi i16) ra (lo i16)
  | .consth ra i16 => word 0x02#8 (hi i16) ra (lo i16)
  | .constn ra i16 => word 0x01#8 (hi i16) ra (lo i16)
  | .fadd rc ra rb => word 0xF0#8 rc ra rb
  | .dadd rc ra rb => word 0xF1#8 rc ra rb
  | .fsub rc ra rb => word 0xF2#8 rc ra rb
  | .dsub rc ra rb => word 0xF3#8 rc ra rb
  | .fmul rc ra rb => word 0xF4#8 rc ra rb
  | .dmul rc ra rb => word 0xF5#8 rc ra rb
  | .fdiv rc ra rb => word 0xF6#8 rc ra rb
  | .ddiv rc ra rb => word 0xF7#8 rc ra rb
  | .feq rc ra rb => word 0xEA#8 rc ra rb
  | .deq rc ra rb => word 0xEB#8 rc ra rb
  | .flt rc ra rb => word 0xEE#8 rc ra rb
  | .dlt rc ra rb => word 0xEF#8 rc ra rb
  | .fgt rc ra rb => word 0xEC#8 rc ra rb
  | .dgt rc ra rb => word 0xED#8 rc ra rb
  | .cvintf rc ra => word 0xE4#8 rc ra 0#8
  | .cvintd rc ra => word 0xE5#8 rc ra 0#8
  | .cvfint rc ra => word 0xE6#8 rc ra 0#8
  | .cvdint rc ra => word 0xE7#8 rc ra 0#8
  | .cvfd rc ra => word 0xE8#8 rc ra 0#8
  | .cvdf rc ra => word 0xE9#8 rc ra 0#8
  | .jmp a i16 => word (opA 0xA0#8 a) (hi i16) 0#8 (lo i16)
  | .jmpi rb => word 0xC0#8 0#8 0#8 rb
  | .jmpt a ra i16 => word (opA 0xAC#8 a) (hi i16) ra (lo i16)
  | .jmpf a ra i16 => word (opA 0xA4#8 a) (hi i16) ra (lo i16)
  | .jmpti ra rb => word 0xCC#8 0#8 ra rb
  | .jmpfi ra rb => word 0xC4#8 0#8 ra rb
  | .jmpfdec a ra i16 => word (opA 0xB4#8 a) (hi i16) ra (lo i16)
  | .call a ra i16 => word (opA 0xA8#8 a) (hi i16) ra (lo i16)
  | .calli ra rb => word 0xC8#8 0#8 ra rb
  | .clz rc rb => word (opM 0x08#8 rb) rc 0#8 rb.field
  | .setip rc ra rb => word 0x9E#8 rc ra rb
  | .emulate vn ra rb => word 0xF8#8 vn ra rb
  | .inv => word 0x9F#8 0#8 0#8 0#8
  | .iret => word 0x88#8 0#8 0#8 0#8
  | .iretinv => word 0x8C#8 0#8 0#8 0#8
  | .halt => word 0x89#8 0#8 0#8 0#8

/-- What the decoder reads from an instruction whose bits, numbered from the least significant bit of its one 32-bit
word, are `w`: the word is laid out as memory holds it and the bytes are decoded. -/
def decodeTableWord (nbits w : Nat) : Option Instr :=
  match decodeBytes (bytesOfWord (BitVec.ofNat 32 (w % 2 ^ nbits))) with
  | .ok (i, _) => some i
  | .error _ => none

end Sys2Proof
end

