-- ==== Sys2Proof/Config.lean ====
section
/-! DEFINITION. What the spec leaves to the system around the processor, and the free values: what it leaves open (92, 93). -/

namespace Sys2Proof

/-- The three register-field positions of an instruction (10 R36). -/
inductive Field where
  | A | B | C
deriving DecidableEq, Repr

/-- Where a free value is used. Two uses at one value of the clock are told apart by their site. -/
inductive Site where
  /-- read of an unimplemented register through a field (93 U1, U3) -/
  | gpr (f : Field)
  /-- Stack Pointer shadow that is not valid (93 U2) -/
  | sps (f : Field)
  /-- Stack Pointer: old or new (93 U4) -/
  | spsPick (f : Field)
  /-- indirect pointer: old or new (93 U5) -/
  | ipPick (f : Field)
  /-- page size of an instruction-side translation: old or new (93 U6) -/
  | psPickFetch
  /-- page size of a data-side translation: old or new (93 U6) -/
  | psPickData
  /-- page size for the target of a branch: that before the write in whose window the branch was executed, or not (93 U6) -/
  | psPickTarget
  /-- read of an unimplemented special-purpose register (93 U7) -/
  | spr
  /-- `CHD` after a load is recorded (93 U8) -/
  | chdLoad
  /-- which of two unequal Usage bits a miss consults (93 U9) -/
  | usage (fetch : Bool)
  /-- a register after a `*RESET` in the middle of a run (93 U10) -/
  | resetReg (k : Nat)
  /-- whether a store in flight at a `*RESET` reached memory (92 D28) -/
  | resetStore
  /-- `LRU` after a memory-protection violation (93 U11) -/
  | lruProt (fetch : Bool)
  /-- which of two matching TLB entries is used (93 U12) -/
  | twoMatch (fetch : Bool)
  /-- `CHC.CR` after a completed multiple sequence (93 U22) -/
  | crAfter
  /-- channel registers after a Protection Violation inside a multiple sequence (93 U23) -/
  | multProt (k : Nat)
  /-- indirect pointer of an operand the instruction does not have (93 U24) -/
  | pointer
  /-- word answered by an input/output device (92 D1) -/
  | ioData
  /-- word answered by a coprocessor (92 D4) -/
  | copData
  /-- word held by the Branch Target Cache since before a Reset (10 R86) -/
  | cacheWord
  /-- whether a trap of priority 2 or 3 falls together with the `*WARN` or `*RESET` of the next sample (60 R547, R580) -/
  | trapLost
deriving DecidableEq, Repr

/-- The free values: what a register, a flag or a choice is where the spec says that it is unpredictable.
It has no body, so nothing can be proved of it; the first argument is the model's clock (entry 10). -/
opaque Config.freeWord : Nat → Site → Word

/-- What external hardware for narrow accesses, parameter `NARROW_ACCESS_HW`, puts on the Data Bus for a load: of the OPT
field, the two low address bits and the word in memory. The spec gives no lanes (92 D3); it has no body (entry 38). -/
opaque Config.narrowRead : BitVec 3 → BitVec 2 → Word → Word

/-- The word that such hardware leaves in memory for a store: of the OPT field, the two low address bits, the word in memory
and the word stored (92 D3; entry 38). -/
opaque Config.narrowWrite : BitVec 3 → BitVec 2 → Word → Word → Word

/-- The parameters of 00 R7 that the manual leaves to the system, or to a lost figure, and that stay as they are for a run. -/
structure System where
  /-- `ROM_AS_DATA`: a load or store with OPT = 100 and AS = 0 reaches the instruction ROM (20 R137, 92 D2) -/
  romAsData : Bool
  /-- `NARROW_ACCESS_HW`: hardware outside the processor honours OPT (20 R136, 92 D3) -/
  narrow : Bool
  /-- `VECTOR_R_BIT`: position of the R bit in a vector table entry (60 R562, 92 D5, 93 K1) -/
  vectorRBit : Fin 2
  /-- `CPS_TRAP_IMAGE`, the bits written; read through `State.trapImage` (60 R563, 92 D6, 93 K2) -/
  trapMask : Word
  /-- `CPS_TRAP_IMAGE`, their values -/
  trapValue : Word
  /-- `CPS_RESET_IMAGE`; read through `State.resetCps` (70 R631, 92 D7, 93 K2) -/
  resetImage : Word
deriving DecidableEq, Repr

/-- The defaults of 92 D2, D3, D5, D6 and D7, which `State.reset` takes: ROM as data, no hardware for narrow accesses, the
R bit at 0, and the two images of `CPS`. DESIGN CHOICE and PRESUMED (entries 1, 2, 3, 7), unsafe for a run from reset. -/
def System.default : System :=
  { romAsData := true, narrow := false, vectorRBit := 0, trapMask := 0x3FF3#32, trapValue := 0x0473#32,
    resetImage := 0x0573#32 }

end Sys2Proof
end

