-- ==== Sys2Proof/Machine/State.lean ====
section
/-! DEFINITION. The machine's state as plain data (10 R30 to R86), its faults and refusals, and the state after Reset. -/

namespace Sys2Proof.Machine

/-- Why the machine stops with a fault. -/
inductive Fault where
  /-- The system answered the fetch of an interrupt or trap vector with `*DERR` (60 R565, 92 D18).
  Raised by the taking of an interrupt or trap. Safe: the spec gives the processor no behaviour there. -/
  | vectorFetchError
  /-- `CNTL0-CNTL1` made a transition the spec calls unpredictable (60 R615, 93 U26).
  Raised by a step, before anything executes. Safe. -/
  | cntlTransition
  /-- `CNTL0-CNTL1` are 00 after `*RESET` or `*WARN` (70 R632, 60 R580, 93 U19). Raised by a step. Safe. -/
  | cntlAtStart
deriving DecidableEq, Repr

/-- Why the machine refuses to go on. -/
inductive Refusal where
  /-- An instruction that has no meaning yet. Raised by an arm of `exec`. Safe. -/
  | notModelled (mnemonic : String)
  /-- A trap of class (c) occurred while `CPS.DA` is 1 (60 R553, 93 U25): the spec gives no completion.
  Raised by the instruction that causes the trap of vector `vn`, or by its fetch. Safe. -/
  | disabledTrap (vn : Byte)
  /-- A load or store while `CHC` is not frozen and its ML was set by a move to special register (44 R389, 93 U14). Safe. -/
  | multipleSetByMove
  /-- `LOADM` or `STOREM` while `CPS.FZ` is 1 (44 R389, 93 U15). Safe. -/
  | multipleFrozen
  /-- `LOADM` or `STOREM` immediately after another (44 R389, 93 U16). Safe. -/
  | multipleAdjacent
  /-- One of the four instructions that Load Test Instruction mode excludes (60 R614). Safe. -/
  | excludedFromTest
deriving DecidableEq, Repr

/-- A value whose last write is not certainly visible to the instruction after the writer (10 R39). -/
structure Delayed (α : Type) where
  /-- the value -/
  now : α
  /-- the value before the last write -/
  old : α
  /-- instructions that have still to retire before the last write is certainly visible, the writer among them:
  1 during the instruction that follows the writer (70 R655, R656) -/
  age : Nat
deriving DecidableEq, Repr

/-- The external access in flight: the descriptor of 20 R132 and what completes it (20 R144, R147). -/
structure Access where
  /-- bits 23-16 of the instruction: CE, AS or TC, PA or SA, SB, UA, OPT (30 R208) -/
  ctl : BitVec 8
  /-- a read -/
  isLoad : Bool
  /-- the access is of a `LOADSET` (20 R162) -/
  set : Bool
  /-- the access is of a `LOADL` or `STOREL` -/
  la : Bool
  /-- performed in User mode (20 R132) -/
  user : Bool
  /-- `*LOCK` is active (20 R163) -/
  lock : Bool
  /-- absolute number of the load target or of the data register -/
  tr : RegNum
  /-- address as the instruction gave it -/
  addr : Word
  /-- address after translation -/
  pa : Word
  /-- PGM bits of the TLB entry used (20 R132) -/
  pgm : BitVec 2
  /-- word stored -/
  data : Word
  /-- the load target has been overwritten since (20 R146) -/
  discard : Bool
  /-- instructions that may still execute before the access completes (92 D10) -/
  left : Nat
deriving DecidableEq, Repr

/-- The operating modes that the model tells apart (60 R611). Wait mode is `CPS.WM` (60 R610); Pipeline Hold that ends and
Test mode change no state (60 R616). -/
inductive Mode where
  /-- Executing or Wait -/
  | executing
  /-- the first fetch after `*RESET` or `*WARN` is pending: `CNTL0-CNTL1` are looked at when it completes (70 R632) -/
  | starting
  /-- Pipeline Hold for a response that never comes: only `*WARN` and `*RESET` end it (70 R650) -/
  | held
  | halt
  | step
  | loadTest
  | reset
deriving DecidableEq, Repr

/-- The value of `CNTL0-CNTL1` (60 R615). -/
inductive Cntl where
  /-- 00 -/
  | loadTest
  /-- 01 -/
  | step
  /-- 10 -/
  | halt
  /-- 11 -/
  | normal
deriving DecidableEq, Repr

/-- The input pins, `true` = active. -/
structure Pins where
  /-- bit i is `*INTRi` (60 R542) -/
  intr : BitVec 4
  trap0 : Bool
  trap1 : Bool
  warn : Bool
  reset : Bool
  cntl : Cntl
  /-- what a hardware-development system drives on the Instruction Bus (60 R614) -/
  bus : Word
deriving DecidableEq, Repr

/-- How the system responds to an access: with `*DRDY`, `*CDA` or `*IRDY`, with `*DERR` or `*IERR`, or never (20 R144,
70 R650). -/
inductive Answer where
  | ready
  | error
  | never
deriving DecidableEq, Repr

/-- What the system does at one instruction fetch (entry 9). -/
structure FetchChoice where
  /-- the response; an error is `*IERR` (20 R166) -/
  answer : Answer
  /-- the prefetch stream still runs under the old mapping (20 R161) -/
  oldStream : Bool
  /-- 0: the word memory holds; k + 1: the k-th hidden copy (20 R176, R177) -/
  copy : Nat
deriving DecidableEq, Repr

/-- What the environment will do (00 R7, 92 D1, D9, D10, D11; entry 9). An exhausted list gives the default. -/
structure Env where
  /-- pin samples to come; default: the pins keep their levels -/
  events : List Pins
  /-- for each access started, how many instructions may execute before it completes; default 0 -/
  latency : List Nat
  /-- clock cycles less one of each step; default 0, one cycle -/
  cycles : List Nat
  /-- for each data access or vector fetch, the response, an error being `*DERR`; default `*DRDY` -/
  answers : List Answer
  /-- for each instruction fetch; default: no error, current mapping, current word -/
  fetches : List FetchChoice
deriving DecidableEq, Repr

/-- An older content of a word of instruction/data memory (20 R170, R176). -/
structure OldWord where
  /-- word address in instruction/data memory -/
  addr : IAddr
  word : Word
  /-- when it was overwritten -/
  time : Nat
deriving DecidableEq, Repr

/-- What an older instruction fetch went by (20 R173, R177). -/
structure OldMap where
  /-- `CPS.RE` was 1: the space of the tag -/
  rom : Bool
  /-- `CPS.SM` was 0: the mode of the tag -/
  user : Bool
  /-- `CPS.PI` was 0 -/
  translated : Bool
  tlb : Vector Word 128
  mmu : Word
  /-- when it was changed -/
  time : Nat
deriving DecidableEq, Repr

/-- Where the instruction prefetch stream stands (20 R161). -/
structure Stream where
  /-- the address it serves next -/
  va : IAddr
  /-- in instruction ROM -/
  rom : Bool
  /-- the physical word address -/
  pa : IAddr
  /-- a branch has been taken: the delay instruction is the last one it serves -/
  ending : Bool
deriving DecidableEq, Repr

/-- What of a block of the Branch Target Cache the present sequential run may still be served from (20 R173): the fetch that
began the run found it, or it found none. -/
structure Block where
  /-- instructions that it may still serve: four from the target on, none where `CFG.CD` was in force as 1 -/
  left : Nat
  /-- the space of its tag is the instruction ROM -/
  rom : Bool
  /-- the mode of its tag is User -/
  user : Bool
deriving DecidableEq, Repr

/-- The state of the machine. -/
structure State where
  /-- absolute registers 64 to 255; index = number - 64 (10 R31) -/
  gpr : Vector Word 192
  /-- Global Register 1, the Stack Pointer (10 R32) -/
  gr1 : Word
  /-- Stack Pointer shadow, `none` = not valid (10 R34) -/
  sps : Delayed (Option (BitVec 7))
  /-- address of the instruction being executed (10 R33) -/
  pc : IAddr
  /-- address of the next instruction (10 R33) -/
  npc : IAddr
  /-- address of the previous instruction (10 R33) -/
  ppc : IAddr
  /-- Vector Area Base Address (10 R42) -/
  vab : Word
  /-- Old Processor Status (10 R43) -/
  ops : Word
  /-- Current Processor Status, but IP, which is computed (10 R44, R46) -/
  cps : Word
  /-- Configuration (10 R57) -/
  cfg : Word
  /-- Channel Address (10 R62) -/
  cha : Word
  /-- Channel Data (10 R63) -/
  chd : Word
  /-- Channel Control (10 R64) -/
  chc : Word
  /-- Register Bank Protect (10 R67) -/
  rbp : Word
  /-- Timer Counter (10 R68) -/
  tmc : Word
  /-- Timer Reload (10 R69) -/
  tmr : Word
  /-- Program Counter 0, while frozen (10 R70, R71) -/
  pc0 : Word
  /-- Program Counter 1, while frozen -/
  pc1 : Word
  /-- Program Counter 2, while frozen -/
  pc2 : Word
  /-- MMU Configuration; only PS is delayed (10 R72, R39) -/
  mmu : Delayed Word
  /-- 2 after a taken branch that was executed while PS was not certainly visible, 1 once its delay instruction has
  retired: the branch's target is translated under the old or the new page size (10 R39, 93 U6) -/
  psTarget : Nat
  /-- PS before the write in whose window that branch was executed -/
  psBefore : BitVec 2
  /-- LRU Recommendation (10 R73) -/
  lru : Word
  /-- pointer field of Indirect Pointer C (10 R74) -/
  ipc : Delayed RegNum
  /-- pointer field of Indirect Pointer A -/
  ipa : Delayed RegNum
  /-- pointer field of Indirect Pointer B -/
  ipb : Delayed RegNum
  /-- Q (10 R75) -/
  q : Word
  /-- ALU Status (10 R76) -/
  alu : Word
  /-- the 128 TLB registers (10 R80) -/
  tlb : Vector Word 128
  /-- instruction/data memory (20 R130, R139) -/
  idm : List Host.Cell
  /-- instruction ROM (20 R130, R139) -/
  rom : List Host.Cell
  /-- the external access in flight (10 R84, 20 R144) -/
  inflight : Option Access
  /-- vector of a `*DERR` trap that occurred while the channel registers were frozen (20 R165, 60 R547 (a)) -/
  derr : Option Byte
  /-- operating mode (10 R84) -/
  mode : Mode
  /-- levels of the inputs (10 R84) -/
  pins : Pins
  /-- latched `*WARN` edge (60 R580) -/
  warnPending : Bool
  /-- instruction register as loaded by Load Test Instruction mode (60 R614) -/
  ir : Word
  /-- `ir` is marked as having valid content -/
  irValid : Bool
  /-- the instruction being executed came from `ir` -/
  testing : Bool
  /-- an `INV` waits for the next taken branch (48 R504) -/
  invPending : Bool
  /-- `CFG.CD` in force (10 R61, R84) -/
  cdInForce : Bool
  /-- what the Branch Target Cache may serve to the present run (20 R173) -/
  block : Block
  /-- the fetch at `pc` is a non-sequential one that has still to be made: when it was asked for (20 R171, R172) -/
  turn : Option Nat
  /-- the same for the fetch at `npc` -/
  nextTurn : Option Nat
  /-- when the last non-sequential fetch that has been made was asked for (20 R176) -/
  lastNonseq : Nat
  /-- when the Branch Target Cache was last invalidated (20 R174, R175) -/
  cacheSince : Nat
  /-- the Branch Target Cache may hold words from before Reset (10 R86) -/
  cacheUndefined : Bool
  /-- older contents of instruction words that a hidden copy may still hold (10 R83, 20 R176) -/
  oldWords : List OldWord
  /-- older mappings that a hidden copy may have been made under (20 R177) -/
  oldMaps : List OldMap
  /-- instruction prefetch stream (10 R83, 20 R161) -/
  stream : Option Stream
  /-- the previous instruction was `LOADM` or `STOREM` (44 R389) -/
  afterMultiple : Bool
  /-- `CHC.ML` was last set by a move to special register, and no interrupt return has resumed its sequence (44 R389, 93 U14) -/
  mlByMove : Bool
  /-- the parameters of the system (00 R7) -/
  sys : System
  /-- the model's own clock: time stamp, and index of the free values (entry 10) -/
  clock : Nat
  /-- the environment (entry 9) -/
  env : Env
deriving DecidableEq, Repr

/-- The outcome of a step or of an instruction. -/
abbrev Result := Host.Outcome State Fault Refusal

/-- A delayed value that nothing has written for long. -/
def Delayed.settled {α : Type} (v : α) : Delayed α := { now := v, old := v, age := 0 }

/-- The inputs with nothing asserted and `CNTL0-CNTL1` = 11 (92 D8, D9). -/
def Pins.idle : Pins :=
  { intr := 0#4, trap0 := false, trap1 := false, warn := false, reset := false, cntl := .normal, bus := 0#32 }

/-- An environment that always takes the defaults of 92 D1, D9, D10 and D11. -/
def Env.default : Env := { events := [], latency := [], cycles := [], answers := [], fetches := [] }

/-- The machine right after Reset, `CNTL0-CNTL1` = 11: 10 R86, 70 R630 to R632. Registers the spec leaves undefined
hold 0 (entry 4, DESIGN CHOICE, unsafe); `CPS` is the Reset image (entry 3, PRESUMED, unsafe); the parameters of the
system are the defaults of 92, and the memories list nothing (entries 5, 7, 33, DESIGN CHOICE, unsafe). -/
def State.reset : State :=
  { gpr := Vector.replicate 192 0#32
    gr1 := 0#32
    sps := .settled none
    pc := 0#30
    npc := 1#30
    ppc := 0#30
    vab := 0#32
    ops := 0#32
    cps := System.default.resetImage
    cfg := 1#32
    cha := 0#32
    chd := 0#32
    chc := 0#32
    rbp := 0#32
    tmc := 0#32
    tmr := 0#32
    pc0 := 0#32
    pc1 := 0#32
    pc2 := 0#32
    mmu := .settled 0#32
    psTarget := 0
    psBefore := 0#2
    lru := 0#32
    ipc := .settled 0#8
    ipa := .settled 0#8
    ipb := .settled 0#8
    q := 0#32
    alu := 0#32
    tlb := Vector.replicate 128 0#32
    idm := []
    rom := []
    inflight := none
    derr := none
    mode := .executing
    pins := .idle
    warnPending := false
    ir := 0#32
    irValid := false
    testing := false
    invPending := false
    cdInForce := true
    block := { left := 0, rom := true, user := false }
    turn := none
    nextTurn := none
    lastNonseq := 0
    cacheSince := 0
    cacheUndefined := true
    oldWords := []
    oldMaps := []
    stream := none
    afterMultiple := false
    mlByMove := false
    sys := .default
    clock := 0
    env := .default }

end Sys2Proof.Machine
end

