-- ==== Sys2Proof/Machine/Bits.lean ====
section
/-! DEFINITION. Bit positions and fields of words (10 R42 to R78, 20 R131). -/

namespace Sys2Proof.Machine

/-- Bit `i` of `w` replaced by `b`. -/
def putBit (w : Word) (i : Nat) (b : Bool) : Word :=
  if b then w ||| (1#32 <<< i) else w &&& ~~~(1#32 <<< i)

/-- The `n` bits of `w` from bit `i` up replaced by `v`. -/
def putField (w : Word) (i : Nat) {n : Nat} (v : BitVec n) : Word :=
  (w &&& ~~~((BitVec.allOnes n).setWidth 32 <<< i)) ||| (v.setWidth 32 <<< i)

/-- A Boolean as the processor writes it: only bit 31 is significant (00 R12, 41 R290). -/
def boolWord (b : Bool) : Word := if b then 0x80000000#32 else 0#32

/-- Whether a word is a Boolean TRUE (00 R12). -/
def isTrue (w : Word) : Bool := w.getLsbD 31

/-- The byte address of a word address (10 R33). -/
def byteAddr (a : IAddr) : Word := a ++ 0#2

/-- The word address of a byte address: bits 1-0 dropped (20 R135). -/
def wordAddr (a : Word) : IAddr := a.extractLsb' 2 30

/-- The one-bit value of a Boolean. -/
def bitOf (b : Bool) : BitVec 1 := BitVec.ofBool b

-- bits of CPS and OPS (10 R44)
def cpsCA : Nat := 15
def cpsIP : Nat := 14
def cpsTE : Nat := 13
def cpsTP : Nat := 12
def cpsTU : Nat := 11
def cpsFZ : Nat := 10
def cpsLK : Nat := 9
def cpsRE : Nat := 8
def cpsWM : Nat := 7
def cpsPD : Nat := 6
def cpsPI : Nat := 5
def cpsSM : Nat := 4
def cpsIM : Nat := 2
def cpsDI : Nat := 1
def cpsDA : Nat := 0

-- bits of CFG (10 R57)
def cfgVF : Nat := 4
def cfgRV : Nat := 3
def cfgBO : Nat := 2
def cfgCP : Nat := 1
def cfgCD : Nat := 0

-- bits of CHC (10 R64)
def chcCE : Nat := 31
def chcCR : Nat := 16
def chcLS : Nat := 15
def chcML : Nat := 14
def chcST : Nat := 13
def chcLA : Nat := 12
def chcTF : Nat := 10
def chcTR : Nat := 2
def chcNN : Nat := 1
def chcCV : Nat := 0

-- bits of TMR (10 R69)
def tmrOV : Nat := 26
def tmrIN : Nat := 25
def tmrIE : Nat := 24

-- bits of ALU Status (10 R76)
def aluDF : Nat := 11
def aluV : Nat := 10
def aluN : Nat := 9
def aluZ : Nat := 8
def aluC : Nat := 7
def aluBP : Nat := 5
def aluFC : Nat := 0

-- bits of the control field of a load or store, bits 23-16 of the instruction (30 R208)
def ctlCE : Nat := 7
/-- AS, or TC when CE = 1 -/
def ctlAS : Nat := 6
/-- PA, or SA when CE = 1 -/
def ctlPA : Nat := 5
def ctlSB : Nat := 4
def ctlUA : Nat := 3

-- bits of a TLB entry (10 R81, R82)
def tlbVE : Nat := 14
def tlbSR : Nat := 13
def tlbSW : Nat := 12
def tlbSE : Nat := 11
def tlbUR : Nat := 10
def tlbUW : Nat := 9
def tlbUE : Nat := 8
def tlbU : Nat := 1

/-- The Processor is frozen: `CPS.FZ`, bit 10 (10 R49). -/
def State.fz (s : State) : Bool := s.cps.getLsbD cpsFZ

/-- `CPS.DA`, bit 0 (10 R56). -/
def State.da (s : State) : Bool := s.cps.getLsbD cpsDA

/-- `ALU` and the channel registers do not follow execution: `CPS.FZ` = 1 (10 R49), or the instruction comes from the
Load Test Instruction mode (60 R614). -/
def State.frozen (s : State) : Bool := s.fz || s.testing

/-- The instruction being executed has access to protected state: `CPS.SM` = 1 (10 R54), or it comes from the Load Test
Instruction mode (60 R614). -/
def State.supervisor (s : State) : Bool := s.cps.getLsbD cpsSM || s.testing

/-- A free value of the machine at this moment (entry 10). -/
def State.free (s : State) (site : Site) : Word := Config.freeWord s.clock site

/-- A free bit. -/
def State.freeBit (s : State) (site : Site) : Bool := (s.free site).getLsbD 0

end Sys2Proof.Machine
end

