-- ==== Sys2Proof/Machine/Flags.lean ====
section
/-! DEFINITION. The add of the Integer Arithmetic class and the status bits (40 R240, R241, 42 R330, 10 R76). -/

namespace Sys2Proof.Machine

/-- What an add gives (40 R240). -/
structure Sum where
  /-- the 32-bit result -/
  r : Word
  /-- carry out of bit 31 -/
  cout : Bool
  /-- two's-complement overflow -/
  v : Bool
deriving DecidableEq, Repr

/-- The sum of two words and a carry as a 33-bit value (40 R240). -/
def sum33 (x y : Word) (cin : Bool) : BitVec 33 := x.setWidth 33 + y.setWidth 33 + (bitOf cin).setWidth 33

/-- Carry into bit 31 of that sum (40 R240). -/
def carry31 (x y : Word) (cin : Bool) : Bool :=
  ((x.extractLsb' 0 31).setWidth 32 + (y.extractLsb' 0 31).setWidth 32 + (bitOf cin).setWidth 32).getLsbD 31

/-- `Add3(x, y, cin)` (40 R240). -/
def add3 (x y : Word) (cin : Bool) : Sum :=
  { r := (sum33 x y cin).extractLsb' 0 32
    cout := (sum33 x y cin).getLsbD 32
    v := carry31 x y cin ^^ (sum33 x y cin).getLsbD 32 }

/-- `ALU.C` (10 R77). -/
def State.carry (s : State) : Bool := s.alu.getLsbD aluC

/-- `ALU.DF` (10 R77). -/
def State.divideFlag (s : State) : Bool := s.alu.getLsbD aluDF

/-- `ALU.N` (10 R77). -/
def State.negative (s : State) : Bool := s.alu.getLsbD aluN

/-- `ALU.BP` (10 R77). -/
def State.bytePointer (s : State) : BitVec 2 := s.alu.extractLsb' aluBP 2

/-- `ALU.FC` (10 R77). -/
def State.funnelCount (s : State) : BitVec 5 := s.alu.extractLsb' aluFC 5

/-- `ALU` with V, N, Z and C replaced (40 R241). -/
def withVNZC (alu : Word) (v n z c : Bool) : Word :=
  putBit (putBit (putBit (putBit alu aluV v) aluN n) aluZ z) aluC c

/-- The flags rule of the Integer Arithmetic class: V, N and C from the add, Z from the word written; nothing while the
status register is frozen (40 R241). -/
def State.setVNZC (s : State) (sum : Sum) (w : Word) : State :=
  if s.frozen then s else { s with alu := withVNZC s.alu sum.v (sum.r.getLsbD 31) (w == 0#32) sum.cout }

/-- The flags rule of the Logical class: N and Z from the result (42 R330). -/
def State.setNZ (s : State) (w : Word) : State :=
  if s.frozen then s else { s with alu := putBit (putBit s.alu aluN (w.getLsbD 31)) aluZ (w == 0#32) }

/-- `ALU.DF`, unless frozen (40 R265 to R267). -/
def State.setDivideFlag (s : State) (df : Bool) : State :=
  if s.frozen then s else { s with alu := putBit s.alu aluDF df }

/-- `ALU.BP`, unless frozen (20 R138). -/
def State.setBytePointer (s : State) (bp : BitVec 2) : State :=
  if s.frozen then s else { s with alu := putField s.alu aluBP bp }

end Sys2Proof.Machine
end

