-- ==== Sys2Proof/Machine/Memory.lean ====
section
/-! DEFINITION. Memory as a list of cells in canonical form (20 R130, R139, R140). -/

namespace Sys2Proof.Machine

/-- A memory: addresses strictly rising, no cell equal to what an unlisted address reads as. -/
abbrev Memory := List Host.Cell

/-- What an unlisted address reads as (entry 5, DESIGN CHOICE, unsafe). -/
def Memory.unlisted : Byte := 0#8

/-- The byte at an address. -/
def Memory.read (m : Memory) (a : Nat) : Byte :=
  match m with
  | [] => Memory.unlisted
  | (b, v) :: t => if b = a then v else Memory.read t a

/-- The memory without a cell for address `a`. -/
def Memory.erase (m : Memory) (a : Nat) : Memory :=
  match m with
  | [] => []
  | (b, v) :: t => if b = a then Memory.erase t a else (b, v) :: Memory.erase t a

/-- A cell put before the first cell of a higher address. -/
def Memory.insert (m : Memory) (a : Nat) (v : Byte) : Memory :=
  match m with
  | [] => [(a, v)]
  | (b, x) :: t => if a < b then (a, v) :: (b, x) :: t else (b, x) :: Memory.insert t a v

/-- The memory with byte `v` at address `a`; writing what an unlisted address reads as removes the cell. -/
def Memory.write (m : Memory) (a : Nat) (v : Byte) : Memory :=
  if v = Memory.unlisted then Memory.erase m a else Memory.insert (Memory.erase m a) a v

/-- The canonical form: every address of the list is below 2^32, greater than `lo` where `lo` is given, and no cell holds
what an unlisted address reads as. -/
def Memory.wfFrom (lo : Option Nat) (m : Memory) : Bool :=
  match m with
  | [] => true
  | (a, v) :: t =>
    (match lo with
     | none => true
     | some b => decide (b < a)) && decide (a < 2 ^ 32) && decide (v ≠ Memory.unlisted) && Memory.wfFrom (some a) t

/-- The memory is in canonical form. -/
def Memory.wf (m : Memory) : Bool := Memory.wfFrom none m

/-- The byte address of the first byte of the word at word address `w`. -/
def wordBase (w : IAddr) : Nat := 4 * w.toNat

/-- The 32 bits of the word at word address `w`: bits 31-24 at the lowest address (entry 6). -/
def Memory.readWord (m : Memory) (w : IAddr) : Word :=
  wordOfBytes (Memory.read m (wordBase w)) (Memory.read m (wordBase w + 1)) (Memory.read m (wordBase w + 2))
    (Memory.read m (wordBase w + 3))

/-- The memory with all 32 bits of the word at word address `w` replaced (20 R140). -/
def Memory.writeWord (m : Memory) (w : IAddr) (v : Word) : Memory :=
  Memory.write
    (Memory.write (Memory.write (Memory.write m (wordBase w) (opField v)) (wordBase w + 1) (field2 v)) (wordBase w + 2)
      (field1 v))
    (wordBase w + 3) (field0 v)

end Sys2Proof.Machine
end

