-- ==== Sys2Proof/Machine/Regs.lean ====
section
/-! DEFINITION. General registers through their numbers (10 R31 to R39), and the special-purpose registers (10 R40 to R79). -/

namespace Sys2Proof.Machine

/-- The Stack Pointer shadow that a local register-number of field `f` is added to (10 R34, R36): any value when the
shadow is not valid (93 U2), the old or the new value right after a write of it (93 U4). -/
def State.spValue (s : State) (f : Field) : BitVec 7 :=
  match (if s.sps.age = 1 && s.freeBit (.spsPick f) then s.sps.old else s.sps.now) with
  | some v => v
  | none => (s.free (.sps f)).extractLsb' 0 7

/-- The indirect pointer of a register field (10 R36). -/
def State.pointer (s : State) (f : Field) : Delayed RegNum :=
  match f with
  | .A => s.ipa
  | .B => s.ipb
  | .C => s.ipc

/-- What an indirect pointer selects: the old or the new value right after a write of it (93 U5). -/
def State.pointerValue (s : State) (f : Field) : RegNum :=
  if (s.pointer f).age = 1 && s.freeBit (.ipPick f) then (s.pointer f).old else (s.pointer f).now

/-- `Abs(n, f)`: the absolute register-number of register-number `n` in field `f` (10 R36). -/
def State.absReg (s : State) (f : Field) (n : RegNum) : RegNum :=
  if n = 0#8 then s.pointerValue f
  else if n.getLsbD 7 then 1#1 ++ (n.extractLsb' 0 7 + s.spValue f)
  else n

/-- `Protected(a)`: the bank of absolute register `a` is protected from the program (10 R35). -/
def State.isProtected (s : State) (a : RegNum) : Bool :=
  !s.supervisor && decide (2 ≤ a.toNat) && s.rbp.getLsbD (a.toNat / 16)

/-- `GPR[a]` read through field `f`, protection and interlock apart (10 R37): any value where no register is
implemented (93 U1, U3). -/
def State.readReg (s : State) (f : Field) (a : RegNum) : Word :=
  if a = 1#8 then s.gr1
  else if a.toNat < 64 then s.free (.gpr f)
  else s.gpr[a.toNat - 64]?.getD 0#32

/-- `GPR[a] <- v`, protection and the load in flight apart (10 R38). `shadow`: the writer is of the Integer Arithmetic or
Logical class and so sets the Stack Pointer shadow. A write where no register is implemented is discarded
(93 U1, U3; entry 16). -/
def State.storeReg (s : State) (shadow : Bool) (a : RegNum) (v : Word) : State :=
  if a = 1#8 then
    { s with
      gr1 := v
      sps := if shadow then { now := some (v.extractLsb' 2 7), old := s.sps.now, age := 2 } else .settled none }
  else if a.toNat < 64 then s
  else { s with gpr := s.gpr.setIfInBounds (a.toNat - 64) v }

/-- The target of the load in flight is overwritten: its data will be dropped, and NN is set (20 R146). -/
def State.noteOverwrite (s : State) (a : RegNum) : State :=
  match s.inflight with
  | none => s
  | some d =>
    if d.isLoad && d.tr == a then
      { s with
        inflight := some { d with discard := true }
        chc := if s.frozen then s.chc else putBit s.chc chcNN true }
    else s

/-- The result of an instruction into absolute register `a` (10 R38, 20 R146). -/
def State.writeReg (s : State) (shadow : Bool) (a : RegNum) (v : Word) : State :=
  (s.noteOverwrite a).storeReg shadow a v

/-- `*INTRi` is enabled (10 R46, 60 R549). -/
def State.intrEnabled (s : State) (i : Nat) : Bool :=
  !s.da && !s.cps.getLsbD cpsDI && decide (i ≤ (s.cps.extractLsb' cpsIM 2).toNat)

/-- `CPS.IP`, computed at every read (10 R46). -/
def State.interruptPending (s : State) : Bool :=
  (s.pins.intr.getLsbD 0 && !s.intrEnabled 0) || (s.pins.intr.getLsbD 1 && !s.intrEnabled 1) ||
    (s.pins.intr.getLsbD 2 && !s.intrEnabled 2) || (s.pins.intr.getLsbD 3 && !s.intrEnabled 3)

/-- `CPS` as it is read, IP included (10 R44, R46). -/
def State.cpsView (s : State) : Word := putBit s.cps cpsIP s.interruptPending

/-- `PC0`: the live address while the registers follow execution, else what was captured (10 R71). -/
def State.pc0View (s : State) : Word := if s.fz then s.pc0 else byteAddr s.npc

/-- `PC1` (10 R71). -/
def State.pc1View (s : State) : Word := if s.fz then s.pc1 else byteAddr s.pc

/-- `PC2` (10 R71). -/
def State.pc2View (s : State) : Word := if s.fz then s.pc2 else byteAddr s.ppc

/-- The program counters are captured into `PC0`, `PC1`, `PC2` unless these are frozen (60 R561, R567). -/
def State.capturePcs (s : State) : State :=
  { s with pc0 := s.pc0View, pc1 := s.pc1View, pc2 := s.pc2View }

/-- The mapping in force is remembered, with the space and the mode that the tag of a block holds: a hidden copy of an
instruction may have been made under it (20 R173, R177). -/
def State.rememberMap (s : State) : State :=
  { s with
    oldMaps :=
      { rom := s.cps.getLsbD cpsRE, user := !s.cps.getLsbD cpsSM, translated := !s.cps.getLsbD cpsPI, tlb := s.tlb,
        mmu := s.mmu.now, time := s.clock } :: s.oldMaps }

/-- Instructions are fetched by `c` as by `d`: PI, SM and RE are the same (20 R141). -/
def sameFetch (c d : Word) : Bool :=
  c.getLsbD cpsPI == d.getLsbD cpsPI && c.getLsbD cpsSM == d.getLsbD cpsSM && c.getLsbD cpsRE == d.getLsbD cpsRE

/-- `CPS` replaced (10 R44), IP apart; a change of PI, SM or RE changes what fetches go by (20 R141, R177). -/
def State.setCps (s : State) (c : Word) : State :=
  let s' := if sameFetch c s.cps then s else s.rememberMap
  { s' with cps := putBit c cpsIP false }

/-- Special-purpose register `n` as `MFSR` reads it (10 R40 to R79, 44 R400): an unimplemented one reads as any value
(93 U7). -/
def State.readSpecial (s : State) (n : BitVec 8) : Word :=
  match n.toNat with
  | 0 => s.vab
  | 1 => s.ops
  | 2 => s.cpsView
  | 3 => s.cfg
  | 4 => s.cha
  | 5 => s.chd
  | 6 => s.chc
  | 7 => s.rbp
  | 8 => s.tmc
  | 9 => s.tmr
  | 10 => s.pc0View
  | 11 => s.pc1View
  | 12 => s.pc2View
  | 13 => s.mmu.now
  | 14 => s.lru
  | 128 => 0#22 ++ s.ipc.now ++ 0#2
  | 129 => 0#22 ++ s.ipa.now ++ 0#2
  | 130 => 0#22 ++ s.ipb.now ++ 0#2
  | 131 => s.q
  | 132 => s.alu
  | 133 => (s.alu.extractLsb' aluBP 2).setWidth 32
  | 134 => (s.alu.extractLsb' aluFC 5).setWidth 32
  | 135 => (s.chc.extractLsb' chcCR 8).setWidth 32
  | _ => s.free .spr

/-- A program counter register written by a move (44 R405): it keeps the value while `CPS.FZ` is 1; otherwise it follows
execution and the write is lost, except that an instruction of the Load Test Instruction mode sets the address itself
(60 R614; entry 37). -/
def State.writePc (s : State) (n : Nat) (v : Word) : State :=
  if s.fz then
    match n with
    | 0 => { s with pc0 := v }
    | 1 => { s with pc1 := v }
    | _ => { s with pc2 := v }
  else if s.testing then
    match n with
    | 0 => { s with npc := wordAddr v }
    | 1 => { s with pc := wordAddr v }
    | _ => { s with ppc := wordAddr v }
  else s

/-- A delayed value written (10 R39). -/
def Delayed.write {α : Type} (d : Delayed α) (v : α) : Delayed α := { now := v, old := d.now, age := 2 }

/-- `SPR[n] <- v` by `MTSR` or `MTSRIM` under the write masks of 10 R79, with the side effects of 44 R405. A write of an
unimplemented register has no effect. -/
def State.writeSpecial (s : State) (n : BitVec 8) (v : Word) : State :=
  match n.toNat with
  | 0 => { s with vab := v &&& 0xFFFF0000#32 }
  | 1 => { s with ops := v &&& 0x0000FFFF#32 }
  | 2 =>
    let s' := if v.getLsbD cpsFZ && !s.fz then s.capturePcs else s
    s'.setCps (v &&& 0x0000FFFF#32)
  | 3 => { s with cfg := v &&& 0x0000001F#32 }
  | 4 => { s with cha := v }
  | 5 => { s with chd := v }
  | 6 => { s with chc := v &&& 0xFFFFF7FF#32, mlByMove := v.getLsbD chcML }
  | 7 => { s with rbp := v &&& 0x0000FFFF#32 }
  | 8 => { s with tmc := v &&& 0x00FFFFFF#32 }
  | 9 => { s with tmr := v &&& 0x07FFFFFF#32 }
  | 10 => s.writePc 0 (v &&& 0xFFFFFFFC#32)
  | 11 => s.writePc 1 (v &&& 0xFFFFFFFC#32)
  | 12 => s.writePc 2 (v &&& 0xFFFFFFFC#32)
  | 13 =>
    let s' := if v &&& 0x000003FF#32 = s.mmu.now then s else s.rememberMap
    { s' with mmu := s.mmu.write (v &&& 0x000003FF#32) }
  | 14 => { s with lru := v &&& 0x0000007E#32 }
  | 128 => { s with ipc := s.ipc.write (v.extractLsb' 2 8) }
  | 129 => { s with ipa := s.ipa.write (v.extractLsb' 2 8) }
  | 130 => { s with ipb := s.ipb.write (v.extractLsb' 2 8) }
  | 131 => { s with q := v }
  | 132 => { s with alu := v &&& 0x00000FFF#32 }
  | 133 => { s with alu := putField s.alu aluBP (v.extractLsb' 0 2) }
  | 134 => { s with alu := putField s.alu aluFC (v.extractLsb' 0 5) }
  | 135 => { s with chc := putField s.chc chcCR (v.extractLsb' 0 8) }
  | _ => s

/-- Bits of TLB register `n` that are implemented: all of Word 0, not bits 9-8 and 5-2 of Word 1 (10 R81, R82). -/
def tlbMask (n : BitVec 7) : Word := if n.getLsbD 0 then 0xFFFFFCC3#32 else 0xFFFFFFFF#32

/-- TLB register `n` (10 R80). -/
def State.readTlb (s : State) (n : BitVec 7) : Word := s.tlb[n.toNat]?.getD 0#32

/-- TLB register `n` written by `MTTLB` (44 R404). -/
def State.writeTlb (s : State) (n : BitVec 7) (v : Word) : State :=
  let s' := if v &&& tlbMask n = s.readTlb n then s else s.rememberMap
  { s' with tlb := s.tlb.setIfInBounds n.toNat (v &&& tlbMask n) }

end Sys2Proof.Machine
end

