-- ==== Sys2Proof/Machine/Mmu.lean ====
section
/-! DEFINITION. Address translation and protection by the TLB (20 R150 to R157). -/

namespace Sys2Proof.Machine

/-- What an access asks of the page it touches (20 R153). -/
inductive Want where
  | fetch
  | load
  | store
  | loadset
deriving DecidableEq, Repr

/-- The result of a translation (20 R155). -/
inductive Translated where
  | ok (pa : Word) (pgm : BitVec 2) (s : State)
  | miss (s : State)
  | prot (s : State)

/-- Number of the TLB register that is word `w1` of the entry of set `set1` in a line (10 R80). -/
def tlbIndex (set1 : Bool) (line : BitVec 5) (w1 : Bool) : BitVec 7 := bitOf set1 ++ line ++ bitOf w1

/-- `MMU.PS` as a translation sees it: the old or the new value right after a write of it (93 U6). The fetch of the target of
a branch that was executed right after a write may use the value before that write too, though `MMU` has been written
again by the delay instruction since (10 R39, 70 R655; entry 11). -/
def State.pageSize (s : State) (want : Want) : BitVec 2 :=
  if want == .fetch && s.psTarget == 1 && s.freeBit .psPickTarget then s.psBefore
  else if s.mmu.age == 1 && s.freeBit (if want == .fetch then .psPickFetch else .psPickData) then
    s.mmu.old.extractLsb' 8 2
  else s.mmu.now.extractLsb' 8 2

/-- Bits of the page offset (20 R151). -/
def offsetBits (ps : BitVec 2) : Nat := 10 + ps.toNat

/-- The line a virtual address selects (20 R151). -/
def tlbLine (va : Word) (ps : BitVec 2) : BitVec 5 := va.extractLsb' (offsetBits ps) 5

/-- The entry of set `set1` in the line of `va` matches: tag, task identifier and valid bit (20 R151). The bits of VTAG that
the page size makes unused are ignored (93 U13; entry 13). -/
def State.tlbMatch (s : State) (va : Word) (ps : BitVec 2) (set1 : Bool) : Bool :=
  let w0 := s.readTlb (tlbIndex set1 (tlbLine va ps) false)
  (va >>> (offsetBits ps + 5) == w0 >>> (offsetBits ps + 5)) && (w0.extractLsb' 0 8 == s.mmu.now.extractLsb' 0 8) &&
    w0.getLsbD tlbVE

/-- The permissions of Word 0 allow the access in its mode (20 R153). -/
def allowed (w0 : Word) (want : Want) (user : Bool) : Bool :=
  match want, user with
  | .fetch, true => w0.getLsbD tlbUE
  | .fetch, false => w0.getLsbD tlbSE
  | .load, true => w0.getLsbD tlbUR
  | .load, false => w0.getLsbD tlbSR
  | .store, true => w0.getLsbD tlbUW
  | .store, false => w0.getLsbD tlbSW
  | .loadset, true => w0.getLsbD tlbUR && w0.getLsbD tlbUW
  | .loadset, false => w0.getLsbD tlbSR && w0.getLsbD tlbSW

/-- The physical address: bits of RPN above the page offset (20 R152). The bits of RPN that the page size makes unused are
ignored (93 U13; entry 13). -/
def physicalAddr (w1 va : Word) (ps : BitVec 2) : Word :=
  (w1 >>> offsetBits ps <<< offsetBits ps) ||| (va &&& ~~~(BitVec.allOnes 32 <<< offsetBits ps))

/-- Both Usage bits of a line set after a translation through set `set1`: the other set is now the least recently used
(20 R156). -/
def State.touchLine (s : State) (line : BitVec 5) (set1 : Bool) : State :=
  let n0 := tlbIndex false line true
  let n1 := tlbIndex true line true
  { s with
    tlb :=
      (s.tlb.setIfInBounds n0.toNat (putBit (s.readTlb n0) tlbU !set1)).setIfInBounds n1.toNat
        (putBit (s.readTlb n1) tlbU !set1) }

/-- The Usage bit that a miss in a line consults; where the two copies differ, either (20 R157, 93 U9). -/
def State.usage (s : State) (want : Want) (line : BitVec 5) : Bool :=
  let u0 := (s.readTlb (tlbIndex false line true)).getLsbD tlbU
  let u1 := (s.readTlb (tlbIndex true line true)).getLsbD tlbU
  if u0 = u1 then u0 else s.freeBit (.usage (want == .fetch))

/-- The set used: the one that matches; either where both do (20 R151, 93 U12; entry 12). -/
def State.matchingSet (s : State) (va : Word) (ps : BitVec 2) (want : Want) : Bool :=
  if s.tlbMatch va ps false && s.tlbMatch va ps true then s.freeBit (.twoMatch (want == .fetch))
  else s.tlbMatch va ps true

/-- `Translate(va, kind, mode)` (20 R155). A miss recommends an entry in `LRU` (20 R157); a valid translation sets the Usage
bits (20 R156), and one whose protection check fails leaves any value in `LRU` (93 U11). -/
def State.translate (s : State) (va : Word) (want : Want) (user : Bool) : Translated :=
  let ps := s.pageSize want
  let line := tlbLine va ps
  if !s.tlbMatch va ps false && !s.tlbMatch va ps true then
    .miss { s with lru := 0#25 ++ bitOf (s.usage want line) ++ line ++ 0#1 }
  else
    let set1 := s.matchingSet va ps want
    let w0 := s.readTlb (tlbIndex set1 line false)
    let w1 := s.readTlb (tlbIndex set1 line true)
    let s' := s.touchLine line set1
    if allowed w0 want user then .ok (physicalAddr w1 va ps) (w1.extractLsb' 6 2) s'
    else .prot { s' with lru := s.free (.lruProt (want == .fetch)) &&& 0x0000007E#32 }

end Sys2Proof.Machine
end

