-- ==== Sys2Proof/Machine/Access.lean ====
section
/-! DEFINITION. External data accesses: issue, channel registers, completion (20 R130 to R149, R162, R165, 44 R392). -/

namespace Sys2Proof.Machine

/-- What answers an access (20 R130, R137). -/
inductive Space where
  | idm
  | rom
  | io
  | cop
deriving DecidableEq, Repr

/-- CE of an access (30 R208). -/
def Access.ce (d : Access) : Bool := d.ctl.getLsbD ctlCE

/-- OPT field of a control field (30 R208). -/
def ctlOpt (ctl : BitVec 8) : BitVec 3 := ctl.extractLsb' 0 3

/-- The space a control field selects. OPT = 100 with AS = 0 reaches the instruction ROM as the system option
`ROM_AS_DATA` says (20 R137; entry 7). -/
def State.accessSpace (s : State) (ctl : BitVec 8) : Space :=
  if ctl.getLsbD ctlCE then .cop
  else if ctl.getLsbD ctlAS then .io
  else if ctlOpt ctl = 4#3 && s.sys.romAsData then .rom
  else .idm

/-- Hardware outside the processor takes OPT for the width of the access: not 000, which "should be defined to have no special
effect", and not 100, which names the ROM (20 R136, R137, 92 D3; entry 38). -/
def State.narrowed (s : State) (ctl : BitVec 8) : Bool := s.sys.narrow && ctlOpt ctl != 0#3 && ctlOpt ctl != 4#3

/-- The access is performed in User mode (20 R132). -/
def State.userAccess (s : State) (ctl : BitVec 8) : Bool := !s.cps.getLsbD cpsSM || ctl.getLsbD ctlUA

/-- `*LOCK` is active for the access (20 R163). -/
def State.lockActive (s : State) (set la : Bool) : Bool := s.cps.getLsbD cpsLK || set || la

/-- Translation is attempted for a data access (20 R150). -/
def State.translates (s : State) (ctl : BitVec 8) : Bool :=
  !ctl.getLsbD ctlCE && !ctl.getLsbD ctlAS && !s.cps.getLsbD cpsPD && !ctl.getLsbD ctlPA

/-- `Unaligned(d)` (20 R134). -/
def State.unaligned (s : State) (ctl : BitVec 8) (addr : Word) : Bool :=
  s.cps.getLsbD cpsTU && !ctl.getLsbD ctlCE && !ctl.getLsbD ctlAS &&
    ((ctlOpt ctl == 0#3 && addr.extractLsb' 0 2 != 0#2) || (ctlOpt ctl == 2#3 && addr.getLsbD 0))

/-- `CHC` as an access records it (10 R64, 20 R145). -/
def channelControl (d : Access) (ml : Bool) (cr : BitVec 8) : Word :=
  d.ctl ++ cr ++ bitOf d.isLoad ++ bitOf ml ++ bitOf d.set ++ bitOf d.la ++ 0#1 ++ 0#1 ++ d.tr ++ 0#1 ++ 1#1

/-- The access is recorded in `CHA`, `CHD` and `CHC`, unless these are frozen (20 R145). `CHD` takes any value for a load
(93 U8). -/
def State.record (s : State) (d : Access) (ml : Bool) (cr : BitVec 8) : State :=
  if s.frozen then s
  else
    { s with
      cha := d.addr
      chd := if d.isLoad then s.free .chdLoad else d.data
      chc := channelControl d ml cr
      mlByMove := false }

/-- `CPS.CA` after a coprocessor transfer is started: set by a store, reset by a load, if SA is 1 (44 R392, 92 D22). -/
def State.coprocessorActive (s : State) (d : Access) : State :=
  if d.ctl.getLsbD ctlPA then { s with cps := putBit s.cps cpsCA !d.isLoad } else s

/-- The result of issuing an access. -/
inductive Issued where
  /-- the access may go out, with its physical address -/
  | ok (d : Access) (s : State)
  /-- the trap of a vector occurs; the channel registers describe the access (20 R149 (d)) -/
  | trap (vn : Byte) (s : State)

/-- What a load, store or `LOADSET` asks of its page (20 R153). -/
def Access.want (d : Access) : Want := if d.isLoad then (if d.set then .loadset else .load) else .store

/-- `ALU.BP` set from the address when SB asks for it (20 R138). -/
def State.setBp (s : State) (d : Access) : State :=
  if d.ctl.getLsbD ctlSB && !d.ce then s.setBytePointer (d.addr.extractLsb' 0 2) else s

/-- The alignment check, last of the checks of step (d) (20 R149, 92 D15). -/
def State.issueAligned (s : State) (d : Access) : Issued :=
  if s.unaligned d.ctl d.addr then .trap 1#8 s else .ok d s

/-- Steps (c) and (d) of `StartAccess` (20 R149): record, byte pointer, Coprocessor Not Present, translation, alignment. -/
def State.issue (s : State) (d : Access) (ml : Bool) (cr : BitVec 8) : Issued :=
  let s1 := (s.record d ml cr).setBp d
  if d.ce then
    if s1.cfg.getLsbD cfgCP then .ok { d with pa := d.addr, pgm := 0#2 } (s1.coprocessorActive d) else .trap 3#8 s1
  else if s1.translates d.ctl then
    match s1.translate d.addr d.want d.user with
    | .miss s2 => .trap (if d.user then 9#8 else 11#8) s2
    | .prot s2 => .trap 13#8 s2
    | .ok pa pgm s2 => s2.issueAligned { d with pa := pa, pgm := pgm }
  else s1.issueAligned { d with pa := d.addr, pgm := 0#2 }

/-- The word that comes back on the Data Bus (20 R136, R140): a whole aligned word of memory, or what hardware for narrow
accesses makes of it; any value from a device or from the coprocessor (entry 8). -/
def State.busRead (s : State) (d : Access) : Word :=
  match s.accessSpace d.ctl with
  | .idm =>
    let w := Memory.readWord s.idm (wordAddr d.pa)
    if s.narrowed d.ctl then Config.narrowRead (ctlOpt d.ctl) (d.pa.extractLsb' 0 2) w else w
  | .rom => Memory.readWord s.rom (wordAddr d.pa)
  | .io => s.free .ioData
  | .cop => s.free .copData

/-- A word of instruction/data memory replaced (20 R140). Where it changes, a hidden copy of the old one may survive
(20 R170, R176). -/
def State.writeIdm (s : State) (a : IAddr) (v : Word) : State :=
  let old := Memory.readWord s.idm a
  { s with
    idm := Memory.writeWord s.idm a v
    oldWords := if old = v then s.oldWords else { addr := a, word := old, time := s.clock } :: s.oldWords }

/-- A word sent out on the Data Bus (20 R140): memory is written, whole or as hardware for narrow accesses merges it; the ROM
is not; what a device or the coprocessor does with it is outside the machine (entries 7 and 8). -/
def State.busWrite (s : State) (d : Access) (v : Word) : State :=
  match s.accessSpace d.ctl with
  | .idm =>
    s.writeIdm (wordAddr d.pa)
      (if s.narrowed d.ctl then
        Config.narrowWrite (ctlOpt d.ctl) (d.pa.extractLsb' 0 2) (Memory.readWord s.idm (wordAddr d.pa)) v
      else v)
  | .rom => s
  | .io => s
  | .cop => s

/-- How the system responds to the access, the second half of a `LOADSET` included (20 R139, R144, R165; entry 9). -/
def State.answer (s : State) (d : Access) : Answer :=
  match s.env.answers with
  | [] => .ready
  | .ready :: t => if d.isLoad && d.set then t.headD .ready else .ready
  | .error :: _ => .error
  | .never :: _ => .never

/-- The answers left after those of one access. -/
def answersAfter (d : Access) (answers : List Answer) : List Answer :=
  match answers with
  | [] => []
  | .ready :: t => if d.isLoad && d.set then t.drop 1 else t
  | .error :: t => t
  | .never :: t => t

/-- The trap vector of an access answered with `*DERR` (20 R165). -/
def Access.errorVector (d : Access) : Byte := if d.ce then 4#8 else 7#8

/-- The access ends with `*DERR`: `TF` is set and the trap stays pending in it, or outside the frozen registers
(20 R147, R165, 92 D17). -/
def State.failAccess (s : State) (d : Access) : State :=
  if s.frozen then { s with derr := some d.errorVector } else { s with chc := putBit s.chc chcTF true }

/-- The transfer itself: a store writes; a load writes its target register, unless that has been overwritten; a `LOADSET`
writes the word with ones after reading it (20 R147, R162). -/
def State.transfer (s : State) (d : Access) : State :=
  if d.isLoad then
    let w := s.busRead d
    let s1 := if d.set then s.busWrite d 0xFFFFFFFF#32 else s
    if d.discard then s1 else s1.storeReg false d.tr w
  else s.busWrite d d.data

/-- `CHC.CV <- 0`, unless frozen (20 R147). -/
def State.clearCv (s : State) : State := if s.frozen then s else { s with chc := putBit s.chc chcCV false }

/-- The answer of the system is used up, and the model's clock moves so that every access has free values of its own. -/
def State.endAccess (s : State) (d : Access) : State :=
  { s with inflight := none, clock := s.clock + 1, env := { s.env with answers := answersAfter d s.env.answers } }

/-- `CompleteAccess` of access `d` (20 R147). -/
def State.complete (s : State) (d : Access) : State :=
  if s.answer d = .error then (s.endAccess d).failAccess d else ((s.endAccess d).transfer d).clearCv

/-- The access in flight, if any, completes (20 R144, R148). -/
def State.drain (s : State) : State :=
  match s.inflight with
  | none => s
  | some d => s.complete d

/-- What becomes of the access in flight when it is waited for (20 R144). -/
inductive Settlement where
  /-- there is none, or it completes -/
  | ends
  /-- it ends in `*DERR`, which causes the trap of vector `vn` (20 R165) -/
  | error (vn : Byte)
  /-- the system never answers it (70 R650) -/
  | never
deriving DecidableEq, Repr

/-- What becomes of the access in flight. -/
def State.settlement (s : State) : Settlement :=
  match s.inflight with
  | none => .ends
  | some d =>
    match s.answer d with
    | .ready => .ends
    | .error => .error d.errorVector
    | .never => .never

/-- The access in flight completes, unless the system never answers it (20 R144). -/
def State.settle (s : State) : State := if s.settlement = .never then s else s.drain

/-- Pipeline Hold for a response that never comes (20 R144, 70 R650). -/
def State.hold (s : State) : State := { s with mode := .held }

/-- The access in flight is abandoned, and with it the answer of the system (60 R580, 70 R630). -/
def State.abandon (s : State) : State :=
  match s.inflight with
  | none => s
  | some d => { s with inflight := none, env := { s.env with answers := answersAfter d s.env.answers } }

/-- Step (e) of `StartAccess` (20 R149): the access goes out. It completes at once, or later as the system chooses
(92 D10). -/
def State.startAccess (s : State) (d : Access) : State :=
  match s.env.latency.headD 0 with
  | 0 => { s with inflight := some { d with left := 0 }, env := { s.env with latency := s.env.latency.drop 1 } }.settle
  | n + 1 => { s with inflight := some { d with left := n + 1 }, env := { s.env with latency := s.env.latency.drop 1 } }

/-- One instruction boundary passes for the access in flight (20 R144). -/
def State.accessTick (s : State) : State :=
  match s.inflight with
  | none => s
  | some d => if d.left = 0 then s.settle else { s with inflight := some { d with left := d.left - 1 } }

end Sys2Proof.Machine
end

