-- ==== Sys2Proof/Machine/Ops.lean ====
section
/-! DEFINITION. How an instruction ends, taking an interrupt or trap, `*WARN`, and the Timer (10 R33, R39, 47 R470, 60 R545 to
R580, R600, R605). -/

namespace Sys2Proof.Machine

/-- A delayed value one instruction later (10 R39). -/
def Delayed.older {α : Type} (d : Delayed α) : Delayed α := { d with age := d.age - 1 }

/-- A delayed value after an interrupt, a trap or an interrupt return: the last write is visible (70 R656). -/
def Delayed.settle {α : Type} (d : Delayed α) : Delayed α := { d with age := 0 }

/-- The delayed effects one instruction later (70 R656). -/
def State.ageEffects (s : State) : State :=
  { s with
    sps := s.sps.older
    mmu := s.mmu.older
    psTarget := s.psTarget - 1
    ipa := s.ipa.older
    ipb := s.ipb.older
    ipc := s.ipc.older }

/-- The delayed effects after an interrupt, a trap or an interrupt return (70 R656). -/
def State.settleEffects (s : State) : State :=
  { s with
    sps := s.sps.settle
    mmu := s.mmu.settle
    psTarget := 0
    ipa := s.ipa.settle
    ipb := s.ipb.settle
    ipc := s.ipc.settle }

/-- `CPS.TP <- CPS.TE` when an instruction completes (60 R600). -/
def State.traceCopy (s : State) : State := { s with cps := putBit s.cps cpsTP (s.cps.getLsbD cpsTE) }

/-- The same after a write of `CPS` by a move: a TP that the move has set stays set (60 R600; entry 20). -/
def State.traceKeep (s : State) : State :=
  { s with cps := putBit s.cps cpsTP (s.cps.getLsbD cpsTP || s.cps.getLsbD cpsTE) }

/-- The program counters move on, `t` after the next instruction (10 R33, 47 R470); an instruction of the Load Test
Instruction mode leaves them (60 R614). `turn`: the fetch at `t` is a non-sequential one, asked for at that time. -/
def State.advanceTo (s : State) (t : IAddr) (turn : Option Nat) : State :=
  if s.testing then s
  else { s with ppc := s.pc, pc := s.npc, npc := t, turn := s.nextTurn, nextTurn := turn }

/-- An instruction with no branch ends (60 R545), trace bit apart. -/
def State.advance (s : State) : State := { s.ageEffects.advanceTo (s.npc + 1#30) none with afterMultiple := false }

/-- An instruction with no branch ends (10 R33, 60 R545). -/
def State.retire (s : State) : State := s.traceCopy.advance

/-- A non-sequential fetch that is due discards the prefetched words (20 R171), and finds a block of the Branch Target Cache
that fits its space and mode or, always so while `CFG.CD` is in force as 1, finds none (20 R172, R173). -/
def State.discardPrefetch (s : State) : State :=
  match s.turn with
  | none => s
  | some t =>
    { s with
      lastNonseq := max s.lastNonseq t
      block := { left := if s.cdInForce then 0 else 4, rom := s.cps.getLsbD cpsRE, user := !s.cps.getLsbD cpsSM } }

/-- A fetch has been made: one instruction less is to come from the block, and if the fetch was a non-sequential one, `CFG.CD`
comes into force only now (20 R172, R173). -/
def State.turned (s : State) : State :=
  let b := { s.block with left := s.block.left - 1 }
  match s.turn with
  | none => { s with block := b }
  | some _ => { s with block := b, turn := none, cdInForce := s.cfg.getLsbD cfgCD }

/-- The fetch at `pc` is to be a non-sequential one, with no delay instruction before it (60 R564, R570, R580, R612). -/
def State.turnHere (s : State) : State := { s with turn := some s.clock, nextTurn := none, stream := none }

/-- All Valid bits of the Branch Target Cache reset: no copy made up to now is in it (20 R174, R175). -/
def State.invalidateCache (s : State) : State := { s with cacheSince := s.clock, cacheUndefined := false }

/-- An `INV` takes effect (20 R174). -/
def State.pendingInvalidate (s : State) : State :=
  if s.invPending then { s.invalidateCache with invPending := false } else s

/-- The prefetch stream after a taken branch: it still serves the delay instruction (20 R161). -/
def State.endStream (s : State) : State :=
  { s with
    stream :=
      match s.stream with
      | none => none
      | some p => some { p with ending := true } }

/-- The delayed effect of `MMU.PS` on the target of a taken branch (10 R39). -/
def State.windowTarget (s : State) : State :=
  if s.mmu.age = 1 then { s with psTarget := 3, psBefore := s.mmu.old.extractLsb' 8 2 } else s

/-- A taken branch to `t` ends: `t` executes after the delay instruction, which still comes from the prefetched words
(47 R470, 20 R171); an `INV` takes effect (20 R174). -/
def State.branchTo (s : State) (t : IAddr) : State :=
  { s.traceCopy.windowTarget.pendingInvalidate.endStream.ageEffects.advanceTo t (some s.clock) with afterMultiple := false }

/-- `TrapImage(CPS)`: the rows that the text of 60 R563 states are fixed, FZ, SM and DA 1, TE, TP, WM and RE 0; the other bits
but IP are written as the parameter says (92 D6, 93 K2; entry 2). -/
def State.trapImage (s : State) : Word :=
  (s.cps &&& ~~~((s.sys.trapMask &&& 0x8A6E#32) ||| 0x3591#32)) ||| (s.sys.trapValue &&& s.sys.trapMask &&& 0x8A6E#32) |||
    0x0411#32

/-- `ResetImage()`: the rows of 70 R631 are fixed, RE, PD, PI, SM and DA 1 and WM 0; the other bits but IP are the
parameter's (92 D7, 93 K2; entry 3). -/
def State.resetCps (s : State) : Word := (s.sys.resetImage &&& 0xBE0E#32) ||| 0x0171#32

/-- The Program Counter registers, `OPS` and `CPS` at the taking of an interrupt or trap: steps 4 and 5 of 60 R560, with
60 R561 and R563. What the interrupted fetches went by is remembered (20 R177). -/
def State.saveStatus (s : State) : State :=
  { s.capturePcs.rememberMap with ops := s.cpsView, cps := putBit s.trapImage cpsIP false }

/-- Steps 7 and 8 of 60 R560: RE is set, and execution goes on at `t` with no delay instruction (60 R564). -/
def State.enterHandler (s : State) (t : IAddr) (re : Bool) : State :=
  { s.settleEffects.turnHere with
    cps := putBit s.cps cpsRE re
    pc := t
    npc := t + 1#30
    afterMultiple := false }

/-- Address of the vector of `vn`: bits 9-2 of `VAB` replaced (60 R562). -/
def State.vectorAddr (s : State) (vn : Byte) : IAddr := s.vab.extractLsb' 10 22 ++ vn

/-- First instruction of the block of `vn`: bits 15-8 of `VAB` replaced (60 R562). -/
def State.blockAddr (s : State) (vn : Byte) : IAddr := s.vab.extractLsb' 16 16 ++ vn ++ 0#6

/-- Steps 4 to 8 of the taking of an interrupt or trap (60 R560, R562). With `CFG.VF` = 1 the vector is fetched from
instruction/data memory, physically (20 R142); a `*DERR` there is a fault of the model (60 R565, 92 D18), and the processor
waits for a vector that never comes (70 R650). -/
def State.enterTrap (s : State) (vn : Byte) : Result :=
  if s.cfg.getLsbD cfgVF then
    let s1 := { s.saveStatus with env := { s.env with answers := s.env.answers.drop 1 } }
    match s.env.answers.headD .ready with
    | .ready =>
      let v := Memory.readWord s.idm (s.vectorAddr vn)
      .next (s1.enterHandler (wordAddr v) (v.getLsbD s.sys.vectorRBit.val))
    | .error => .fault .vectorFetchError
    | .never => .next s1.hold
  else .next (s.saveStatus.enterHandler (s.blockAddr vn) (s.cfg.getLsbD cfgRV))

/-- An interrupt or trap of a priority is taken (60 R560): first the access in flight completes (step 3); if that ends in
`*DERR`, the exception it causes is taken instead of an event of lower priority than 4; if it never ends, the take waits for
it (70 R650). -/
def State.takeTrap (s : State) (prio : Nat) (vn : Byte) : Result :=
  match s.settlement with
  | .ends => s.drain.enterTrap vn
  | .error v => if 4 < prio then { s.drain with derr := none }.enterTrap v else s.drain.enterTrap vn
  | .never => .next s.hold

/-- A trap of priority 13 or 14, `PC1` = the instruction, which has no effect (60 R545). With `CPS.DA` = 1 only Instruction
Access Exception is taken (60 R553 (a), (c); entry 15). -/
def State.raiseCurr (s : State) (vn : Byte) : Result :=
  if s.da && vn != 6#8 then .refused (.disabledTrap vn) else s.takeTrap 14 vn

/-- Protection Violation (60 R538). -/
def State.protectionViolation (s : State) : Result := s.raiseCurr 5#8

/-- The pins at the next boundary: the next sample, or the levels held (92 D9). -/
def State.nextPins (s : State) : Pins := s.env.events.headD s.pins

/-- The next sample of the pins has `*RESET`, or the transition of `*WARN`. -/
def State.alarm (s : State) : Bool := s.nextPins.reset || (s.nextPins.warn && !s.pins.warn)

/-- A trap of priority 2 or 3 occurs at the same time as the reset or `*WARN` trap of the next sample: it is not taken, and its
occurrence is lost (60 R547, R580). Whether an event that the next sample shows came at the same time or after the take is a
free choice (entry 39). -/
def State.trapLost (s : State) : Bool := s.alarm && s.freeBit .trapLost

/-- A trap of priority 3 of an instruction that has ended, `s` the state after it: lost with `CPS.DA` = 1 (60 R553 (b)), or
with a reset or `*WARN` (60 R547). -/
def State.raiseNext (s : State) (vn : Byte) : Result := if s.da || s.trapLost then .next s else s.takeTrap 3 vn

/-- A data-side trap of a load or store that has ended, `s` the state after it: with `CPS.DA` = 1 the spec gives no
completion (60 R553 (c); entry 15); lost with a reset or `*WARN` (60 R547). -/
def State.raiseAccess (s : State) (vn : Byte) : Result :=
  if s.da then .refused (.disabledTrap vn) else if s.trapLost then .next s else s.takeTrap 2 vn

/-- The instruction cannot go on before the access in flight completes (20 R144): if that ends in `*DERR`, its trap is taken
at once and the instruction has no effect (60 R545); if it never ends, the instruction waits (70 R650). -/
def State.finishAccess (s : State) (k : State → Result) : Result :=
  match s.settlement with
  | .ends => k s.drain
  | .error v => { s.drain with derr := none }.enterTrap v
  | .never => .next s.hold

/-- Some of these absolute registers is the target of the load in flight (10 R37). -/
def State.waitsFor (s : State) (regs : List RegNum) : Bool :=
  match s.inflight with
  | none => false
  | some d => d.isLoad && !d.discard && regs.contains d.tr

/-- The instruction reads these registers: a load in flight to one of them completes first (10 R37, 20 R144). -/
def State.awaitRegs (s : State) (regs : List RegNum) (k : State → Result) : Result :=
  if s.waitsFor regs then s.finishAccess k else k s

/-- The asynchronous event other than `*WARN` that occurs, is enabled and has the highest priority: its priority and vector
(60 R532, R547, R549). -/
def State.asyncEvent (s : State) : Option (Nat × Byte) :=
  match s.derr with
  | some v => some (4, v)
  | none =>
    if s.chc.getLsbD chcTF && !s.fz then some (4, if s.chc.getLsbD chcCE then 4#8 else 7#8)
    else if s.da then none
    else if s.pins.trap0 then some (5, 20#8)
    else if s.pins.trap1 then some (6, 21#8)
    else if s.pins.intr.getLsbD 0 && s.intrEnabled 0 then some (7, 16#8)
    else if s.pins.intr.getLsbD 1 && s.intrEnabled 1 then some (8, 17#8)
    else if s.pins.intr.getLsbD 2 && s.intrEnabled 2 then some (9, 18#8)
    else if s.pins.intr.getLsbD 3 && s.intrEnabled 3 then some (10, 19#8)
    else if s.tmr.getLsbD tmrIE && s.tmr.getLsbD tmrIN then some (11, 14#8)
    else if s.cps.getLsbD cpsTP then some (12, 15#8)
    else none

/-- An asynchronous event is taken; an exception held outside the channel registers is held no more (60 R547 (a)). -/
def State.takeAsync (s : State) (prio : Nat) (vn : Byte) : Result :=
  if prio = 4 then { s with derr := none }.takeTrap prio vn else s.takeTrap prio vn

/-- `*WARN` is taken (60 R580): the access in flight is abandoned, the image is that of Reset, and execution goes on at ROM
word address 4. `CNTL0-CNTL1` are then looked at as after a Reset. A `*DERR` trap that waits outside the frozen channel
registers, which the spec does not mention here, is dropped (entry 17, DESIGN CHOICE, unsafe). -/
def State.takeWarn (s : State) : State :=
  let s1 := { s.capturePcs.abandon with ops := s.cpsView, derr := none }
  { (s1.setCps s.resetCps).settleEffects.turnHere with
    pc := 4#30
    npc := 5#30
    afterMultiple := false
    irValid := false
    warnPending := false
    mode := .starting }

/-- One cycle of the Timer (60 R605, 92 D27): the counter and reload registers after it. -/
def timerCycle (tmc tmr : Word) : Word × Word :=
  if tmc = 0#32 then
    (tmr &&& 0x00FFFFFF#32, putBit (putBit tmr tmrOV (tmr.getLsbD tmrOV || tmr.getLsbD tmrIN)) tmrIN true)
  else (tmc - 1#32, tmr)

/-- `n` cycles of the Timer. -/
def timerCycles (n : Nat) (tmc tmr : Word) : Word × Word :=
  match n with
  | 0 => (tmc, tmr)
  | k + 1 => timerCycles k (timerCycle tmc tmr).1 (timerCycle tmc tmr).2

/-- `n` cycles pass for the Timer. -/
def State.timer (s : State) (n : Nat) : State :=
  { s with tmc := (timerCycles n s.tmc s.tmr).1, tmr := (timerCycles n s.tmc s.tmr).2 }

/-- The cycles of a step pass: one, and those the environment adds (60 R605, 92 D11). -/
def State.stepCycles (s : State) : State :=
  { s.timer (1 + s.env.cycles.headD 0) with env := { s.env with cycles := s.env.cycles.drop 1 } }

end Sys2Proof.Machine
end

