-- ==== Sys2Proof/Machine/Fetch.lean ====
section
/-! DEFINITION. Instruction fetch: translation, the prefetch stream, hidden copies of instructions (20 R141, R161, R170 to
R177). -/

namespace Sys2Proof.Machine

/-- The result of an instruction fetch. -/
inductive Fetched where
  | word (w : Word) (s : State)
  /-- an instruction-side trap occurs (20 R141) -/
  | trap (vn : Byte) (s : State)
  /-- the system never answers (70 R650) -/
  | held (s : State)

/-- Where an instruction is fetched from. -/
inductive Source where
  | ok (rom : Bool) (pa : IAddr) (s : State)
  | trap (vn : Byte) (s : State)

/-- A hidden copy made at or before `t` may still be executed: from the prefetched words, if no non-sequential fetch has been
made since (20 R171, R176), or from the Branch Target Cache, if the present run is still served from a block, the copy's tag
is that of the block, and no invalidation came after (20 R172 to R176). -/
def State.copyUsable (s : State) (t : Nat) (tagFits : Bool) : Bool :=
  decide (s.lastNonseq < t) || (decide (0 < s.block.left) && tagFits && decide (s.cacheSince < t))

/-- The tag of the block that serves the present run has this space and mode (20 R173). -/
def State.tagFits (s : State) (rom user : Bool) : Bool := s.block.rom == rom && s.block.user == user

/-- The state as an older mapping had it. -/
def State.under (s : State) (m : OldMap) : State := { s with tlb := m.tlb, mmu := .settled m.mmu, psTarget := 0 }

/-- The physical word address of `va` in instruction/data memory under an older mapping (20 R177). -/
def State.oldPhysical (s : State) (m : OldMap) (va : IAddr) : Option IAddr :=
  if m.translated then
    match (s.under m).translate (byteAddr va) .fetch m.user with
    | .ok pa _ _ => some (wordAddr pa)
    | .miss _ => none
    | .prot _ => none
  else some va

/-- The word `w`, if a copy of it that was made at or before `t` may still be executed. -/
def State.usableCopy (s : State) (t : Nat) (tagFits : Bool) (w : Word) : List Word :=
  if s.copyUsable t tagFits then [w] else []

/-- Usable copies of the words that instruction/data memory held at `pa` before its present one, made at or before `t`
(20 R170, R176). -/
def State.overwrittenCopies (s : State) (pa : IAddr) (t : Nat) (tagFits : Bool) : List Word :=
  s.oldWords.flatMap fun o => if o.addr = pa then s.usableCopy (min o.time t) tagFits o.word else []

/-- Usable copies of the instruction at `va` that were made under an older mapping: of the word that is now at its older
physical address, and of those that were there before (20 R173, R177). -/
def State.mapCopies (s : State) (va : IAddr) (m : OldMap) : List Word :=
  let tagFits := s.tagFits m.rom m.user
  if m.rom then s.usableCopy m.time tagFits (Memory.readWord s.rom va)
  else
    match s.oldPhysical m va with
    | none => []
    | some pa =>
      s.usableCopy m.time tagFits (Memory.readWord s.idm pa) ++ s.overwrittenCopies pa m.time tagFits

/-- The words that hidden copies of the instruction at `va`, physically at `pa`, may hold (10 R83, R86, 20 R170 to R177). -/
def State.hiddenCopies (s : State) (rom : Bool) (va pa : IAddr) : List Word :=
  (if rom then [] else s.overwrittenCopies pa s.clock (s.tagFits rom (!s.cps.getLsbD cpsSM))) ++
    s.oldMaps.flatMap (s.mapCopies va) ++
    (if s.cacheUndefined && decide (0 < s.block.left) then [s.free .cacheWord] else [])

/-- What the prefetch stream, going on under the mapping it started with, has at `pc`, if the environment chooses that
(20 R161, 93 U21). -/
def State.streamServes (s : State) (oldStream : Bool) : Option Stream :=
  if oldStream then s.stream.filter (fun p => p.va == s.pc) else none

/-- Where the instruction at `pc` is fetched from: the prefetch stream, or else ROM, physical or translated address as `CPS`
says (20 R141). The target of a branch is translated at its own fetch, so that a miss writes `LRU` there and not one
instruction earlier, nor for a target that is never executed (20 R157; entry 26, DESIGN CHOICE, unsafe). -/
def State.fetchSource (s : State) (oldStream : Bool) : Source :=
  match s.streamServes oldStream with
  | some p => .ok p.rom p.pa s
  | none =>
    if !s.cps.getLsbD cpsPI && !s.cps.getLsbD cpsRE then
      match s.translate (byteAddr s.pc) .fetch (!s.cps.getLsbD cpsSM) with
      | .miss s' => .trap (if s.cps.getLsbD cpsSM then 10#8 else 8#8) s'
      | .prot s' => .trap 12#8 s'
      | .ok pa _ s' => .ok false (wordAddr pa) s'
    else .ok (s.cps.getLsbD cpsRE) s.pc s

/-- The prefetch stream after a fetch (20 R161): it ends with the delay instruction of a taken branch and at every 1-Kbyte
boundary. -/
def State.streamAfter (s : State) (rom : Bool) (pa : IAddr) : Option Stream :=
  match s.stream with
  | some { va := _, rom := _, pa := _, ending := true } => none
  | _ =>
    if (s.pc + 1#30).extractLsb' 0 8 = 0#8 then none
    else some { va := s.pc + 1#30, rom := rom, pa := pa + 1#30, ending := false }

/-- A fetch for which either of two page sizes may be used has translated its address (10 R39). -/
def State.fetchesInWindow (s : State) : Bool :=
  !s.cps.getLsbD cpsPI && !s.cps.getLsbD cpsRE && (s.mmu.age == 1 || s.psTarget == 1)

/-- A fetch that the prefetch stream did not serve, and that either of two page sizes may have translated, is remembered with
the one it used: it may leave copies under that mapping, which is not the present one once the delayed effect is over, and was
not in force before if `MMU.PID` or the TLB has changed too (10 R39, 20 R173, R177). A delay instruction is fetched before the
branch executes. -/
def State.rememberWindow (s : State) (oldStream : Bool) : State :=
  if s.fetchesInWindow && (s.streamServes oldStream).isNone then
    { s with
      oldMaps :=
        { rom := false, user := !s.cps.getLsbD cpsSM, translated := true, tlb := s.tlb,
          mmu := putField s.mmu.now 8 (s.pageSize .fetch), time := min s.clock (s.nextTurn.getD s.clock) } :: s.oldMaps }
  else s

/-- The choice of the environment for this fetch. -/
def State.fetchChoice (s : State) : FetchChoice := s.env.fetches.headD { answer := .ready, oldStream := false, copy := 0 }

/-- `FetchInstr(pc)` (20 R141): the word, or Instruction TLB Miss, Instruction TLB Protection Violation, Instruction Access
Exception. A non-sequential fetch first discards the prefetched words, and is made under the old `CFG.CD` (20 R171, R172); one
that `*IERR` answers has been made too, but not one whose address has no translation. -/
def State.fetch (s : State) : Fetched :=
  let ch := s.fetchChoice
  let s0 := { s with env := { s.env with fetches := s.env.fetches.drop 1 } }.discardPrefetch
  match s0.fetchSource ch.oldStream with
  | .trap vn s1 => .trap vn s1
  | .ok rom pa s1 =>
    match ch.answer with
    | .error => .trap 6#8 s1.turned
    | .never => .held s1
    | .ready =>
      let w := Memory.readWord (if rom then s1.rom else s1.idm) pa
      let w' := match ch.copy with
        | 0 => w
        | k + 1 => (s1.hiddenCopies rom s1.pc pa)[k]?.getD w
      .word w' { (s1.rememberWindow ch.oldStream).turned with stream := s1.streamAfter rom pa }

/-- `w` put where the instruction at `pc` is fetched from: ROM or instruction/data memory, at the translated address where
the fetch is translated. Nothing where that fetch traps (entry 33). -/
def State.placeInstr (s : State) (w : Word) : State :=
  match s.fetchSource false with
  | .trap _ _ => s
  | .ok true pa _ => { s with rom := Memory.writeWord s.rom pa w }
  | .ok false pa _ => { s with idm := Memory.writeWord s.idm pa w }

end Sys2Proof.Machine
end

