-- ==== Sys2Proof/Machine/Boundary.lean ====
section
/-! DEFINITION. The instruction boundary: pins, operating modes, Reset, the Timer and the choice between executing and
taking an event (60 R545, R580, R605, R610 to R616, 70 R630 to R632). -/

namespace Sys2Proof.Machine

/-- What a boundary decides. -/
inductive Boundary where
  /-- an instruction is to be executed, or an event taken -/
  | run (s : State)
  /-- the step ends here -/
  | ended (r : Result)

/-- An instruction is at hand, or the step ends. -/
inductive Prepared where
  | instr (w : Word) (s : State)
  | ended (r : Result)

/-- A store in flight, or the second half of a `LOADSET`, may or may not have reached memory at a Reset (92 D28). -/
def State.abandonedStore (s : State) : List Host.Cell :=
  match s.inflight with
  | none => s.idm
  | some d =>
    if s.freeBit .resetStore then
      if !d.isLoad then (s.busWrite d d.data).idm else if d.set then (s.busWrite d 0xFFFFFFFF#32).idm else s.idm
    else s.idm

/-- Register `k` after a Reset in the middle of a run: any value (70 R630, 93 U10). -/
def State.undefinedReg (s : State) (k : Nat) : Word := s.free (.resetReg k)

/-- The Reset mode is entered (70 R630): `CPS`, `CFG.CD`, `CHC.CV` and the program counters are set; every other register
takes any value, reserved bits apart; memory stays. The cache may hold anything (10 R86), so that what it held before is of
no more use: `cacheUndefined` admits every word. -/
def State.enterReset (s : State) : State :=
  { s with
    gpr := Vector.ofFn fun i => s.undefinedReg i.val
    gr1 := s.undefinedReg 192
    sps := .settled none
    pc := 0#30
    npc := 1#30
    ppc := (s.undefinedReg 193).extractLsb' 0 30
    vab := s.undefinedReg 194 &&& 0xFFFF0000#32
    ops := s.undefinedReg 195 &&& 0x0000FFFF#32
    cps := s.resetCps
    cfg := (s.undefinedReg 196 &&& 0x0000001E#32) ||| 1#32
    cha := s.undefinedReg 197
    chd := s.undefinedReg 198
    chc := s.undefinedReg 199 &&& 0xFFFFF7FE#32
    rbp := s.undefinedReg 200 &&& 0x0000FFFF#32
    tmc := s.undefinedReg 201 &&& 0x00FFFFFF#32
    tmr := s.undefinedReg 202 &&& 0x07FFFFFF#32
    pc0 := s.undefinedReg 203 &&& 0xFFFFFFFC#32
    pc1 := s.undefinedReg 204 &&& 0xFFFFFFFC#32
    pc2 := s.undefinedReg 205 &&& 0xFFFFFFFC#32
    mmu := .settled (s.undefinedReg 206 &&& 0x000003FF#32)
    psTarget := 0
    lru := s.undefinedReg 207 &&& 0x0000007E#32
    ipc := .settled ((s.undefinedReg 208).extractLsb' 0 8)
    ipa := .settled ((s.undefinedReg 209).extractLsb' 0 8)
    ipb := .settled ((s.undefinedReg 210).extractLsb' 0 8)
    q := s.undefinedReg 211
    alu := s.undefinedReg 212 &&& 0x00000FFF#32
    tlb := Vector.ofFn fun i => s.undefinedReg (213 + i.val) &&& tlbMask (BitVec.ofNat 7 i.val)
    idm := s.abandonedStore
    inflight := none
    env := s.abandon.env
    derr := none
    mode := .reset
    warnPending := false
    irValid := false
    testing := false
    invPending := false
    cdInForce := true
    block := { left := 0, rom := true, user := false }
    turn := none
    nextTurn := none
    lastNonseq := s.clock
    cacheSince := s.clock
    cacheUndefined := true
    oldWords := []
    oldMaps := []
    stream := none
    afterMultiple := false
    mlByMove := false }

/-- The pins are sampled; an inactive-to-active transition of `*WARN` is latched unless `*RESET` is asserted (60 R580). -/
def State.samplePins (s : State) : State :=
  { s with
    clock := s.clock + 1
    pins := s.nextPins
    env := { s.env with events := s.env.events.drop 1 }
    warnPending := (s.warnPending || (s.nextPins.warn && !s.pins.warn)) && !s.nextPins.reset }

/-- Both `CNTL0` and `CNTL1` change (60 R615, 93 U26). -/
def cntlJump (old new : Cntl) : Bool :=
  match old, new with
  | .loadTest, .normal => true
  | .normal, .loadTest => true
  | .step, .halt => true
  | .halt, .step => true
  | _, _ => false

/-- Halt mode is entered by `CNTL0-CNTL1`: the access in flight completes first (60 R612), no cycle passing for the Timer while
it is waited for (60 R605 leaves it open; entries 25 and 28, DESIGN CHOICE, unsafe), or is waited for without end (70 R650); an
instruction loaded by the development system is dropped (60 R614; entry 37). It is entered before any event that is pending and
enabled at that boundary is looked for; the event stays pending (60 R545 and R612 leave the order open; entry 28, DESIGN
CHOICE, unsafe). -/
def State.enterHalt (s : State) : State :=
  if s.settlement = .never then s.hold else { s.drain with mode := .halt, irValid := false }

/-- Step mode is entered from Executing mode by `CNTL0-CNTL1`, in the same way, before any pending event too and with the Timer
standing (60 R613; entries 25 and 28, DESIGN CHOICE, unsafe). -/
def State.enterStep (s : State) : State :=
  if s.settlement = .never then s.hold else { s.drain with mode := .step }

/-- The fetch of the instruction at `pc` is tried before Halt or Step mode is entered: the trap it raises, if it is not
disabled, is taken first (48 R507, 60 R612), unless its vector never comes: then the processor waits (70 R650). An instruction
loaded by the development system is dropped (entry 37). No asynchronous event is looked for in between, as the Trace trap whose
TP the completion of `HALT` has set, or an interrupt that is pending and enabled: the fetch trap, or else the mode, comes
first, and the event stays pending until execution goes on. 60 R545, R546 and R555 would take it at the boundary after `HALT`;
48 R507 and 60 R612 have Halt mode entered on the next cycle, after the fetch trap, and do not say where the event comes (entry
28, DESIGN CHOICE, unsafe). -/
def State.haltAt (s : State) (m : Mode) : Result :=
  match { s with clock := s.clock + 1 }.fetch with
  | .word _ _ => .next { s with mode := m, irValid := false }
  | .held s' => .next s'.hold
  | .trap vn s' =>
    if s'.da && vn != 6#8 then .next { s with mode := m, irValid := false }
    else { s' with mode := m, irValid := false }.takeTrap 14 vn

/-- The first fetch after `*RESET` or `*WARN`: `CNTL0-CNTL1` choose the mode (70 R632, 60 R580). No cycles pass for the Timer
at a boundary that ends in Halt or Step mode, though that fetch is waited for (60 R605 leaves it open; entries 25 and 28,
DESIGN CHOICE, unsafe). -/
def State.startUp (s : State) : Boundary :=
  match s.pins.cntl with
  | .normal => .run { s with mode := .executing }
  | .halt => .ended (s.haltAt .halt)
  | .step => .ended (s.haltAt .step)
  | .loadTest => .ended (.fault .cntlAtStart)

/-- Execution resumes from Halt mode with new fetches at `pc` and `npc`, as after an interrupt return (60 R612). -/
def State.resume (s : State) : State :=
  { s with turn := some s.clock, nextTurn := some s.clock, stream := none, mode := .executing }

/-- What the operating mode and `CNTL0-CNTL1` ask for at a boundary, `old` their last value (60 R612 to R615). -/
def State.modeStep (s : State) (old : Cntl) : Boundary :=
  match s.mode with
  | .reset => s.startUp
  | .starting => s.startUp
  | .executing =>
    match s.pins.cntl with
    | .normal => .run s
    | .halt => .ended (.next s.enterHalt)
    | .step => .ended (.next s.enterStep)
    | .loadTest => .ended (.fault .cntlTransition)
  | .held => .ended (.next s.stepCycles.accessTick)
  | .halt =>
    match s.pins.cntl with
    | .normal => if old = .halt then .run s.resume else .ended (.next s)
    | .halt => .ended (.next s)
    | .step => .ended (.next { s with mode := .step })
    | .loadTest => .ended (.next { s with mode := .loadTest, ir := s.pins.bus })
  | .step =>
    match s.pins.cntl with
    | .normal => if old = .step then .run s else .ended (.next s)
    | .halt => .ended (.next s.enterHalt)
    | .step => .ended (.next s)
    | .loadTest => .ended (.next { s with mode := .loadTest, ir := s.pins.bus })
  | .loadTest =>
    match s.pins.cntl with
    | .normal => .ended (.fault .cntlTransition)
    | .halt => .ended (.next { s with mode := .halt, irValid := false })
    | .step => .ended (.next { s with mode := .step, irValid := true })
    | .loadTest => .ended (.next { s with ir := s.pins.bus })

/-- The Timer counts in this mode: in Executing, Wait and Pipeline Hold, not in Halt mode nor between steps (60 R605). -/
def Mode.ticks (m : Mode) : Bool :=
  match m with
  | .executing => true
  | .starting => true
  | .held => true
  | .halt => false
  | .step => false
  | .loadTest => false
  | .reset => false

/-- The cycles of a step that takes `*WARN` pass first, where the Timer counts (60 R545, R605). -/
def State.warnCycles (s : State) : State := if s.mode.ticks then s.stepCycles else s

/-- The boundary up to the choice of the mode: `*RESET` overrides everything, then `*WARN` (60 R580, 70 R630). -/
def State.boundary (s : State) : Boundary :=
  let s1 := s.samplePins
  if s1.pins.reset then .ended (.next (if s.mode = .reset then s1 else s1.enterReset))
  else if s1.warnPending then .ended (.next s1.warnCycles.takeWarn)
  else if cntlJump s.pins.cntl s1.pins.cntl && s.mode != .reset && s.mode != .starting then
    .ended (.fault .cntlTransition)
  else s1.modeStep s.pins.cntl

/-- The decision of 60 R545 in Executing or Wait mode: the Timer ticks and the access in flight goes on; an asynchronous event
is taken; in Wait mode nothing executes, not even an instruction that the development system has loaded (60 R545 tests WM
first, 60 R614 says `on every step`; entry 37, DESIGN CHOICE, unsafe); else the instruction is fetched, or comes from the Load
Test Instruction mode. -/
def State.prepare (s : State) : Prepared :=
  let s1 := s.stepCycles.accessTick
  match s1.asyncEvent with
  | some (prio, vn) => .ended (s1.takeAsync prio vn)
  | none =>
    if s1.cps.getLsbD cpsWM then .ended (.next s1)
    else if s1.irValid then .instr s1.ir { s1 with testing := true }
    else
      match s1.fetch with
      | .trap vn s2 => .ended (s2.raiseCurr vn)
      | .held s2 => .ended (.next s2.hold)
      | .word w s2 => .instr w s2

/-- The end of a step of Step mode: the access it started completes (60 R613), or is waited for without end (70 R650), and
the instruction supplied by the development system, if it was one, is done. -/
def finishStep (stepping : Bool) (r : Result) : Result :=
  if stepping then
    match r with
    | .next s =>
      if s.settlement = .never then .next { s.hold with testing := false } else .next { s.drain with testing := false }
    | .fault f => .fault f
    | .refused x => .refused x
  else r

end Sys2Proof.Machine
end

