-- ==== Sys2Proof/Machine/Operands.lean ====
section
/-! DEFINITION. The operand forms of the instructions: register-numbers to absolute numbers, bank protection, interlock with
the load in flight, and reading the operands (10 R35 to R38, 30 R204, R210, 40 R240). Every form makes its numbers absolute
and tests protection before the load in flight completes that it may have to wait for: with a load into Global Register 1 in
flight, which will make the Stack Pointer shadow not valid, local register-numbers are still formed with the shadow as it was.
10 R36, R37 and 20 R144 leave the order open (entry 36, DESIGN CHOICE, unsafe). -/

namespace Sys2Proof.Machine

/-- The `RB or I` operand with its register-number made absolute (30 R204, 10 R36). -/
def State.resolve (s : State) (rb : Src2) : Src2 :=
  match rb with
  | .reg n => .reg (s.absReg .B n)
  | .imm i => .imm i

/-- The bank of a resolved operand is protected (10 R35). -/
def State.protectedSrc (s : State) (b : Src2) : Bool :=
  match b with
  | .reg n => s.isProtected n
  | .imm _ => false

/-- The absolute registers a resolved operand reads. -/
def srcRegs (b : Src2) : List RegNum :=
  match b with
  | .reg n => [n]
  | .imm _ => []

/-- SRCB: the register, or the constant zero-extended (30 R204). -/
def State.srcValue (s : State) (b : Src2) : Word :=
  match b with
  | .reg n => s.readReg .B n
  | .imm i => i.setWidth 32

/-- Instructions with DEST in RC, SRCA in RA and SRCB in `RB or I` (40 R240): `k` gets the absolute number of DEST, SRCA,
SRCB and the state in which they are read. The absolute numbers come before the wait for a load, one into Global Register 1
included (entry 36, DESIGN CHOICE). -/
def State.binary (s : State) (rc ra : RegNum) (rb : Src2) (k : RegNum → Word → Word → State → Result) : Result :=
  let c := s.absReg .C rc
  let a := s.absReg .A ra
  let b := s.resolve rb
  if s.isProtected c || s.isProtected a || s.protectedSrc b then s.protectionViolation
  else s.awaitRegs (a :: srcRegs b) fun s1 => k c (s1.readReg .A a) (s1.srcValue b) s1

/-- Instructions with DEST in RC and SRCA in RA (44 R395). -/
def State.unaryA (s : State) (rc ra : RegNum) (k : RegNum → Word → State → Result) : Result :=
  let c := s.absReg .C rc
  let a := s.absReg .A ra
  if s.isProtected c || s.isProtected a then s.protectionViolation
  else s.awaitRegs [a] fun s1 => k c (s1.readReg .A a) s1

/-- Instructions with DEST in RC and SRCB in `RB or I` (40 R265, 48 R501). -/
def State.unaryB (s : State) (rc : RegNum) (rb : Src2) (k : RegNum → Word → State → Result) : Result :=
  let c := s.absReg .C rc
  let b := s.resolve rb
  if s.isProtected c || s.protectedSrc b then s.protectionViolation
  else s.awaitRegs (srcRegs b) fun s1 => k c (s1.srcValue b) s1

/-- Instructions with SRCA in RA and SRCB in `RB or I` and no destination (41 R304). -/
def State.sources (s : State) (ra : RegNum) (rb : Src2) (k : Word → Word → State → Result) : Result :=
  let a := s.absReg .A ra
  let b := s.resolve rb
  if s.isProtected a || s.protectedSrc b then s.protectionViolation
  else s.awaitRegs (a :: srcRegs b) fun s1 => k (s1.readReg .A a) (s1.srcValue b) s1

/-- Instructions whose only register is RA, read (45 R422, 47 R473, R477): `k` gets its absolute number and its value. -/
def State.readA (s : State) (ra : RegNum) (k : RegNum → Word → State → Result) : Result :=
  let a := s.absReg .A ra
  if s.isProtected a then s.protectionViolation else s.awaitRegs [a] fun s1 => k a (s1.readReg .A a) s1

/-- Instructions whose only register is RA, written and not read (45 R420, 47 R478). -/
def State.destA (s : State) (ra : RegNum) (k : RegNum → State → Result) : Result :=
  let a := s.absReg .A ra
  if s.isProtected a then s.protectionViolation else k a s

/-- Instructions whose only register is RB, read (44 R401, 47 R472). -/
def State.readB (s : State) (rb : RegNum) (k : Word → State → Result) : Result :=
  let b := s.absReg .B rb
  if s.isProtected b then s.protectionViolation else s.awaitRegs [b] fun s1 => k (s1.readReg .B b) s1

/-- The result of an instruction of the Integer Arithmetic class (40 R241): flags, destination. `w` is the word written. -/
def State.arithResult (s : State) (c : RegNum) (sum : Sum) (w : Word) : State :=
  ((s.setVNZC sum w).writeReg true c w).retire

/-- The result of an instruction that writes one register and no status, of a class that does not set the Stack Pointer
shadow (10 R34). -/
def State.plainResult (s : State) (c : RegNum) (w : Word) : State := (s.writeReg false c w).retire

/-- The three indirect pointers set at once (10 R74). -/
def State.setPointers (s : State) (a b c : RegNum) : State :=
  { s with ipa := s.ipa.write a, ipb := s.ipb.write b, ipc := s.ipc.write c }

end Sys2Proof.Machine
end

