-- ==== Sys2Proof/Machine/Branch.lean ====
section
/-! DEFINITION. The Branch class (47 R470 to R484). -/

namespace Sys2Proof.Machine

/-- TARGET of a branch with an address field: relative to the branch itself, or absolute (47 R480, 30 R206). -/
def State.target (s : State) (a : Bool) (i16 : BitVec 16) : IAddr := if a then i16.setWidth 30 else s.pc + i16.signExtend 30

/-- A branch that is taken if `taken`, else an ordinary instruction (47 R470). -/
def State.branchIf (s : State) (taken : Bool) (t : IAddr) : State := if taken then s.branchTo t else s.retire

/-- What a call leaves in its destination: the address of the second following instruction (47 R478; entry 21). -/
def State.returnAddress (s : State) : Word := byteAddr (s.pc + 2#30)

/-- JMP (47 R471). -/
def execJmp (a : Bool) (i16 : BitVec 16) (s : State) : Result := .next (s.branchTo (s.target a i16))

/-- JMPI (47 R472). -/
def execJmpi (rb : RegNum) (s : State) : Result := s.readB rb fun v s1 => .next (s1.branchTo (wordAddr v))

/-- JMPT (47 R473). -/
def execJmpt (a : Bool) (ra : RegNum) (i16 : BitVec 16) (s : State) : Result :=
  s.readA ra fun _ v s1 => .next (s1.branchIf (isTrue v) (s1.target a i16))

/-- JMPF (47 R474). -/
def execJmpf (a : Bool) (ra : RegNum) (i16 : BitVec 16) (s : State) : Result :=
  s.readA ra fun _ v s1 => .next (s1.branchIf (!isTrue v) (s1.target a i16))

/-- JMPTI (47 R475). -/
def execJmpti (ra rb : RegNum) (s : State) : Result :=
  s.sources ra (.reg rb) fun v t s1 => .next (s1.branchIf (isTrue v) (wordAddr t))

/-- JMPFI (47 R476). -/
def execJmpfi (ra rb : RegNum) (s : State) : Result :=
  s.sources ra (.reg rb) fun v t s1 => .next (s1.branchIf (!isTrue v) (wordAddr t))

/-- JMPFDEC: RA is decremented in any case; the test is on its value before (47 R477). -/
def execJmpfdec (a : Bool) (ra : RegNum) (i16 : BitVec 16) (s : State) : Result :=
  s.readA ra fun n v s1 => .next ((s1.writeReg false n (v - 1#32)).branchIf (!isTrue v) (s1.target a i16))

/-- CALL: the return address into RA (47 R478). -/
def execCall (a : Bool) (ra : RegNum) (i16 : BitVec 16) (s : State) : Result :=
  s.destA ra fun n s1 => .next ((s1.writeReg false n s1.returnAddress).branchTo (s1.target a i16))

/-- CALLI: the target is read before the return address is written (47 R479). -/
def execCalli (ra rb : RegNum) (s : State) : Result :=
  let n := s.absReg .A ra
  if s.isProtected n then s.protectionViolation
  else s.readB rb fun t s1 => .next ((s1.writeReg false n s1.returnAddress).branchTo (wordAddr t))

end Sys2Proof.Machine
end

