-- ==== Sys2Proof/Machine/Compare.lean ====
section
/-! DEFINITION. The Compare class (41 R290 to R317). -/

namespace Sys2Proof.Machine

/-- A compare: DEST is TRUE if the relation holds, FALSE otherwise; no status changes (41 R290). -/
def State.compare (s : State) (rc ra : RegNum) (rb : Src2) (rel : Word → Word → Bool) : Result :=
  s.binary rc ra rb fun c a b s1 => .next (s1.plainResult c (boolWord (rel a b)))

/-- An assert: nothing if the relation holds; else the trap `vn`, or Protection Violation for a User-mode program naming a
vector below 64. With `CPS.DA` = 1 both are lost and a failing assert goes on as if it held (41 R304, 60 R553 (b)). -/
def State.assert (s : State) (vn : BitVec 8) (ra : RegNum) (rb : Src2) (rel : Word → Word → Bool) : Result :=
  s.sources ra rb fun a b s1 =>
    if rel a b || s1.da then .next s1.retire
    else if !s1.supervisor && decide (vn.toNat < 64) then s1.protectionViolation
    else s1.retire.raiseNext vn

/-- Some byte of one word equals the byte in the same position of the other (41 R301). -/
def anyByteEqual (a b : Word) : Bool :=
  opField a == opField b || field2 a == field2 b || field1 a == field1 b || field0 a == field0 b

/-- CPEQ: TRUE if SRCA = SRCB (41 R291). -/
def execCpeq (rc ra : RegNum) (rb : Src2) (s : State) : Result :=
  s.compare rc ra rb fun a b => a == b

/-- CPNEQ: TRUE if SRCA <> SRCB (41 R292). -/
def execCpneq (rc ra : RegNum) (rb : Src2) (s : State) : Result :=
  s.compare rc ra rb fun a b => a != b

/-- CPLT: TRUE if SRCA < SRCB, signed (41 R293). -/
def execCplt (rc ra : RegNum) (rb : Src2) (s : State) : Result :=
  s.compare rc ra rb fun a b => a.slt b

/-- CPLTU: TRUE if SRCA < SRCB, unsigned (41 R294). -/
def execCpltu (rc ra : RegNum) (rb : Src2) (s : State) : Result :=
  s.compare rc ra rb fun a b => a.ult b

/-- CPLE: TRUE if SRCA <= SRCB, signed (41 R295). -/
def execCple (rc ra : RegNum) (rb : Src2) (s : State) : Result :=
  s.compare rc ra rb fun a b => a.sle b

/-- CPLEU: TRUE if SRCA <= SRCB, unsigned (41 R296). -/
def execCpleu (rc ra : RegNum) (rb : Src2) (s : State) : Result :=
  s.compare rc ra rb fun a b => a.ule b

/-- CPGT: TRUE if SRCA > SRCB, signed (41 R297). -/
def execCpgt (rc ra : RegNum) (rb : Src2) (s : State) : Result :=
  s.compare rc ra rb fun a b => b.slt a

/-- CPGTU: TRUE if SRCA > SRCB, unsigned (41 R298). -/
def execCpgtu (rc ra : RegNum) (rb : Src2) (s : State) : Result :=
  s.compare rc ra rb fun a b => b.ult a

/-- CPGE: TRUE if SRCA >= SRCB, signed (41 R299). -/
def execCpge (rc ra : RegNum) (rb : Src2) (s : State) : Result :=
  s.compare rc ra rb fun a b => b.sle a

/-- CPGEU: TRUE if SRCA >= SRCB, unsigned (41 R300). -/
def execCpgeu (rc ra : RegNum) (rb : Src2) (s : State) : Result :=
  s.compare rc ra rb fun a b => b.ule a

/-- CPBYTE: TRUE if bytes in some same position are equal (41 R301). -/
def execCpbyte (rc ra : RegNum) (rb : Src2) (s : State) : Result :=
  s.compare rc ra rb anyByteEqual

/-- ASEQ: traps unless SRCA = SRCB (41 R305). -/
def execAseq (vn : BitVec 8) (ra : RegNum) (rb : Src2) (s : State) : Result :=
  s.assert vn ra rb fun a b => a == b

/-- ASNEQ: traps unless SRCA <> SRCB (41 R306). -/
def execAsneq (vn : BitVec 8) (ra : RegNum) (rb : Src2) (s : State) : Result :=
  s.assert vn ra rb fun a b => a != b

/-- ASLT: traps unless SRCA < SRCB, signed (41 R307). -/
def execAslt (vn : BitVec 8) (ra : RegNum) (rb : Src2) (s : State) : Result :=
  s.assert vn ra rb fun a b => a.slt b

/-- ASLTU: traps unless SRCA < SRCB, unsigned (41 R308). -/
def execAsltu (vn : BitVec 8) (ra : RegNum) (rb : Src2) (s : State) : Result :=
  s.assert vn ra rb fun a b => a.ult b

/-- ASLE: traps unless SRCA <= SRCB, signed (41 R309). -/
def execAsle (vn : BitVec 8) (ra : RegNum) (rb : Src2) (s : State) : Result :=
  s.assert vn ra rb fun a b => a.sle b

/-- ASLEU: traps unless SRCA <= SRCB, unsigned (41 R310). -/
def execAsleu (vn : BitVec 8) (ra : RegNum) (rb : Src2) (s : State) : Result :=
  s.assert vn ra rb fun a b => a.ule b

/-- ASGT: traps unless SRCA > SRCB, signed (41 R311). -/
def execAsgt (vn : BitVec 8) (ra : RegNum) (rb : Src2) (s : State) : Result :=
  s.assert vn ra rb fun a b => b.slt a

/-- ASGTU: traps unless SRCA > SRCB, unsigned (41 R312). -/
def execAsgtu (vn : BitVec 8) (ra : RegNum) (rb : Src2) (s : State) : Result :=
  s.assert vn ra rb fun a b => b.ult a

/-- ASGE: traps unless SRCA >= SRCB, signed (41 R313). -/
def execAsge (vn : BitVec 8) (ra : RegNum) (rb : Src2) (s : State) : Result :=
  s.assert vn ra rb fun a b => b.sle a

/-- ASGEU: traps unless SRCA >= SRCB, unsigned (41 R314). -/
def execAsgeu (vn : BitVec 8) (ra : RegNum) (rb : Src2) (s : State) : Result :=
  s.assert vn ra rb fun a b => b.ule a

end Sys2Proof.Machine
end

