-- ==== Sys2Proof/Machine/Constant.lean ====
section
/-! DEFINITION. The Constant class (45 R420 to R424). -/

namespace Sys2Proof.Machine

/-- CONST: DEST <- the constant zero-extended; the destination is RA (45 R421). -/
def execConst (ra : RegNum) (i16 : BitVec 16) (s : State) : Result :=
  s.destA ra fun a s1 => .next (s1.plainResult a (0#16 ++ i16))

/-- CONSTH: the high half-word of RA replaced (45 R422). -/
def execConsth (ra : RegNum) (i16 : BitVec 16) (s : State) : Result :=
  s.readA ra fun a v s1 => .next (s1.plainResult a (i16 ++ v.extractLsb' 0 16))

/-- CONSTN: DEST <- the constant ones-extended (45 R423). -/
def execConstn (ra : RegNum) (i16 : BitVec 16) (s : State) : Result :=
  s.destA ra fun a s1 => .next (s1.plainResult a (0xFFFF#16 ++ i16))

end Sys2Proof.Machine
end

