-- ==== Sys2Proof/Machine/DataMove.lean ====
section
/-! DEFINITION. Byte and half-word instructions, and moves to and from special-purpose and TLB registers (44 R393 to R406). -/

namespace Sys2Proof.Machine

/-- `CFG.BO` (10 R59). -/
def State.byteOrder (s : State) : Bool := s.cfg.getLsbD cfgBO

/-- Bit number of the lowest bit of the byte selected by BP and BO (44 R398, 20 R131). -/
def byteLow (bo : Bool) (bp : BitVec 2) : Nat := if bo then 8 * bp.toNat else 8 * (3 - bp.toNat)

/-- Bit number of the lowest bit of the half-word selected by the high bit of BP and by BO (44 R398). -/
def halfLow (bo : Bool) (bp : BitVec 2) : Nat := if bp.getLsbD 1 = bo then 16 else 0

/-- The byte of `x` that BP and BO select (44 R398). -/
def State.selectedByte (s : State) (x : Word) : BitVec 8 := x.extractLsb' (byteLow s.byteOrder s.bytePointer) 8

/-- The half-word of `x` that BP and BO select (44 R398). -/
def State.selectedHalf (s : State) (x : Word) : BitVec 16 := x.extractLsb' (halfLow s.byteOrder s.bytePointer) 16

/-- EXBYTE: SRCB with its low byte replaced by the selected byte of SRCA (44 R393). -/
def execExbyte (rc ra : RegNum) (rb : Src2) (s : State) : Result :=
  s.binary rc ra rb fun c a b s1 => .next (s1.plainResult c (b.extractLsb' 8 24 ++ s1.selectedByte a))

/-- EXHW: SRCB with its low half-word replaced by the selected half-word of SRCA (44 R394). -/
def execExhw (rc ra : RegNum) (rb : Src2) (s : State) : Result :=
  s.binary rc ra rb fun c a b s1 => .next (s1.plainResult c (b.extractLsb' 16 16 ++ s1.selectedHalf a))

/-- EXHWS: the selected half-word of SRCA, sign-extended (44 R395). -/
def execExhws (rc ra : RegNum) (s : State) : Result :=
  s.unaryA rc ra fun c a s1 => .next (s1.plainResult c ((s1.selectedHalf a).signExtend 32))

/-- INBYTE: SRCA with the selected byte replaced by the low byte of SRCB (44 R396). -/
def execInbyte (rc ra : RegNum) (rb : Src2) (s : State) : Result :=
  s.binary rc ra rb fun c a b s1 =>
    .next (s1.plainResult c (putField a (byteLow s1.byteOrder s1.bytePointer) (b.extractLsb' 0 8)))

/-- INHW: SRCA with the selected half-word replaced by the low half-word of SRCB (44 R397). -/
def execInhw (rc ra : RegNum) (rb : Src2) (s : State) : Result :=
  s.binary rc ra rb fun c a b s1 =>
    .next (s1.plainResult c (putField a (halfLow s1.byteOrder s1.bytePointer) (b.extractLsb' 0 16)))

/-- A program without access to protected state names a protected special-purpose register, 0 to 127 (10 R41). -/
def State.specialForbidden (s : State) (sa : BitVec 8) : Bool := !s.supervisor && !sa.getLsbD 7

/-- MFSR: DEST <- the special-purpose register (44 R400). -/
def execMfsr (rc : RegNum) (sa : BitVec 8) (s : State) : Result :=
  let c := s.absReg .C rc
  if s.specialForbidden sa || s.isProtected c then s.protectionViolation
  else .next (s.plainResult c (s.readSpecial sa))

/-- The end of a move to special-purpose register `sa` (44 R405): after a write of `CPS` the trace bit is kept as written. -/
def State.moveResult (s : State) (sa : BitVec 8) (v : Word) : State :=
  if sa = 2#8 then (s.writeSpecial sa v).traceKeep.advance else (s.writeSpecial sa v).retire

/-- MTSR: the special-purpose register <- SRCB, once the access in flight has completed (44 R401). -/
def execMtsr (sa : BitVec 8) (rb : RegNum) (s : State) : Result :=
  s.finishAccess fun s1 =>
    if s1.specialForbidden sa then s1.protectionViolation
    else s1.readB rb fun v s2 => .next (s2.moveResult sa v)

/-- MTSRIM: the special-purpose register <- the constant zero-extended (44 R402). -/
def execMtsrim (sa : BitVec 8) (i16 : BitVec 16) (s : State) : Result :=
  s.finishAccess fun s1 =>
    if s1.specialForbidden sa then s1.protectionViolation else .next (s1.moveResult sa (0#16 ++ i16))

/-- MFTLB: DEST <- the TLB register that bits 6-0 of SRCA name (44 R403). -/
def execMftlb (rc ra : RegNum) (s : State) : Result :=
  if !s.supervisor then s.protectionViolation
  else s.unaryA rc ra fun c a s1 => .next (s1.plainResult c (s1.readTlb (a.extractLsb' 0 7)))

/-- MTTLB: the TLB register that bits 6-0 of SRCA name <- SRCB (44 R404). -/
def execMttlb (ra rb : RegNum) (s : State) : Result :=
  s.finishAccess fun s1 =>
    if !s1.supervisor then s1.protectionViolation
    else s1.sources ra (.reg rb) fun a b s2 => .next (s2.writeTlb (a.extractLsb' 0 7) b).retire

end Sys2Proof.Machine
end

