-- ==== Sys2Proof/Machine/IntArith.lean ====
section
/-! DEFINITION. The Integer Arithmetic class (40 R240 to R272). -/

namespace Sys2Proof.Machine

/-- How an S- or U-suffixed instruction ends: Out of Range, vector 2, after the result and the flags (40 R269). -/
def State.rangeResult (s : State) (outOfRange : Bool) : Result := if outOfRange then s.raiseNext 2#8 else .next s

/-- ADD: DEST <- SRCA + SRCB (40 R242). -/
def execAdd (rc ra : RegNum) (rb : Src2) (s : State) : Result :=
  s.binary rc ra rb fun c a b s1 =>
    let sum := add3 a b false
    .next (s1.arithResult c sum sum.r)

/-- ADDS: DEST <- SRCA + SRCB, signed overflow traps (40 R243). -/
def execAdds (rc ra : RegNum) (rb : Src2) (s : State) : Result :=
  s.binary rc ra rb fun c a b s1 =>
    let sum := add3 a b false
    (s1.arithResult c sum sum.r).rangeResult sum.v

/-- ADDU: DEST <- SRCA + SRCB, unsigned overflow traps (40 R244). -/
def execAddu (rc ra : RegNum) (rb : Src2) (s : State) : Result :=
  s.binary rc ra rb fun c a b s1 =>
    let sum := add3 a b false
    (s1.arithResult c sum sum.r).rangeResult sum.cout

/-- ADDC: DEST <- SRCA + SRCB + C (40 R245). -/
def execAddc (rc ra : RegNum) (rb : Src2) (s : State) : Result :=
  s.binary rc ra rb fun c a b s1 =>
    let sum := add3 a b s1.carry
    .next (s1.arithResult c sum sum.r)

/-- ADDCS: DEST <- SRCA + SRCB + C, signed overflow traps (40 R246). -/
def execAddcs (rc ra : RegNum) (rb : Src2) (s : State) : Result :=
  s.binary rc ra rb fun c a b s1 =>
    let sum := add3 a b s1.carry
    (s1.arithResult c sum sum.r).rangeResult sum.v

/-- ADDCU: DEST <- SRCA + SRCB + C, unsigned overflow traps (40 R247). -/
def execAddcu (rc ra : RegNum) (rb : Src2) (s : State) : Result :=
  s.binary rc ra rb fun c a b s1 =>
    let sum := add3 a b s1.carry
    (s1.arithResult c sum sum.r).rangeResult sum.cout

/-- SUB: DEST <- SRCA - SRCB (40 R248). -/
def execSub (rc ra : RegNum) (rb : Src2) (s : State) : Result :=
  s.binary rc ra rb fun c a b s1 =>
    let sum := add3 a (~~~b) true
    .next (s1.arithResult c sum sum.r)

/-- SUBS: DEST <- SRCA - SRCB, signed overflow traps (40 R249). -/
def execSubs (rc ra : RegNum) (rb : Src2) (s : State) : Result :=
  s.binary rc ra rb fun c a b s1 =>
    let sum := add3 a (~~~b) true
    (s1.arithResult c sum sum.r).rangeResult sum.v

/-- SUBU: DEST <- SRCA - SRCB, unsigned underflow traps (40 R250). -/
def execSubu (rc ra : RegNum) (rb : Src2) (s : State) : Result :=
  s.binary rc ra rb fun c a b s1 =>
    let sum := add3 a (~~~b) true
    (s1.arithResult c sum sum.r).rangeResult (!sum.cout)

/-- SUBC: DEST <- SRCA - SRCB - 1 + C (40 R251). -/
def execSubc (rc ra : RegNum) (rb : Src2) (s : State) : Result :=
  s.binary rc ra rb fun c a b s1 =>
    let sum := add3 a (~~~b) s1.carry
    .next (s1.arithResult c sum sum.r)

/-- SUBCS: DEST <- SRCA - SRCB - 1 + C, signed overflow traps (40 R252). -/
def execSubcs (rc ra : RegNum) (rb : Src2) (s : State) : Result :=
  s.binary rc ra rb fun c a b s1 =>
    let sum := add3 a (~~~b) s1.carry
    (s1.arithResult c sum sum.r).rangeResult sum.v

/-- SUBCU: DEST <- SRCA - SRCB - 1 + C, unsigned underflow traps (40 R253). -/
def execSubcu (rc ra : RegNum) (rb : Src2) (s : State) : Result :=
  s.binary rc ra rb fun c a b s1 =>
    let sum := add3 a (~~~b) s1.carry
    (s1.arithResult c sum sum.r).rangeResult (!sum.cout)

/-- SUBR: DEST <- SRCB - SRCA (40 R254). -/
def execSubr (rc ra : RegNum) (rb : Src2) (s : State) : Result :=
  s.binary rc ra rb fun c a b s1 =>
    let sum := add3 b (~~~a) true
    .next (s1.arithResult c sum sum.r)

/-- SUBRS: DEST <- SRCB - SRCA, signed overflow traps (40 R255). -/
def execSubrs (rc ra : RegNum) (rb : Src2) (s : State) : Result :=
  s.binary rc ra rb fun c a b s1 =>
    let sum := add3 b (~~~a) true
    (s1.arithResult c sum sum.r).rangeResult sum.v

/-- SUBRU: DEST <- SRCB - SRCA, unsigned underflow traps (40 R256). -/
def execSubru (rc ra : RegNum) (rb : Src2) (s : State) : Result :=
  s.binary rc ra rb fun c a b s1 =>
    let sum := add3 b (~~~a) true
    (s1.arithResult c sum sum.r).rangeResult (!sum.cout)

/-- SUBRC: DEST <- SRCB - SRCA - 1 + C (40 R257). -/
def execSubrc (rc ra : RegNum) (rb : Src2) (s : State) : Result :=
  s.binary rc ra rb fun c a b s1 =>
    let sum := add3 b (~~~a) s1.carry
    .next (s1.arithResult c sum sum.r)

/-- SUBRCS: DEST <- SRCB - SRCA - 1 + C, signed overflow traps (40 R258). -/
def execSubrcs (rc ra : RegNum) (rb : Src2) (s : State) : Result :=
  s.binary rc ra rb fun c a b s1 =>
    let sum := add3 b (~~~a) s1.carry
    (s1.arithResult c sum sum.r).rangeResult sum.v

/-- SUBRCU: DEST <- SRCB - SRCA - 1 + C, unsigned underflow traps (40 R259). -/
def execSubrcu (rc ra : RegNum) (rb : Src2) (s : State) : Result :=
  s.binary rc ra rb fun c a b s1 =>
    let sum := add3 b (~~~a) s1.carry
    (s1.arithResult c sum sum.r).rangeResult (!sum.cout)

/-- A multiply step after its add: the sum and `Q` shifted right together, `top` filling bit 63 (40 R260). -/
def State.multiplyStep (s : State) (c : RegNum) (sum : Sum) (top : Bool) : State :=
  ({ s with q := sum.r.extractLsb' 0 1 ++ s.q.extractLsb' 1 31 } : State).arithResult c sum
    (bitOf top ++ sum.r.extractLsb' 1 31)

/-- The multiplicand of a multiply step: SRCA if `Q[0]` is 1, else zero (40 R260). -/
def State.multiplicand (s : State) (a : Word) : Word := if s.q.getLsbD 0 then a else 0#32

/-- MUL: one step of a signed multiply (40 R260). -/
def execMul (rc ra : RegNum) (rb : Src2) (s : State) : Result :=
  s.binary rc ra rb fun c a b s1 =>
    let sum := add3 (s1.multiplicand a) b false
    .next (s1.multiplyStep c sum (sum.r.getLsbD 31 ^^ sum.v))

/-- MULL: the last step of a signed multiply, a subtraction (40 R261). -/
def execMull (rc ra : RegNum) (rb : Src2) (s : State) : Result :=
  s.binary rc ra rb fun c a b s1 =>
    let sum := add3 b (~~~(s1.multiplicand a)) true
    .next (s1.multiplyStep c sum (sum.r.getLsbD 31 ^^ sum.v))

/-- An instruction emulated by software: the three pointers are set, then it traps (40 R262, 46 R430). -/
def State.emulated3 (s : State) (vn : Byte) (rc ra rb : RegNum) : Result :=
  let a := s.absReg .A ra
  let b := s.absReg .B rb
  let c := s.absReg .C rc
  if s.isProtected a || s.isProtected b || s.isProtected c then s.protectionViolation
  else (s.setPointers a b c).retire.raiseNext vn

/-- MULTIPLY: traps to vector 32 with the pointers set (40 R262). -/
def execMultiply (rc ra rb : RegNum) (s : State) : Result := s.emulated3 32#8 rc ra rb

/-- DIVIDE: traps to vector 33 with the pointers set (40 R263). -/
def execDivide (rc ra rb : RegNum) (s : State) : Result := s.emulated3 33#8 rc ra rb

/-- MULU: one step of an unsigned multiply (40 R264). -/
def execMulu (rc ra : RegNum) (rb : Src2) (s : State) : Result :=
  s.binary rc ra rb fun c a b s1 =>
    let sum := add3 (s1.multiplicand a) b false
    .next (s1.multiplyStep c sum sum.cout)

/-- DIV0: SRCB and `Q` shifted left together; DF set; the flags are those of `SRCB + 0` (40 R265; entry 22). -/
def execDiv0 (rc : RegNum) (rb : Src2) (s : State) : Result :=
  s.unaryB rc rb fun c b s1 =>
    .next
      (({ s1 with q := s1.q.extractLsb' 0 31 ++ 0#1 } : State).setDivideFlag true |>.arithResult c (add3 0#32 b false)
        (b.extractLsb' 0 31 ++ s1.q.extractLsb' 31 1))

/-- The add of a divide step: a subtraction if DF is 1 (40 R266). -/
def State.divideAdd (s : State) (a b : Word) : Sum := if s.divideFlag then add3 a (~~~b) true else add3 a b false

/-- The quotient bit of a divide step, the new DF (40 R266). -/
def State.quotientBit (s : State) (sum : Sum) : Bool := !(sum.cout ^^ s.divideFlag ^^ s.negative)

/-- `Q` shifted left with the quotient bit, and DF set to it (40 R266, R267). -/
def State.divideStep (s : State) (df : Bool) : State :=
  ({ s with q := s.q.extractLsb' 0 31 ++ bitOf df } : State).setDivideFlag df

/-- DIV: one step of an unsigned divide (40 R266). -/
def execDiv (rc ra : RegNum) (rb : Src2) (s : State) : Result :=
  s.binary rc ra rb fun c a b s1 =>
    let sum := s1.divideAdd a b
    .next ((s1.divideStep (s1.quotientBit sum)).arithResult c sum (sum.r.extractLsb' 0 31 ++ s1.q.extractLsb' 31 1))

/-- DIVL: the last step, whose partial remainder is not shifted (40 R267; entry 22). -/
def execDivl (rc ra : RegNum) (rb : Src2) (s : State) : Result :=
  s.binary rc ra rb fun c a b s1 =>
    let sum := s1.divideAdd a b
    .next ((s1.divideStep (s1.quotientBit sum)).arithResult c sum sum.r)

/-- DIVREM: the remainder, SRCB added back if DF is 0 (40 R268; entry 22). -/
def execDivrem (rc ra : RegNum) (rb : Src2) (s : State) : Result :=
  s.binary rc ra rb fun c a b s1 =>
    let sum := if s1.divideFlag then add3 a 0#32 false else add3 a b false
    .next (s1.arithResult c sum sum.r)

end Sys2Proof.Machine
end

