-- ==== Sys2Proof/Machine/FloatingPoint.lean ====
section
/-! DEFINITION. The Floating-Point class: every instruction traps to software (46 R430 to R451). -/

namespace Sys2Proof.Machine

/-- A conversion emulated by software: IPA and IPC are set, IPB takes any value, then it traps (46 R430, 93 U24;
entry 23). -/
def State.emulated2 (s : State) (vn : Byte) (rc ra : RegNum) : Result :=
  let a := s.absReg .A ra
  let c := s.absReg .C rc
  if s.isProtected a || s.isProtected c then s.protectionViolation
  else (s.setPointers a ((s.free .pointer).extractLsb' 0 8) c).retire.raiseNext vn

/-- FADD: traps to vector 48 with the pointers set (46 R431). -/
def execFadd (rc ra rb : RegNum) (s : State) : Result := s.emulated3 48#8 rc ra rb

/-- DADD: traps to vector 49 with the pointers set (46 R432). -/
def execDadd (rc ra rb : RegNum) (s : State) : Result := s.emulated3 49#8 rc ra rb

/-- FSUB: traps to vector 50 with the pointers set (46 R433). -/
def execFsub (rc ra rb : RegNum) (s : State) : Result := s.emulated3 50#8 rc ra rb

/-- DSUB: traps to vector 51 with the pointers set (46 R434). -/
def execDsub (rc ra rb : RegNum) (s : State) : Result := s.emulated3 51#8 rc ra rb

/-- FMUL: traps to vector 52 with the pointers set (46 R435). -/
def execFmul (rc ra rb : RegNum) (s : State) : Result := s.emulated3 52#8 rc ra rb

/-- DMUL: traps to vector 53 with the pointers set (46 R436). -/
def execDmul (rc ra rb : RegNum) (s : State) : Result := s.emulated3 53#8 rc ra rb

/-- FDIV: traps to vector 54 with the pointers set (46 R437). -/
def execFdiv (rc ra rb : RegNum) (s : State) : Result := s.emulated3 54#8 rc ra rb

/-- DDIV: traps to vector 55 with the pointers set (46 R438). -/
def execDdiv (rc ra rb : RegNum) (s : State) : Result := s.emulated3 55#8 rc ra rb

/-- FEQ: traps to vector 42 with the pointers set (46 R439). -/
def execFeq (rc ra rb : RegNum) (s : State) : Result := s.emulated3 42#8 rc ra rb

/-- DEQ: traps to vector 43 with the pointers set (46 R440). -/
def execDeq (rc ra rb : RegNum) (s : State) : Result := s.emulated3 43#8 rc ra rb

/-- FLT: traps to vector 46 with the pointers set (46 R441). -/
def execFlt (rc ra rb : RegNum) (s : State) : Result := s.emulated3 46#8 rc ra rb

/-- DLT: traps to vector 47 with the pointers set (46 R442). -/
def execDlt (rc ra rb : RegNum) (s : State) : Result := s.emulated3 47#8 rc ra rb

/-- FGT: traps to vector 44 with the pointers set (46 R443). -/
def execFgt (rc ra rb : RegNum) (s : State) : Result := s.emulated3 44#8 rc ra rb

/-- DGT: traps to vector 45 with the pointers set (46 R444). -/
def execDgt (rc ra rb : RegNum) (s : State) : Result := s.emulated3 45#8 rc ra rb

/-- CVINTF: traps to vector 36 with the pointers set (46 R445). -/
def execCvintf (rc ra : RegNum) (s : State) : Result := s.emulated2 36#8 rc ra

/-- CVINTD: traps to vector 37 with the pointers set (46 R446). -/
def execCvintd (rc ra : RegNum) (s : State) : Result := s.emulated2 37#8 rc ra

/-- CVFINT: traps to vector 38 with the pointers set (46 R447). -/
def execCvfint (rc ra : RegNum) (s : State) : Result := s.emulated2 38#8 rc ra

/-- CVDINT: traps to vector 39 with the pointers set (46 R448). -/
def execCvdint (rc ra : RegNum) (s : State) : Result := s.emulated2 39#8 rc ra

/-- CVFD: traps to vector 40 with the pointers set (46 R449). -/
def execCvfd (rc ra : RegNum) (s : State) : Result := s.emulated2 40#8 rc ra

/-- CVDF: traps to vector 41 with the pointers set (46 R450). -/
def execCvdf (rc ra : RegNum) (s : State) : Result := s.emulated2 41#8 rc ra

end Sys2Proof.Machine
end

