-- ==== Sys2Proof/Machine/LoadStore.lean ====
section
/-! DEFINITION. Loads and stores, single and multiple (44 R370 to R392, 20 R160, 60 R554). -/

namespace Sys2Proof.Machine

/-- The descriptor of an access (20 R132, 44 R371); its physical address is not known yet. -/
def State.descriptor (s : State) (isLoad set la : Bool) (ctl : BitVec 8) (tr : RegNum) (addr data : Word) : Access :=
  { ctl := ctl, isLoad := isLoad, set := set, la := la, user := s.userAccess ctl, lock := s.lockActive set la, tr := tr,
    addr := addr, pa := addr, pgm := 0#2, data := data, discard := false, left := 0 }

/-- Step (a) of `StartAccess`: PA in User mode, and bank protection (20 R149). `tr` and `b` are absolute. -/
def State.accessForbidden (s : State) (ctl : BitVec 8) (tr : RegNum) (b : Src2) : Bool :=
  (!s.supervisor && !ctl.getLsbD ctlCE && ctl.getLsbD ctlPA) || s.isProtected tr || s.protectedSrc b

/-- The Load/Store Count Remaining field (10 R65). -/
def State.countRemaining (s : State) : BitVec 8 := s.chc.extractLsb' chcCR 8

/-- `CHC.ML` is 1 because of a move, and `CHC` is not frozen: a load or store is then unpredictable (44 R389, 93 U14). An
access under a frozen `CHC`, as of a handler that has restored it for its return, is made and changes nothing there (20 R145,
60 R575, R614; entry 14, DEDUCED). -/
def State.multipleByMove (s : State) : Bool := s.mlByMove && s.chc.getLsbD chcML && !s.frozen

/-- A single load or store (44 R371, 20 R149). -/
def State.loadStore (s : State) (isLoad set la : Bool) (ctl : BitVec 8) (ra : RegNum) (rb : Src2) : Result :=
  let tr := s.absReg .A ra
  let b := s.resolve rb
  if s.accessForbidden ctl tr b then s.protectionViolation
  else if s.multipleByMove then .refused .multipleSetByMove
  else
    s.finishAccess fun s1 =>
      let d := s1.descriptor isLoad set la ctl tr (s1.srcValue b) (if isLoad then 0#32 else s1.readReg .A tr)
      match s1.issue d false s1.countRemaining with
      | .ok d1 s2 => .next (s2.startAccess d1).retire
      | .trap vn s2 => s2.retire.raiseAccess vn

/-- LOAD (44 R380). -/
def execLoad (ctl : BitVec 8) (ra : RegNum) (rb : Src2) (s : State) : Result := s.loadStore true false false ctl ra rb

/-- LOADL: `*LOCK` active, LA recorded (44 R381). -/
def execLoadl (ctl : BitVec 8) (ra : RegNum) (rb : Src2) (s : State) : Result := s.loadStore true false true ctl ra rb

/-- LOADSET: the word is then written with ones, indivisibly (44 R382). -/
def execLoadset (ctl : BitVec 8) (ra : RegNum) (rb : Src2) (s : State) : Result := s.loadStore true true false ctl ra rb

/-- STORE (44 R383). -/
def execStore (ctl : BitVec 8) (ra : RegNum) (rb : Src2) (s : State) : Result := s.loadStore false false false ctl ra rb

/-- STOREL: `*LOCK` active, LA recorded (44 R384). -/
def execStorel (ctl : BitVec 8) (ra : RegNum) (rb : Src2) (s : State) : Result := s.loadStore false false true ctl ra rb

/-- How a multiple sequence ends. -/
inductive MultiRun where
  /-- all transfers made -/
  | done (s : State)
  /-- cut by an asynchronous event; the channel registers describe the next transfer -/
  | event (prio : Nat) (vn : Byte) (s : State)
  /-- cut by `*WARN` -/
  | warn (s : State)
  /-- cut by `*RESET`, which the next boundary takes -/
  | reset (s : State)
  /-- a transfer that is never answered; it is in flight -/
  | held (s : State)
  /-- a data-side trap of a transfer -/
  | trap (vn : Byte) (s : State)
  /-- a transfer was answered with `*DERR` -/
  | failed (s : State)
  /-- a protected register was met -/
  | prot (s : State)

/-- The register after `a` in a sequence: 127 and 255 are followed by 128 (20 R160). -/
def nextReg (a : RegNum) : RegNum := if a = 127#8 || a = 255#8 then 128#8 else a + 1#8

/-- The next access of a sequence (20 R160, 44 R386): address + 4, next register, its data read now for a store. -/
def State.nextAccess (s : State) (d : Access) : Access :=
  { d with
    addr := d.addr + 4#32
    tr := nextReg d.tr
    data := if d.isLoad then d.data else s.readReg .A (nextReg d.tr) }

/-- Time passes between two accesses of a sequence: the pins are sampled, unless the sample is of a change of `CNTL0-CNTL1`
without `*WARN`, which waits for the step's end (60 R554; entry 34). -/
def State.betweenAccesses (s : State) : State :=
  let s1 := if s.nextPins.cntl != s.pins.cntl && !s.alarm then s else s.samplePins
  { s1.timer (s1.env.cycles.headD 0) with env := { s1.env with cycles := s1.env.cycles.drop 1 } }

/-- The end of a completed sequence: ML reset, CR any value (44 R386, 93 U22), unless `CHC` is frozen (20 R145). -/
def State.endMultiple (s : State) : State :=
  if s.frozen then s
  else { s with chc := putField (putBit s.chc chcML false) chcCR ((s.free .crAfter).extractLsb' 0 8) }

/-- `RunMultiple` (44 R386) with `n` = CR, from the access `d`. Between two accesses `*RESET` and `*WARN` cut the sequence
(70 R650), and, if `interruptible`, a pending and enabled event does so, the next access being recorded (60 R554). A protected
register that is next comes before the pins are sampled and before any event: 44 R386 and 60 R546 leave the order open
(entry 35, DESIGN CHOICE, unsafe). -/
def State.runMultiple (n : Nat) (d : Access) (interruptible : Bool) (s : State) : MultiRun :=
  match s.issue d true (BitVec.ofNat 8 n) with
  | .trap vn s1 => .trap vn s1
  | .ok d1 s1 =>
    match s1.answer d1 with
    | .error => .failed (s1.complete d1)
    | .never => .held { s1 with inflight := some d1 }
    | .ready =>
      let s2 := s1.complete d1
      match n with
      | 0 => .done s2.endMultiple
      | k + 1 =>
        let d2 := s2.nextAccess d
        if s2.isProtected d2.tr then .prot s2
        else if s2.nextPins.reset then .reset s2
        else
          let s3 := s2.betweenAccesses
          if s3.warnPending then .warn (s3.record d2 true (BitVec.ofNat 8 k))
          else
            match (if interruptible then s3.asyncEvent else none) with
            | some (prio, vn) => .event prio vn (s3.record d2 true (BitVec.ofNat 8 k))
            | none => State.runMultiple k d2 interruptible s3

/-- The channel registers after a protected register was met in a sequence: CHA, CHD and CR, TR, ML, CV take any value
(44 R391, 93 U23; entry 35). They do so even where they are frozen, in a sequence that a return resumed which restored FZ = 1:
10 R66 would have them hold, 93 U23 lets them be any value, and the spec does not say which goes first (entry 35, DESIGN
CHOICE, safe: the values they would hold are among the free ones). -/
def State.undefinedChannel (s : State) : State :=
  { s with
    cha := s.free (.multProt 0)
    chd := s.free (.multProt 1)
    chc := (s.chc &&& ~~~0x00FF43FD#32) ||| (s.free (.multProt 2) &&& 0x00FF43FD#32) }

/-- What a sequence makes of the machine, `adv` being how the instruction that runs it ends. A sequence that an interrupt
return resumed counts as `LOADM` or `STOREM` for the instruction that comes next: 44 R389 leaves open whether one of these may
stand there (entry 14, DESIGN CHOICE, safe). -/
def MultiRun.result (r : MultiRun) (adv : State → State) : Result :=
  match r with
  | .done s => .next { adv s with afterMultiple := true }
  | .event prio vn s => (adv s).takeAsync prio vn
  | .warn s => .next (adv s).takeWarn
  | .reset s => .next (adv s)
  | .held s => .next (adv s).hold
  | .trap vn s => (adv s).raiseAccess vn
  | .failed s => .next (adv s)
  | .prot s => s.undefinedChannel.protectionViolation

/-- `LOADM`/`STOREM` (44 R386, R389). -/
def State.loadStoreMultiple (s : State) (isLoad : Bool) (ctl : BitVec 8) (ra : RegNum) (rb : Src2) : Result :=
  let tr := s.absReg .A ra
  let b := s.resolve rb
  if s.accessForbidden ctl tr b then s.protectionViolation
  else if s.testing then .refused .excludedFromTest
  else if s.fz then .refused .multipleFrozen
  else if s.afterMultiple then .refused .multipleAdjacent
  else if s.multipleByMove then .refused .multipleSetByMove
  else
    s.finishAccess fun s1 =>
      let d := s1.descriptor isLoad false false ctl tr (s1.srcValue b) (if isLoad then 0#32 else s1.readReg .A tr)
      (s1.runMultiple s1.countRemaining.toNat d true).result State.retire

/-- LOADM (44 R387). -/
def execLoadm (ctl : BitVec 8) (ra : RegNum) (rb : Src2) (s : State) : Result := s.loadStoreMultiple true ctl ra rb

/-- STOREM (44 R388). -/
def execStorem (ctl : BitVec 8) (ra : RegNum) (rb : Src2) (s : State) : Result := s.loadStoreMultiple false ctl ra rb

end Sys2Proof.Machine
end

