-- ==== Sys2Proof/Machine/Logical.lean ====
section
/-! DEFINITION. The Logical class (42 R330 to R338). -/

namespace Sys2Proof.Machine

/-- A Logical instruction: N and Z from the result, then DEST (42 R330). -/
def State.logical (s : State) (rc ra : RegNum) (rb : Src2) (f : Word → Word → Word) : Result :=
  s.binary rc ra rb fun c a b s1 => .next ((s1.setNZ (f a b)).writeReg true c (f a b)).retire

/-- AND: DEST <- SRCA & SRCB (42 R331). -/
def execAnd (rc ra : RegNum) (rb : Src2) (s : State) : Result :=
  s.logical rc ra rb fun a b => a &&& b

/-- ANDN: DEST <- SRCA & ~SRCB (42 R332). -/
def execAndn (rc ra : RegNum) (rb : Src2) (s : State) : Result :=
  s.logical rc ra rb fun a b => a &&& ~~~b

/-- NAND: DEST <- ~(SRCA & SRCB) (42 R333). -/
def execNand (rc ra : RegNum) (rb : Src2) (s : State) : Result :=
  s.logical rc ra rb fun a b => ~~~(a &&& b)

/-- OR: DEST <- SRCA | SRCB (42 R334). -/
def execOr (rc ra : RegNum) (rb : Src2) (s : State) : Result :=
  s.logical rc ra rb fun a b => a ||| b

/-- NOR: DEST <- ~(SRCA | SRCB) (42 R335). -/
def execNor (rc ra : RegNum) (rb : Src2) (s : State) : Result :=
  s.logical rc ra rb fun a b => ~~~(a ||| b)

/-- XOR: DEST <- SRCA ^ SRCB (42 R336). -/
def execXor (rc ra : RegNum) (rb : Src2) (s : State) : Result :=
  s.logical rc ra rb fun a b => a ^^^ b

/-- XNOR: DEST <- ~(SRCA ^ SRCB) (42 R337). -/
def execXnor (rc ra : RegNum) (rb : Src2) (s : State) : Result :=
  s.logical rc ra rb fun a b => ~~~(a ^^^ b)

end Sys2Proof.Machine
end

