-- ==== Sys2Proof/Machine/Misc.lean ====
section
/-! DEFINITION. The Miscellaneous class, the interrupt return among it (48 R500 to R508, 60 R570 to R574). -/

namespace Sys2Proof.Machine

/-- Zero bits of `w` above its highest 1 among bits `n - 1` to 0; `n` if there is none. -/
def leadingZeros (w : Word) (n : Nat) : Nat :=
  match n with
  | 0 => 0
  | k + 1 => if w.getLsbD k then 0 else 1 + leadingZeros w k

/-- CLZ: DEST <- the count of leading zero bits of SRCB, 32 for zero (48 R501; entry 22). -/
def execClz (rc : RegNum) (rb : Src2) (s : State) : Result :=
  s.unaryB rc rb fun c b s1 => .next (s1.plainResult c (BitVec.ofNat 32 (leadingZeros b 32)))

/-- SETIP: the three indirect pointers <- the absolute numbers of the three registers (48 R502). -/
def execSetip (rc ra rb : RegNum) (s : State) : Result :=
  let a := s.absReg .A ra
  let b := s.absReg .B rb
  let c := s.absReg .C rc
  if s.isProtected a || s.isProtected b || s.isProtected c then s.protectionViolation
  else .next (s.setPointers a b c).retire

/-- EMULATE: IPA and IPB set, IPC any value, then the trap `vn`; Protection Violation for a User-mode program naming a vector
below 64 (48 R503, 93 U24; entry 23). -/
def execEmulate (vn : BitVec 8) (ra rb : RegNum) (s : State) : Result :=
  let a := s.absReg .A ra
  let b := s.absReg .B rb
  if !s.supervisor && decide (vn.toNat < 64) then s.protectionViolation
  else if s.isProtected a || s.isProtected b then s.protectionViolation
  else (s.setPointers a b ((s.free .pointer).extractLsb' 0 8)).retire.raiseNext vn

/-- INV: the Branch Target Cache is invalidated at the next taken branch (48 R504). -/
def execInv (s : State) : Result :=
  if !s.supervisor then s.protectionViolation else .next ({ s with invPending := true } : State).retire

/-- `CPS <- OPS`, step 4 of an interrupt return (60 R571). -/
def State.restoreStatus (s : State) : State :=
  (if s.ops.getLsbD cpsFZ && !s.fz then s.capturePcs else s).setCps s.ops

/-- The access that the channel registers describe (20 R167); with ML = 1 the next of a `LOADM` or `STOREM`, for which ST and
LA are 0 (44 R386, R390). -/
def State.channelAccess (s : State) : Access :=
  let ctl := s.chc.extractLsb' 24 8
  let set := !s.chc.getLsbD chcML && s.chc.getLsbD chcST
  let la := !s.chc.getLsbD chcML && s.chc.getLsbD chcLA
  { ctl := ctl, isLoad := s.chc.getLsbD chcLS, set := set, la := la, user := s.userAccess ctl,
    lock := s.lockActive set la, tr := s.chc.extractLsb' chcTR 8, addr := s.cha, pa := s.cha, pgm := 0#2, data := s.chd,
    discard := false, left := 0 }

/-- Execution goes on at `t1`, then `t0`, both fetches non-sequential ones (20 R161): steps 6 to 9 of an interrupt return
(60 R570). The invalidation of `IRETINV`, made when the return begins, bears the time of these fetches: nothing is fetched in
between (20 R175). -/
def State.goOnAt (s : State) (t1 t0 : IAddr) (invalidate : Bool) : State :=
  let s1 := if invalidate then s.invalidateCache else s
  { s1.turnHere with pc := t1, npc := t0, nextTurn := some s1.clock, afterMultiple := false }

/-- The end of an interrupt return: the instruction it returns to sees no delayed effect (70 R656). -/
def State.resumeAt (s : State) (t1 t0 : IAddr) (invalidate : Bool) : State := (s.goOnAt t1 t0 invalidate).settleEffects

/-- Step 11 of an interrupt return whose fetch at `pc` has raised the trap `vn` of priority 13, `s1` the state after that fetch:
the decision of 60 R545 under the restored status. A pending and enabled event is due first, of priority 4 to 12 (60 R546,
R574); in Wait mode nothing is fetched (60 R610); else the trap is taken. What is pending the last sample of the pins tells
(entry 34, DESIGN CHOICE). -/
def State.afterReturn (s : State) (vn : Byte) (s1 : State) : Result :=
  match s.asyncEvent with
  | some (prio, v) => { s with env := s1.env }.takeAsync prio v
  | none => if s.cps.getLsbD cpsWM then .next { s with env := s1.env } else s1.raiseCurr vn

/-- Step 10 of an interrupt return: a multiple sequence goes on after the fetches of the return (60 R570, R572). The fetch at
`pc` is tried first, and its trap prevents the sequence, which stays in the channel registers (20 R158, 60 R574), and is due at
step 11; the instruction fetched there comes to execution in the next step. A trap of the fetch at `npc` belongs to the
instruction there (entry 34). The accesses of the sequence belong to the return, so that one right after a write of `MMU` may
use either page size; the fetch is of the instruction returned to, and uses the new one (10 R39, 70 R656; entry 11). -/
def State.resumeMultiple (s : State) (d : Access) : Result :=
  match s.settleEffects.fetch with
  | .trap vn s1 => s.settleEffects.afterReturn vn s1
  | .held s1 => .next s1.hold
  | .word _ _ => (s.runMultiple s.countRemaining.toNat d false).result State.settleEffects

/-- The access described by valid channel registers is restarted: a single one before, a multiple sequence after the program
counters are set and the instructions there fetched (60 R570 steps 5 and 10, R572). An ML set to resume a sequence by this
return does not count as set by a move any more (93 U14; entry 14). -/
def State.restart (s : State) (t1 t0 : IAddr) (invalidate : Bool) : Result :=
  if s.chc.getLsbD chcCV && !s.chc.getLsbD chcNN then
    if s.chc.getLsbD chcML then ({ s with mlByMove := false }.goOnAt t1 t0 invalidate).resumeMultiple s.channelAccess
    else
      match s.issue s.channelAccess false s.countRemaining with
      | .ok d s1 => .next ((s1.startAccess d).resumeAt t1 t0 invalidate)
      | .trap vn s1 => (s1.resumeAt t1 t0 invalidate).raiseAccess vn
  else .next (s.resumeAt t1 t0 invalidate)

/-- `InterruptReturn` (60 R570). -/
def State.interruptReturn (s : State) (invalidate : Bool) : Result :=
  if s.testing then .refused .excludedFromTest
  else if !s.supervisor then s.protectionViolation
  else
    s.finishAccess fun s1 => s1.restoreStatus.restart (wordAddr s1.pc1View) (wordAddr s1.pc0View) invalidate

/-- IRET (48 R505). -/
def execIret (s : State) : Result := s.interruptReturn false

/-- IRETINV: the Branch Target Cache is invalidated first (48 R506). -/
def execIretinv (s : State) : Result := s.interruptReturn true

/-- HALT: Halt mode once the access in flight has completed and the next instruction has been fetched (48 R507). An event that
is pending and enabled then, the Trace trap of the `HALT` itself too, stays pending (entry 28, DESIGN CHOICE). -/
def execHalt (s : State) : Result :=
  if !s.supervisor then s.protectionViolation else s.finishAccess fun s1 => s1.retire.haltAt .halt

end Sys2Proof.Machine
end

