-- ==== Sys2Proof/Machine/Shift.lean ====
section
/-! DEFINITION. The Shift class (43 R350 to R354). -/

namespace Sys2Proof.Machine

/-- The shift count: bits 4-0 of SRCB (43 R350). -/
def shiftCount (b : Word) : Nat := (b.extractLsb' 0 5).toNat

/-- A Shift instruction: DEST, and no status (43 R350). -/
def State.shift (s : State) (rc ra : RegNum) (rb : Src2) (f : Word → Word → Word) : Result :=
  s.binary rc ra rb fun c a b s1 => .next (s1.plainResult c (f a b))

/-- SLL: DEST <- SRCA << n, zero fill (43 R351). -/
def execSll (rc ra : RegNum) (rb : Src2) (s : State) : Result :=
  s.shift rc ra rb fun a b => a <<< shiftCount b

/-- SRL: DEST <- SRCA >> n, zero fill (43 R352). -/
def execSrl (rc ra : RegNum) (rb : Src2) (s : State) : Result :=
  s.shift rc ra rb fun a b => a >>> shiftCount b

/-- SRA: DEST <- SRCA >> n, sign fill (43 R353). -/
def execSra (rc ra : RegNum) (rb : Src2) (s : State) : Result :=
  s.shift rc ra rb fun a b => a.sshiftRight (shiftCount b)

/-- EXTRACT: DEST <- the high word of SRCA // SRCB shifted left by `ALU.FC` (43 R354). -/
def execExtract (rc ra : RegNum) (rb : Src2) (s : State) : Result :=
  s.binary rc ra rb fun c a b s1 =>
    .next (s1.plainResult c (((a ++ b : BitVec 64) <<< s1.funnelCount.toNat).extractLsb' 32 32))

end Sys2Proof.Machine
end

