-- ==== Sys2Proof/Machine/Dispatch.lean ====
section
/-! DEFINITION. One arm per instruction: its meaning. -/

namespace Sys2Proof.Machine

def exec (i : Instr) (s : State) : Host.Outcome State Fault Refusal :=
  match i with
  -- Integer Arithmetic
  | .add rc ra rb => Sys2Proof.Machine.execAdd rc ra rb s
  | .adds rc ra rb => Sys2Proof.Machine.execAdds rc ra rb s
  | .addu rc ra rb => Sys2Proof.Machine.execAddu rc ra rb s
  | .addc rc ra rb => Sys2Proof.Machine.execAddc rc ra rb s
  | .addcs rc ra rb => Sys2Proof.Machine.execAddcs rc ra rb s
  | .addcu rc ra rb => Sys2Proof.Machine.execAddcu rc ra rb s
  | .sub rc ra rb => Sys2Proof.Machine.execSub rc ra rb s
  | .subs rc ra rb => Sys2Proof.Machine.execSubs rc ra rb s
  | .subu rc ra rb => Sys2Proof.Machine.execSubu rc ra rb s
  | .subc rc ra rb => Sys2Proof.Machine.execSubc rc ra rb s
  | .subcs rc ra rb => Sys2Proof.Machine.execSubcs rc ra rb s
  | .subcu rc ra rb => Sys2Proof.Machine.execSubcu rc ra rb s
  | .subr rc ra rb => Sys2Proof.Machine.execSubr rc ra rb s
  | .subrs rc ra rb => Sys2Proof.Machine.execSubrs rc ra rb s
  | .subru rc ra rb => Sys2Proof.Machine.execSubru rc ra rb s
  | .subrc rc ra rb => Sys2Proof.Machine.execSubrc rc ra rb s
  | .subrcs rc ra rb => Sys2Proof.Machine.execSubrcs rc ra rb s
  | .subrcu rc ra rb => Sys2Proof.Machine.execSubrcu rc ra rb s
  | .mul rc ra rb => Sys2Proof.Machine.execMul rc ra rb s
  | .mull rc ra rb => Sys2Proof.Machine.execMull rc ra rb s
  | .multiply rc ra rb => Sys2Proof.Machine.execMultiply rc ra rb s
  | .divide rc ra rb => Sys2Proof.Machine.execDivide rc ra rb s
  | .mulu rc ra rb => Sys2Proof.Machine.execMulu rc ra rb s
  | .div0 rc rb => Sys2Proof.Machine.execDiv0 rc rb s
  | .div rc ra rb => Sys2Proof.Machine.execDiv rc ra rb s
  | .divl rc ra rb => Sys2Proof.Machine.execDivl rc ra rb s
  | .divrem rc ra rb => Sys2Proof.Machine.execDivrem rc ra rb s
  -- Compare
  | .cpeq rc ra rb => Sys2Proof.Machine.execCpeq rc ra rb s
  | .cpneq rc ra rb => Sys2Proof.Machine.execCpneq rc ra rb s
  | .cplt rc ra rb => Sys2Proof.Machine.execCplt rc ra rb s
  | .cpltu rc ra rb => Sys2Proof.Machine.execCpltu rc ra rb s
  | .cple rc ra rb => Sys2Proof.Machine.execCple rc ra rb s
  | .cpleu rc ra rb => Sys2Proof.Machine.execCpleu rc ra rb s
  | .cpgt rc ra rb => Sys2Proof.Machine.execCpgt rc ra rb s
  | .cpgtu rc ra rb => Sys2Proof.Machine.execCpgtu rc ra rb s
  | .cpge rc ra rb => Sys2Proof.Machine.execCpge rc ra rb s
  | .cpgeu rc ra rb => Sys2Proof.Machine.execCpgeu rc ra rb s
  | .cpbyte rc ra rb => Sys2Proof.Machine.execCpbyte rc ra rb s
  | .aseq vn ra rb => Sys2Proof.Machine.execAseq vn ra rb s
  | .asneq vn ra rb => Sys2Proof.Machine.execAsneq vn ra rb s
  | .aslt vn ra rb => Sys2Proof.Machine.execAslt vn ra rb s
  | .asltu vn ra rb => Sys2Proof.Machine.execAsltu vn ra rb s
  | .asle vn ra rb => Sys2Proof.Machine.execAsle vn ra rb s
  | .asleu vn ra rb => Sys2Proof.Machine.execAsleu vn ra rb s
  | .asgt vn ra rb => Sys2Proof.Machine.execAsgt vn ra rb s
  | .asgtu vn ra rb => Sys2Proof.Machine.execAsgtu vn ra rb s
  | .asge vn ra rb => Sys2Proof.Machine.execAsge vn ra rb s
  | .asgeu vn ra rb => Sys2Proof.Machine.execAsgeu vn ra rb s
  -- Logical
  | .and rc ra rb => Sys2Proof.Machine.execAnd rc ra rb s
  | .andn rc ra rb => Sys2Proof.Machine.execAndn rc ra rb s
  | .nand rc ra rb => Sys2Proof.Machine.execNand rc ra rb s
  | .or rc ra rb => Sys2Proof.Machine.execOr rc ra rb s
  | .nor rc ra rb => Sys2Proof.Machine.execNor rc ra rb s
  | .xor rc ra rb => Sys2Proof.Machine.execXor rc ra rb s
  | .xnor rc ra rb => Sys2Proof.Machine.execXnor rc ra rb s
  -- Shift
  | .sll rc ra rb => Sys2Proof.Machine.execSll rc ra rb s
  | .srl rc ra rb => Sys2Proof.Machine.execSrl rc ra rb s
  | .sra rc ra rb => Sys2Proof.Machine.execSra rc ra rb s
  | .extract rc ra rb => Sys2Proof.Machine.execExtract rc ra rb s
  -- Data Movement
  | .load ctl ra rb => Sys2Proof.Machine.execLoad ctl ra rb s
  | .loadl ctl ra rb => Sys2Proof.Machine.execLoadl ctl ra rb s
  | .loadset ctl ra rb => Sys2Proof.Machine.execLoadset ctl ra rb s
  | .store ctl ra rb => Sys2Proof.Machine.execStore ctl ra rb s
  | .storel ctl ra rb => Sys2Proof.Machine.execStorel ctl ra rb s
  | .loadm ctl ra rb => Sys2Proof.Machine.execLoadm ctl ra rb s
  | .storem ctl ra rb => Sys2Proof.Machine.execStorem ctl ra rb s
  | .exbyte rc ra rb => Sys2Proof.Machine.execExbyte rc ra rb s
  | .exhw rc ra rb => Sys2Proof.Machine.execExhw rc ra rb s
  | .exhws rc ra => Sys2Proof.Machine.execExhws rc ra s
  | .inbyte rc ra rb => Sys2Proof.Machine.execInbyte rc ra rb s
  | .inhw rc ra rb => Sys2Proof.Machine.execInhw rc ra rb s
  | .mfsr rc sa => Sys2Proof.Machine.execMfsr rc sa s
  | .mtsr sa rb => Sys2Proof.Machine.execMtsr sa rb s
  | .mtsrim sa i16 => Sys2Proof.Machine.execMtsrim sa i16 s
  | .mftlb rc ra => Sys2Proof.Machine.execMftlb rc ra s
  | .mttlb ra rb => Sys2Proof.Machine.execMttlb ra rb s
  -- Constant
  | .const ra i16 => Sys2Proof.Machine.execConst ra i16 s
  | .consth ra i16 => Sys2Proof.Machine.execConsth ra i16 s
  | .constn ra i16 => Sys2Proof.Machine.execConstn ra i16 s
  -- Floating-Point
  | .fadd rc ra rb => Sys2Proof.Machine.execFadd rc ra rb s
  | .dadd rc ra rb => Sys2Proof.Machine.execDadd rc ra rb s
  | .fsub rc ra rb => Sys2Proof.Machine.execFsub rc ra rb s
  | .dsub rc ra rb => Sys2Proof.Machine.execDsub rc ra rb s
  | .fmul rc ra rb => Sys2Proof.Machine.execFmul rc ra rb s
  | .dmul rc ra rb => Sys2Proof.Machine.execDmul rc ra rb s
  | .fdiv rc ra rb => Sys2Proof.Machine.execFdiv rc ra rb s
  | .ddiv rc ra rb => Sys2Proof.Machine.execDdiv rc ra rb s
  | .feq rc ra rb => Sys2Proof.Machine.execFeq rc ra rb s
  | .deq rc ra rb => Sys2Proof.Machine.execDeq rc ra rb s
  | .flt rc ra rb => Sys2Proof.Machine.execFlt rc ra rb s
  | .dlt rc ra rb => Sys2Proof.Machine.execDlt rc ra rb s
  | .fgt rc ra rb => Sys2Proof.Machine.execFgt rc ra rb s
  | .dgt rc ra rb => Sys2Proof.Machine.execDgt rc ra rb s
  | .cvintf rc ra => Sys2Proof.Machine.execCvintf rc ra s
  | .cvintd rc ra => Sys2Proof.Machine.execCvintd rc ra s
  | .cvfint rc ra => Sys2Proof.Machine.execCvfint rc ra s
  | .cvdint rc ra => Sys2Proof.Machine.execCvdint rc ra s
  | .cvfd rc ra => Sys2Proof.Machine.execCvfd rc ra s
  | .cvdf rc ra => Sys2Proof.Machine.execCvdf rc ra s
  -- Branch
  | .jmp a i16 => Sys2Proof.Machine.execJmp a i16 s
  | .jmpi rb => Sys2Proof.Machine.execJmpi rb s
  | .jmpt a ra i16 => Sys2Proof.Machine.execJmpt a ra i16 s
  | .jmpf a ra i16 => Sys2Proof.Machine.execJmpf a ra i16 s
  | .jmpti ra rb => Sys2Proof.Machine.execJmpti ra rb s
  | .jmpfi ra rb => Sys2Proof.Machine.execJmpfi ra rb s
  | .jmpfdec a ra i16 => Sys2Proof.Machine.execJmpfdec a ra i16 s
  | .call a ra i16 => Sys2Proof.Machine.execCall a ra i16 s
  | .calli ra rb => Sys2Proof.Machine.execCalli ra rb s
  -- Miscellaneous
  | .clz rc rb => Sys2Proof.Machine.execClz rc rb s
  | .setip rc ra rb => Sys2Proof.Machine.execSetip rc ra rb s
  | .emulate vn ra rb => Sys2Proof.Machine.execEmulate vn ra rb s
  | .inv => Sys2Proof.Machine.execInv s
  | .iret => Sys2Proof.Machine.execIret s
  | .iretinv => Sys2Proof.Machine.execIretinv s
  | .halt => Sys2Proof.Machine.execHalt s

end Sys2Proof.Machine
end

