-- ==== Sys2Proof/Machine/Step.lean ====
section
/-! DEFINITION. One step of the machine (60 R545). -/

namespace Sys2Proof.Machine

/-- An instruction word is decoded and executed; an unassigned opcode is an Illegal Opcode trap, vector 0 (60 R533). -/
def runWord (w : Word) (s : State) : Host.Outcome State Fault Refusal :=
  match decode w with
  | .ok i => exec i s
  | .error _ => s.raiseCurr 0#8

/-- One step: pins and mode; then an event is taken, or an instruction fetched, decoded and executed (60 R545). -/
def step (s : State) : Host.Outcome State Fault Refusal :=
  match s.boundary with
  | .ended r => r
  | .run s1 =>
    match s1.prepare with
    | .ended r => finishStep (s1.mode == .step) r
    | .instr w s2 => finishStep (s1.mode == .step) (runWord w s2)

/-- The state with the instruction of bits `w` stored where the next step fetches it (entry 33). -/
def State.withFetchWord (s : State) (nbits w : Nat) : State := s.placeInstr (BitVec.ofNat 32 (w % 2 ^ nbits))

end Sys2Proof.Machine
end

