-- ==== Sys2Proof/Safety.lean ====
section
/-! DEFINITION. The terms that claims use: legal states, what an instruction leaves unchanged, and the exact arithmetic that
results are compared with. Nothing here is part of the machine. -/

namespace Sys2Proof.Machine

/-- Reserved bits read as 0 (10 R41, R80), memory is in canonical form (20 R139), a delayed effect lasts one instruction
(10 R39), an instruction register is loaded only between Load Test Instruction and Step mode (60 R614), or while a step waits
without end (70 R650), and what hidden copies are told by lies in the past. -/
structure State.Legal (s : State) : Prop where
  idm : Memory.wf s.idm = true
  rom : Memory.wf s.rom = true
  vab : s.vab &&& 0x0000FFFF#32 = 0#32
  ops : s.ops &&& 0xFFFF0000#32 = 0#32
  cps : s.cps &&& 0xFFFF4000#32 = 0#32
  cfg : s.cfg &&& 0xFFFFFFE0#32 = 0#32
  chc : s.chc &&& 0x00000800#32 = 0#32
  rbp : s.rbp &&& 0xFFFF0000#32 = 0#32
  tmc : s.tmc &&& 0xFF000000#32 = 0#32
  tmr : s.tmr &&& 0xF8000000#32 = 0#32
  pc0 : s.pc0 &&& 0x00000003#32 = 0#32
  pc1 : s.pc1 &&& 0x00000003#32 = 0#32
  pc2 : s.pc2 &&& 0x00000003#32 = 0#32
  mmuNow : s.mmu.now &&& 0xFFFFFC00#32 = 0#32
  mmuOld : s.mmu.old &&& 0xFFFFFC00#32 = 0#32
  lru : s.lru &&& 0xFFFFFF81#32 = 0#32
  alu : s.alu &&& 0xFFFFF000#32 = 0#32
  tlb : ∀ n : BitVec 7, s.readTlb n &&& ~~~tlbMask n = 0#32
  spsAge : s.sps.age ≤ 1
  mmuAge : s.mmu.age ≤ 1
  ipaAge : s.ipa.age ≤ 1
  ipbAge : s.ipb.age ≤ 1
  ipcAge : s.ipc.age ≤ 1
  psTarget : s.psTarget ≤ 2
  testing : s.testing = false
  irValid : s.irValid = true → s.mode = .step ∨ s.mode = .loadTest ∨ s.mode = .held
  oldWords : ∀ o ∈ s.oldWords, o.time ≤ s.clock
  oldMaps : ∀ m ∈ s.oldMaps, m.time ≤ s.clock

/-- Absolute register `a` is implemented: 1, and 64 to 255 (10 R31). -/
def implemented (a : RegNum) : Bool := a == 1#8 || decide (64 ≤ a.toNat)

/-- The operand can be had: a load in flight to one of these registers completes, and does not end in `*DERR` (20 R144). -/
def State.ready (s : State) (regs : List RegNum) : Bool := !s.waitsFor regs || decide (s.settlement = .ends)

/-- The state in which operands are read: a load in flight to one of them has completed (10 R37). -/
def State.afterWait (s : State) (regs : List RegNum) : State := if s.waitsFor regs then s.drain else s

/-- The registers that RA and `RB or I` name. -/
def State.sourceRegs (s : State) (ra : RegNum) (rb : Src2) : List RegNum := s.absReg .A ra :: srcRegs (s.resolve rb)

/-- The state in which an instruction with RA and `RB or I` reads them. -/
def State.atRead (s : State) (ra : RegNum) (rb : Src2) : State := s.afterWait (s.sourceRegs ra rb)

/-- SRCA of such an instruction. -/
def State.srcA (s : State) (ra : RegNum) (rb : Src2) : Word := (s.atRead ra rb).readReg .A (s.absReg .A ra)

/-- SRCB of such an instruction. -/
def State.srcB (s : State) (ra : RegNum) (rb : Src2) : Word := (s.atRead ra rb).srcValue (s.resolve rb)

/-- The operands RA and `RB or I` may be used and can be had. Their numbers are formed, and tested for protection, before a load
that the instruction waits for completes (entry 36). -/
def State.SourcesReady (s : State) (ra : RegNum) (rb : Src2) : Prop :=
  s.isProtected (s.absReg .A ra) = false ∧ s.protectedSrc (s.resolve rb) = false ∧ s.ready (s.sourceRegs ra rb) = true

/-- The operands RC, RA and `RB or I` may be used and can be had. -/
def State.BinaryReady (s : State) (rc ra : RegNum) (rb : Src2) : Prop :=
  s.isProtected (s.absReg .C rc) = false ∧ s.SourcesReady ra rb

/-- The load in flight has register `a` as its target (20 R146). -/
def State.overwrites (s : State) (a : RegNum) : Bool :=
  match s.inflight with
  | none => false
  | some d => d.isLoad && d.tr == a

/-- `CHC` after register `c` is overwritten: NN is set if a load in flight has it as its target (20 R146). -/
def State.chcAfterWrite (s : State) (c : RegNum) : Word :=
  if s.overwrites c && !s.frozen then s.chc ||| 2#32 else s.chc

/-- The access in flight after register `c` is overwritten: the data of a load to it will be dropped (20 R146). -/
def State.inflightAfterWrite (s : State) (c : RegNum) : Option Access :=
  if s.overwrites c then s.inflight.map fun d => { d with discard := true } else s.inflight

/-- No byte of memory differs. -/
def SameMemory (s t : State) : Prop :=
  ∀ a, Memory.read t.idm a = Memory.read s.idm a ∧ Memory.read t.rom a = Memory.read s.rom a

/-- Every implemented general register but those of `except` is the same. -/
def SameRegs (s t : State) (except : List RegNum) : Prop :=
  ∀ a, implemented a = true → a ∉ except → t.readReg .A a = s.readReg .A a

/-- The special-purpose registers that only moves, traps, returns and the Timer write are the same. -/
structure SameSpecial (s t : State) : Prop where
  vab : t.vab = s.vab
  ops : t.ops = s.ops
  cfg : t.cfg = s.cfg
  rbp : t.rbp = s.rbp
  tmc : t.tmc = s.tmc
  tmr : t.tmr = s.tmr
  pc0 : t.pc0 = s.pc0
  pc1 : t.pc1 = s.pc1
  pc2 : t.pc2 = s.pc2
  mmu : t.mmu.now = s.mmu.now
  lru : t.lru = s.lru

/-- `CHA` and `CHD` are the same. -/
def SameChannel (s t : State) : Prop := t.cha = s.cha ∧ t.chd = s.chd

/-- The three indirect pointers are the same. -/
def SamePointers (s t : State) : Prop := t.ipa.now = s.ipa.now ∧ t.ipb.now = s.ipb.now ∧ t.ipc.now = s.ipc.now

/-- `CPS` is the same but for TP, which has copied TE (60 R600). -/
def SameStatus (s t : State) : Prop :=
  ∀ i, t.cps.getLsbD i = if i = cpsTP then s.cps.getLsbD cpsTE else s.cps.getLsbD i

/-- Execution goes on with the next instruction (10 R33); an instruction of the Load Test Instruction mode leaves the program
counters (60 R614). -/
def PcAdvances (s t : State) : Prop :=
  if s.testing then t.pc = s.pc ∧ t.npc = s.npc ∧ t.ppc = s.ppc
  else t.ppc = s.pc ∧ t.pc = s.npc ∧ t.npc = s.npc + 1#30

/-- A branch to `x` is taken: `x` comes after the delay instruction (47 R470). -/
def PcBranches (s t : State) (x : IAddr) : Prop :=
  if s.testing then t.pc = s.pc ∧ t.npc = s.npc ∧ t.ppc = s.ppc
  else t.ppc = s.pc ∧ t.pc = s.npc ∧ t.npc = x

/-- `t` has `w` in register `c`, where that is implemented, and differs from `s` in no other general register, no memory
byte and no special register but `ALU`, `Q`, the trace bit and NN of a load whose target is overwritten. -/
structure WritesReg (s t : State) (c : RegNum) (w : Word) : Prop where
  dest : implemented c = true → t.readReg .A c = w
  regs : SameRegs s t [c]
  memory : SameMemory s t
  special : SameSpecial s t
  tlb : t.tlb = s.tlb
  channel : SameChannel s t
  chc : t.chc = s.chcAfterWrite c
  inflight : t.inflight = s.inflightAfterWrite c
  shadow : c ≠ 1#8 → t.sps.now = s.sps.now
  pointers : SamePointers s t
  status : SameStatus s t
  mode : t.mode = s.mode

/-- `t` differs from `s` in no general register, no memory byte and no special register but the indirect pointers and the
trace bit. -/
structure SameData (s t : State) : Prop where
  regs : SameRegs s t []
  memory : SameMemory s t
  special : SameSpecial s t
  tlb : t.tlb = s.tlb
  channel : SameChannel s t
  chc : t.chc = s.chc
  inflight : t.inflight = s.inflight
  shadow : t.sps.now = s.sps.now
  status : SameStatus s t
  q : t.q = s.q
  alu : t.alu = s.alu

/-- `t` differs from `s` in no general register, no memory byte and no special register but the trace bit. -/
structure WritesNothing (s t : State) : Prop where
  data : SameData s t
  pointers : SamePointers s t
  mode : t.mode = s.mode

/-- `ALU` of `t` is that of `s` with V, N, Z, C replaced, or the same while it is frozen (40 R241). -/
def FlagsVNZC (s t : State) (v n z c : Bool) : Prop :=
  ∀ i, t.alu.getLsbD i =
    if s.frozen then s.alu.getLsbD i
    else if i = 10 then v
    else if i = 9 then n
    else if i = 8 then z
    else if i = 7 then c
    else s.alu.getLsbD i

/-- The same with DF, bit 11, replaced too (40 R265 to R267). -/
def FlagsDVNZC (s t : State) (df v n z c : Bool) : Prop :=
  ∀ i, t.alu.getLsbD i =
    if s.frozen then s.alu.getLsbD i
    else if i = 11 then df
    else if i = 10 then v
    else if i = 9 then n
    else if i = 8 then z
    else if i = 7 then c
    else s.alu.getLsbD i

/-- `ALU` of `t` is that of `s` with N and Z replaced, or the same while it is frozen (42 R330). -/
def FlagsNZ (s t : State) (n z : Bool) : Prop :=
  ∀ i, t.alu.getLsbD i =
    if s.frozen then s.alu.getLsbD i else if i = 9 then n else if i = 8 then z else s.alu.getLsbD i

/-- A sum or difference over the integers: of the operands as unsigned numbers, and as signed ones. -/
structure Exact where
  unsigned : Int
  signed : Int
  /-- carry out: of a sum, it needs 33 bits; of a difference, there is no borrow (40 R240) -/
  carry : Bool

/-- `x + y + cin` (40 R242, R245). -/
def exactSum (x y : Word) (cin : Bool) : Exact :=
  { unsigned := x.toNat + y.toNat + cin.toNat
    signed := x.toInt + y.toInt + cin.toNat
    carry := decide (2 ^ 32 ≤ x.toNat + y.toNat + cin.toNat) }

/-- `x - y - 1 + cin` (40 R248, R251). -/
def exactDifference (x y : Word) (cin : Bool) : Exact :=
  { unsigned := (x.toNat : Int) - y.toNat - 1 + cin.toNat
    signed := x.toInt - y.toInt - 1 + cin.toNat
    carry := decide ((0 : Int) ≤ (x.toNat : Int) - y.toNat - 1 + cin.toNat) }

/-- The 32 bits that are kept. -/
def Exact.word (e : Exact) : Word := BitVec.ofInt 32 e.unsigned

/-- The exact signed value does not fit in 32 bits. -/
def Exact.overflows (e : Exact) : Bool := decide (e.signed < -(2 ^ 31) ∨ 2 ^ 31 ≤ e.signed)

/-- An add or subtract has ended (40 R240, R241). -/
def ArithEnds (s t : State) (c : RegNum) (e : Exact) : Prop :=
  WritesReg s t c e.word ∧ FlagsVNZC s t e.overflows (e.word.getLsbD 31) (e.word == 0#32) e.carry ∧ t.q = s.q ∧
    PcAdvances s t

/-- The system answers the vector fetch that `CFG.VF` = 1 asks for, and not with `*DERR` (60 R565). -/
def State.vectorReadable (s : State) : Bool := !s.cfg.getLsbD 4 || decide (s.env.answers.headD .ready = .ready)

/-- A trap of priority 2 or 3 can be taken: the next sample of the pins has no `*RESET` and no transition of `*WARN`
(60 R547), the access in flight is answered (70 R650), and the vector can be read. -/
def State.MayTrap (s : State) : Prop :=
  s.nextPins.reset = false ∧ (s.nextPins.warn = true → s.pins.warn = true) ∧ s.settlement ≠ .never ∧
    s.drain.vectorReadable = true

/-- The vector of `vn`: the word whose address is `VAB` with bits 9-2 replaced (60 R562). -/
def State.vectorWord (s : State) (vn : Byte) : Word :=
  Memory.readWord s.idm (BitVec.ofNat 30 (s.vab.toNat / 2 ^ 10 * 2 ^ 8 + vn.toNat))

/-- `t` is `s` after the taking of the interrupt or trap `vn` (60 R560 to R564, R566): the status saved and replaced, the bits
that 60 R563 states as it states them and the others but IP as the parameter `CPS_TRAP_IMAGE` says (entry 2), the program
counters captured unless they are frozen, the handler's address from a vector, its R bit where the parameter `VECTOR_R_BIT`
says (entry 1), or a block, and everything else as it was. -/
structure TrapEntered (s t : State) (vn : Byte) : Prop where
  ops : t.ops = s.cpsView
  status : ∀ i, t.cps.getLsbD i =
    if i = 8 then (if s.cfg.getLsbD 4 then (s.vectorWord vn).getLsbD s.sys.vectorRBit.val else s.cfg.getLsbD 3)
    else if i ∈ [0, 4, 10] then true
    else if i ∈ [7, 12, 13, 14] then false
    else if i ∈ [1, 2, 3, 5, 6, 9, 11, 15] ∧ s.sys.trapMask.getLsbD i = true then s.sys.trapValue.getLsbD i
    else s.cps.getLsbD i
  pc0 : t.pc0 = if s.cps.getLsbD 10 then s.pc0 else s.npc ++ 0#2
  pc1 : t.pc1 = if s.cps.getLsbD 10 then s.pc1 else s.pc ++ 0#2
  pc2 : t.pc2 = if s.cps.getLsbD 10 then s.pc2 else s.ppc ++ 0#2
  pc : t.pc =
    if s.cfg.getLsbD 4 then (s.vectorWord vn).extractLsb' 2 30
    else BitVec.ofNat 30 (s.vab.toNat / 2 ^ 16 * 2 ^ 14 + vn.toNat * 64)
  npc : t.npc = t.pc + 1#30
  ppc : t.ppc = s.ppc
  regs : SameRegs s t []
  memory : SameMemory s t
  tlb : t.tlb = s.tlb
  channel : SameChannel s t
  chc : t.chc = s.chc
  shadow : t.sps.now = s.sps.now
  pointers : SamePointers s t
  flags : t.alu = s.alu ∧ t.q = s.q
  others : t.vab = s.vab ∧ t.cfg = s.cfg ∧ t.rbp = s.rbp ∧ t.tmc = s.tmc ∧ t.tmr = s.tmr ∧ t.mmu.now = s.mmu.now ∧
    t.lru = s.lru
  mode : t.mode = s.mode
  inflight : t.inflight = s.inflight

/-- The value of special-purpose register `n` that `MFSR` reads (10 R40, R46, R71, R78): any value for an
unimplemented number. That `PC0`, `PC1` and `PC2` read as the next, the present and the previous address while FZ is 0 is the
model's choice (entry 19, 92 D12). -/
def State.SpecialReads (s : State) (n : Nat) (w : Word) : Prop :=
  match n with
  | 0 => w = s.vab
  | 1 => w = s.ops
  | 2 => (∀ i ≠ 14, w.getLsbD i = s.cps.getLsbD i) ∧
      (w.getLsbD 14 = true ↔ ∃ j < 4, s.pins.intr.getLsbD j = true ∧
        ¬(s.cps.getLsbD 0 = false ∧ s.cps.getLsbD 1 = false ∧ j ≤ s.cps.toNat / 4 % 4))
  | 3 => w = s.cfg
  | 4 => w = s.cha
  | 5 => w = s.chd
  | 6 => w = s.chc
  | 7 => w = s.rbp
  | 8 => w = s.tmc
  | 9 => w = s.tmr
  | 10 => w = if s.cps.getLsbD 10 then s.pc0 else s.npc ++ 0#2
  | 11 => w = if s.cps.getLsbD 10 then s.pc1 else s.pc ++ 0#2
  | 12 => w = if s.cps.getLsbD 10 then s.pc2 else s.ppc ++ 0#2
  | 13 => w = s.mmu.now
  | 14 => w = s.lru
  | 128 => w = BitVec.ofNat 32 (4 * s.ipc.now.toNat)
  | 129 => w = BitVec.ofNat 32 (4 * s.ipa.now.toNat)
  | 130 => w = BitVec.ofNat 32 (4 * s.ipb.now.toNat)
  | 131 => w = s.q
  | 132 => w = s.alu
  | 133 => w = BitVec.ofNat 32 (s.alu.toNat / 2 ^ 5 % 2 ^ 2)
  | 134 => w = BitVec.ofNat 32 (s.alu.toNat % 2 ^ 5)
  | 135 => w = BitVec.ofNat 32 (s.chc.toNat / 2 ^ 16 % 2 ^ 8)
  | _ => True

/-- `t` is `s` after a move of `v` to special-purpose register `n` (10 R79, 44 R405): the masked value is in that register, an
alias writes its field, a write of FZ = 1 into `CPS` captures the program counters, and everything else is as it was. The
trace bit is entry 20, the writes of the program counters entry 19, and that a move stores bits 6-1 of `LRU` entry 24, each the
model's choice. -/
structure SpecialWritten (s t : State) (n : Nat) (v : Word) : Prop where
  vab : t.vab = if n = 0 then v &&& 0xFFFF0000#32 else s.vab
  ops : t.ops = if n = 1 then v &&& 0x0000FFFF#32 else s.ops
  cps : ∀ i, t.cps.getLsbD i =
    if n = 2 then
      if i = 12 then v.getLsbD 12 || v.getLsbD 13 else decide (i < 16 ∧ i ≠ 14) && v.getLsbD i
    else if i = 12 then s.cps.getLsbD 13
    else s.cps.getLsbD i
  cfg : t.cfg = if n = 3 then v &&& 0x0000001F#32 else s.cfg
  cha : t.cha = if n = 4 then v else s.cha
  chd : t.chd = if n = 5 then v else s.chd
  chc : ∀ i, t.chc.getLsbD i =
    if n = 6 then decide (i ≠ 11) && v.getLsbD i
    else if n = 135 ∧ 16 ≤ i ∧ i < 24 then v.getLsbD (i - 16)
    else s.chc.getLsbD i
  rbp : t.rbp = if n = 7 then v &&& 0x0000FFFF#32 else s.rbp
  tmc : t.tmc = if n = 8 then v &&& 0x00FFFFFF#32 else s.tmc
  tmr : t.tmr = if n = 9 then v &&& 0x07FFFFFF#32 else s.tmr
  pc0 : t.pc0 =
    if n = 10 ∧ s.cps.getLsbD 10 = true then v &&& 0xFFFFFFFC#32
    else if n = 2 ∧ s.cps.getLsbD 10 = false ∧ v.getLsbD 10 = true then s.npc ++ 0#2
    else s.pc0
  pc1 : t.pc1 =
    if n = 11 ∧ s.cps.getLsbD 10 = true then v &&& 0xFFFFFFFC#32
    else if n = 2 ∧ s.cps.getLsbD 10 = false ∧ v.getLsbD 10 = true then s.pc ++ 0#2
    else s.pc1
  pc2 : t.pc2 =
    if n = 12 ∧ s.cps.getLsbD 10 = true then v &&& 0xFFFFFFFC#32
    else if n = 2 ∧ s.cps.getLsbD 10 = false ∧ v.getLsbD 10 = true then s.ppc ++ 0#2
    else s.pc2
  mmu : t.mmu.now = if n = 13 then v &&& 0x000003FF#32 else s.mmu.now
  lru : t.lru = if n = 14 then v &&& 0x0000007E#32 else s.lru
  ipc : t.ipc.now = if n = 128 then v.extractLsb' 2 8 else s.ipc.now
  ipa : t.ipa.now = if n = 129 then v.extractLsb' 2 8 else s.ipa.now
  ipb : t.ipb.now = if n = 130 then v.extractLsb' 2 8 else s.ipb.now
  q : t.q = if n = 131 then v else s.q
  alu : ∀ i, t.alu.getLsbD i =
    if n = 132 then decide (i < 12) && v.getLsbD i
    else if n = 133 ∧ 5 ≤ i ∧ i < 7 then v.getLsbD (i - 5)
    else if n = 134 ∧ i < 5 then v.getLsbD i
    else s.alu.getLsbD i
  regs : SameRegs s t []
  shadow : t.sps.now = s.sps.now
  memory : SameMemory s t
  tlb : t.tlb = s.tlb
  inflight : t.inflight = s.inflight
  mode : t.mode = s.mode

/-- `MMU.PS` as a number (10 R72). -/
def State.ps (s : State) : Nat := s.mmu.now.toNat / 2 ^ 8 % 4

/-- The line that a virtual address selects (20 R151). -/
def State.lineOf (s : State) (va : Word) : Nat := va.toNat / 2 ^ (10 + s.ps) % 32

/-- TLB register `n` (10 R80). -/
def State.tlbReg (s : State) (n : Nat) : Word := s.tlb[n]?.getD 0#32

/-- Word 0 of the entry of TLB set `set`, 0 or 1, in the line of `va` (10 R80, R81). -/
def State.entry0 (s : State) (va : Word) (set : Nat) : Word := s.tlbReg (64 * set + 2 * s.lineOf va)

/-- Word 1 of that entry (10 R82). -/
def State.entry1 (s : State) (va : Word) (set : Nat) : Word := s.tlbReg (64 * set + 2 * s.lineOf va + 1)

/-- The entry of a set matches: it is valid, its tag is that of the address above the line number, and its TID is the PID
(20 R151; the bits of the tag that the page size makes unused are entry 13). -/
def State.EntryMatches (s : State) (va : Word) (set : Nat) : Prop :=
  (s.entry0 va set).getLsbD 14 = true ∧ va.toNat / 2 ^ (15 + s.ps) = (s.entry0 va set).toNat / 2 ^ (15 + s.ps) ∧
    (s.entry0 va set).toNat % 2 ^ 8 = s.mmu.now.toNat % 2 ^ 8

/-- The entry of `set` matches and that of the other set does not. -/
def State.TlbHit (s : State) (va : Word) (set : Nat) : Prop :=
  set < 2 ∧ s.EntryMatches va set ∧ ¬s.EntryMatches va (1 - set)

/-- No entry matches. -/
def State.TlbMiss (s : State) (va : Word) : Prop := ¬s.EntryMatches va 0 ∧ ¬s.EntryMatches va 1

/-- The permission bits of Word 0 allow the access (20 R153). -/
def permits (w0 : Word) (want : Want) (user : Bool) : Bool :=
  match want with
  | .fetch => w0.getLsbD (if user then 8 else 11)
  | .load => w0.getLsbD (if user then 10 else 13)
  | .store => w0.getLsbD (if user then 9 else 12)
  | .loadset => w0.getLsbD (if user then 10 else 13) && w0.getLsbD (if user then 9 else 12)

/-- The physical address through the entry of a set: RPN above the page offset (20 R152). -/
def State.physical (s : State) (va : Word) (set : Nat) : Word :=
  BitVec.ofNat 32
    ((s.entry1 va set).toNat / 2 ^ (10 + s.ps) * 2 ^ (10 + s.ps) + va.toNat % 2 ^ (10 + s.ps))

/-- TLB register `k` after a valid translation through `set`: the Usage bits of both entries of the line name the other set
(20 R156). -/
def State.usedTlb (s : State) (va : Word) (set : Nat) (k : Nat) : Word :=
  if k % 64 = 2 * s.lineOf va + 1 then
    if set = 0 then s.tlbReg k ||| 2#32 else s.tlbReg k &&& 0xFFFFFFFD#32
  else s.tlbReg k

/-- `lru` recommends an entry of the line of `va`, the least recently used one where its two Usage bits agree (20 R157). -/
def RecommendsFor (s : State) (va lru : Word) : Prop :=
  lru.toNat / 2 % 32 = s.lineOf va ∧ lru &&& 0xFFFFFF81#32 = 0#32 ∧
    ((s.entry1 va 0).getLsbD 1 = (s.entry1 va 1).getLsbD 1 → lru.getLsbD 6 = (s.entry1 va 0).getLsbD 1)

/-- The address is not aligned for its width and `CPS.TU` asks for the trap (20 R134). -/
def State.misaligned (s : State) (ctl : BitVec 8) (addr : Word) : Bool :=
  s.cps.getLsbD 11 && !ctl.getLsbD 7 && !ctl.getLsbD 6 &&
    decide ((ctl.toNat % 8 = 0 ∧ addr.toNat % 4 ≠ 0) ∨ (ctl.toNat % 8 = 2 ∧ addr.toNat % 2 = 1))

/-- The access is performed in User mode (20 R132). -/
def State.asUser (s : State) (ctl : BitVec 8) : Bool := !s.cps.getLsbD 4 || ctl.getLsbD 3

/-- Translation is attempted: instruction/data memory, `CPS.PD` = 0 and PA = 0 (20 R150). -/
def State.translated (s : State) (ctl : BitVec 8) : Bool :=
  !ctl.getLsbD 7 && !ctl.getLsbD 6 && !s.cps.getLsbD 6 && !ctl.getLsbD 5

/-- An access with control field `ctl` to `addr` raises no trap and goes out with the address `pa`; `tlb` is the TLB after it
(20 R149 to R156). The page size was not written by the instruction just before (10 R39). -/
def State.Goes (s : State) (ctl : BitVec 8) (want : Want) (addr pa : Word) (tlb : Nat → Word) : Prop :=
  s.misaligned ctl addr = false ∧ (ctl.getLsbD 7 = true → s.cfg.getLsbD 1 = true) ∧
    if s.translated ctl then
      s.mmu.age ≠ 1 ∧ ∃ set, s.TlbHit addr set ∧ permits (s.entry0 addr set) want (s.asUser ctl) = true ∧
        pa = s.physical addr set ∧ tlb = s.usedTlb addr set
    else pa = addr ∧ tlb = s.tlbReg

/-- The TLB registers of a state are those of a list of values. -/
def State.TlbIs (s : State) (tlb : Nat → Word) : Prop := ∀ k < 128, s.tlbReg k = tlb k

/-- The access is one to the instruction ROM as data: OPT = 100 in a system that routes it there (20 R137, 92 D2). -/
def State.romAccess (s : State) (ctl : BitVec 8) : Bool := decide (ctl.toNat % 8 = 4) && s.sys.romAsData

/-- Hardware for narrow accesses takes part: the parameter `NARROW_ACCESS_HW`, with OPT neither 000 nor 100 (20 R136, 92 D3,
entry 38). -/
def State.narrowAccess (s : State) (ctl : BitVec 8) : Bool :=
  s.sys.narrow && decide (ctl.toNat % 8 ≠ 0 ∧ ctl.toNat % 8 ≠ 4)

/-- The word that a load brings: the whole word of memory, or what hardware for narrow accesses makes of it; any word from a
device or a coprocessor (20 R136, R137, R140). -/
def State.Brings (s : State) (ctl : BitVec 8) (pa w : Word) : Prop :=
  ctl.getLsbD 7 = false → ctl.getLsbD 6 = false →
    let word := Memory.readWord (if s.romAccess ctl then s.rom else s.idm) (pa.extractLsb' 2 30)
    w = if s.narrowAccess ctl then Config.narrowRead (ctl.extractLsb' 0 3) (pa.extractLsb' 0 2) word else word

/-- Byte `a` is one of the four that an access to instruction/data memory at `pa` moves; nothing else is stored to: not the
instruction ROM (entry 7), not a device or a coprocessor (entry 8) (20 R136, R137, R140). -/
def State.movesByte (s : State) (ctl : BitVec 8) (pa : Word) (a : Nat) : Bool :=
  !ctl.getLsbD 7 && !ctl.getLsbD 6 && !s.romAccess ctl && decide (a / 4 = pa.toNat / 4)

/-- The word that is in memory after a store of `w` at `pa`, `bytes` the memory before: `w`, or what hardware for narrow
accesses merges (20 R136, 92 D3). -/
def State.leftWord (s : State) (ctl : BitVec 8) (pa w : Word) (bytes : Nat → Byte) : Word :=
  let base := pa.toNat / 4 * 4
  if s.narrowAccess ctl then
    Config.narrowWrite (ctl.extractLsb' 0 3) (pa.extractLsb' 0 2)
      (bytes base ++ bytes (base + 1) ++ bytes (base + 2) ++ bytes (base + 3)) w
  else w

/-- Byte `a` of a word, the high-order byte at the lowest address (entry 6). -/
def byteAt (w : Word) (a : Nat) : Byte := BitVec.ofNat 8 (w.toNat / 2 ^ (24 - 8 * (a % 4)))

/-- The bytes of instruction/data memory after a store of `w` at `pa`, from those before it. -/
def State.bytesAfter (s : State) (ctl : BitVec 8) (pa w : Word) (bytes : Nat → Byte) (a : Nat) : Byte :=
  if s.movesByte ctl pa a then byteAt (s.leftWord ctl pa w bytes) a else bytes a

/-- Instruction/data memory of `t` is that of `s` with `w` stored at `pa`; the ROM is the same (20 R140). -/
def StoresWord (s t : State) (ctl : BitVec 8) (pa w : Word) : Prop :=
  ∀ a, Memory.read t.idm a = s.bytesAfter ctl pa w (Memory.read s.idm) a ∧ Memory.read t.rom a = Memory.read s.rom a

/-- The channel registers after an access has been recorded, `cv` telling whether it still describes one to be made; they keep
their values while they are frozen (20 R145, R147, 10 R62 to R64). `CHD` of a load is any value. -/
structure ChannelIs (s t : State) (ctl : BitVec 8) (isLoad ml set la : Bool) (cr : BitVec 8) (tr : RegNum)
    (addr data : Word) (cv : Bool) : Prop where
  cha : t.cha = if s.frozen then s.cha else addr
  chd : if s.frozen then t.chd = s.chd else isLoad = false → t.chd = data
  chc : t.chc = if s.frozen then s.chc
    else ctl ++ cr ++ BitVec.ofBool isLoad ++ BitVec.ofBool ml ++ BitVec.ofBool set ++ BitVec.ofBool la ++ 0#2 ++ tr ++
      0#1 ++ BitVec.ofBool cv

/-- `ALU` is the same but for BP, which SB = 1 sets from the address (20 R138). -/
def BytePointerIs (s t : State) (ctl : BitVec 8) (addr : Word) : Prop :=
  ∀ i, t.alu.getLsbD i =
    if (i = 5 ∨ i = 6) ∧ ctl.getLsbD 4 = true ∧ ctl.getLsbD 7 = false ∧ s.frozen = false then addr.getLsbD (i - 5)
    else s.alu.getLsbD i

/-- `CPS` is the same but for TP, and for CA, which a coprocessor transfer with SA = 1 sets or resets (44 R392, 60 R600). -/
def StatusAfterAccess (s t : State) (ctl : BitVec 8) (isLoad : Bool) : Prop :=
  ∀ i, t.cps.getLsbD i =
    if i = 12 then s.cps.getLsbD 13
    else if i = 15 ∧ ctl.getLsbD 7 = true ∧ ctl.getLsbD 5 = true then !isLoad
    else s.cps.getLsbD i

/-- `CPS` is the same but for CA, which a coprocessor transfer with SA = 1 sets or resets (44 R392): an instruction that has not
completed does not copy TE to TP (60 R545). -/
def StatusButActive (s t : State) (ctl : BitVec 8) (isLoad : Bool) : Prop :=
  ∀ i, t.cps.getLsbD i = if i = 15 ∧ ctl.getLsbD 7 = true ∧ ctl.getLsbD 5 = true then !isLoad else s.cps.getLsbD i

/-- What a single load or store leaves but for registers, memory and the TLB: the channel registers, BP, CA, the program
counters (44 R371). -/
structure AccessEnds (s t : State) (ctl : BitVec 8) (isLoad set la : Bool) (tr : RegNum) (addr data : Word) (cv : Bool) :
    Prop where
  channel : ChannelIs s t ctl isLoad false set la (s.chc.extractLsb' 16 8) tr addr data cv
  alu : BytePointerIs s t ctl addr
  status : StatusAfterAccess s t ctl isLoad
  special : SameSpecial s t
  pointers : SamePointers s t
  q : t.q = s.q
  mode : t.mode = s.mode
  pc : PcAdvances s t

/-- A load or store with control field `ctl` of registers `ra` and `rb` may begin: PA only in Supervisor mode, no protected
register (20 R149 (a)), ML not set by a move or `CHC` frozen (44 R389, 20 R145; entry 14), and the access in flight, if any,
completes and does not end in `*DERR` (20 R144). -/
def State.MayAccess (s : State) (ctl : BitVec 8) (ra : RegNum) (rb : Src2) : Prop :=
  (s.supervisor = true ∨ ctl.getLsbD 7 = true ∨ ctl.getLsbD 5 = false) ∧ s.isProtected (s.absReg .A ra) = false ∧
    s.protectedSrc (s.resolve rb) = false ∧ (s.mlByMove = false ∨ s.chc.getLsbD 14 = false ∨ s.frozen = true) ∧
    s.settlement = .ends

/-- A multiple sequence may begin: what a single access asks (20 R149), and not under FZ, after another one, or in Load Test
Instruction mode (44 R389, 60 R614). -/
def State.MaySequence (s : State) (ctl : BitVec 8) (ra : RegNum) (rb : Src2) : Prop :=
  s.MayAccess ctl ra rb ∧ s.testing = false ∧ s.cps.getLsbD 10 = false ∧ s.afterMultiple = false

/-- The system answers the next access, or both halves of a `LOADSET`, and without `*DERR` (20 R139, R165). -/
def State.answered (s : State) (set : Bool) : Bool :=
  decide (s.env.answers.headD .ready = .ready) &&
    (!set || decide ((s.env.answers.drop 1).headD .ready = .ready))

/-- The system answers the next access, or the second half of a `LOADSET`, with `*DERR` (20 R139, R162, R165). -/
def State.refusedBySystem (s : State) (set : Bool) : Bool :=
  decide (s.env.answers.headD .ready = .error) ||
    (set && decide (s.env.answers.headD .ready = .ready ∧ (s.env.answers.drop 1).headD .ready = .error))

/-- The register of transfer `k` of a multiple sequence that begins with register `tr`: 127 and 255 are followed by 128
(20 R160). -/
def seqReg (tr : RegNum) (k : Nat) : RegNum :=
  match k with
  | 0 => tr
  | j + 1 => if (seqReg tr j).toNat = 127 ∨ (seqReg tr j).toNat = 255 then 128#8 else seqReg tr j + 1#8

/-- The address of transfer `k` (20 R160). -/
def seqAddr (addr : Word) (k : Nat) : Word := addr + BitVec.ofNat 32 (4 * k)

/-- Every access is answered without `*DERR`, and neither `*RESET` nor `*WARN` comes while a sequence runs: the pins keep their
levels. The Timer does not move. -/
structure State.Calm (s : State) : Prop where
  events : s.env.events = []
  cycles : s.env.cycles = []
  answers : s.env.answers = []
  warn : s.warnPending = false
  reset : s.pins.reset = false

/-- The same, and none of the events of 60 R549 but those of TF is pending and enabled. -/
structure State.Undisturbed (s : State) : Prop extends s.Calm where
  async : ({ s with chc := 0#32 } : State).asyncEvent = none

/-- Nothing cuts a sequence in its first `j` gaps between two accesses: the pins keep their levels, none of the events of 60
R549 but those of TF is pending and enabled, and the Timer does not move. -/
structure State.Uncut (s : State) (j : Nat) : Prop where
  events : ∀ e ∈ s.env.events.take j, e = s.pins
  cycles : ∀ c ∈ s.env.cycles.take j, c = 0
  calm : 0 < j → s.warnPending = false ∧ s.pins.reset = false ∧ ({ s with chc := 0#32 } : State).asyncEvent = none

/-- The words `w` are loaded one after another into the registers of a sequence: the last one into a register stays. -/
def LoadsAll (s t : State) (tr : RegNum) (n : Nat) (w : Nat → Word) : Prop :=
  SameRegs s t ((List.range (n + 1)).map (seqReg tr)) ∧
    ∀ k ≤ n, (∀ j ≤ n, k < j → seqReg tr j ≠ seqReg tr k) → implemented (seqReg tr k) = true →
      t.readReg .A (seqReg tr k) = w k

/-- The words `w` of the first `k` transfers of a sequence are loaded into its registers: the last one into a register stays. -/
def LoadsFirst (s t : State) (tr : RegNum) (k : Nat) (w : Nat → Word) : Prop :=
  SameRegs s t ((List.range k).map (seqReg tr)) ∧
    ∀ j < k, (∀ l < k, j < l → seqReg tr l ≠ seqReg tr j) → implemented (seqReg tr j) = true →
      t.readReg .A (seqReg tr j) = w j

/-- The bytes of instruction/data memory after the first `n` stores of a sequence, of the words `w` at the addresses `pa`. -/
def State.bytesAfterAll (s : State) (ctl : BitVec 8) (pa w : Nat → Word) (n : Nat) : Nat → Byte :=
  match n with
  | 0 => Memory.read s.idm
  | k + 1 => s.bytesAfter ctl (pa k) (w k) (s.bytesAfterAll ctl pa w k)

/-- The words `w` 0 to `w` n are stored one after another at the addresses `pa` 0 to `pa` n, and no other byte changes. -/
def StoresAll (s t : State) (ctl : BitVec 8) (pa : Nat → Word) (n : Nat) (w : Nat → Word) : Prop :=
  ∀ a, Memory.read t.rom a = Memory.read s.rom a ∧ Memory.read t.idm a = s.bytesAfterAll ctl pa w (n + 1) a

/-- The TLB is the same but for Usage bits, bit 1 of the odd registers (20 R156). -/
def SameTlbButUsage (s t : State) : Prop :=
  ∀ k i, k % 2 = 0 ∨ i ≠ 1 → (t.tlbReg k).getLsbD i = (s.tlbReg k).getLsbD i

/-- `t` is `s` after a completed multiple sequence: registers and memory apart, what it leaves (44 R386). `CR` is any value. -/
structure SequenceEnds (s t : State) (ctl : BitVec 8) (isLoad : Bool) (tr : RegNum) (addr : Word) (n : Nat) (last : Word) :
    Prop where
  cha : t.cha = seqAddr addr n
  chd : isLoad = false → t.chd = last
  chc : ∃ cr : BitVec 8, t.chc = ctl ++ cr ++ BitVec.ofBool isLoad ++ 0#5 ++ seqReg tr n ++ 0#2
  alu : BytePointerIs s t ctl addr
  special : SameSpecial s t
  pointers : SamePointers s t
  q : t.q = s.q
  mode : t.mode = s.mode
  tlb : SameTlbButUsage s t
  untranslated : s.translated ctl = false → t.tlb = s.tlb
  inflight : t.inflight = none
  shadow : (isLoad = false ∨ ∀ k ≤ n, seqReg tr k ≠ 1#8) → t.sps.now = s.sps.now

/-- Nothing outside asks for anything at the next boundary: Executing mode, `CNTL0-CNTL1` = 11, no `*RESET`, no `*WARN`, no
instruction from a development system (60 R545, R580, R615). -/
structure State.Quiet (s : State) : Prop where
  mode : s.mode = .executing
  reset : s.nextPins.reset = false
  warn : s.warnPending = false ∧ (s.nextPins.warn = true → s.pins.warn = true)
  cntl : s.nextPins.cntl = .normal ∧ s.pins.cntl ≠ .loadTest
  irValid : s.irValid = false

/-- The state in which a step looks for events: the pins sampled, the cycles of the step passed for the Timer, and the access in
flight one boundary further (60 R545). -/
def State.atBoundary (s : State) : State := s.samplePins.stepCycles.accessTick

/-- The instruction at `pc` is fetched from ROM or instruction/data memory, at the word address `pa`; `tlb` is the TLB after it
(20 R141, R150 to R156). -/
def State.FetchesAt (s : State) (rom : Bool) (pa : IAddr) (tlb : Nat → Word) : Prop :=
  let va : Word := s.pc ++ 0#2
  if s.cps.getLsbD 5 = false ∧ s.cps.getLsbD 8 = false then
    s.mmu.age ≠ 1 ∧ s.psTarget ≠ 1 ∧ rom = false ∧ ∃ set, s.TlbHit va set ∧
      permits (s.entry0 va set) .fetch (!s.cps.getLsbD 4) = true ∧ pa = (s.physical va set).extractLsb' 2 30 ∧
      tlb = s.usedTlb va set
  else rom = s.cps.getLsbD 8 ∧ pa = s.pc ∧ tlb = s.tlbReg

/-- The asynchronous event of priority `p` of 60 R532 has occurred and is enabled (60 R547, R549). Of priority 4 it is the
model's choice that TF = 1 with FZ = 0 is pending whoever set it, and that an exception that came while the channel registers
were frozen is held in `derr` (entry 17, 92 D17, D26). -/
def State.Pending (s : State) (p : Nat) : Prop :=
  let interrupt (i : Nat) : Prop :=
    s.cps.getLsbD 0 = false ∧ s.cps.getLsbD 1 = false ∧ i ≤ s.cps.toNat / 4 % 4 ∧ s.pins.intr.getLsbD i = true
  match p with
  | 4 => s.derr ≠ none ∨ (s.chc.getLsbD 10 = true ∧ s.cps.getLsbD 10 = false)
  | 5 => s.cps.getLsbD 0 = false ∧ s.pins.trap0 = true
  | 6 => s.cps.getLsbD 0 = false ∧ s.pins.trap1 = true
  | 7 => interrupt 0
  | 8 => interrupt 1
  | 9 => interrupt 2
  | 10 => interrupt 3
  | 11 => s.cps.getLsbD 0 = false ∧ s.tmr.getLsbD 24 = true ∧ s.tmr.getLsbD 25 = true
  | 12 => s.cps.getLsbD 0 = false ∧ s.cps.getLsbD 12 = true
  | _ => False

/-- The vector number of the event of priority `p` (60 R532, R547). -/
def State.eventVector (s : State) (p : Nat) : Byte :=
  match p with
  | 4 => s.derr.getD (if s.chc.getLsbD 31 then 4#8 else 7#8)
  | 5 => 20#8
  | 6 => 21#8
  | 7 => 16#8
  | 8 => 17#8
  | 9 => 18#8
  | 10 => 19#8
  | 11 => 14#8
  | _ => 15#8

/-- `t` is `s` after the fetch of the instruction at `pc`, `tlb` being the TLB after it: a non-sequential fetch has used what of
the Branch Target Cache `CFG.CD` allowed before it, and puts the new `CFG.CD` in force (20 R172, R173). The TLB after it has the
Usage bits set, as at every fetch (entry 26, DESIGN CHOICE, 92 D19; 20 R161 leaves it open); what is left of a block is part of
the model's record of hidden copies (entry 27, DESIGN CHOICE). -/
structure Fetches (s t : State) (tlb : Nat → Word) : Prop where
  rest : t = { s with
    tlb := t.tlb, stream := t.stream, turn := none, lastNonseq := t.lastNonseq, cdInForce := t.cdInForce, block := t.block }
  tlb : t.TlbIs tlb
  cd : t.cdInForce = if s.turn = none then s.cdInForce else s.cfg.getLsbD 0
  block : t.block.left = (if s.turn = none then s.block.left else if s.cdInForce then 0 else 4) - 1

/-- `t` is `s` after the steps of an interrupt return but for a restarted access (60 R570, R571): the status is `OPS`, execution
goes on at `PC1`, then `PC0`, and `PC0`, `PC1`, `PC2` are captured if the return sets FZ. `CPS.IP` is computed, and CA is told
apart. That with FZ = 0 before the return `PC1` and `PC0` read as `pc` and `npc`, so that execution stays there, and that what is
captured is `npc`, `pc` and `ppc`, is the model's choice (entry 19, DESIGN CHOICE, 92 D12). -/
structure Returned (s t : State) : Prop where
  status : ∀ i < 14, t.cps.getLsbD i = s.ops.getLsbD i
  pc : t.pc = if s.cps.getLsbD 10 then s.pc1.extractLsb' 2 30 else s.pc
  npc : t.npc = if s.cps.getLsbD 10 then s.pc0.extractLsb' 2 30 else s.npc
  ppc : t.ppc = s.ppc
  pc0 : t.pc0 = if s.cps.getLsbD 10 = false ∧ s.ops.getLsbD 10 = true then s.npc ++ 0#2 else s.pc0
  pc1 : t.pc1 = if s.cps.getLsbD 10 = false ∧ s.ops.getLsbD 10 = true then s.pc ++ 0#2 else s.pc1
  pc2 : t.pc2 = if s.cps.getLsbD 10 = false ∧ s.ops.getLsbD 10 = true then s.ppc ++ 0#2 else s.pc2
  special : SameSpecial { s with pc0 := t.pc0, pc1 := t.pc1, pc2 := t.pc2 } t
  pointers : SamePointers s t
  q : t.q = s.q
  mode : t.mode = s.mode

/-- The interrupt returns, and whether each invalidates the Branch Target Cache. -/
def returns : List (Instr × Bool) := [(.iret, false), (.iretinv, true)]

/-- The state in which an interrupt return restarts an access: the status is `OPS` already (60 R570 step 4). -/
def State.underOps (s : State) : State := { s with cps := s.ops &&& 0xFFFFBFFF#32 }

end Sys2Proof.Machine
end

