-- ==== Sys2Proof/WellFormed.lean ====
section
/-! DEFINITION. The static check on instructions: a reserved bit that a constructor carries is 0 (30 R205, R208). -/

namespace Sys2Proof

/-- Bit 20 of a load or store is reserved when CE (bit 23) is 1 (30 R208); software writes reserved bits as 0 (30 R205). -/
def ctlWellFormed (ctl : BitVec 8) : Bool := !(ctl.getLsbD 7 && ctl.getLsbD 4)

/-- Every reserved bit that the instruction carries is 0. The seven loads and stores are the only instructions whose
carried fields have a reserved bit; every other field is free over its whole width (30 R201). An instruction that is not
well-formed still executes, as if the bit were 0 (30 R205). -/
def Instr.wellFormed (i : Instr) : Bool :=
  match i with
  | .load ctl _ _ | .loadl ctl _ _ | .loadset ctl _ _ | .loadm ctl _ _
  | .store ctl _ _ | .storel ctl _ _ | .storem ctl _ _ => ctlWellFormed ctl
  | .add _ _ _ | .adds _ _ _ | .addu _ _ _ | .addc _ _ _ | .addcs _ _ _ | .addcu _ _ _ | .sub _ _ _ | .subs _ _ _
  | .subu _ _ _ | .subc _ _ _ | .subcs _ _ _ | .subcu _ _ _ | .subr _ _ _ | .subrs _ _ _ | .subru _ _ _ | .subrc _ _ _
  | .subrcs _ _ _ | .subrcu _ _ _ | .mul _ _ _ | .mull _ _ _ | .multiply _ _ _ | .divide _ _ _ | .mulu _ _ _
  | .div0 _ _ | .div _ _ _ | .divl _ _ _ | .divrem _ _ _ | .cpeq _ _ _ | .cpneq _ _ _ | .cplt _ _ _ | .cpltu _ _ _
  | .cple _ _ _ | .cpleu _ _ _ | .cpgt _ _ _ | .cpgtu _ _ _ | .cpge _ _ _ | .cpgeu _ _ _ | .cpbyte _ _ _ | .aseq _ _ _
  | .asneq _ _ _ | .aslt _ _ _ | .asltu _ _ _ | .asle _ _ _ | .asleu _ _ _ | .asgt _ _ _ | .asgtu _ _ _ | .asge _ _ _
  | .asgeu _ _ _ | .and _ _ _ | .andn _ _ _ | .nand _ _ _ | .or _ _ _ | .nor _ _ _ | .xor _ _ _ | .xnor _ _ _
  | .sll _ _ _ | .srl _ _ _ | .sra _ _ _ | .extract _ _ _ | .exbyte _ _ _ | .exhw _ _ _ | .exhws _ _ | .inbyte _ _ _
  | .inhw _ _ _ | .mfsr _ _ | .mtsr _ _ | .mtsrim _ _ | .mftlb _ _ | .mttlb _ _ | .const _ _ | .consth _ _
  | .constn _ _ | .fadd _ _ _ | .dadd _ _ _ | .fsub _ _ _ | .dsub _ _ _ | .fmul _ _ _ | .dmul _ _ _ | .fdiv _ _ _
  | .ddiv _ _ _ | .feq _ _ _ | .deq _ _ _ | .flt _ _ _ | .dlt _ _ _ | .fgt _ _ _ | .dgt _ _ _ | .cvintf _ _
  | .cvintd _ _ | .cvfint _ _ | .cvdint _ _ | .cvfd _ _ | .cvdf _ _ | .jmp _ _ | .jmpi _ | .jmpt _ _ _ | .jmpf _ _ _
  | .jmpti _ _ | .jmpfi _ _ | .jmpfdec _ _ _ | .call _ _ _ | .calli _ _ | .clz _ _ | .setip _ _ _ | .emulate _ _ _
  | .inv | .iret | .iretinv | .halt => true

end Sys2Proof
end

