-- ==== Sys2Proof/Certificates/Slice0/Obligations.lean ====
section
/-! DEFINITION. The statements for the provers, in the terms of `Safety`. Each docstring names the rules of the spec that it
formalises, and the entries of the assumption log that it rests on. -/

namespace Sys2Proof.Machine

/-- The Integer Arithmetic and Logical instructions that name RC, RA and `RB or I` (40 R240, 42 R330). -/
def shadowForms (rc ra : RegNum) (rb : Src2) : List Instr :=
  [.add rc ra rb, .addc rc ra rb, .adds rc ra rb, .addu rc ra rb, .addcs rc ra rb, .addcu rc ra rb, .sub rc ra rb,
    .subc rc ra rb, .subs rc ra rb, .subu rc ra rb, .subcs rc ra rb, .subcu rc ra rb, .subr rc ra rb, .subrc rc ra rb,
    .subrs rc ra rb, .subru rc ra rb, .subrcs rc ra rb, .subrcu rc ra rb, .mul rc ra rb, .mull rc ra rb, .mulu rc ra rb,
    .div rc ra rb, .divl rc ra rb, .divrem rc ra rb, .and rc ra rb, .andn rc ra rb, .nand rc ra rb, .or rc ra rb,
    .nor rc ra rb, .xor rc ra rb, .xnor rc ra rb]

/-- The instructions of other classes that name RC, RA and `RB or I` (41 R290, 43 R350, 44 R393 to R397). -/
def noShadowForms (rc ra : RegNum) (rb : Src2) : List Instr :=
  [.cpeq rc ra rb, .cpneq rc ra rb, .cplt rc ra rb, .cpltu rc ra rb, .cple rc ra rb, .cpleu rc ra rb, .cpgt rc ra rb,
    .cpgtu rc ra rb, .cpge rc ra rb, .cpgeu rc ra rb, .cpbyte rc ra rb, .sll rc ra rb, .srl rc ra rb, .sra rc ra rb,
    .extract rc ra rb, .exbyte rc ra rb, .exhw rc ra rb, .inbyte rc ra rb, .inhw rc ra rb]

/-- The relation that an assert asserts (41 R305 to R314). -/
def assertRelation (i : Instr) (a b : Word) : Prop :=
  match i with
  | .aseq _ _ _ => a = b
  | .asneq _ _ _ => a ≠ b
  | .aslt _ _ _ => a.toInt < b.toInt
  | .asltu _ _ _ => a.toNat < b.toNat
  | .asle _ _ _ => a.toInt ≤ b.toInt
  | .asleu _ _ _ => a.toNat ≤ b.toNat
  | .asgt _ _ _ => b.toInt < a.toInt
  | .asgtu _ _ _ => b.toNat < a.toNat
  | .asge _ _ _ => b.toInt ≤ a.toInt
  | .asgeu _ _ _ => b.toNat ≤ a.toNat
  | _ => False

/-- The ten asserts. -/
def asserts (vn : BitVec 8) (ra : RegNum) (rb : Src2) : List Instr :=
  [.aseq vn ra rb, .asneq vn ra rb, .aslt vn ra rb, .asltu vn ra rb, .asle vn ra rb, .asleu vn ra rb, .asgt vn ra rb,
    .asgtu vn ra rb, .asge vn ra rb, .asgeu vn ra rb]

/-- The bit number of the lowest bit of byte `k` of a word, `k` counted as `CFG.BO` says: from the left when it is 0, from the
right when it is 1 (20 R131). -/
def byteStart (bo : Bool) (k : Nat) : Nat := if bo then 8 * k else 24 - 8 * k

/-- The bit number of the lowest bit of the half-word that holds byte `k` (44 R398). -/
def halfStart (bo : Bool) (k : Nat) : Nat := if bo then 16 * (k / 2) else 16 - 16 * (k / 2)

/-- The `n` bits of `w` from bit `i` up, as a number. -/
def fieldOf (w : Word) (i n : Nat) : Nat := w.toNat / 2 ^ i % 2 ^ n

/-- The bits of TLB register `n` that are implemented (10 R81, R82). -/
def tlbBits (n : Nat) : Word := if n % 2 = 1 then 0xFFFFFCC3#32 else 0xFFFFFFFF#32

/-- The target of a branch with an address field: relative to the branch itself, or absolute (47 R480). -/
def branchTarget (pc : IAddr) (a : Bool) (i16 : BitVec 16) : IAddr :=
  if a then BitVec.ofNat 30 i16.toNat else BitVec.ofInt 30 (pc.toNat + i16.toInt)

/-- `t` ends a branch that is taken if `taken`: the next instruction executes in any case, then the target or the one after it
(47 R470). -/
def BranchEnds (s t : State) (taken : Bool) (x : IAddr) : Prop :=
  if taken then PcBranches s t x else PcAdvances s t

/-- The loads, with whether each is `LOADSET` and whether it records LA (44 R380 to R382). -/
def loadForms (ctl : BitVec 8) (ra : RegNum) (rb : Src2) : List (Instr × Bool × Bool) :=
  [(.load ctl ra rb, false, false), (.loadl ctl ra rb, false, true), (.loadset ctl ra rb, true, false)]

/-- The stores, with whether each records LA (44 R383, R384). -/
def storeForms (ctl : BitVec 8) (ra : RegNum) (rb : Src2) : List (Instr × Bool) :=
  [(.store ctl ra rb, false), (.storel ctl ra rb, true)]

/-- All loads and stores, single and multiple. -/
def accessForms (ctl : BitVec 8) (ra : RegNum) (rb : Src2) : List Instr :=
  [.load ctl ra rb, .loadl ctl ra rb, .loadset ctl ra rb, .store ctl ra rb, .storel ctl ra rb, .loadm ctl ra rb,
    .storem ctl ra rb]

/-- What a load or store asks of its page (20 R153). -/
def wantOf (i : Instr) : Want :=
  match i with
  | .loadset _ _ _ => .loadset
  | .store _ _ _ => .store
  | .storel _ _ _ => .store
  | .storem _ _ _ => .store
  | _ => .load

/-- Out of Range for the operands `a` and `b` and the carry `c`: of the S- and U-suffixed adds and subtracts alone (40 R269). -/
def outOfRange (i : Instr) (a b : Word) (c : Bool) : Bool :=
  match i with
  | .adds _ _ _ => (exactSum a b false).overflows
  | .addu _ _ _ => (exactSum a b false).carry
  | .addcs _ _ _ => (exactSum a b c).overflows
  | .addcu _ _ _ => (exactSum a b c).carry
  | .subs _ _ _ => (exactDifference a b true).overflows
  | .subu _ _ _ => !(exactDifference a b true).carry
  | .subcs _ _ _ => (exactDifference a b c).overflows
  | .subcu _ _ _ => !(exactDifference a b c).carry
  | .subrs _ _ _ => (exactDifference b a true).overflows
  | .subru _ _ _ => !(exactDifference b a true).carry
  | .subrcs _ _ _ => (exactDifference b a c).overflows
  | .subrcu _ _ _ => !(exactDifference b a c).carry
  | _ => false

/-- The first `k` transfers of a sequence have been made, of the words `w` at the addresses `pa`: what they leave of registers
and memory (20 R160). A store of an unimplemented register is of any word. -/
structure Transferred (s t : State) (ctl : BitVec 8) (isLoad : Bool) (tr : RegNum) (k : Nat) (pa w : Nat → Word) : Prop where
  load : isLoad = true → (∀ j < k, s.Brings ctl (pa j) (w j)) ∧ LoadsFirst s t tr k w ∧ SameMemory s t
  store : isLoad = false → (∀ j < k, implemented (seqReg tr j) = true → w j = s.readReg .A (seqReg tr j)) ∧
    SameRegs s t [] ∧
    ∀ a, Memory.read t.rom a = Memory.read s.rom a ∧ Memory.read t.idm a = s.bytesAfterAll ctl pa w k a

/-- The first `k` transfers of a sequence have been made, and nothing else but the channel registers, BP, the status, `LRU` and
Usage bits has changed (44 R386, 20 R160); a load into Global Register 1 leaves the Stack Pointer shadow not valid (10 R34). -/
structure SequenceAt (s t : State) (ctl : BitVec 8) (isLoad : Bool) (tr : RegNum) (addr : Word) (k : Nat)
    (pa w : Nat → Word) : Prop extends Transferred s t ctl isLoad tr k pa w where
  alu : BytePointerIs s t ctl addr
  special : SameSpecial { s with lru := t.lru } t
  pointers : SamePointers s t
  q : t.q = s.q
  mode : t.mode = s.mode
  tlb : SameTlbButUsage s t
  shadow : (isLoad = false ∨ ∀ j < k, seqReg tr j ≠ 1#8) → t.sps.now = s.sps.now
  noShadow : isLoad = true → (∃ j < k, seqReg tr j = 1#8) → t.sps.now = none
  inflight : t.inflight = none

/-- The channel registers describe transfer `k` of a sequence of `n + 1`, to be made (20 R145, 44 R386). -/
def SequenceNext (s t : State) (ctl : BitVec 8) (isLoad : Bool) (tr : RegNum) (addr : Word) (k n : Nat) : Prop :=
  t.cha = seqAddr addr k ∧ (isLoad = false → implemented (seqReg tr k) = true → t.chd = s.readReg .A (seqReg tr k)) ∧
    t.chc = ctl ++ BitVec.ofNat 8 (n - k) ++ BitVec.ofBool isLoad ++ 1#1 ++ 0#4 ++ seqReg tr k ++ 1#2

/-- What is left by a load or store whose access raises the trap `vn`: the channel registers describe it, BP is set, the access
is not made; then the trap is taken, the next instruction in `PC1` (20 R149 (d), 60 R545). -/
def AccessTraps (s1 : State) (i : Instr) (s : State) (ctl : BitVec 8) (isLoad set la : Bool) (tr : RegNum)
    (addr data : Word) (vn : Byte) (tlb : Nat → Word) (lru : Word → Prop) : Prop :=
  ∃ t u, exec i s = .next u ∧ TrapEntered t u vn ∧
    ChannelIs s1 t ctl isLoad false set la (s1.chc.extractLsb' 16 8) tr addr data true ∧ BytePointerIs s1 t ctl addr ∧
    SameStatus s1 t ∧ SameSpecial s1 { t with lru := s1.lru } ∧ SamePointers s1 t ∧ t.q = s1.q ∧ t.mode = s1.mode ∧
    PcAdvances s1 t ∧ SameRegs s1 t [] ∧ SameMemory s1 t ∧ t.TlbIs tlb ∧ lru t.lru ∧ t.sps.now = s1.sps.now ∧
    t.inflight = none

/-- Instructions that name RC, RA and `RB or I` (40 R240, 41 R290, 42 R330, 43 R350, 44 R393 to R397). -/
def binaryForms (rc ra : RegNum) (rb : Src2) : List Instr :=
  [.add rc ra rb, .addc rc ra rb, .adds rc ra rb, .addu rc ra rb, .addcs rc ra rb, .addcu rc ra rb, .sub rc ra rb,
    .subc rc ra rb, .subs rc ra rb, .subu rc ra rb, .subcs rc ra rb, .subcu rc ra rb, .subr rc ra rb, .subrc rc ra rb,
    .subrs rc ra rb, .subru rc ra rb, .subrcs rc ra rb, .subrcu rc ra rb, .mul rc ra rb, .mull rc ra rb, .mulu rc ra rb,
    .div rc ra rb, .divl rc ra rb, .divrem rc ra rb, .cpeq rc ra rb, .cpneq rc ra rb, .cplt rc ra rb, .cpltu rc ra rb,
    .cple rc ra rb, .cpleu rc ra rb, .cpgt rc ra rb, .cpgtu rc ra rb, .cpge rc ra rb, .cpgeu rc ra rb, .cpbyte rc ra rb,
    .and rc ra rb, .andn rc ra rb, .nand rc ra rb, .or rc ra rb, .nor rc ra rb, .xor rc ra rb, .xnor rc ra rb,
    .sll rc ra rb, .srl rc ra rb, .sra rc ra rb, .extract rc ra rb, .exbyte rc ra rb, .exhw rc ra rb, .inbyte rc ra rb,
    .inhw rc ra rb]

/-- The instructions of 60 R590 that only a Supervisor-mode program may execute. -/
def privileged (rc ra rb : RegNum) (sa : BitVec 8) (i16 : BitVec 16) : List Instr :=
  [.mfsr rc sa, .mtsr sa rb, .mtsrim sa i16, .mftlb rc ra, .mttlb ra rb, .inv, .halt, .iret, .iretinv]

/-- The instructions that trap to software with three registers, and their vectors (40 R262, R263, 46 R431 to R444). -/
def emulatedForms (rc ra rb : RegNum) : List (Instr × Byte) :=
  [(.multiply rc ra rb, 32#8), (.divide rc ra rb, 33#8), (.fadd rc ra rb, 48#8), (.dadd rc ra rb, 49#8),
    (.fsub rc ra rb, 50#8), (.dsub rc ra rb, 51#8), (.fmul rc ra rb, 52#8), (.dmul rc ra rb, 53#8), (.fdiv rc ra rb, 54#8),
    (.ddiv rc ra rb, 55#8), (.feq rc ra rb, 42#8), (.deq rc ra rb, 43#8), (.flt rc ra rb, 46#8), (.dlt rc ra rb, 47#8),
    (.fgt rc ra rb, 44#8), (.dgt rc ra rb, 45#8)]

/-- The conversions and their vectors (46 R445 to R450). -/
def conversionForms (rc ra : RegNum) : List (Instr × Byte) :=
  [(.cvintf rc ra, 36#8), (.cvintd rc ra, 37#8), (.cvfint rc ra, 38#8), (.cvdint rc ra, 39#8), (.cvfd rc ra, 40#8),
    (.cvdf rc ra, 41#8)]

/-- The opcodes that 30 R213 assigns to no instruction. -/
def unassigned : List Nat :=
  [0x00, 0x05, 0x76, 0x77, 0x7F, 0x84, 0x85, 0x8A, 0x8B, 0x8D, 0x8E, 0x8F, 0xA2, 0xA3, 0xA6, 0xA7, 0xAA, 0xAB, 0xAE, 0xAF,
    0xB0, 0xB1, 0xB2, 0xB3, 0xB7, 0xB8, 0xB9, 0xBA, 0xBB, 0xBC, 0xBD, 0xBF, 0xC1, 0xC2, 0xC3, 0xC5, 0xC7, 0xC9, 0xCA, 0xCB,
    0xCD, 0xCF, 0xD0, 0xD1, 0xD2, 0xD3, 0xD4, 0xD5, 0xD6, 0xD7, 0xD8, 0xD9, 0xDA, 0xDB, 0xDC, 0xDD, 0xDE, 0xDF, 0xE2, 0xE3,
    0xF9, 0xFA, 0xFB, 0xFC, 0xFD, 0xFE, 0xFF]

/-- The words with opcode `op`, and RC, RA, RB in their fields, decode to the register form of an instruction, those with
opcode `op + 1`, and I in the place of RB, to its constant form (30 R210). -/
def HasOpcodes (op : BitVec 8) (i : RegNum → RegNum → Src2 → Instr) : Prop :=
  ∀ rc ra n : BitVec 8,
    decode (op ++ rc ++ ra ++ n) = .ok (i rc ra (.reg n)) ∧ decode ((op + 1#8) ++ rc ++ ra ++ n) = .ok (i rc ra (.imm n))

/-- The words with opcode `op`, RA in bits 15-8 and I16 in bits 23-16 and 7-0, decode to a constant instruction (30 R210). -/
def HasOpcode (op : BitVec 8) (i : RegNum → BitVec 16 → Instr) : Prop :=
  ∀ ra high low : BitVec 8, decode (op ++ high ++ ra ++ low) = .ok (i ra (high ++ low))

end Sys2Proof.Machine

open Sys2Proof Sys2Proof.Machine

/-- The absolute number of a register field: 0 through the pointer of the field, 1 to 127 itself, 128 to 255 relative to the
Stack Pointer shadow, modulo 128; a local number never names a global register (10 R34, R36). -/
def Obligations.AbsoluteRegisterNumbers : Prop :=
  ∀ (s : State) (f : Field) (n : RegNum),
    (n = 0#8 → (s.pointer f).age ≠ 1 → s.absReg f n = (s.pointer f).now) ∧
    (1 ≤ n.toNat → n.toNat ≤ 127 → s.absReg f n = n) ∧
    (128 ≤ n.toNat → 128 ≤ (s.absReg f n).toNat) ∧
    (128 ≤ n.toNat → s.sps.age ≠ 1 → ∀ v, s.sps.now = some v →
      (s.absReg f n).toNat = 128 + (n.toNat - 128 + v.toNat) % 128) ∧
    (128 ≤ n.toNat → s.sps.age = 1 → ∀ v w, s.sps.now = some v → s.sps.old = some w →
      (s.absReg f n).toNat = 128 + (n.toNat - 128 + v.toNat) % 128 ∨
        (s.absReg f n).toNat = 128 + (n.toNat - 128 + w.toNat) % 128)

/-- An Integer Arithmetic or Logical result in Global Register 1 sets the Stack Pointer shadow to its bits 8-2, in force after
one more instruction, also where Out of Range is then taken; a result of any other class, a load among them, leaves the shadow
not valid (10 R34, R39, 40 R269). -/
def Obligations.StackPointerShadow : Prop :=
  let sets (s1 t : State) : Prop :=
    t.sps.now = some (t.gr1.extractLsb' 2 7) ∧ t.sps.old = s1.sps.now ∧ t.sps.age = 1
  let unsets (i : Instr) (s : State) : Prop := ∃ t, exec i s = .next t ∧ t.sps.now = none ∧ t.sps.age = 0
  (∀ (rc ra : RegNum) (rb : Src2) (s : State), s.BinaryReady rc ra rb → s.absReg .C rc = 1#8 →
    let s1 := s.atRead ra rb
    let range (i : Instr) : Bool := outOfRange i (s.srcA ra rb) (s.srcB ra rb) s1.carry
    (∀ i ∈ shadowForms rc ra rb, ∃ t, sets s1 t ∧ ((range i = false ∨ s.da = true) → exec i s = .next t) ∧
      (range i = true → s.da = false → s.alarm = false → exec i s = t.takeTrap 3 2#8)) ∧
    (∀ i ∈ noShadowForms rc ra rb, unsets i s)) ∧
  (∀ (rc ra : RegNum) (rb : Src2) (s : State), s.isProtected (s.absReg .C rc) = false → s.absReg .C rc = 1#8 →
    (s.protectedSrc (s.resolve rb) = false → s.ready (srcRegs (s.resolve rb)) = true →
      (∃ t, exec (.div0 rc rb) s = .next t ∧ sets (s.afterWait (srcRegs (s.resolve rb))) t) ∧ unsets (.clz rc rb) s) ∧
    (s.isProtected (s.absReg .A ra) = false → s.ready [s.absReg .A ra] = true →
      unsets (.exhws rc ra) s ∧ (s.supervisor = true → unsets (.mftlb rc ra) s)) ∧
    (∀ sa : BitVec 8, (s.supervisor = true ∨ 128 ≤ sa.toNat) → unsets (.mfsr rc sa) s)) ∧
  (∀ (a : Bool) (ra rb : RegNum) (i16 : BitVec 16) (s : State), s.isProtected (s.absReg .A ra) = false →
    s.absReg .A ra = 1#8 →
    (∀ i ∈ [Instr.const ra i16, .constn ra i16, .call a ra i16], unsets i s) ∧
    (s.ready [1#8] = true → ∀ i ∈ [Instr.consth ra i16, .jmpfdec a ra i16], unsets i s) ∧
    (s.isProtected (s.absReg .B rb) = false → s.ready [s.absReg .B rb] = true → unsets (.calli ra rb) s)) ∧
  (∀ (s : State) (d : Access), s.inflight = some d → d.isLoad = true → d.discard = false → d.tr = 1#8 →
    s.answered d.set = true → s.drain.sps.now = none ∧ s.drain.sps.age = 0)

/-- Where an instruction stops because the spec gives no effect: a load or store while a move has set ML and `CHC` is not
frozen (44 R389, 93 U14, entry 14), `LOADM` and `STOREM` while FZ is 1 (U15), after another one (U16) or from Load Test
Instruction mode, as the interrupt returns (60 R614; entry 14), and each data-side trap while `CPS.DA` is 1 (60 R553 (c), 93
U25; entry 15). -/
def Obligations.Stops : Prop :=
  ∀ (ctl : BitVec 8) (ra : RegNum) (rb : Src2) (s : State),
    s.accessForbidden ctl (s.absReg .A ra) (s.resolve rb) = false →
    (s.frozen = false → s.mlByMove = true → s.chc.getLsbD 14 = true →
      ∀ i ∈ [Instr.load ctl ra rb, .loadl ctl ra rb, .loadset ctl ra rb, .store ctl ra rb, .storel ctl ra rb],
        exec i s = .refused .multipleSetByMove) ∧
    (∀ i ∈ [Instr.loadm ctl ra rb, .storem ctl ra rb],
      (s.testing = true → exec i s = .refused .excludedFromTest) ∧
      (s.testing = false → s.cps.getLsbD 10 = true → exec i s = .refused .multipleFrozen) ∧
      (s.testing = false → s.cps.getLsbD 10 = false → s.afterMultiple = true → exec i s = .refused .multipleAdjacent) ∧
      (s.testing = false → s.cps.getLsbD 10 = false → s.afterMultiple = false → s.mlByMove = true →
        s.chc.getLsbD 14 = true → exec i s = .refused .multipleSetByMove)) ∧
    (∀ i ∈ [Instr.iret, .iretinv], s.testing = true → exec i s = .refused .excludedFromTest) ∧
    (s.MayAccess ctl ra rb → s.cps.getLsbD 0 = true → ∀ i ∈ accessForms ctl ra rb,
      (i ∈ [Instr.loadm ctl ra rb, .storem ctl ra rb] → s.MaySequence ctl ra rb) →
      let s1 := s.drain
      let addr := s1.srcValue (s.resolve rb)
      let stops (vn : Byte) : Prop := exec i s = .refused (.disabledTrap vn)
      (ctl.getLsbD 7 = true → s1.cfg.getLsbD 1 = false → stops 3#8) ∧
      (s1.translated ctl = true → s1.mmu.age ≠ 1 → s1.TlbMiss addr → stops (if s1.asUser ctl then 9#8 else 11#8)) ∧
      (∀ e, s1.translated ctl = true → s1.mmu.age ≠ 1 → s1.TlbHit addr e →
        permits (s1.entry0 addr e) (wantOf i) (s1.asUser ctl) = false → stops 13#8) ∧
      (s1.misaligned ctl addr = true →
        (s1.translated ctl = false → stops 1#8) ∧
        (∀ e, s1.translated ctl = true → s1.mmu.age ≠ 1 → s1.TlbHit addr e →
          permits (s1.entry0 addr e) (wantOf i) (s1.asUser ctl) = true → stops 1#8)))

/-- What Reset sets with `CNTL0-CNTL1` = 11: execution begins at address 0 of ROM, the Branch Target Cache is disabled, no access
is described or in flight, the shadow is not valid (10 R86, 70 R630 to R632). The last two clauses are the model's choice, not
the spec's: both memories list nothing then, entry 33, and what an unlisted address reads as is entry 5. -/
def Obligations.ResetValues : Prop :=
  State.reset.pc = 0#30 ∧ State.reset.npc = 1#30 ∧ State.reset.cps.getLsbD 8 = true ∧ State.reset.cfg.getLsbD 0 = true ∧
    State.reset.cfg.extractLsb' 24 8 = 0#8 ∧ State.reset.chc.getLsbD 0 = false ∧ State.reset.inflight = none ∧
    State.reset.cdInForce = true ∧ State.reset.warnPending = false ∧ State.reset.sps.now = none ∧ State.reset.idm = [] ∧
    State.reset.rom = []

/-- The state after Reset is legal: memory in canonical form, reserved bits 0. -/
def Obligations.ResetIsLegal : Prop := State.reset.Legal

/-- Every step from a legal state gives a legal state: memory keeps its canonical form (20 R139), reserved bits of every
register read as 0 (10 R41, R79 to R82), a delayed effect lasts one instruction (10 R39, 70 R656), the instruction register
of the development system is valid only in Step and Load Test Instruction modes and in a Pipeline Hold without end (60 R614, 70
R650), and what the model remembers of old words and mappings is of the past (20 R176, entry 27). -/
def Obligations.StepKeepsLegal : Prop := ∀ s t : State, s.Legal → step s = .next t → t.Legal

/-- Decode and encode agree: the four bytes that `encode` writes for a well-formed instruction decode to it, with any operands,
whatever follows them; and a word that decodes to an instruction has the opcode that `encode` gives it, so that no opcode is
read as another's (30 R200, R201, R212). -/
def Obligations.DecodeAndEncodeAgree : Prop :=
  (∀ (i : Instr) (rest : List Byte), i.wellFormed = true →
    decodeBytes (bytesOfWord (encode i) ++ rest) = .ok (i, rest)) ∧
  ∀ (w : Word) (i : Instr), decode w = .ok i → (encode i).toNat / 2 ^ 24 = w.toNat / 2 ^ 24

/-- Words written out from the encodings decode to what they stand for: one of each class (40 R242, 41 R291, 42 R331, 43 R351, 44
R380, 45 R421, 46 R431, 47 R471, 48 R501). -/
def Obligations.SpecWordsDecode : Prop :=
  decode 0x14404142#32 = .ok (.add 0x40#8 0x41#8 (.reg 0x42#8)) ∧
  decode 0x60404142#32 = .ok (.cpeq 0x40#8 0x41#8 (.reg 0x42#8)) ∧
  decode 0x9140410F#32 = .ok (.and 0x40#8 0x41#8 (.imm 0x0F#8)) ∧
  decode 0x81404102#32 = .ok (.sll 0x40#8 0x41#8 (.imm 0x02#8)) ∧
  decode 0x16004041#32 = .ok (.load 0x00#8 0x40#8 (.reg 0x41#8)) ∧
  decode 0x03124034#32 = .ok (.const 0x40#8 0x1234#16) ∧
  decode 0xF0404142#32 = .ok (.fadd 0x40#8 0x41#8 0x42#8) ∧
  decode 0xA1000004#32 = .ok (.jmp true 0x0004#16) ∧
  decode 0x08400041#32 = .ok (.clz 0x40#8 (.reg 0x41#8)) ∧
  decode 0x00000000#32 = .error (.illegalOpcode 0x00#8)

/-- Every add and subtract without Out of Range completes: DEST holds the exact result modulo 2^32, V, N, Z and C are
those of 40 R241, and nothing else changes (40 R242, R245, R248, R251, R254, R257). -/
def Obligations.AddSubtractResults : Prop :=
  HasOpcodes 0x14#8 Instr.add ∧ HasOpcodes 0x1C#8 Instr.addc ∧ HasOpcodes 0x24#8 Instr.sub ∧
  HasOpcodes 0x2C#8 Instr.subc ∧ HasOpcodes 0x34#8 Instr.subr ∧ HasOpcodes 0x3C#8 Instr.subrc ∧
  ∀ (rc ra : RegNum) (rb : Src2) (s : State), s.BinaryReady rc ra rb →
    let s1 := s.atRead ra rb
    let a := s.srcA ra rb
    let b := s.srcB ra rb
    let c := s.absReg .C rc
    (∃ t, exec (.add rc ra rb) s = .next t ∧ ArithEnds s1 t c (exactSum a b false)) ∧
    (∃ t, exec (.addc rc ra rb) s = .next t ∧ ArithEnds s1 t c (exactSum a b s1.carry)) ∧
    (∃ t, exec (.sub rc ra rb) s = .next t ∧ ArithEnds s1 t c (exactDifference a b true)) ∧
    (∃ t, exec (.subc rc ra rb) s = .next t ∧ ArithEnds s1 t c (exactDifference a b s1.carry)) ∧
    (∃ t, exec (.subr rc ra rb) s = .next t ∧ ArithEnds s1 t c (exactDifference b a true)) ∧
    (∃ t, exec (.subrc rc ra rb) s = .next t ∧ ArithEnds s1 t c (exactDifference b a s1.carry))

/-- The S- and U-suffixed adds and subtracts complete as the unsuffixed ones where the result is in range, and also where
it is not but `CPS.DA` is 1 (40 R243 to R259, R269). -/
def Obligations.TrappingArithmeticCompletes : Prop :=
  ∀ (rc ra : RegNum) (rb : Src2) (s : State), s.BinaryReady rc ra rb →
    let s1 := s.atRead ra rb
    let a := s.srcA ra rb
    let b := s.srcB ra rb
    let c := s.absReg .C rc
    let ends (i : Instr) (e : Exact) (outOfRange : Bool) : Prop :=
      (outOfRange = true → s.da = true) → ∃ t, exec i s = .next t ∧ ArithEnds s1 t c e
    let sum := exactSum a b false
    let sumC := exactSum a b s1.carry
    let diff := exactDifference a b true
    let diffC := exactDifference a b s1.carry
    let rev := exactDifference b a true
    let revC := exactDifference b a s1.carry
    ends (.adds rc ra rb) sum sum.overflows ∧ ends (.addu rc ra rb) sum sum.carry ∧
    ends (.addcs rc ra rb) sumC sumC.overflows ∧ ends (.addcu rc ra rb) sumC sumC.carry ∧
    ends (.subs rc ra rb) diff diff.overflows ∧ ends (.subu rc ra rb) diff (!diff.carry) ∧
    ends (.subcs rc ra rb) diffC diffC.overflows ∧ ends (.subcu rc ra rb) diffC (!diffC.carry) ∧
    ends (.subrs rc ra rb) rev rev.overflows ∧ ends (.subru rc ra rb) rev (!rev.carry) ∧
    ends (.subrcs rc ra rb) revC revC.overflows ∧ ends (.subrcu rc ra rb) revC (!revC.carry)

/-- Out of Range, vector 2, is taken after the register and the flags are written (40 R269). Where the next sample of the pins
has `*RESET` or the transition of `*WARN`, it is taken or lost (60 R547, entry 39). -/
def Obligations.OutOfRangeTraps : Prop :=
  ∀ (rc ra : RegNum) (rb : Src2) (s : State), s.BinaryReady rc ra rb → s.da = false →
    let s1 := s.atRead ra rb
    let a := s.srcA ra rb
    let b := s.srcB ra rb
    let c := s.absReg .C rc
    let traps (i : Instr) (e : Exact) (outOfRange : Bool) : Prop :=
      outOfRange = true → ∃ t, ArithEnds s1 t c e ∧ (s.alarm = false → exec i s = t.takeTrap 3 2#8) ∧
        (exec i s = t.takeTrap 3 2#8 ∨ exec i s = .next t)
    let sum := exactSum a b false
    let sumC := exactSum a b s1.carry
    let diff := exactDifference a b true
    let diffC := exactDifference a b s1.carry
    let rev := exactDifference b a true
    let revC := exactDifference b a s1.carry
    traps (.adds rc ra rb) sum sum.overflows ∧ traps (.addu rc ra rb) sum sum.carry ∧
    traps (.addcs rc ra rb) sumC sumC.overflows ∧ traps (.addcu rc ra rb) sumC sumC.carry ∧
    traps (.subs rc ra rb) diff diff.overflows ∧ traps (.subu rc ra rb) diff (!diff.carry) ∧
    traps (.subcs rc ra rb) diffC diffC.overflows ∧ traps (.subcu rc ra rb) diffC (!diffC.carry) ∧
    traps (.subrs rc ra rb) rev rev.overflows ∧ traps (.subru rc ra rb) rev (!rev.carry) ∧
    traps (.subrcs rc ra rb) revC revC.overflows ∧ traps (.subrcu rc ra rb) revC (!revC.carry)

/-- A multiply step: DEST and `Q` together are the exact sum or difference, followed by the old `Q`, halved; `Q` is written
even when the status is frozen (40 R260, R261, R264). -/
def Obligations.MultiplySteps : Prop :=
  ∀ (rc ra : RegNum) (rb : Src2) (s : State), s.BinaryReady rc ra rb →
    let s1 := s.atRead ra rb
    let a := if s1.q.getLsbD 0 then s.srcA ra rb else 0#32
    let b := s.srcB ra rb
    let ends (t : State) (e : Exact) (exact : Int) : Prop :=
      let w := BitVec.ofInt 64 ((exact * 2 ^ 32 + s1.q.toNat) / 2)
      let high := w.extractLsb' 32 32
      WritesReg s1 t (s.absReg .C rc) high ∧ t.q = w.extractLsb' 0 32 ∧
        FlagsVNZC s1 t e.overflows (e.word.getLsbD 31) (high == 0#32) e.carry ∧ PcAdvances s1 t
    let sum := exactSum a b false
    let diff := exactDifference b a true
    (∃ t, exec (.mul rc ra rb) s = .next t ∧ ends t sum sum.signed) ∧
    (∃ t, exec (.mull rc ra rb) s = .next t ∧ ends t diff diff.signed) ∧
    (∃ t, exec (.mulu rc ra rb) s = .next t ∧ ends t sum sum.unsigned)

/-- A divide step adds or subtracts as DF says, shifts the quotient bit into `Q`, and (but for the last step) shifts the
partial remainder; its flags are those of the add (40 R266, R267). That `DIVL` does not shift the remainder is entry 22. -/
def Obligations.DivideSteps : Prop :=
  ∀ (rc ra : RegNum) (rb : Src2) (s : State), s.BinaryReady rc ra rb →
    let s1 := s.atRead ra rb
    let a := s.srcA ra rb
    let b := s.srcB ra rb
    let c := s.absReg .C rc
    let e := if s1.divideFlag then exactDifference a b true else exactSum a b false
    let df := !(e.carry ^^ s1.divideFlag ^^ s1.negative)
    let quotient := BitVec.ofNat 32 (2 * s1.q.toNat + df.toNat)
    let shifted := BitVec.ofNat 32 (2 * e.word.toNat + s1.q.toNat / 2 ^ 31)
    (∃ t, exec (.div rc ra rb) s = .next t ∧ WritesReg s1 t c shifted ∧ t.q = quotient ∧
      FlagsDVNZC s1 t df e.overflows (e.word.getLsbD 31) (shifted == 0#32) e.carry ∧ PcAdvances s1 t) ∧
    (∃ t, exec (.divl rc ra rb) s = .next t ∧ WritesReg s1 t c e.word ∧ t.q = quotient ∧
      FlagsDVNZC s1 t df e.overflows (e.word.getLsbD 31) (e.word == 0#32) e.carry ∧ PcAdvances s1 t)

/-- `DIV0` shifts SRCB and `Q` left together and sets DF; N is the sign of SRCB (40 R265); V and C become 0 (92 D21, entry
22). `DIVREM` gives SRCA, or SRCA + SRCB when DF is 0, and keeps `Q` and DF (40 R268); that V and C become 0 where
DF is 1 is the same choice (92 D21, entry 22). -/
def Obligations.DivideBeginAndRemainder : Prop :=
  (∀ (rc : RegNum) (rb : Src2) (s : State),
    s.isProtected (s.absReg .C rc) = false → s.protectedSrc (s.resolve rb) = false →
    s.ready (srcRegs (s.resolve rb)) = true →
    let s1 := s.afterWait (srcRegs (s.resolve rb))
    let b := s1.srcValue (s.resolve rb)
    let w := BitVec.ofNat 32 (2 * b.toNat + s1.q.toNat / 2 ^ 31)
    ∃ t, exec (.div0 rc rb) s = .next t ∧ WritesReg s1 t (s.absReg .C rc) w ∧
      t.q = BitVec.ofNat 32 (2 * s1.q.toNat) ∧ FlagsDVNZC s1 t true false (b.getLsbD 31) (w == 0#32) false ∧
      PcAdvances s1 t) ∧
  (∀ (rc ra : RegNum) (rb : Src2) (s : State), s.BinaryReady rc ra rb →
    let s1 := s.atRead ra rb
    let a := s.srcA ra rb
    let b := s.srcB ra rb
    ∃ t, exec (.divrem rc ra rb) s = .next t ∧
      ArithEnds s1 t (s.absReg .C rc) (if s1.divideFlag then exactSum a 0#32 false else exactSum a b false))

/-- Every compare writes TRUE (bit 31 alone) or FALSE (zero) and changes no flag; the signed ones compare the operands as
integers in two's complement, the others as naturals (41 R290 to R301). -/
def Obligations.CompareResults : Prop :=
  HasOpcodes 0x60#8 Instr.cpeq ∧ HasOpcodes 0x62#8 Instr.cpneq ∧ HasOpcodes 0x40#8 Instr.cplt ∧
  HasOpcodes 0x42#8 Instr.cpltu ∧ HasOpcodes 0x44#8 Instr.cple ∧ HasOpcodes 0x46#8 Instr.cpleu ∧
  HasOpcodes 0x48#8 Instr.cpgt ∧ HasOpcodes 0x4A#8 Instr.cpgtu ∧ HasOpcodes 0x4C#8 Instr.cpge ∧
  HasOpcodes 0x4E#8 Instr.cpgeu ∧ HasOpcodes 0x2E#8 Instr.cpbyte ∧
  ∀ (rc ra : RegNum) (rb : Src2) (s : State), s.BinaryReady rc ra rb →
    let s1 := s.atRead ra rb
    let a := s.srcA ra rb
    let b := s.srcB ra rb
    let ends (i : Instr) (relation : Prop) : Prop :=
      ∃ t w, exec i s = .next t ∧ (relation → w = 0x80000000#32) ∧ (¬relation → w = 0#32) ∧
        WritesReg s1 t (s.absReg .C rc) w ∧ t.alu = s1.alu ∧ t.q = s1.q ∧ PcAdvances s1 t
    ends (.cpeq rc ra rb) (a = b) ∧ ends (.cpneq rc ra rb) (a ≠ b) ∧
    ends (.cplt rc ra rb) (a.toInt < b.toInt) ∧ ends (.cpltu rc ra rb) (a.toNat < b.toNat) ∧
    ends (.cple rc ra rb) (a.toInt ≤ b.toInt) ∧ ends (.cpleu rc ra rb) (a.toNat ≤ b.toNat) ∧
    ends (.cpgt rc ra rb) (b.toInt < a.toInt) ∧ ends (.cpgtu rc ra rb) (b.toNat < a.toNat) ∧
    ends (.cpge rc ra rb) (b.toInt ≤ a.toInt) ∧ ends (.cpgeu rc ra rb) (b.toNat ≤ a.toNat) ∧
    ends (.cpbyte rc ra rb) (∃ k < 4, a.extractLsb' (8 * k) 8 = b.extractLsb' (8 * k) 8)

/-- An assert whose relation holds changes nothing, with any vector number and in either mode (41 R304). -/
def Obligations.AssertsThatHoldChangeNothing : Prop :=
  ∀ (vn : BitVec 8) (ra : RegNum) (rb : Src2) (s : State), s.SourcesReady ra rb →
    ∀ i ∈ asserts vn ra rb, assertRelation i (s.srcA ra rb) (s.srcB ra rb) →
      ∃ t, exec i s = .next t ∧ WritesNothing (s.atRead ra rb) t ∧ PcAdvances (s.atRead ra rb) t

/-- An assert whose relation does not hold takes the trap it names, after it has completed; a User-mode one that names a
vector below 64 takes Protection Violation instead, as an instruction that has not completed; with `CPS.DA` = 1 both traps
are lost and execution goes on (41 R304, 60 R553). The trap it names may also be lost with `*RESET` or `*WARN` (60 R547, entry
39). -/
def Obligations.AssertsThatFailTrap : Prop :=
  ∀ (vn : BitVec 8) (ra : RegNum) (rb : Src2) (s : State), s.SourcesReady ra rb →
    let s1 := s.atRead ra rb
    ∀ i ∈ asserts vn ra rb, ¬assertRelation i (s.srcA ra rb) (s.srcB ra rb) →
      ∃ t, WritesNothing s1 t ∧ PcAdvances s1 t ∧
        (s.da = true → exec i s = .next t) ∧
        (s.da = false → s.supervisor = false → vn.toNat < 64 → exec i s = s1.takeTrap 14 5#8) ∧
        (s.da = false → (s.supervisor = true ∨ 64 ≤ vn.toNat) →
          (s.alarm = false → exec i s = t.takeTrap 3 vn) ∧ (exec i s = t.takeTrap 3 vn ∨ exec i s = .next t))

/-- The logical instructions, bit by bit; N and Z follow the result, V and C stay (42 R330 to R337). -/
def Obligations.LogicalResults : Prop :=
  HasOpcodes 0x90#8 Instr.and ∧ HasOpcodes 0x9C#8 Instr.andn ∧ HasOpcodes 0x9A#8 Instr.nand ∧
  HasOpcodes 0x92#8 Instr.or ∧ HasOpcodes 0x98#8 Instr.nor ∧ HasOpcodes 0x94#8 Instr.xor ∧
  HasOpcodes 0x96#8 Instr.xnor ∧
  ∀ (rc ra : RegNum) (rb : Src2) (s : State), s.BinaryReady rc ra rb →
    let s1 := s.atRead ra rb
    let a := s.srcA ra rb
    let b := s.srcB ra rb
    let ends (i : Instr) (bit : Bool → Bool → Bool) : Prop :=
      ∃ t w, exec i s = .next t ∧ (∀ k < 32, w.getLsbD k = bit (a.getLsbD k) (b.getLsbD k)) ∧
        WritesReg s1 t (s.absReg .C rc) w ∧ FlagsNZ s1 t (decide (w.toInt < 0)) (decide (w.toNat = 0)) ∧ t.q = s1.q ∧
        PcAdvances s1 t
    ends (.and rc ra rb) (fun x y => x && y) ∧ ends (.andn rc ra rb) (fun x y => x && !y) ∧
    ends (.nand rc ra rb) (fun x y => !(x && y)) ∧ ends (.or rc ra rb) (fun x y => x || y) ∧
    ends (.nor rc ra rb) (fun x y => !(x || y)) ∧ ends (.xor rc ra rb) (fun x y => x != y) ∧
    ends (.xnor rc ra rb) (fun x y => x == y)

/-- The shifts multiply or divide by a power of two; only bits 4-0 of SRCB count, and no flag changes; `EXTRACT` takes the
high word of SRCA followed by SRCB, shifted left by `ALU.FC` (43 R350 to R354). -/
def Obligations.ShiftResults : Prop :=
  HasOpcodes 0x80#8 Instr.sll ∧ HasOpcodes 0x82#8 Instr.srl ∧ HasOpcodes 0x86#8 Instr.sra ∧
  HasOpcodes 0x7A#8 Instr.extract ∧
  ∀ (rc ra : RegNum) (rb : Src2) (s : State), s.BinaryReady rc ra rb →
    let s1 := s.atRead ra rb
    let a := s.srcA ra rb
    let b := s.srcB ra rb
    let n := b.toNat % 32
    let ends (i : Instr) (w : Word) : Prop :=
      ∃ t, exec i s = .next t ∧ WritesReg s1 t (s.absReg .C rc) w ∧ t.alu = s1.alu ∧ t.q = s1.q ∧ PcAdvances s1 t
    ends (.sll rc ra rb) (BitVec.ofNat 32 (a.toNat * 2 ^ n)) ∧
    ends (.srl rc ra rb) (BitVec.ofNat 32 (a.toNat / 2 ^ n)) ∧
    ends (.sra rc ra rb) (BitVec.ofInt 32 (a.toInt / 2 ^ n)) ∧
    ends (.extract rc ra rb)
      (BitVec.ofNat 32 ((a.toNat * 2 ^ 32 + b.toNat) * 2 ^ (s1.alu.toNat % 32) / 2 ^ 32))

/-- The constant instructions write register RA; `CONSTH` keeps its low half (45 R421 to R423). -/
def Obligations.ConstantResults : Prop :=
  HasOpcode 0x03#8 Instr.const ∧ HasOpcode 0x02#8 Instr.consth ∧ HasOpcode 0x01#8 Instr.constn ∧
  ∀ (ra : RegNum) (i16 : BitVec 16) (s : State), s.isProtected (s.absReg .A ra) = false →
    let a := s.absReg .A ra
    let ends (i : Instr) (s1 : State) (w : Word) : Prop :=
      ∃ t, exec i s = .next t ∧ WritesReg s1 t a w ∧ t.alu = s1.alu ∧ t.q = s1.q ∧ PcAdvances s1 t
    ends (.const ra i16) s (BitVec.ofNat 32 i16.toNat) ∧
    ends (.constn ra i16) s (BitVec.ofNat 32 (0xFFFF0000 + i16.toNat)) ∧
    (s.ready [a] = true →
      let s1 := s.afterWait [a]
      ends (.consth ra i16) s1 (BitVec.ofNat 32 (i16.toNat * 2 ^ 16 + (s1.readReg .A a).toNat % 2 ^ 16)))

/-- The byte and half-word instructions: `ALU.BP` and `CFG.BO` name a byte or half-word of SRCA; the extracts put it at the
low end of SRCB or sign-extend it, the inserts replace it by the low end of SRCB; every other bit is kept, and no flag
changes (44 R393 to R398). -/
def Obligations.ByteAndHalfWordResults : Prop :=
  ∀ (rc ra : RegNum) (s : State),
    let ends (i : Instr) (s1 : State) (w : Word) : Prop :=
      ∃ t, exec i s = .next t ∧ WritesReg s1 t (s.absReg .C rc) w ∧ t.alu = s1.alu ∧ t.q = s1.q ∧ PcAdvances s1 t
    (∀ rb, s.BinaryReady rc ra rb →
      let s1 := s.atRead ra rb
      let a := s.srcA ra rb
      let b := s.srcB ra rb
      let bo := s1.cfg.getLsbD 2
      let bp := s1.alu.toNat / 2 ^ 5 % 4
      ends (.exbyte rc ra rb) s1
        (BitVec.ofNat 32 (b.toNat / 2 ^ 8 * 2 ^ 8 + fieldOf a (byteStart bo bp) 8)) ∧
      ends (.exhw rc ra rb) s1
        (BitVec.ofNat 32 (b.toNat / 2 ^ 16 * 2 ^ 16 + fieldOf a (halfStart bo bp) 16)) ∧
      (∃ w, ends (.inbyte rc ra rb) s1 w ∧ ∀ k < 32, w.getLsbD k =
        if byteStart bo bp ≤ k ∧ k < byteStart bo bp + 8 then b.getLsbD (k - byteStart bo bp) else a.getLsbD k) ∧
      (∃ w, ends (.inhw rc ra rb) s1 w ∧ ∀ k < 32, w.getLsbD k =
        if halfStart bo bp ≤ k ∧ k < halfStart bo bp + 16 then b.getLsbD (k - halfStart bo bp) else a.getLsbD k)) ∧
    (s.isProtected (s.absReg .C rc) = false → s.isProtected (s.absReg .A ra) = false →
      s.ready [s.absReg .A ra] = true →
      let s1 := s.afterWait [s.absReg .A ra]
      let a := s1.readReg .A (s.absReg .A ra)
      let bo := s1.cfg.getLsbD 2
      let bp := s1.alu.toNat / 2 ^ 5 % 4
      ends (.exhws rc ra) s1 ((BitVec.ofNat 16 (fieldOf a (halfStart bo bp) 16)).signExtend 32))

/-- `MFSR` copies a special-purpose register into RC: IP is computed, the program counters are live unless frozen, and an
alias shows its field (44 R400, 10 R46, R71, R78). That `PC0`, `PC1` and `PC2` read as the next, the present and the previous
address while FZ is 0 is the model's choice (entry 19, DESIGN CHOICE, 92 D12). -/
def Obligations.MoveFromSpecial : Prop :=
  ∀ (rc : RegNum) (sa : BitVec 8) (s : State), s.isProtected (s.absReg .C rc) = false →
    (s.supervisor = true ∨ 128 ≤ sa.toNat) →
    ∃ t w, exec (.mfsr rc sa) s = .next t ∧ s.SpecialReads sa.toNat w ∧ WritesReg s t (s.absReg .C rc) w ∧ t.alu = s.alu ∧
      t.q = s.q ∧ PcAdvances s t

/-- `MTSR` and `MTSRIM` wait for the access in flight, then write the register under its mask (44 R401, R402, R405). The model's
choices: what a move makes of the program counters and what they capture (entry 19, DESIGN CHOICE, 92 D12), what it makes of
the trace bit (entry 20), and that it stores bits 6-1 of `LRU` (entry 24, DESIGN CHOICE, 92 D14). A move to a program counter
in Load Test Instruction mode, while FZ is 0, is left out here (entry 37). -/
def Obligations.MoveToSpecial : Prop :=
  ∀ (sa : BitVec 8) (s : State), s.settlement = .ends → (s.supervisor = true ∨ 128 ≤ sa.toNat) →
    (s.testing = false ∨ s.fz = true ∨ sa.toNat ∉ [10, 11, 12]) →
    let s1 := s.drain
    (∀ i16, ∃ t, exec (.mtsrim sa i16) s = .next t ∧ SpecialWritten s1 t sa.toNat (BitVec.ofNat 32 i16.toNat) ∧
      PcAdvances s1 t) ∧
    (∀ rb, s1.isProtected (s1.absReg .B rb) = false →
      ∃ t, exec (.mtsr sa rb) s = .next t ∧
        SpecialWritten s1 t sa.toNat (s1.readReg .B (s1.absReg .B rb)) ∧ PcAdvances s1 t)

/-- A write of an indirect pointer, by a move or by `SETIP` (entry 24), of the page size or of the Stack Pointer shadow is not
certainly seen by the next instruction: the old value stays possible for that one instruction (10 R39, 70 R655, R656). A branch
executed in the window of the page size takes it to the fetch of its target, two instructions later, and to no other fetch;
there the page size before the write stays possible even if the delay instruction writes `MMU` again (entry 11). -/
def Obligations.DelayedEffects : Prop :=
  (∀ (v : Word) (s : State),
    let a := (s.moveResult 129#8 v)
    let b := (s.moveResult 130#8 v)
    let c := (s.moveResult 128#8 v)
    let m := (s.moveResult 13#8 v)
    (a.ipa.age = 1 ∧ a.ipa.old = s.ipa.now) ∧ (b.ipb.age = 1 ∧ b.ipb.old = s.ipb.now) ∧
      (c.ipc.age = 1 ∧ c.ipc.old = s.ipc.now) ∧ (m.mmu.age = 1 ∧ m.mmu.old = s.mmu.now)) ∧
  (∀ (rc ra rb : RegNum) (s : State), s.isProtected (s.absReg .A ra) = false → s.isProtected (s.absReg .B rb) = false →
    s.isProtected (s.absReg .C rc) = false →
    ∃ t, exec (.setip rc ra rb) s = .next t ∧ (t.ipa.age = 1 ∧ t.ipa.old = s.ipa.now) ∧
      (t.ipb.age = 1 ∧ t.ipb.old = s.ipb.now) ∧ (t.ipc.age = 1 ∧ t.ipc.old = s.ipc.now)) ∧
  (∀ (c : RegNum) (sum : Sum) (w : Word) (s : State),
    let t := s.arithResult c sum w
    c = 1#8 → t.sps.now = some (w.extractLsb' 2 7) ∧ t.sps.old = s.sps.now ∧ t.sps.age = 1) ∧
  (∀ (s : State) (f : Field),
    ((s.pointer f).age ≠ 1 → s.absReg f 0#8 = (s.pointer f).now) ∧
    ((s.pointer f).age = 1 → s.absReg f 0#8 = (s.pointer f).now ∨ s.absReg f 0#8 = (s.pointer f).old)) ∧
  (∀ (s : State) (x : IAddr),
    ∀ t ∈ [s.retire, s.branchTo x], (s.sps.age ≤ 1 → t.sps.age = 0) ∧ (s.ipa.age ≤ 1 → t.ipa.age = 0) ∧
      (s.ipb.age ≤ 1 → t.ipb.age = 0) ∧ (s.ipc.age ≤ 1 → t.ipc.age = 0) ∧ (s.mmu.age ≤ 1 → t.mmu.age = 0)) ∧
  (∀ (s : State) (x : IAddr),
    (s.mmu.age = 1 → (s.branchTo x).psTarget = 2 ∧ (s.branchTo x).retire.psTarget = 1 ∧
      (s.branchTo x).retire.retire.psTarget = 0 ∧ (s.branchTo x).psBefore.toNat = s.mmu.old.toNat / 2 ^ 8 % 4) ∧
    (s.mmu.age ≠ 1 → s.psTarget ≤ 1 → (s.branchTo x).psTarget = 0) ∧ (s.psTarget ≤ 1 → s.retire.psTarget = 0)) ∧
  (∀ (v : Word) (s : State), (s.moveResult 13#8 v).psTarget = s.psTarget - 1 ∧ (s.moveResult 13#8 v).psBefore = s.psBefore) ∧
  (∀ (s : State) (want : Want),
    ((s.pageSize want).toNat = s.mmu.now.toNat / 2 ^ 8 % 4 ∨
      (s.mmu.age = 1 ∧ (s.pageSize want).toNat = s.mmu.old.toNat / 2 ^ 8 % 4) ∨
      (want = .fetch ∧ s.psTarget = 1 ∧ s.pageSize want = s.psBefore)))

/-- `MFTLB` reads, and `MTTLB` writes after the access in flight has completed, the TLB register that bits 6-0 of SRCA name;
nothing else changes (44 R403, R404, 10 R80 to R82). -/
def Obligations.TlbMoves : Prop :=
  (∀ (rc ra : RegNum) (s : State), s.supervisor = true → s.isProtected (s.absReg .C rc) = false →
    s.isProtected (s.absReg .A ra) = false → s.ready [s.absReg .A ra] = true →
    let s1 := s.afterWait [s.absReg .A ra]
    let n := (s1.readReg .A (s.absReg .A ra)).toNat % 2 ^ 7
    ∃ t, exec (.mftlb rc ra) s = .next t ∧ WritesReg s1 t (s.absReg .C rc) (s1.tlb[n]?.getD 0#32) ∧ t.alu = s1.alu ∧
      t.q = s1.q ∧ PcAdvances s1 t) ∧
  (∀ (ra rb : RegNum) (s : State), s.supervisor = true → s.settlement = .ends →
    let s1 := s.drain
    s1.isProtected (s1.absReg .A ra) = false → s1.isProtected (s1.absReg .B rb) = false →
    let n := (s1.readReg .A (s1.absReg .A ra)).toNat % 2 ^ 7
    let v := s1.readReg .B (s1.absReg .B rb)
    ∃ t, exec (.mttlb ra rb) s = .next t ∧ WritesNothing s1 { t with tlb := s1.tlb } ∧ PcAdvances s1 t ∧
      ∀ k < 128, t.tlb[k]?.getD 0#32 = if k = n then v &&& tlbBits n else s1.tlb[k]?.getD 0#32)

/-- `CLZ` counts the zero bits above the highest 1 of SRCB, 32 for zero (48 R501; the operands are entry 22). -/
def Obligations.ClzResult : Prop :=
  ∀ (rc : RegNum) (rb : Src2) (s : State), s.isProtected (s.absReg .C rc) = false →
    s.protectedSrc (s.resolve rb) = false → s.ready (srcRegs (s.resolve rb)) = true →
    let s1 := s.afterWait (srcRegs (s.resolve rb))
    let b := s1.srcValue (s.resolve rb)
    ∃ t k, exec (.clz rc rb) s = .next t ∧ WritesReg s1 t (s.absReg .C rc) (BitVec.ofNat 32 k) ∧ k ≤ 32 ∧
      (∀ i < k, b.getLsbD (31 - i) = false) ∧ (k < 32 → b.getLsbD (31 - k) = true) ∧ t.alu = s1.alu ∧ t.q = s1.q ∧
      PcAdvances s1 t

/-- `SETIP` sets the three pointers to the absolute numbers of its registers, and reads or writes none of them (48 R502); `INV`
changes nothing but that the Branch Target Cache becomes invalid at the next taken branch: of the copies made up to then only
prefetched words are left (48 R504, 20 R174; the copies are the model's record, entry 27). -/
def Obligations.SetipAndInv : Prop :=
  (∀ (rc ra rb : RegNum) (s : State), s.isProtected (s.absReg .A ra) = false → s.isProtected (s.absReg .B rb) = false →
    s.isProtected (s.absReg .C rc) = false →
    ∃ t, exec (.setip rc ra rb) s = .next t ∧ SameData s t ∧ t.mode = s.mode ∧ PcAdvances s t ∧
      t.ipa.now = s.absReg .A ra ∧ t.ipb.now = s.absReg .B rb ∧ t.ipc.now = s.absReg .C rc) ∧
  (∀ s : State, s.supervisor = true →
    ∃ t, exec .inv s = .next t ∧ WritesNothing s t ∧ PcAdvances s t ∧ t.invPending = true ∧
      ∀ (u : State) (x : IAddr), u.invPending = true →
        (u.branchTo x).cacheUndefined = false ∧ (u.branchTo x).invPending = false ∧
          ∀ made ≤ u.clock, ∀ fits, (u.branchTo x).copyUsable made fits = true → (u.branchTo x).lastNonseq < made)

/-- `HALT` completes the access in flight and enters Halt mode after the next instruction has been fetched without a trap; an
Instruction Access Exception of that fetch is taken first (48 R507, 60 R612); where its vector never comes, the processor waits
for it and does not enter Halt mode (70 R650, entry 40). The next instruction is fetched untranslated here. That neither waits
for an event that is pending and enabled at that boundary, as the Trace trap of the `HALT` itself, which stays pending, is the
model's choice (entry 28, DESIGN CHOICE; 48 R507, 60 R545, R546, R555 and R612 leave the order open). -/
def Obligations.HaltEntersHaltMode : Prop :=
  ∀ s : State, s.supervisor = true → s.settlement = .ends → (s.cps.getLsbD 5 = true ∨ s.cps.getLsbD 8 = true) →
    let s1 := s.drain
    (s.fetchChoice.answer = .ready →
      ∃ t, exec .halt s = .next t ∧ t.mode = .halt ∧ WritesNothing s1 { t with mode := s1.mode } ∧ PcAdvances s1 t) ∧
    (s.fetchChoice.answer = .error → s1.vectorReadable = true →
      ∃ t, exec .halt s = .next t ∧ t.mode = .halt ∧ TrapEntered s1.retire { t with mode := s1.mode } 6#8) ∧
    (s.fetchChoice.answer = .error → s1.cfg.getLsbD 4 = true → s1.env.answers.headD .ready = .never →
      ∃ t, exec .halt s = .next t ∧ t.mode = .held ∧ t.ops = s1.retire.cpsView ∧ t.pc = s1.retire.pc)

/-- The jumps change nothing but where execution goes on; a conditional one looks at bit 31 of SRCA alone; bits 1-0 of an
indirect target are ignored; `JMPFDEC` decrements RA in any case, and branches if it was not negative (47 R470 to R477, R480).
Addresses are modulo 2^30 words (entry 19). -/
def Obligations.Jumps : Prop :=
  (∀ (a : Bool) (i16 : BitVec 16) (s : State),
    ∃ t, exec (.jmp a i16) s = .next t ∧ WritesNothing s t ∧ BranchEnds s t true (branchTarget s.pc a i16)) ∧
  (∀ (rb : RegNum) (s : State), s.isProtected (s.absReg .B rb) = false → s.ready [s.absReg .B rb] = true →
    let s1 := s.afterWait [s.absReg .B rb]
    ∃ t, exec (.jmpi rb) s = .next t ∧ WritesNothing s1 t ∧
      BranchEnds s1 t true ((s1.readReg .B (s.absReg .B rb)).extractLsb' 2 30)) ∧
  (∀ (a : Bool) (ra : RegNum) (i16 : BitVec 16) (s : State), s.isProtected (s.absReg .A ra) = false →
    s.ready [s.absReg .A ra] = true →
    let s1 := s.afterWait [s.absReg .A ra]
    let c := (s1.readReg .A (s.absReg .A ra)).getLsbD 31
    (∃ t, exec (.jmpt a ra i16) s = .next t ∧ WritesNothing s1 t ∧ BranchEnds s1 t c (branchTarget s.pc a i16)) ∧
    (∃ t, exec (.jmpf a ra i16) s = .next t ∧ WritesNothing s1 t ∧ BranchEnds s1 t (!c) (branchTarget s.pc a i16))) ∧
  (∀ (ra rb : RegNum) (s : State), s.SourcesReady ra (.reg rb) →
    let s1 := s.atRead ra (.reg rb)
    let c := (s.srcA ra (.reg rb)).getLsbD 31
    let x := (s.srcB ra (.reg rb)).extractLsb' 2 30
    (∃ t, exec (.jmpti ra rb) s = .next t ∧ WritesNothing s1 t ∧ BranchEnds s1 t c x) ∧
    (∃ t, exec (.jmpfi ra rb) s = .next t ∧ WritesNothing s1 t ∧ BranchEnds s1 t (!c) x)) ∧
  (∀ (a : Bool) (ra : RegNum) (i16 : BitVec 16) (s : State), s.isProtected (s.absReg .A ra) = false →
    s.ready [s.absReg .A ra] = true →
    let s1 := s.afterWait [s.absReg .A ra]
    let v := s1.readReg .A (s.absReg .A ra)
    ∃ t, exec (.jmpfdec a ra i16) s = .next t ∧ WritesReg s1 t (s.absReg .A ra) (BitVec.ofInt 32 (v.toNat - 1)) ∧
      t.alu = s1.alu ∧ t.q = s1.q ∧ BranchEnds s1 t (decide (0 ≤ v.toInt)) (branchTarget s.pc a i16))

/-- The calls leave the byte address of the second following instruction in RA and branch; the target of `CALLI` is read before
RA is written (47 R478, R479). That RA gets `pc` + 2 words, modulo 2^30, also in the delay of another branch, is the spec's
decision and the model's choice (92 D24, entry 21, DESIGN CHOICE). -/
def Obligations.Calls : Prop :=
  (∀ (a : Bool) (ra : RegNum) (i16 : BitVec 16) (s : State), s.isProtected (s.absReg .A ra) = false →
    ∃ t, exec (.call a ra i16) s = .next t ∧ WritesReg s t (s.absReg .A ra) (BitVec.ofNat 32 (4 * (s.pc.toNat + 2))) ∧
      t.alu = s.alu ∧ t.q = s.q ∧ PcBranches s t (branchTarget s.pc a i16)) ∧
  (∀ (ra rb : RegNum) (s : State), s.isProtected (s.absReg .A ra) = false → s.isProtected (s.absReg .B rb) = false →
    s.ready [s.absReg .B rb] = true →
    let s1 := s.afterWait [s.absReg .B rb]
    ∃ t, exec (.calli ra rb) s = .next t ∧
      WritesReg s1 t (s.absReg .A ra) (BitVec.ofNat 32 (4 * (s.pc.toNat + 2))) ∧ t.alu = s1.alu ∧ t.q = s1.q ∧
      PcBranches s1 t ((s1.readReg .B (s.absReg .B rb)).extractLsb' 2 30))

/-- A load that raises no trap and whose access completes at once puts the word that the access brings into RA and changes no
other register and no memory, but that `LOADSET` then stores ones there (44 R371, R380 to R382, 20 R147, R149, R162). The order
of the checks and when CA changes is entry 18; what ROM accesses as data reach, and that a `LOADSET` stores nothing there, is
entry 7 (DESIGN CHOICE), the order of the bytes of a word entry 6, what a device or the coprocessor gives entry 8, and what
hardware for narrow accesses gives entry 38. -/
def Obligations.LoadCompletes : Prop :=
  ∀ (ctl : BitVec 8) (ra : RegNum) (rb : Src2) (s : State), s.MayAccess ctl ra rb →
    let s1 := s.drain
    let tr := s.absReg .A ra
    let addr := s1.srcValue (s.resolve rb)
    ∀ f ∈ loadForms ctl ra rb, ∀ pa tlb,
      s1.Goes ctl (if f.2.1 then .loadset else .load) addr pa tlb → s1.answered f.2.1 = true →
      s1.env.latency.headD 0 = 0 →
      ∃ t w, exec f.1 s = .next t ∧ s1.Brings ctl pa w ∧ (implemented tr = true → t.readReg .A tr = w) ∧
        SameRegs s1 t [tr] ∧ (tr = 1#8 → t.sps.now = none) ∧ (tr ≠ 1#8 → t.sps.now = s1.sps.now) ∧
        (if f.2.1 then StoresWord s1 t ctl pa 0xFFFFFFFF#32 else SameMemory s1 t) ∧ t.TlbIs tlb ∧ t.inflight = none ∧
        AccessEnds s1 t ctl true f.2.1 f.2.2 tr addr 0#32 false

/-- A store to instruction/data memory that raises no trap and whose access completes at once stores all 32 bits of RA at the
word its address lies in, or what hardware for narrow accesses makes of them (entry 38), and changes no register and no other
byte (44 R371, R383, R384, 20 R133, R136, R140, R147). A store to the space of the instruction ROM, OPT = 100, leaves all
memory as it is, which is the model's choice (entry 7); so does one to a device or the coprocessor (entry 8). The order of the
bytes of a word is entry 6, and when CA changes entry 18. -/
def Obligations.StoreCompletes : Prop :=
  ∀ (ctl : BitVec 8) (ra : RegNum) (rb : Src2) (s : State), s.MayAccess ctl ra rb →
    let s1 := s.drain
    let tr := s.absReg .A ra
    let addr := s1.srcValue (s.resolve rb)
    let data := s1.readReg .A tr
    ∀ f ∈ storeForms ctl ra rb, ∀ pa tlb, s1.Goes ctl .store addr pa tlb → s1.answered false = true →
      s1.env.latency.headD 0 = 0 →
      ∃ t, exec f.1 s = .next t ∧ SameRegs s1 t [] ∧ t.sps.now = s1.sps.now ∧ StoresWord s1 t ctl pa data ∧
        t.TlbIs tlb ∧ t.inflight = none ∧ AccessEnds s1 t ctl false false f.2 tr addr data false

/-- An access that the system does not complete at once stays in flight, described by the channel registers with CV = 1: no
register and no byte of memory has changed yet (20 R144, R145, R149 (e), 92 D10). The latency is the environment's (entry 9);
when CA changes is entry 18. -/
def Obligations.OverlappedAccess : Prop :=
  ∀ (ctl : BitVec 8) (ra : RegNum) (rb : Src2) (s : State), s.MayAccess ctl ra rb →
    let s1 := s.drain
    let tr := s.absReg .A ra
    let addr := s1.srcValue (s.resolve rb)
    let starts (i : Instr) (isLoad set la : Bool) (data : Word) : Prop :=
      ∀ pa tlb, s1.Goes ctl (if isLoad then (if set then .loadset else .load) else .store) addr pa tlb →
        ∀ n, s1.env.latency.headD 0 = n + 1 →
        ∃ t d, exec i s = .next t ∧ t.inflight = some d ∧ d.isLoad = isLoad ∧ d.set = set ∧ d.ctl = ctl ∧ d.tr = tr ∧
          d.pa = pa ∧ d.data = data ∧ d.discard = false ∧ d.left = n + 1 ∧ SameRegs s1 t [] ∧ t.sps.now = s1.sps.now ∧
          SameMemory s1 t ∧ t.TlbIs tlb ∧ AccessEnds s1 t ctl isLoad set la tr addr data true
    (∀ f ∈ loadForms ctl ra rb, starts f.1 true f.2.1 f.2.2 0#32) ∧
    (∀ f ∈ storeForms ctl ra rb, starts f.1 false false f.2 (s1.readReg .A tr))

/-- The access in flight completes without error: a store changes its word, a load its register unless that has been
overwritten, and CV is reset unless it is frozen (20 R146, R147, R162). That a store to the space of the instruction ROM
changes nothing is the model's choice (entry 7, DESIGN CHOICE); the order of the bytes of a word is entry 6, a device or the
coprocessor entry 8, hardware for narrow accesses entry 38. -/
def Obligations.AccessCompletes : Prop :=
  ∀ (s : State) (d : Access), s.inflight = some d → s.answered (d.isLoad && d.set) = true →
    s.settlement = .ends ∧ s.drain.inflight = none ∧
    (d.isLoad = true → ∃ w, s.Brings d.ctl d.pa w ∧
      (d.discard = false → implemented d.tr = true → s.drain.readReg .A d.tr = w) ∧
      SameRegs s s.drain (if d.discard then [] else [d.tr]) ∧
      (if d.set then StoresWord s s.drain d.ctl d.pa 0xFFFFFFFF#32 else SameMemory s s.drain)) ∧
    (d.isLoad = false → SameRegs s s.drain [] ∧ StoresWord s s.drain d.ctl d.pa d.data) ∧
    (∀ i, s.drain.chc.getLsbD i = if i = 0 ∧ s.frozen = false then false else s.chc.getLsbD i) ∧
    s.drain.alu = s.alu ∧ s.drain.q = s.q ∧ s.drain.cps = s.cps ∧ s.drain.cha = s.cha ∧ s.drain.chd = s.chd ∧
    s.drain.tlb = s.tlb ∧ SameSpecial s s.drain ∧ SamePointers s s.drain

/-- An access answered with `*DERR` writes no register and no memory; TF is set and CV stays, or, while the channel registers
are frozen, the trap is held outside them (20 R147, R165, 92 D17, entry 17). -/
def Obligations.AccessFails : Prop :=
  ∀ (s : State) (d : Access), s.inflight = some d → s.refusedBySystem (d.isLoad && d.set) = true →
    s.settlement = .error (if d.ctl.getLsbD 7 then 4#8 else 7#8) ∧ s.drain.inflight = none ∧ SameRegs s s.drain [] ∧
    SameMemory s s.drain ∧
    (s.frozen = false → s.drain.derr = s.derr ∧ ∀ i, s.drain.chc.getLsbD i = if i = 10 then true else s.chc.getLsbD i) ∧
    (s.frozen = true → s.drain.chc = s.chc ∧ s.drain.derr = some (if d.ctl.getLsbD 7 then 4#8 else 7#8))

/-- The result of an instruction into the target of the load in flight wins: the loaded data are dropped when they come, and NN
is set (20 R146). -/
def Obligations.OverwrittenLoadDropped : Prop :=
  ∀ (s : State) (shadow : Bool) (c : RegNum) (w : Word), implemented c = true →
    (s.writeReg shadow c w).drain.readReg .A c = w ∧
    (s.overwrites c = true → s.frozen = false → (s.writeReg shadow c w).chc.getLsbD 1 = true)

/-- The traps of a load or store: Coprocessor Not Present, Data TLB Miss in the mode of the access with the LRU recommendation,
Data TLB Protection Violation, and Unaligned Access last (20 R149, R153, R157, R134, 60 R534, R537, R540; the order, and that
BP is set by an access that traps, is entry 18, 92 D16, D22). -/
def Obligations.DataAccessTraps : Prop :=
  ∀ (ctl : BitVec 8) (ra : RegNum) (rb : Src2) (s : State), s.MayAccess ctl ra rb → s.da = false →
    s.MayTrap →
    let s1 := s.drain
    let tr := s.absReg .A ra
    let addr := s1.srcValue (s.resolve rb)
    let traps (i : Instr) (isLoad set la : Bool) (data : Word) : Prop :=
      let want : Want := if isLoad then (if set then .loadset else .load) else .store
      let trap (vn : Byte) (tlb : Nat → Word) (lru : Word → Prop) : Prop :=
        AccessTraps s1 i s ctl isLoad set la tr addr data vn tlb lru
      (ctl.getLsbD 7 = true → s1.cfg.getLsbD 1 = false → trap 3#8 s1.tlbReg (· = s1.lru)) ∧
      (s1.translated ctl = true → s1.mmu.age ≠ 1 → s1.TlbMiss addr →
        trap (if s1.asUser ctl then 9#8 else 11#8) s1.tlbReg (RecommendsFor s1 addr)) ∧
      (∀ e, s1.translated ctl = true → s1.mmu.age ≠ 1 → s1.TlbHit addr e →
        permits (s1.entry0 addr e) want (s1.asUser ctl) = false →
        trap 13#8 (s1.usedTlb addr e) fun lru => lru &&& 0xFFFFFF81#32 = 0#32) ∧
      (s1.misaligned ctl addr = true →
        (s1.translated ctl = false → trap 1#8 s1.tlbReg (· = s1.lru)) ∧
        (∀ e, s1.translated ctl = true → s1.mmu.age ≠ 1 → s1.TlbHit addr e →
          permits (s1.entry0 addr e) want (s1.asUser ctl) = true → trap 1#8 (s1.usedTlb addr e) (· = s1.lru)))
    (∀ f ∈ loadForms ctl ra rb, traps f.1 true f.2.1 f.2.2 0#32) ∧
    (∀ f ∈ storeForms ctl ra rb, traps f.1 false false f.2 (s1.readReg .A tr))

/-- `LOADM` that nothing disturbs loads CR + 1 words from successive addresses into successive registers, 127 and 255 followed
by 128, and changes no other register and no memory (44 R386, R387, 20 R160). What ROM accesses as data reach is entry 7, what
a device or the coprocessor gives entry 8, hardware for narrow accesses entry 38, and when CA changes entry 18. -/
def Obligations.LoadMultipleCompletes : Prop :=
  ∀ (ctl : BitVec 8) (ra : RegNum) (rb : Src2) (s : State), s.MaySequence ctl ra rb →
    let s1 := s.drain
    let tr := s.absReg .A ra
    let addr := s1.srcValue (s.resolve rb)
    let n := s1.chc.toNat / 2 ^ 16 % 2 ^ 8
    s1.Undisturbed → (∀ k ≤ n, s1.isProtected (seqReg tr k) = false) →
    ∀ pa : Nat → Word, (∀ k ≤ n, ∃ tlb, s1.Goes ctl .load (seqAddr addr k) (pa k) tlb) →
      ∃ t w, exec (.loadm ctl ra rb) s = .next t ∧ (∀ k ≤ n, s1.Brings ctl (pa k) (w k)) ∧ LoadsAll s1 t tr n w ∧
        SameMemory s1 t ∧ SequenceEnds s1 t ctl true tr addr n 0#32 ∧ StatusAfterAccess s1 t ctl true ∧ PcAdvances s1 t

/-- `STOREM` that nothing disturbs stores CR + 1 successive registers, 127 and 255 followed by 128, at successive addresses,
and changes no register and no other byte (44 R386, R388, 20 R160). That a store to the space of the instruction ROM changes
nothing is the model's choice (entry 7, DESIGN CHOICE); the order of the bytes of a word is entry 6, a device or the
coprocessor entry 8, hardware for narrow accesses entry 38. When CA changes is entry 18. -/
def Obligations.StoreMultipleCompletes : Prop :=
  ∀ (ctl : BitVec 8) (ra : RegNum) (rb : Src2) (s : State), s.MaySequence ctl ra rb →
    let s1 := s.drain
    let tr := s.absReg .A ra
    let addr := s1.srcValue (s.resolve rb)
    let n := s1.chc.toNat / 2 ^ 16 % 2 ^ 8
    s1.Undisturbed → (∀ k ≤ n, s1.isProtected (seqReg tr k) = false) →
    ∀ pa : Nat → Word, (∀ k ≤ n, ∃ tlb, s1.Goes ctl .store (seqAddr addr k) (pa k) tlb) →
      ∃ t w, exec (.storem ctl ra rb) s = .next t ∧
        (∀ k ≤ n, implemented (seqReg tr k) = true → w k = s1.readReg .A (seqReg tr k)) ∧ StoresAll s1 t ctl pa n w ∧
        SameRegs s1 t [] ∧ SequenceEnds s1 t ctl false tr addr n (w n) ∧ StatusAfterAccess s1 t ctl false ∧
        PcAdvances s1 t

/-- Taking an interrupt or trap: the access in flight completes; the status is saved and replaced, the program counters are
captured, and execution goes on at the handler (60 R560 to R564, R567). If that access ends in `*DERR`, its exception is taken
instead of an event of lower priority than 4 (60 R560). An error of the vector fetch is a fault of the model (60 R565, entry
30); where the system never answers that access or the vector fetch, the processor waits (70 R650, entry 40). The image is entry
2, the R bit entry 1. -/
def Obligations.TrapEntry : Prop :=
  ∀ (s : State) (prio : Nat) (vn : Byte),
    (s.drain.vectorReadable = true → (s.settlement = .ends ∨ (s.settlement ≠ .never ∧ prio ≤ 4)) →
      ∃ t, s.takeTrap prio vn = .next t ∧ TrapEntered s.drain t vn) ∧
    (∀ v, s.drain.vectorReadable = true → s.settlement = .error v → 4 < prio →
      ∃ t, s.takeTrap prio vn = .next t ∧ TrapEntered s.drain t v) ∧
    (s.settlement ≠ .never → s.cfg.getLsbD 4 = true →
      (s.drain.env.answers.headD .ready = .error → s.takeTrap prio vn = .fault .vectorFetchError) ∧
      (s.drain.env.answers.headD .ready = .never →
        ∃ t, s.takeTrap prio vn = .next t ∧ t.mode = .held ∧ t.ops = s.drain.cpsView ∧ t.pc = s.pc)) ∧
    (s.settlement = .never → s.takeTrap prio vn = .next s.hold)

/-- A User-mode program that names a register of a protected bank takes Protection Violation, vector 5, as an instruction that
has not begun; the banks are those of 16 absolute numbers each, of which bank 0 leaves out 0 and 1 (10 R35). With `CPS.DA` = 1
the spec gives no completion (60 R553 (c), entry 15). `MTSR` waits for the access in flight first (44 R401). That the numbers
are formed, and tested, before a load that the instruction waits for completes is entry 36. -/
def Obligations.BankProtection : Prop :=
  ∀ (rc ra n : RegNum) (rb : Src2) (ctl vn sa : BitVec 8) (abs : Bool) (i16 : BitVec 16) (s : State), s.testing = false →
    let isProtected (u : State) (regs : List RegNum) : Prop :=
      ∃ a ∈ regs, u.cps.getLsbD 4 = false ∧ 2 ≤ a.toNat ∧ u.rbp.getLsbD (a.toNat / 16) = true
    let a := s.absReg .A ra
    let b := s.absReg .B n
    let c := s.absReg .C rc
    let traps (regs : List RegNum) (forms : List Instr) : Prop :=
      isProtected s regs → ∀ i ∈ forms,
        exec i s = if s.cps.getLsbD 0 then .refused (.disabledTrap 5#8) else s.takeTrap 14 5#8
    traps (c :: s.sourceRegs ra rb) (binaryForms rc ra rb) ∧
    traps (c :: srcRegs (s.resolve rb)) [.div0 rc rb, .clz rc rb] ∧
    traps (s.sourceRegs ra rb) (asserts vn ra rb ++ accessForms ctl ra rb) ∧
    traps [c, a] (.exhws rc ra :: .mftlb rc ra :: (conversionForms rc ra).map Prod.fst) ∧
    traps [a] [.const ra i16, .consth ra i16, .constn ra i16, .jmpt abs ra i16, .jmpf abs ra i16, .jmpfdec abs ra i16,
      .call abs ra i16] ∧
    traps [a, b] [.calli ra n, .jmpti ra n, .jmpfi ra n, .emulate vn ra n] ∧
    traps [a, b, c] (.setip rc ra n :: (emulatedForms rc ra n).map Prod.fst) ∧
    traps [b] [.jmpi n] ∧ traps [c] [.mfsr rc sa] ∧
    (s.settlement = .ends → isProtected s.drain [s.drain.absReg .B n] →
      exec (.mtsr sa n) s =
        if s.cps.getLsbD 0 then .refused (.disabledTrap 5#8) else s.drain.takeTrap 14 5#8)

/-- A privileged instruction, a move of a special-purpose register numbered below 128, or a load or store with PA = 1, single
or multiple, in User mode takes Protection Violation, vector 5, `PC1` being its own address; nothing else of it happens (60
R590, R538, 20 R149 (a)). -/
def Obligations.PrivilegedInstructionsTrap : Prop :=
  ∀ (rc ra rb : RegNum) (sa ctl : BitVec 8) (i16 : BitVec 16) (src : Src2) (s : State),
    s.testing = false → s.cps.getLsbD 4 = false → s.cps.getLsbD 0 = false → s.settlement = .ends →
    s.drain.vectorReadable = true →
    (sa.toNat < 128 → ∀ i ∈ privileged rc ra rb sa i16, ∃ t, exec i s = .next t ∧ TrapEntered s.drain t 5#8) ∧
    (ctl.getLsbD 7 = false → ctl.getLsbD 5 = true → ∀ i ∈ accessForms ctl ra src,
      ∃ t, exec i s = .next t ∧ TrapEntered s.drain t 5#8)

/-- An emulated instruction puts the absolute numbers of its registers into the indirect pointers and traps, as an instruction
that has completed; with `CPS.DA` = 1 the trap is lost (46 R430, 40 R262, 60 R553). A conversion sets IPA and IPC, `EMULATE` IPA
and IPB; the pointer they have no register for takes any value (entry 23). `EMULATE` traps to the vector it names, and in User
mode takes Protection Violation if that is below 64 (48 R503). No `*RESET` and no `*WARN` comes at the same time (60 R547). -/
def Obligations.EmulationTraps : Prop :=
  (∀ (rc ra rb : RegNum) (s : State), s.isProtected (s.absReg .A ra) = false → s.isProtected (s.absReg .B rb) = false →
    s.isProtected (s.absReg .C rc) = false →
    ∀ p ∈ emulatedForms rc ra rb, ∃ t, SameData s t ∧ t.mode = s.mode ∧ PcAdvances s t ∧
      t.ipa.now = s.absReg .A ra ∧ t.ipb.now = s.absReg .B rb ∧ t.ipc.now = s.absReg .C rc ∧
      (s.cps.getLsbD 0 = true → exec p.1 s = .next t) ∧
      (s.cps.getLsbD 0 = false → s.MayTrap → ∃ u, exec p.1 s = .next u ∧ TrapEntered t.drain u p.2)) ∧
  (∀ (rc ra : RegNum) (s : State), s.isProtected (s.absReg .A ra) = false → s.isProtected (s.absReg .C rc) = false →
    ∀ p ∈ conversionForms rc ra, ∃ t, SameData s t ∧ t.mode = s.mode ∧ PcAdvances s t ∧
      t.ipa.now = s.absReg .A ra ∧ t.ipc.now = s.absReg .C rc ∧
      (s.cps.getLsbD 0 = true → exec p.1 s = .next t) ∧
      (s.cps.getLsbD 0 = false → s.MayTrap → ∃ u, exec p.1 s = .next u ∧ TrapEntered t.drain u p.2)) ∧
  (∀ (vn : BitVec 8) (ra rb : RegNum) (s : State), s.isProtected (s.absReg .A ra) = false →
    s.isProtected (s.absReg .B rb) = false →
    ((s.supervisor = true ∨ 64 ≤ vn.toNat) → ∃ t, SameData s t ∧ t.mode = s.mode ∧ PcAdvances s t ∧
      t.ipa.now = s.absReg .A ra ∧ t.ipb.now = s.absReg .B rb ∧
      (s.cps.getLsbD 0 = true → exec (.emulate vn ra rb) s = .next t) ∧
      (s.cps.getLsbD 0 = false → s.MayTrap →
        ∃ u, exec (.emulate vn ra rb) s = .next u ∧ TrapEntered t.drain u vn)) ∧
    (s.supervisor = false → vn.toNat < 64 → s.cps.getLsbD 0 = false →
      exec (.emulate vn ra rb) s = s.takeTrap 14 5#8))

/-- Between two accesses of a `LOADM` or `STOREM`, after any `k` of them, `*RESET` and `*WARN` cut the sequence, and so does a
pending and enabled event: it is taken with the next access described in the channel registers, to be resumed by an interrupt
return, and the following instruction in `PC1`; no access is in flight, and the Stack Pointer shadow is as before unless Global
Register 1 was loaded (60 R554, 10 R34, R580, 70 R650, 20 R160, 44 R386). Nothing cut it before: the pins have kept their
levels, and the Timer has not moved. Where the events are looked for is entry 34; that a protected register comes before any of
these is entry 35. That a store to the space of the instruction ROM changes nothing is the model's choice (entry 7, DESIGN
CHOICE); the order of the bytes of a word is entry 6, a device or the coprocessor entry 8, hardware for narrow accesses entry
38. -/
def Obligations.InterruptedMultiple : Prop :=
  ∀ (ctl : BitVec 8) (ra : RegNum) (rb : Src2) (s : State) (isLoad : Bool), s.MaySequence ctl ra rb →
    let s1 := s.drain
    let tr := s.absReg .A ra
    let addr := s1.srcValue (s.resolve rb)
    let n := s1.chc.toNat / 2 ^ 16 % 2 ^ 8
    let i : Instr := if isLoad then .loadm ctl ra rb else .storem ctl ra rb
    let want : Want := if isLoad then .load else .store
    ∀ (k : Nat) (pa : Nat → Word), 1 ≤ k → k ≤ n → s1.env.answers = [] → s1.Uncut (k - 1) →
    (∀ j < k, ∃ tlb, s1.Goes ctl want (seqAddr addr j) (pa j) tlb) →
    (∀ j ≤ k, 1 ≤ j → s1.isProtected (seqReg tr j) = false) →
    let s2 : State :=
      { s1 with
        env := { s1.env with events := s1.env.events.drop (k - 1), cycles := s1.env.cycles.drop (k - 1) } }
    let m := s2.betweenAccesses
    let first (w : Nat → Word) : Prop := isLoad = false → w 0 = s1.readReg .A tr
    (s2.nextPins.reset = true →
      ∃ t w, exec i s = .next t ∧ t.nextPins = s2.nextPins ∧ SequenceAt s1 t ctl isLoad tr addr k pa w ∧ first w ∧
        t.lru = s1.lru ∧ StatusAfterAccess s1 t ctl isLoad ∧ PcAdvances s1 t) ∧
    (s2.nextPins.reset = false → m.warnPending = true →
      ∃ t w, exec i s = .next t ∧ Transferred s1 t ctl isLoad tr k pa w ∧ first w ∧
        SequenceNext s1 t ctl isLoad tr addr k n ∧ t.mode = .starting ∧ t.pc = 4#30 ∧ t.pc1 = s1.npc ++ 0#2) ∧
    (s2.nextPins.reset = false → m.warnPending = false →
      ∀ prio vn, ({ m with chc := 0#32 } : State).asyncEvent = some (prio, vn) →
      ∃ t u w, exec i s = .next u ∧ TrapEntered t u vn ∧
        SequenceAt { s1 with tmc := m.tmc, tmr := m.tmr } t ctl isLoad tr addr k pa w ∧ first w ∧ t.lru = s1.lru ∧
        SequenceNext s1 t ctl isLoad tr addr k n ∧ StatusAfterAccess s1 t ctl isLoad ∧
        (k = 1 → ∀ tlb, s1.Goes ctl want addr (pa 0) tlb → t.TlbIs tlb) ∧ PcAdvances s1 t)

/-- What goes wrong at access `k` of a `LOADM` or `STOREM`, the first or a later one, after `k` transfers have been made: a
trap of the access is taken with the access described for a restart and the following instruction in `PC1`, `CPS` but for TP as
before (20 R149, R158, 44 R386); `*DERR` leaves TF set and the access described, and ends the instruction (20 R165, R167); a
protected register that is next is a Protection Violation with the instruction itself in `PC1`, the channel registers taking
any value and TP not copied from TE, since the instruction has not completed (44 R391, 93 U23, 60 R545, entry 35). No access is
in flight then, and the Stack Pointer shadow is as before unless Global Register 1 was loaded (10 R34). That BP is set by an
access that traps, the first one too, the order of its checks, and when CA changes, is entry 18 (DESIGN CHOICE, 92 D16, D22).
No event is pending and the pins are still. That a store to the space of the instruction ROM changes nothing is the model's
choice (entry 7, DESIGN CHOICE); the order of the bytes of a word is entry 6, a device or the coprocessor entry 8, hardware for
narrow accesses entry 38. -/
def Obligations.MultipleSequenceTraps : Prop :=
  ∀ (ctl : BitVec 8) (ra : RegNum) (rb : Src2) (s : State) (isLoad : Bool), s.MaySequence ctl ra rb → s.da = false →
    let s1 := s.drain
    let tr := s.absReg .A ra
    let addr := s1.srcValue (s.resolve rb)
    let n := s1.chc.toNat / 2 ^ 16 % 2 ^ 8
    let i : Instr := if isLoad then .loadm ctl ra rb else .storem ctl ra rb
    let want : Want := if isLoad then .load else .store
    ∀ (k : Nat) (pa : Nat → Word), k ≤ n → (∀ j < k, ∃ tlb, s1.Goes ctl want (seqAddr addr j) (pa j) tlb) →
    (∀ j ≤ k, 1 ≤ j → s1.isProtected (seqReg tr j) = false) →
    (s1.Undisturbed →
      let va := seqAddr addr k
      let first (w : Nat → Word) : Prop := isLoad = false → 0 < k → w 0 = s1.readReg .A tr
      let traps (vn : Byte) (lru : State → Prop) : Prop :=
        ∃ t u w, exec i s = .next u ∧ TrapEntered t u vn ∧ SequenceAt s1 t ctl isLoad tr addr k pa w ∧ first w ∧
          SequenceNext s1 t ctl isLoad tr addr k n ∧ SameStatus s1 t ∧ lru t ∧ PcAdvances s1 t
      let keeps (t : State) : Prop := t.lru = s1.lru
      (k = 0 → ctl.getLsbD 7 = true → s1.cfg.getLsbD 1 = false → traps 3#8 keeps) ∧
      (s1.translated ctl = true → s1.mmu.age ≠ 1 → s1.TlbMiss va →
        traps (if s1.asUser ctl then 9#8 else 11#8) fun t => RecommendsFor t va t.lru) ∧
      (∀ e, s1.translated ctl = true → s1.mmu.age ≠ 1 → s1.TlbHit va e →
        permits (s1.entry0 va e) want (s1.asUser ctl) = false → traps 13#8 fun t => t.lru &&& 0xFFFFFF81#32 = 0#32) ∧
      (s1.misaligned ctl va = true →
        (s1.translated ctl = false → traps 1#8 keeps) ∧
        (∀ e, s1.translated ctl = true → s1.mmu.age ≠ 1 → s1.TlbHit va e →
          permits (s1.entry0 va e) want (s1.asUser ctl) = true → traps 1#8 keeps)) ∧
      (k < n → ∀ tlb, s1.Goes ctl want va (pa k) tlb → s1.isProtected (seqReg tr (k + 1)) = true →
        ∃ t u w, exec i s = .next u ∧ TrapEntered t u 5#8 ∧ SequenceAt s1 t ctl isLoad tr addr (k + 1) pa w ∧
          (isLoad = false → w 0 = s1.readReg .A tr) ∧ StatusButActive s1 t ctl isLoad ∧ t.lru = s1.lru ∧ t.pc = s1.pc ∧
          t.npc = s1.npc ∧ t.ppc = s1.ppc)) ∧
    (∀ rest, s1.env.answers = List.replicate k .ready ++ Answer.error :: rest →
      State.Undisturbed { s1 with env := { s1.env with answers := [] } } →
      ∀ tlb, s1.Goes ctl want (seqAddr addr k) (pa k) tlb →
      ∃ t w, exec i s = .next t ∧ t.env.answers = rest ∧
        SequenceAt s1 { t with chc := putBit t.chc chcTF false } ctl isLoad tr addr k pa w ∧ t.lru = s1.lru ∧
        SequenceNext s1 { t with chc := putBit t.chc chcTF false } ctl isLoad tr addr k n ∧ t.chc.getLsbD 10 = true ∧
        StatusAfterAccess s1 t ctl isLoad ∧ PcAdvances s1 t)

/-- An interrupt return that restarts no access (CV = 0 or NN = 1) resumes the program that `OPS`, `PC1` and `PC0` describe,
and changes nothing else; after `IRETINV` the fetches of the return find no hidden copy of an instruction, whatever the return
makes of `CPS` (60 R570, R571, 48 R505, R506, 20 R171, R175; the copies are the model's record, entry 27). What `PC1` and `PC0`
are where FZ = 0, and what a return that sets FZ captures, is the model's choice (entry 19, DESIGN CHOICE, 92 D12, 10 R71). -/
def Obligations.InterruptReturn : Prop :=
  ∀ s : State, s.testing = false → s.cps.getLsbD 4 = true → s.settlement = .ends →
    let s1 := s.drain
    (s1.chc.getLsbD 0 = false ∨ s1.chc.getLsbD 1 = true) →
    ∀ f ∈ returns, ∃ t, exec f.1 s = .next t ∧ Returned s1 t ∧ t.cps.getLsbD 15 = s1.ops.getLsbD 15 ∧
      SameRegs s1 t [] ∧ SameMemory s1 t ∧ t.tlb = s1.tlb ∧ SameChannel s1 t ∧ t.chc = s1.chc ∧ t.alu = s1.alu ∧
      t.sps.now = s1.sps.now ∧ t.inflight = none ∧
      t.oldWords = s1.oldWords ∧
      (if f.2 then (∀ o ∈ s1.oldWords, o.time ≤ s1.clock) → (∀ m ∈ s1.oldMaps, m.time ≤ s1.clock) →
          ∀ rom va pa, t.discardPrefetch.hiddenCopies rom va pa = []
        else t.cacheSince = s1.cacheSince ∧ t.cacheUndefined = s1.cacheUndefined)

/-- An interrupt return with CV = 1, NN = 0 and ML = 0 makes the access that `CHA`, `CHD` and `CHC` describe again, under the
restored status (60 R570 step 5, R572, 20 R167). The access raises no trap and completes at once here, and the page size was
not written just before. What `PC1` and `PC0` are where FZ = 0, and what a return that sets FZ captures, is the model's choice
(entry 19, DESIGN CHOICE, 92 D12, 10 R71). That a store to the space of the instruction ROM changes nothing is the model's
choice (entry 7, DESIGN CHOICE); the order of the bytes of a word is entry 6, a device or the coprocessor entry 8, hardware for
narrow accesses entry 38. When CA changes is entry 18. -/
def Obligations.ReturnRestartsAccess : Prop :=
  ∀ s : State, s.testing = false → s.cps.getLsbD 4 = true → s.settlement = .ends →
    let s1 := s.drain
    s1.chc.getLsbD 0 = true → s1.chc.getLsbD 1 = false → s1.chc.getLsbD 14 = false →
    let r := s1.underOps
    let ctl := s1.chc.extractLsb' 24 8
    let isLoad := s1.chc.getLsbD 15
    let set := s1.chc.getLsbD 13
    let tr := s1.chc.extractLsb' 2 8
    ∀ pa tlb, r.Goes ctl (if isLoad then (if set then .loadset else .load) else .store) s1.cha pa tlb →
      s1.answered (isLoad && set) = true → s1.env.latency.headD 0 = 0 →
      ∀ f ∈ returns, ∃ t w, exec f.1 s = .next t ∧ Returned s1 t ∧
        t.cps.getLsbD 15 = (if ctl.getLsbD 7 && ctl.getLsbD 5 then !isLoad else s1.ops.getLsbD 15) ∧
        (isLoad = true → s1.Brings ctl pa w ∧ (implemented tr = true → t.readReg .A tr = w) ∧ SameRegs s1 t [tr] ∧
          (if set then StoresWord s1 t ctl pa 0xFFFFFFFF#32 else SameMemory s1 t)) ∧
        (isLoad = false → SameRegs s1 t [] ∧ StoresWord s1 t ctl pa s1.chd) ∧ t.TlbIs tlb ∧ t.inflight = none ∧
        ChannelIs r t ctl isLoad false set (s1.chc.getLsbD 12) (s1.chc.extractLsb' 16 8) tr s1.cha s1.chd false ∧
        BytePointerIs r t ctl s1.cha

/-- An interrupt return with CV = 1, NN = 0 and ML = 1, as an interrupted `LOADM` or `STOREM` leaves them, goes on with the
sequence from `CHA`, `CHC.TR` and `CHC.CR`, whatever ST and LA are, after the instruction at `PC1` has been fetched and before
it executes (60 R570 step 10, R572, 44 R386); where that fetch would trap, by a miss, the permissions or `*IERR`, the sequence
stays described: the event that is pending and enabled under the restored status is taken first, with Wait mode restored the
processor waits, and else the trap is taken (20 R141, R157, R158, 60 R545, R546, R574 step 11, R610). No `*RESET` and no
`*WARN` comes. That the last sample of the pins tells which events are pending there, that no `LRU` is written where an event
or Wait mode comes before the trap, that no event is taken before or during the accesses of the return, though it be pending,
and that a trap of the second fetch belongs to the instruction there, is entry 34 (DESIGN CHOICE); that a return with FZ = 0
stays at `pc` and `npc` is entry 19 (DESIGN CHOICE, 92 D12, 10 R71). The page size was not written just before, where the
accesses are translated (entry 11). That a store to the space of the instruction ROM changes nothing is the model's choice
(entry 7, DESIGN CHOICE); the order of the bytes of a word is entry 6, a device or the coprocessor entry 8, hardware for narrow
accesses entry 38. When CA changes is entry 18. -/
def Obligations.ReturnResumesMultiple : Prop :=
  ∀ s : State, s.testing = false → s.cps.getLsbD 4 = true → s.settlement = .ends →
    let s1 := s.drain
    s1.chc.getLsbD 0 = true → s1.chc.getLsbD 1 = false → s1.chc.getLsbD 14 = true → s1.ops.getLsbD 10 = false → s1.Calm →
    let r := s1.underOps
    let f := { r with pc := if s1.cps.getLsbD 10 then s1.pc1.extractLsb' 2 30 else s1.pc, mmu := r.mmu.settle, psTarget := 0 }
    let va : Word := f.pc ++ 0#2
    let described (t : State) (lru : Word → Prop) : Prop :=
      Returned s1 { t with lru := s1.lru } ∧ t.cps.getLsbD 15 = s1.ops.getLsbD 15 ∧ SameRegs s1 t [] ∧ SameMemory s1 t ∧
        SameChannel s1 t ∧ t.chc = s1.chc ∧ t.alu = s1.alu ∧ SameTlbButUsage s1 t ∧ lru t.lru ∧ t.sps.now = s1.sps.now ∧
        t.inflight = none
    let traps (vn : Byte) (lru : Word → Prop) : Prop :=
      ∀ g ∈ returns, ∃ t u, exec g.1 s = .next u ∧ TrapEntered t u vn ∧ described t lru
    let translated := f.cps.getLsbD 5 = false ∧ f.cps.getLsbD 8 = false
    let refused (e : Nat) : Prop := f.TlbHit va e ∧ permits (f.entry0 va e) .fetch (!f.cps.getLsbD 4) = false
    let fails : Prop :=
      (translated ∧ (f.TlbMiss va ∨ ∃ e, refused e)) ∨
        (s1.fetchChoice.answer = .error ∧ ∃ rom ipa itlb, f.FetchesAt rom ipa itlb)
    let noEvent : Prop := ∀ p, 4 ≤ p → p ≤ 12 → ¬f.Pending p
    (noEvent → f.cps.getLsbD 7 = false →
      (translated → f.cps.getLsbD 0 = false →
        (f.TlbMiss va → traps (if f.cps.getLsbD 4 then 10#8 else 8#8) (RecommendsFor f va)) ∧
        (∀ e, refused e → traps 12#8 fun lru => lru &&& 0xFFFFFF81#32 = 0#32)) ∧
      (∀ rom ipa itlb, f.FetchesAt rom ipa itlb → s1.fetchChoice.answer = .error → traps 6#8 (· = s1.lru))) ∧
    (fails → ∀ p, 4 ≤ p → p ≤ 12 → f.Pending p → (∀ q, 4 ≤ q → q < p → ¬f.Pending q) →
      traps (f.eventVector p) (· = s1.lru)) ∧
    (fails → noEvent → f.cps.getLsbD 7 = true →
      ∀ g ∈ returns, ∃ t, exec g.1 s = .next t ∧ described t (· = s1.lru)) ∧
    ∀ rom ipa itlb, f.FetchesAt rom ipa itlb → s1.fetchChoice.answer = .ready →
    let ctl := s1.chc.extractLsb' 24 8
    let isLoad := s1.chc.getLsbD 15
    let tr := s1.chc.extractLsb' 2 8
    let n := s1.chc.toNat / 2 ^ 16 % 2 ^ 8
    (∀ k ≤ n, 1 ≤ k → r.isProtected (seqReg tr k) = false) →
    ∀ pa : Nat → Word,
      (∀ k ≤ n, ∃ tlb, r.Goes ctl (if isLoad then .load else .store) (seqAddr s1.cha k) (pa k) tlb) →
      ∀ g ∈ returns, ∃ t w, exec g.1 s = .next t ∧ Returned s1 t ∧
        t.cps.getLsbD 15 = (if ctl.getLsbD 7 && ctl.getLsbD 5 then !isLoad else s1.ops.getLsbD 15) ∧
        (isLoad = true → (∀ k ≤ n, s1.Brings ctl (pa k) (w k)) ∧ LoadsAll s1 t tr n w ∧ SameMemory s1 t) ∧
        (isLoad = false → w 0 = s1.chd ∧
          (∀ k ≤ n, 1 ≤ k → implemented (seqReg tr k) = true → w k = s1.readReg .A (seqReg tr k)) ∧
          StoresAll s1 t ctl pa n w ∧ SameRegs s1 t []) ∧
        SequenceEnds { r with pc0 := t.pc0, pc1 := t.pc1, pc2 := t.pc2 } t ctl isLoad tr s1.cha n (w n)

/-- A virtual address is translated by the TLB as the page size says: a hit gives the physical address and sets the Usage bits,
or is refused by the permissions and leaves any `LRU`; a miss leaves the TLB and recommends the least recently used entry of
the line (20 R150 to R157). That the bits of VTAG and RPN that the page size makes unused are ignored is entry 13 (DESIGN
CHOICE, 93 U13). -/
def Obligations.Translation : Prop :=
  ∀ (s : State) (va : Word) (want : Want) (user : Bool), s.mmu.age ≠ 1 → (want = .fetch → s.psTarget ≠ 1) →
    (∀ e, s.TlbHit va e → ∃ t : State, (∀ k < 128, t.tlbReg k = s.usedTlb va e k) ∧
      (permits (s.entry0 va e) want user = true →
        s.translate va want user = .ok (s.physical va e) ((s.entry1 va e).extractLsb' 6 2) t ∧ t = { s with tlb := t.tlb }) ∧
      (permits (s.entry0 va e) want user = false →
        s.translate va want user = .prot t ∧ t = { s with tlb := t.tlb, lru := t.lru } ∧ t.lru &&& 0xFFFFFF81#32 = 0#32)) ∧
    (s.TlbMiss va → ∃ lru : Word, s.translate va want user = .miss { s with lru := lru } ∧ RecommendsFor s va lru)

/-- A step runs the instruction that the word at the program counter decodes to, in the state of its boundary: the word comes
from ROM or from instruction/data memory, at the address itself or at the translated one (60 R545, 20 R141, 30 R215). The
system chooses no error, no old stream and no hidden copy here (entry 9). A non-sequential fetch puts `CFG.CD` in force (20
R172). That the Usage bits of the translation are set at every fetch is the model's choice (entry 26, DESIGN CHOICE, 92 D19; 20
R161 leaves it open), and what is left of a block of the Branch Target Cache is its record of hidden copies (entry 27, DESIGN
CHOICE). -/
def Obligations.StepRunsTheDecodedInstruction : Prop :=
  ∀ (s : State) (i : Instr) (rom : Bool) (pa : IAddr) (tlb : Nat → Word), s.Quiet →
    let s1 := s.atBoundary
    s1.asyncEvent = none → s1.cps.getLsbD 7 = false → s1.env.fetches = [] → s1.FetchesAt rom pa tlb →
    decode (Memory.readWord (if rom then s1.rom else s1.idm) pa) = .ok i →
    ∃ t, step s = exec i t ∧ Fetches s1 t tlb ∧
      (s.inflight = none →
        s1 = { s with
          clock := s1.clock, pins := s.nextPins, warnPending := false, tmc := s1.tmc, tmr := s1.tmr, env := s1.env })

/-- The 67 unassigned opcodes, and no others, decode to no instruction; executing such a word takes Illegal Opcode, vector 0, and
has no other effect (30 R213, 60 R533). With `CPS.DA` = 1 the spec gives no completion (60 R553 (c), entry 15). -/
def Obligations.UnassignedOpcodesTrap : Prop :=
  unassigned.length = 67 ∧
  ∀ w : Word,
    ((∃ i, decode w = .ok i) ↔ w.toNat / 2 ^ 24 ∉ unassigned) ∧
    (w.toNat / 2 ^ 24 ∈ unassigned → ∀ s : State,
      (s.cps.getLsbD 0 = false → s.settlement = .ends → s.drain.vectorReadable = true →
        ∃ t, runWord w s = .next t ∧ TrapEntered s.drain t 0#8) ∧
      (s.cps.getLsbD 0 = true → runWord w s = .refused (.disabledTrap 0#8)))

/-- The traps of an instruction fetch, the instruction at `PC1` not executed: TLB Miss, vectors 8 and 10, with the
recommendation in `LRU`, TLB Protection Violation, vector 12, and Instruction Access Exception, vector 6, which `CPS.DA` does
not disable (20 R141, R153, R157, R166, 60 R539, R540, R553). The model's choice (entry 26, DESIGN CHOICE, 92 D19): that a
non-sequential fetch which `*IERR` answers has been made and puts `CFG.CD` in force, as 20 R172 says of a fetch, and that one
without a translation has not; that Usage bits and `LRU` are written at the target's own fetch, and at every fetch (20 R157 and
R161 leave it open). -/
def Obligations.FetchTraps : Prop :=
  ∀ s : State, s.Quiet →
    let s1 := s.atBoundary
    let va : Word := s1.pc ++ 0#2
    s1.asyncEvent = none → s1.cps.getLsbD 7 = false → s1.settlement = .ends → s1.drain.vectorReadable = true →
    s1.fetchChoice.oldStream = false →
    let traps (vn : Byte) (tlb : Nat → Word) (lru : Word → Prop) : Prop :=
      ∃ t u : State, step s = .next u ∧ TrapEntered t.drain u vn ∧
        t = { s1 with
          tlb := t.tlb, lru := t.lru, env := t.env, lastNonseq := t.lastNonseq, turn := t.turn, cdInForce := t.cdInForce,
          block := t.block } ∧
        t.TlbIs tlb ∧ lru t.lru ∧
        (t.cdInForce = if vn = 6#8 ∧ s1.turn ≠ none then s1.cfg.getLsbD 0 else s1.cdInForce) ∧ u.cdInForce = t.cdInForce
    let translated := s1.cps.getLsbD 5 = false ∧ s1.cps.getLsbD 8 = false ∧ s1.mmu.age ≠ 1 ∧ s1.psTarget ≠ 1
    (translated → s1.cps.getLsbD 0 = false → s1.TlbMiss va →
      traps (if s1.cps.getLsbD 4 then 10#8 else 8#8) s1.tlbReg (RecommendsFor s1 va)) ∧
    (∀ e, translated → s1.cps.getLsbD 0 = false → s1.TlbHit va e →
      permits (s1.entry0 va e) .fetch (!s1.cps.getLsbD 4) = false →
      traps 12#8 (s1.usedTlb va e) fun lru => lru &&& 0xFFFFFF81#32 = 0#32) ∧
    (∀ rom pa tlb, s1.FetchesAt rom pa tlb → s1.fetchChoice.answer = .error → traps 6#8 tlb (· = s1.lru))

/-- At a boundary the asynchronous event of the highest priority that is pending and enabled is taken, and nothing executes;
`DA` masks all but an exception of the channel, and `DI` and `IM` the external interrupts (60 R532, R545, R546, R547, R549).
What counts as a pending exception of the channel, TF = 1 with FZ = 0 whoever set it, or one held while the channel registers
were frozen, is the model's choice (entry 17, DESIGN CHOICE). That an input counts at the boundary at which it is sampled is
entry 32. -/
def Obligations.HighestPriorityEventIsTaken : Prop :=
  ∀ (s : State) (p : Nat), s.Quiet →
    let s1 := s.atBoundary
    4 ≤ p → p ≤ 12 → s1.Pending p → (∀ q, 4 ≤ q → q < p → ¬s1.Pending q) → s1.settlement = .ends →
    s1.drain.vectorReadable = true → ∃ t : State, step s = .next t ∧ TrapEntered s1.drain t (s1.eventVector p)

/-- In Wait mode with nothing pending and enabled a step neither fetches nor executes: it samples the pins, the Timer counts,
and an access in flight goes on (60 R610), or stays, where the system never answers it (70 R650, entry 40). -/
def Obligations.WaitModeHolds : Prop :=
  ∀ s : State, s.Quiet → (∀ p, 4 ≤ p → p ≤ 12 → ¬s.atBoundary.Pending p) → s.atBoundary.cps.getLsbD 7 = true →
    ∃ t : State, step s = .next t ∧ t.pc = s.pc ∧ t.npc = s.npc ∧ t.ppc = s.ppc ∧ t.mode = s.mode ∧ t.cps = s.cps ∧
      t.env.fetches = s.env.fetches ∧ t.pins = s.nextPins ∧
      (s.inflight = none → SameRegs s t [] ∧ SameMemory s t ∧ SameSpecial { s with tmc := t.tmc, tmr := t.tmr } t ∧
        t.chc = s.chc ∧ t.inflight = none) ∧
      (∀ d, s.inflight = some d → d.left ≠ 0 → t.inflight = some { d with left := d.left - 1 }) ∧
      (∀ d, s.inflight = some d → d.left = 0 → t.inflight = if s.settlement = .never then some d else none)

/-- Where the system never answers the access in flight, whatever must wait for it waits in Pipeline Hold with no effect: a
load or store, a move to a special-purpose or TLB register, a return, `HALT`, an instruction that reads the target of the load,
the taking of a trap. In Pipeline Hold a step executes nothing and takes no event; only `*RESET` and `*WARN` end it (20 R144,
60 R611, 70 R650; how the environment says that it never answers is entries 9 and 40). That a change of one of `CNTL0-CNTL1`
has no effect in that mode is the model's choice (entry 40, DESIGN CHOICE). -/
def Obligations.PipelineHold : Prop :=
  (∀ s : State, s.settlement = .never →
    (∀ prio vn, s.takeTrap prio vn = .next s.hold) ∧
    (∀ ctl ra rb, s.accessForbidden ctl (s.absReg .A ra) (s.resolve rb) = false → s.multipleByMove = false →
      ∀ i ∈ accessForms ctl ra rb,
        (i ∈ [Instr.loadm ctl ra rb, .storem ctl ra rb] → s.testing = false ∧ s.fz = false ∧ s.afterMultiple = false) →
        exec i s = .next s.hold) ∧
    (∀ sa ra rb i16, ∀ i ∈ [Instr.mtsr sa rb, .mtsrim sa i16, .mttlb ra rb], exec i s = .next s.hold) ∧
    (s.supervisor = true → s.testing = false → ∀ i ∈ [Instr.iret, .iretinv, .halt], exec i s = .next s.hold) ∧
    (∀ rc ra rb, s.isProtected (s.absReg .C rc) = false → s.isProtected (s.absReg .A ra) = false →
      s.protectedSrc (s.resolve rb) = false → s.waitsFor (s.sourceRegs ra rb) = true →
      ∀ i ∈ binaryForms rc ra rb, exec i s = .next s.hold)) ∧
  (∀ s : State, s.hold = { s with mode := .held }) ∧
  (∀ s : State, s.mode = .held → s.nextPins.reset = false → s.warnPending = false →
    (s.nextPins.warn = true → s.pins.warn = true) → cntlJump s.pins.cntl s.nextPins.cntl = false →
    ∃ t, step s = .next t ∧ t.mode = .held ∧ t.pc = s.pc ∧ t.npc = s.npc ∧ t.ppc = s.ppc ∧ t.cps = s.cps ∧
      t.pins = s.nextPins ∧ (t.tmc, t.tmr) = timerCycles (1 + s.env.cycles.headD 0) s.tmc s.tmr ∧
      (s.inflight = none ∨ s.settlement = .never → SameRegs s t [] ∧ SameMemory s t ∧ t.chc = s.chc ∧
        t.settlement = s.settlement ∧ SameSpecial { s with tmc := t.tmc, tmr := t.tmr } t))

/-- The Timer counts down once a cycle; the cycle after it has reached zero reloads it from TRV, sets IN, and sets OV if IN was
set already (60 R605; that a zero which software wrote counts as well is entry 25). -/
def Obligations.TimerCounts : Prop :=
  (∀ (tmc tmr : Word) (k : Nat), k ≤ tmc.toNat →
    timerCycles k tmc tmr = (BitVec.ofNat 32 (tmc.toNat - k), tmr)) ∧
  (∀ tmc tmr : Word,
    (timerCycles (tmc.toNat + 1) tmc tmr).1 = BitVec.ofNat 32 (tmr.toNat % 2 ^ 24) ∧
    ∀ i, (timerCycles (tmc.toNat + 1) tmc tmr).2.getLsbD i =
      if i = 25 then true else if i = 26 then tmr.getLsbD 26 || tmr.getLsbD 25 else tmr.getLsbD i) ∧
  (∀ (m n : Nat) (tmc tmr : Word),
    timerCycles (m + n) tmc tmr = timerCycles n (timerCycles m tmc tmr).1 (timerCycles m tmc tmr).2) ∧
  (∀ s : State, (s.atBoundary.tmc, s.atBoundary.tmr) = timerCycles (1 + s.env.cycles.headD 0) s.tmc s.tmr)

/-- `*RESET` at any boundary, of Pipeline Hold too, enters the Reset mode: `CPS`, `CFG.CD`, `CFG.PRL`, `CHC.CV` and the program
counters are set, no access is in flight, and memory stays, but for the word of a store that was in flight, which may or may
not have been made (92 D28, entry 29); nothing happens while it stays asserted (70 R630, R631, R650, 10 R86). The bits of `CPS`
that 70 R631 leaves open are a parameter (entry 3); the other registers take any value (entry 29). That a store in flight to
the space of the instruction ROM changes nothing is the model's choice (entry 7, DESIGN CHOICE); the order of the bytes of a
word is entry 6, a device or the coprocessor entry 8, hardware for narrow accesses entry 38. -/
def Obligations.ResetPin : Prop :=
  ∀ s : State, s.nextPins.reset = true →
    (s.mode ≠ .reset → ∃ t : State, step s = .next t ∧ t.mode = .reset ∧ t.pc = 0#30 ∧ t.npc = 1#30 ∧
      (∀ i, t.cps.getLsbD i =
        if i ∈ [0, 4, 5, 6, 8] then true
        else if i ∈ [1, 2, 3, 9, 10, 11, 12, 13, 15] then s.sys.resetImage.getLsbD i
        else false) ∧
      t.cfg.getLsbD 0 = true ∧ (∀ i, 5 ≤ i → t.cfg.getLsbD i = false) ∧ t.chc.getLsbD 0 = false ∧ t.sps.now = none ∧
      t.inflight = none ∧ t.derr = none ∧ t.warnPending = false ∧ t.cdInForce = true ∧ t.oldWords = [] ∧ t.oldMaps = [] ∧
      (SameMemory s t ∨ ∃ d, s.inflight = some d ∧ (d.isLoad = false ∨ d.set = true) ∧
        StoresWord s t d.ctl d.pa (if d.isLoad then 0xFFFFFFFF#32 else d.data)) ∧
      ∀ a, (∀ d, s.inflight = some d → (d.isLoad = false ∨ d.set = true) → s.movesByte d.ctl d.pa a = false) →
        Memory.read t.idm a = Memory.read s.idm a) ∧
    (s.mode = .reset → ∃ t : State, step s = .next t ∧
      t = { s with clock := t.clock, pins := s.nextPins, warnPending := false, env := t.env })

/-- An inactive-to-active transition of `*WARN` is taken before anything else but `*RESET`, whatever `CPS` says: the program
counters are captured unless frozen, `OPS` gets `CPS`, the access in flight is abandoned, and execution goes on at ROM address
16 (60 R580); the cycles of the step pass first for the Timer where it counts, in Executing, Wait and Pipeline Hold modes (60
R545, R605). The bits of `CPS` that 70 R631 leaves open are a parameter (entry 3); that a `*DERR` trap that waits outside the
frozen channel registers is dropped is the model's choice (entry 17, DESIGN CHOICE). -/
def Obligations.WarnIsTaken : Prop :=
  ∀ s : State, s.nextPins.reset = false → (s.warnPending = true ∨ (s.nextPins.warn = true ∧ s.pins.warn = false)) →
    ∃ t : State, step s = .next t ∧ t.pc = 4#30 ∧ t.npc = 5#30 ∧
      (∀ i, t.cps.getLsbD i =
        if i ∈ [0, 4, 5, 6, 8] then true
        else if i ∈ [1, 2, 3, 9, 10, 11, 12, 13, 15] then s.sys.resetImage.getLsbD i
        else false) ∧
      t.ops = { s with pins := s.nextPins }.cpsView ∧
      t.pc0 = (if s.cps.getLsbD 10 then s.pc0 else s.npc ++ 0#2) ∧
      t.pc1 = (if s.cps.getLsbD 10 then s.pc1 else s.pc ++ 0#2) ∧
      t.pc2 = (if s.cps.getLsbD 10 then s.pc2 else s.ppc ++ 0#2) ∧ t.inflight = none ∧ t.warnPending = false ∧
      SameRegs s t [] ∧ SameMemory s t ∧ t.tlb = s.tlb ∧ SameChannel s t ∧ t.chc = s.chc ∧ t.alu = s.alu ∧ t.q = s.q ∧
      SamePointers s t ∧ t.vab = s.vab ∧ t.cfg = s.cfg ∧ t.rbp = s.rbp ∧
      ((t.tmc, t.tmr) =
        if s.mode ∈ [.executing, .starting, .held] then timerCycles (1 + s.env.cycles.headD 0) s.tmc s.tmr
        else (s.tmc, s.tmr)) ∧
      t.mmu.now = s.mmu.now ∧ t.lru = s.lru ∧ t.sps.now = s.sps.now ∧ t.derr = none ∧ t.mode = .starting

/-- `CNTL0-CNTL1` move the processor between the Executing, Halt, Step and Load Test Instruction modes, and choose the mode at
the first fetch after Reset or `*WARN`; in Halt mode, and in Step mode but for a step, nothing executes and the Timer stands;
execution resumes from Halt mode with new fetches; Load Test Instruction mode loads the instruction register; a transition that
the spec calls unpredictable is a fault of the model (60 R580, R612 to R615, 70 R632, entry 28). An instruction register that
is not used in time is dropped (entry 37). That no cycle passes for the Timer at the boundary that ends in Halt or Step mode,
whether `CNTL0-CNTL1` take Executing mode there or a start-up ends there, is the model's choice (entries 25 and 28, DESIGN
CHOICE, unsafe; 60 R605 leaves it open); so are the exact boundary at which a mode is entered, and that this comes before an
event that is pending and enabled there (entry 28; 60 R545 and R612 leave the order open). -/
def Obligations.OperatingModes : Prop :=
  ∀ s : State, s.nextPins.reset = false → s.warnPending = false → (s.nextPins.warn = true → s.pins.warn = true) →
    let s1 := s.samplePins
    let old := s.pins.cntl
    let new := s.nextPins.cntl
    (s.mode = .executing → new = .halt → old ≠ .step → s.settlement ≠ .never →
      step s = .next { s1.drain with mode := .halt, irValid := false }) ∧
    (s.mode = .executing → new = .step → old ≠ .halt → s.settlement ≠ .never →
      step s = .next { s1.drain with mode := .step }) ∧
    (s.mode = .halt → new = .normal → old = .halt →
      step s = step { s with mode := .executing, turn := some s1.clock, nextTurn := some s1.clock, stream := none }) ∧
    (s.mode = .halt → new = .step → old = .normal → step s = .next { s1 with mode := .step }) ∧
    (s.mode = .step → new = .halt → old = .normal → s.settlement ≠ .never →
      step s = .next { s1.drain with mode := .halt, irValid := false }) ∧
    ((s.mode = .reset ∨ s.mode = .starting) →
      (new = .normal → step s = step { s with mode := .executing, pins := { s.pins with cntl := .normal } }) ∧
      (∀ m, (new = .halt ∧ m = .halt) ∨ (new = .step ∧ m = .step) → (s.cps.getLsbD 5 = true ∨ s.cps.getLsbD 8 = true) →
        s.fetchChoice.answer = .ready → step s = .next { s1 with mode := m, irValid := false })) ∧
    (s.mode = .halt → new = .halt → old ≠ .step → step s = .next s1) ∧
    (s.mode = .halt → new = .normal → old = .normal → step s = .next s1) ∧
    (s.mode = .step → new = .step → old ≠ .halt → step s = .next s1) ∧
    (s.mode = .step → new = .normal → old = .normal → step s = .next s1) ∧
    ((s.mode = .halt ∨ s.mode = .step) → new = .loadTest → (old = .halt ∨ old = .step) →
      step s = .next { s1 with mode := .loadTest, ir := s.nextPins.bus }) ∧
    (s.mode = .loadTest → new = .loadTest → old = .loadTest → step s = .next { s1 with ir := s.nextPins.bus }) ∧
    (s.mode = .loadTest → new = .step → old = .loadTest → step s = .next { s1 with mode := .step, irValid := true }) ∧
    (s.mode = .loadTest → new = .halt → old = .loadTest → step s = .next { s1 with mode := .halt, irValid := false }) ∧
    (s.mode ≠ .reset → s.mode ≠ .starting → cntlJump old new = true → step s = .fault .cntlTransition) ∧
    ((s.mode = .reset ∨ s.mode = .starting) → new = .loadTest → step s = .fault .cntlAtStart)

/-- On the transition of `CNTL0-CNTL1` from 01 to 11 in Step mode the processor steps, and is in Step mode again; the access
that the step starts completes. With an instruction register loaded by the development system it executes that instruction,
which has access to protected state; with none, the program's own instruction at `pc` (60 R613, R614). One of the fifty
instructions with RC, RA and `RB or I`, without Out of Range, leaves the channel registers, `ALU`, the mode and the program
counters, where it is the loaded one, and advances them, where it is the program's. How the loaded instruction is executed is
entry 37. Of the fetch of the program's own instruction: that the Usage bits of the translation are set at every fetch is the
model's choice (entry 26, DESIGN CHOICE, 92 D19; 20 R161 leaves it open), and what is left of a block of the Branch Target
Cache is its record of hidden copies (entry 27, DESIGN CHOICE). -/
def Obligations.StepModeExecutesOneInstruction : Prop :=
  ∀ (s : State) (i : Instr), s.nextPins.reset = false → s.warnPending = false →
    (s.nextPins.warn = true → s.pins.warn = true) → s.mode = .step → s.pins.cntl = .step → s.nextPins.cntl = .normal →
    s.atBoundary.asyncEvent = none → s.atBoundary.cps.getLsbD 7 = false →
    (s.irValid = true → decode s.ir = .ok i →
      let s1 := { s.atBoundary with testing := true }
      s1.supervisor = true ∧ s1.frozen = true ∧
      (∀ t, exec i s1 = .next t → t.settlement ≠ .never → step s = .next { t.drain with testing := false }) ∧
      (∀ rc ra rb, i ∈ binaryForms rc ra rb → s1.BinaryReady rc ra rb → s1.settlement ≠ .never →
        (outOfRange i (s1.srcA ra rb) (s1.srcB ra rb) (s1.atRead ra rb).carry = false ∨ s1.da = true) →
        ∃ t, step s = .next t ∧ t.pc = s.pc ∧ t.npc = s.npc ∧ t.ppc = s.ppc ∧ SameChannel s1 t ∧
          t.chc = s1.chc ∧ t.alu = s1.alu ∧ t.mode = .step ∧ t.testing = false)) ∧
    (s.irValid = false → ∀ rom pa tlb, s.atBoundary.env.fetches = [] → s.atBoundary.FetchesAt rom pa tlb →
      decode (Memory.readWord (if rom then s.atBoundary.rom else s.atBoundary.idm) pa) = .ok i →
      ∃ t, Fetches s.atBoundary t tlb ∧
        (∀ u, exec i t = .next u → u.settlement ≠ .never → step s = .next { u.drain with testing := false }) ∧
        (∀ rc ra rb, i ∈ binaryForms rc ra rb → t.BinaryReady rc ra rb → t.settlement ≠ .never →
          (outOfRange i (t.srcA ra rb) (t.srcB ra rb) (t.atRead ra rb).carry = false ∨ t.da = true) →
          ∃ u, step s = .next u ∧ PcAdvances s u ∧ u.mode = .step))
end

