-- ==== Sys2Proof/Laws/Memory.lean ====
section
/-! SUPPORT. Reading after writing, and the canonical form of memory (20 R139, R140; entry 5). -/

namespace Sys2Proof.Machine

theorem Memory.read_erase (m : Memory) (a b : Nat) :
    Memory.read (Memory.erase m a) b = if a = b then Memory.unlisted else Memory.read m b := by
  induction m with
  | nil => simp [Memory.erase, Memory.read]
  | cons c t ih =>
    obtain ⟨x, v⟩ := c
    by_cases hx : x = a
    · subst hx
      by_cases hb : x = b <;> simp_all [Memory.erase, Memory.read]
    · by_cases hb : x = b
      · subst hb; simp [Memory.erase, Memory.read, hx, Ne.symm hx]
      · simp [Memory.erase, Memory.read, hx, hb, ih]

/-- A cell that is not listed yet reads as what was inserted. -/
theorem Memory.read_insert (m : Memory) (a b : Nat) (v : Byte) (h : ∀ c ∈ m, c.1 ≠ a) :
    Memory.read (Memory.insert m a v) b = if a = b then v else Memory.read m b := by
  induction m with
  | nil => simp [Memory.insert, Memory.read]
  | cons c t ih =>
    obtain ⟨x, w⟩ := c
    have hx : x ≠ a := h (x, w) (by simp)
    have ht := ih fun c hc => h c (by simp [hc])
    by_cases hlt : a < x
    · by_cases hb : a = b
      · subst hb; simp [Memory.insert, Memory.read, hlt]
      · simp [Memory.insert, Memory.read, hlt, hb]
    · by_cases hb : x = b
      · subst hb; simp [Memory.insert, Memory.read, hlt, Ne.symm hx]
      · simp [Memory.insert, Memory.read, hlt, hb, ht]

theorem Memory.not_mem_erase (m : Memory) (a : Nat) : ∀ c ∈ Memory.erase m a, c.1 ≠ a := by
  induction m with
  | nil => simp [Memory.erase]
  | cons c t ih =>
    obtain ⟨x, v⟩ := c
    by_cases hx : x = a
    · simpa [Memory.erase, hx] using ih
    · simpa [Memory.erase, hx] using ih

/-- Read after write. -/
@[simp] theorem Memory.read_write (m : Memory) (a b : Nat) (v : Byte) :
    Memory.read (Memory.write m a v) b = if a = b then v else Memory.read m b := by
  unfold Memory.write
  split
  · next h => rw [Memory.read_erase, h]
  · rw [Memory.read_insert _ _ _ _ (Memory.not_mem_erase m a), Memory.read_erase]
    split <;> rfl

/-- The canonical form from a lower bound, as a statement. -/
theorem Memory.wfFrom_cons (lo : Option Nat) (a : Nat) (v : Byte) (t : Memory) :
    Memory.wfFrom lo ((a, v) :: t) = true ↔
      (∀ b, lo = some b → b < a) ∧ a < 2 ^ 32 ∧ v ≠ Memory.unlisted ∧ Memory.wfFrom (some a) t = true := by
  cases lo <;> simp [Memory.wfFrom, and_assoc]

theorem Memory.wfFrom_weaken {lo lo' : Option Nat} {m : Memory} (h : Memory.wfFrom lo m = true)
    (hle : ∀ b, lo' = some b → ∃ c, lo = some c ∧ b ≤ c) : Memory.wfFrom lo' m = true := by
  cases m with
  | nil => rfl
  | cons c t =>
    obtain ⟨a, v⟩ := c
    rw [Memory.wfFrom_cons] at h ⊢
    refine ⟨fun b hb => ?_, h.2⟩
    obtain ⟨c, hc, hbc⟩ := hle b hb
    have := h.1 c hc
    omega

theorem Memory.wfFrom_erase {lo : Option Nat} {m : Memory} (a : Nat) (h : Memory.wfFrom lo m = true) :
    Memory.wfFrom lo (Memory.erase m a) = true := by
  induction m generalizing lo with
  | nil => rfl
  | cons c t ih =>
    obtain ⟨x, v⟩ := c
    rw [Memory.wfFrom_cons] at h
    by_cases hx : x = a
    · simp only [Memory.erase, hx, if_true]
      refine ih (Memory.wfFrom_weaken h.2.2.2 fun b hb => ⟨x, rfl, ?_⟩)
      exact Nat.le_of_lt (h.1 b hb)
    · simp only [Memory.erase, hx, if_false]
      rw [Memory.wfFrom_cons]
      exact ⟨h.1, h.2.1, h.2.2.1, ih h.2.2.2⟩

theorem Memory.wfFrom_insert {lo : Option Nat} {m : Memory} {a : Nat} {v : Byte} (h : Memory.wfFrom lo m = true)
    (hlo : ∀ b, lo = some b → b < a) (ha : a < 2 ^ 32) (hv : v ≠ Memory.unlisted) (hne : ∀ c ∈ m, c.1 ≠ a) :
    Memory.wfFrom lo (Memory.insert m a v) = true := by
  induction m generalizing lo with
  | nil => exact (Memory.wfFrom_cons _ _ _ _).2 ⟨hlo, ha, hv, rfl⟩
  | cons c t ih =>
    obtain ⟨x, w⟩ := c
    rw [Memory.wfFrom_cons] at h
    have hx : x ≠ a := hne (x, w) (by simp)
    by_cases hlt : a < x
    · simp only [Memory.insert, hlt, if_true, Memory.wfFrom_cons]
      exact ⟨hlo, ha, hv, fun b hb => by cases hb; exact hlt, h.2⟩
    · simp only [Memory.insert, hlt, if_false, Memory.wfFrom_cons]
      refine ⟨h.1, h.2.1, h.2.2.1, ih h.2.2.2 (fun b hb => ?_) fun c hc => hne c (by simp [hc])⟩
      cases hb; omega

/-- A write keeps the canonical form. -/
theorem Memory.wf_write {m : Memory} (h : Memory.wf m = true) {a : Nat} (ha : a < 2 ^ 32) (v : Byte) :
    Memory.wf (Memory.write m a v) = true := by
  unfold Memory.write
  split
  · exact Memory.wfFrom_erase a h
  · next hv =>
    exact Memory.wfFrom_insert (Memory.wfFrom_erase a h) (fun b hb => by cases hb) ha hv (Memory.not_mem_erase m a)

theorem wordBase_lt (w : IAddr) : wordBase w + 3 < 2 ^ 32 := by
  have := w.isLt
  unfold wordBase; omega

/-- A write of a word keeps the canonical form. -/
theorem Memory.wf_writeWord {m : Memory} (h : Memory.wf m = true) (w : IAddr) (v : Word) :
    Memory.wf (Memory.writeWord m w v) = true := by
  have := wordBase_lt w
  exact Memory.wf_write (Memory.wf_write (Memory.wf_write (Memory.wf_write h (by omega) _) (by omega) _) (by omega) _)
    (by omega) _

/-- The empty memory, which Reset leaves, is in canonical form. -/
theorem Memory.wf_nil : Memory.wf [] = true := rfl

/-- The byte of a word at offset 0 to 3 from its base. -/
def byteOfWord (v : Word) (k : Nat) : Byte :=
  match k with
  | 0 => opField v
  | 1 => field2 v
  | 2 => field1 v
  | _ => field0 v

/-- Every byte after a word is written. -/
theorem Memory.read_writeWord (m : Memory) (w : IAddr) (v : Word) (a : Nat) :
    Memory.read (Memory.writeWord m w v) a =
      if wordBase w ≤ a ∧ a < wordBase w + 4 then byteOfWord v (a - wordBase w) else Memory.read m a := by
  unfold Memory.writeWord
  simp only [Memory.read_write]
  by_cases h : wordBase w ≤ a ∧ a < wordBase w + 4
  · obtain ⟨k, rfl⟩ : ∃ k, a = wordBase w + k := ⟨a - wordBase w, by omega⟩
    have hk : k < 4 := by omega
    rw [if_pos h, Nat.add_sub_cancel_left]
    match k, hk with
    | 0, _ => simp [byteOfWord]
    | 1, _ => simp [byteOfWord]
    | 2, _ => simp [byteOfWord]
    | 3, _ => simp [byteOfWord]
  · rw [if_neg h]
    repeat rw [if_neg (by omega)]

/-- The four bytes of a word make it up. -/
theorem wordOfBytes_fields (v : Word) : wordOfBytes (opField v) (field2 v) (field1 v) (field0 v) = v := by
  unfold wordOfBytes opField field2 field1 field0
  apply BitVec.eq_of_getLsbD_eq
  intro i hi
  simp only [BitVec.getLsbD_append, BitVec.getLsbD_extractLsb']
  split_ifs with h0 h1 h2
  · simp [h0]
  · rw [show 8 + (i - 8) = i by omega]; simp [h1]
  · rw [show 16 + (i - 8 - 8) = i by omega]; simp [h2]
  · rw [show 24 + (i - 8 - 8 - 8) = i by omega]
    have h3 : i - 8 - 8 - 8 < 8 := by omega
    simp [h3]

/-- Read after write of words. -/
theorem Memory.readWord_writeWord (m : Memory) (w x : IAddr) (v : Word) :
    Memory.readWord (Memory.writeWord m w v) x = if w = x then v else Memory.readWord m x := by
  unfold Memory.readWord
  simp only [Memory.read_writeWord]
  by_cases h : w = x
  · subst h
    simp [byteOfWord, wordOfBytes_fields]
  · have hne : w.toNat ≠ x.toNat := fun e => h (BitVec.eq_of_toNat_eq e)
    rw [if_neg h]
    unfold wordBase
    repeat rw [if_neg (by omega)]

end Sys2Proof.Machine
end

