-- ==== Sys2Proof/Laws/State.lean ====
section
/-! SUPPORT. What each update of the state leaves alone: one lemma per update and field. -/

namespace Sys2Proof.Machine

@[simp] theorem State.storeReg_pc (s : State) (sh : Bool) (a : RegNum) (v : Word) : (s.storeReg sh a v).pc = s.pc := by unfold State.storeReg; split <;> [skip; split] <;> rfl
@[simp] theorem State.storeReg_npc (s : State) (sh : Bool) (a : RegNum) (v : Word) : (s.storeReg sh a v).npc = s.npc := by unfold State.storeReg; split <;> [skip; split] <;> rfl
@[simp] theorem State.storeReg_ppc (s : State) (sh : Bool) (a : RegNum) (v : Word) : (s.storeReg sh a v).ppc = s.ppc := by unfold State.storeReg; split <;> [skip; split] <;> rfl
@[simp] theorem State.storeReg_vab (s : State) (sh : Bool) (a : RegNum) (v : Word) : (s.storeReg sh a v).vab = s.vab := by unfold State.storeReg; split <;> [skip; split] <;> rfl
@[simp] theorem State.storeReg_ops (s : State) (sh : Bool) (a : RegNum) (v : Word) : (s.storeReg sh a v).ops = s.ops := by unfold State.storeReg; split <;> [skip; split] <;> rfl
@[simp] theorem State.storeReg_cps (s : State) (sh : Bool) (a : RegNum) (v : Word) : (s.storeReg sh a v).cps = s.cps := by unfold State.storeReg; split <;> [skip; split] <;> rfl
@[simp] theorem State.storeReg_cfg (s : State) (sh : Bool) (a : RegNum) (v : Word) : (s.storeReg sh a v).cfg = s.cfg := by unfold State.storeReg; split <;> [skip; split] <;> rfl
@[simp] theorem State.storeReg_cha (s : State) (sh : Bool) (a : RegNum) (v : Word) : (s.storeReg sh a v).cha = s.cha := by unfold State.storeReg; split <;> [skip; split] <;> rfl
@[simp] theorem State.storeReg_chd (s : State) (sh : Bool) (a : RegNum) (v : Word) : (s.storeReg sh a v).chd = s.chd := by unfold State.storeReg; split <;> [skip; split] <;> rfl
@[simp] theorem State.storeReg_chc (s : State) (sh : Bool) (a : RegNum) (v : Word) : (s.storeReg sh a v).chc = s.chc := by unfold State.storeReg; split <;> [skip; split] <;> rfl
@[simp] theorem State.storeReg_rbp (s : State) (sh : Bool) (a : RegNum) (v : Word) : (s.storeReg sh a v).rbp = s.rbp := by unfold State.storeReg; split <;> [skip; split] <;> rfl
@[simp] theorem State.storeReg_tmc (s : State) (sh : Bool) (a : RegNum) (v : Word) : (s.storeReg sh a v).tmc = s.tmc := by unfold State.storeReg; split <;> [skip; split] <;> rfl
@[simp] theorem State.storeReg_tmr (s : State) (sh : Bool) (a : RegNum) (v : Word) : (s.storeReg sh a v).tmr = s.tmr := by unfold State.storeReg; split <;> [skip; split] <;> rfl
@[simp] theorem State.storeReg_pc0 (s : State) (sh : Bool) (a : RegNum) (v : Word) : (s.storeReg sh a v).pc0 = s.pc0 := by unfold State.storeReg; split <;> [skip; split] <;> rfl
@[simp] theorem State.storeReg_pc1 (s : State) (sh : Bool) (a : RegNum) (v : Word) : (s.storeReg sh a v).pc1 = s.pc1 := by unfold State.storeReg; split <;> [skip; split] <;> rfl
@[simp] theorem State.storeReg_pc2 (s : State) (sh : Bool) (a : RegNum) (v : Word) : (s.storeReg sh a v).pc2 = s.pc2 := by unfold State.storeReg; split <;> [skip; split] <;> rfl
@[simp] theorem State.storeReg_mmu (s : State) (sh : Bool) (a : RegNum) (v : Word) : (s.storeReg sh a v).mmu = s.mmu := by unfold State.storeReg; split <;> [skip; split] <;> rfl
@[simp] theorem State.storeReg_psTarget (s : State) (sh : Bool) (a : RegNum) (v : Word) : (s.storeReg sh a v).psTarget = s.psTarget := by unfold State.storeReg; split <;> [skip; split] <;> rfl
@[simp] theorem State.storeReg_psBefore (s : State) (sh : Bool) (a : RegNum) (v : Word) : (s.storeReg sh a v).psBefore = s.psBefore := by unfold State.storeReg; split <;> [skip; split] <;> rfl
@[simp] theorem State.storeReg_lru (s : State) (sh : Bool) (a : RegNum) (v : Word) : (s.storeReg sh a v).lru = s.lru := by unfold State.storeReg; split <;> [skip; split] <;> rfl
@[simp] theorem State.storeReg_ipc (s : State) (sh : Bool) (a : RegNum) (v : Word) : (s.storeReg sh a v).ipc = s.ipc := by unfold State.storeReg; split <;> [skip; split] <;> rfl
@[simp] theorem State.storeReg_ipa (s : State) (sh : Bool) (a : RegNum) (v : Word) : (s.storeReg sh a v).ipa = s.ipa := by unfold State.storeReg; split <;> [skip; split] <;> rfl
@[simp] theorem State.storeReg_ipb (s : State) (sh : Bool) (a : RegNum) (v : Word) : (s.storeReg sh a v).ipb = s.ipb := by unfold State.storeReg; split <;> [skip; split] <;> rfl
@[simp] theorem State.storeReg_q (s : State) (sh : Bool) (a : RegNum) (v : Word) : (s.storeReg sh a v).q = s.q := by unfold State.storeReg; split <;> [skip; split] <;> rfl
@[simp] theorem State.storeReg_alu (s : State) (sh : Bool) (a : RegNum) (v : Word) : (s.storeReg sh a v).alu = s.alu := by unfold State.storeReg; split <;> [skip; split] <;> rfl
@[simp] theorem State.storeReg_tlb (s : State) (sh : Bool) (a : RegNum) (v : Word) : (s.storeReg sh a v).tlb = s.tlb := by unfold State.storeReg; split <;> [skip; split] <;> rfl
@[simp] theorem State.storeReg_idm (s : State) (sh : Bool) (a : RegNum) (v : Word) : (s.storeReg sh a v).idm = s.idm := by unfold State.storeReg; split <;> [skip; split] <;> rfl
@[simp] theorem State.storeReg_rom (s : State) (sh : Bool) (a : RegNum) (v : Word) : (s.storeReg sh a v).rom = s.rom := by unfold State.storeReg; split <;> [skip; split] <;> rfl
@[simp] theorem State.storeReg_inflight (s : State) (sh : Bool) (a : RegNum) (v : Word) : (s.storeReg sh a v).inflight = s.inflight := by unfold State.storeReg; split <;> [skip; split] <;> rfl
@[simp] theorem State.storeReg_derr (s : State) (sh : Bool) (a : RegNum) (v : Word) : (s.storeReg sh a v).derr = s.derr := by unfold State.storeReg; split <;> [skip; split] <;> rfl
@[simp] theorem State.storeReg_mode (s : State) (sh : Bool) (a : RegNum) (v : Word) : (s.storeReg sh a v).mode = s.mode := by unfold State.storeReg; split <;> [skip; split] <;> rfl
@[simp] theorem State.storeReg_pins (s : State) (sh : Bool) (a : RegNum) (v : Word) : (s.storeReg sh a v).pins = s.pins := by unfold State.storeReg; split <;> [skip; split] <;> rfl
@[simp] theorem State.storeReg_warnPending (s : State) (sh : Bool) (a : RegNum) (v : Word) : (s.storeReg sh a v).warnPending = s.warnPending := by unfold State.storeReg; split <;> [skip; split] <;> rfl
@[simp] theorem State.storeReg_ir (s : State) (sh : Bool) (a : RegNum) (v : Word) : (s.storeReg sh a v).ir = s.ir := by unfold State.storeReg; split <;> [skip; split] <;> rfl
@[simp] theorem State.storeReg_irValid (s : State) (sh : Bool) (a : RegNum) (v : Word) : (s.storeReg sh a v).irValid = s.irValid := by unfold State.storeReg; split <;> [skip; split] <;> rfl
@[simp] theorem State.storeReg_testing (s : State) (sh : Bool) (a : RegNum) (v : Word) : (s.storeReg sh a v).testing = s.testing := by unfold State.storeReg; split <;> [skip; split] <;> rfl
@[simp] theorem State.storeReg_invPending (s : State) (sh : Bool) (a : RegNum) (v : Word) : (s.storeReg sh a v).invPending = s.invPending := by unfold State.storeReg; split <;> [skip; split] <;> rfl
@[simp] theorem State.storeReg_cdInForce (s : State) (sh : Bool) (a : RegNum) (v : Word) : (s.storeReg sh a v).cdInForce = s.cdInForce := by unfold State.storeReg; split <;> [skip; split] <;> rfl
@[simp] theorem State.storeReg_block (s : State) (sh : Bool) (a : RegNum) (v : Word) : (s.storeReg sh a v).block = s.block := by unfold State.storeReg; split <;> [skip; split] <;> rfl
@[simp] theorem State.storeReg_turn (s : State) (sh : Bool) (a : RegNum) (v : Word) : (s.storeReg sh a v).turn = s.turn := by unfold State.storeReg; split <;> [skip; split] <;> rfl
@[simp] theorem State.storeReg_nextTurn (s : State) (sh : Bool) (a : RegNum) (v : Word) : (s.storeReg sh a v).nextTurn = s.nextTurn := by unfold State.storeReg; split <;> [skip; split] <;> rfl
@[simp] theorem State.storeReg_lastNonseq (s : State) (sh : Bool) (a : RegNum) (v : Word) : (s.storeReg sh a v).lastNonseq = s.lastNonseq := by unfold State.storeReg; split <;> [skip; split] <;> rfl
@[simp] theorem State.storeReg_cacheSince (s : State) (sh : Bool) (a : RegNum) (v : Word) : (s.storeReg sh a v).cacheSince = s.cacheSince := by unfold State.storeReg; split <;> [skip; split] <;> rfl
@[simp] theorem State.storeReg_cacheUndefined (s : State) (sh : Bool) (a : RegNum) (v : Word) : (s.storeReg sh a v).cacheUndefined = s.cacheUndefined := by unfold State.storeReg; split <;> [skip; split] <;> rfl
@[simp] theorem State.storeReg_oldWords (s : State) (sh : Bool) (a : RegNum) (v : Word) : (s.storeReg sh a v).oldWords = s.oldWords := by unfold State.storeReg; split <;> [skip; split] <;> rfl
@[simp] theorem State.storeReg_oldMaps (s : State) (sh : Bool) (a : RegNum) (v : Word) : (s.storeReg sh a v).oldMaps = s.oldMaps := by unfold State.storeReg; split <;> [skip; split] <;> rfl
@[simp] theorem State.storeReg_stream (s : State) (sh : Bool) (a : RegNum) (v : Word) : (s.storeReg sh a v).stream = s.stream := by unfold State.storeReg; split <;> [skip; split] <;> rfl
@[simp] theorem State.storeReg_afterMultiple (s : State) (sh : Bool) (a : RegNum) (v : Word) : (s.storeReg sh a v).afterMultiple = s.afterMultiple := by unfold State.storeReg; split <;> [skip; split] <;> rfl
@[simp] theorem State.storeReg_mlByMove (s : State) (sh : Bool) (a : RegNum) (v : Word) : (s.storeReg sh a v).mlByMove = s.mlByMove := by unfold State.storeReg; split <;> [skip; split] <;> rfl
@[simp] theorem State.storeReg_sys (s : State) (sh : Bool) (a : RegNum) (v : Word) : (s.storeReg sh a v).sys = s.sys := by unfold State.storeReg; split <;> [skip; split] <;> rfl
@[simp] theorem State.storeReg_clock (s : State) (sh : Bool) (a : RegNum) (v : Word) : (s.storeReg sh a v).clock = s.clock := by unfold State.storeReg; split <;> [skip; split] <;> rfl
@[simp] theorem State.storeReg_env (s : State) (sh : Bool) (a : RegNum) (v : Word) : (s.storeReg sh a v).env = s.env := by unfold State.storeReg; split <;> [skip; split] <;> rfl

@[simp] theorem State.noteOverwrite_gpr (s : State) (a : RegNum) : (s.noteOverwrite a).gpr = s.gpr := by unfold State.noteOverwrite; split <;> [skip; split] <;> rfl
@[simp] theorem State.noteOverwrite_gr1 (s : State) (a : RegNum) : (s.noteOverwrite a).gr1 = s.gr1 := by unfold State.noteOverwrite; split <;> [skip; split] <;> rfl
@[simp] theorem State.noteOverwrite_sps (s : State) (a : RegNum) : (s.noteOverwrite a).sps = s.sps := by unfold State.noteOverwrite; split <;> [skip; split] <;> rfl
@[simp] theorem State.noteOverwrite_pc (s : State) (a : RegNum) : (s.noteOverwrite a).pc = s.pc := by unfold State.noteOverwrite; split <;> [skip; split] <;> rfl
@[simp] theorem State.noteOverwrite_npc (s : State) (a : RegNum) : (s.noteOverwrite a).npc = s.npc := by unfold State.noteOverwrite; split <;> [skip; split] <;> rfl
@[simp] theorem State.noteOverwrite_ppc (s : State) (a : RegNum) : (s.noteOverwrite a).ppc = s.ppc := by unfold State.noteOverwrite; split <;> [skip; split] <;> rfl
@[simp] theorem State.noteOverwrite_vab (s : State) (a : RegNum) : (s.noteOverwrite a).vab = s.vab := by unfold State.noteOverwrite; split <;> [skip; split] <;> rfl
@[simp] theorem State.noteOverwrite_ops (s : State) (a : RegNum) : (s.noteOverwrite a).ops = s.ops := by unfold State.noteOverwrite; split <;> [skip; split] <;> rfl
@[simp] theorem State.noteOverwrite_cps (s : State) (a : RegNum) : (s.noteOverwrite a).cps = s.cps := by unfold State.noteOverwrite; split <;> [skip; split] <;> rfl
@[simp] theorem State.noteOverwrite_cfg (s : State) (a : RegNum) : (s.noteOverwrite a).cfg = s.cfg := by unfold State.noteOverwrite; split <;> [skip; split] <;> rfl
@[simp] theorem State.noteOverwrite_cha (s : State) (a : RegNum) : (s.noteOverwrite a).cha = s.cha := by unfold State.noteOverwrite; split <;> [skip; split] <;> rfl
@[simp] theorem State.noteOverwrite_chd (s : State) (a : RegNum) : (s.noteOverwrite a).chd = s.chd := by unfold State.noteOverwrite; split <;> [skip; split] <;> rfl
@[simp] theorem State.noteOverwrite_rbp (s : State) (a : RegNum) : (s.noteOverwrite a).rbp = s.rbp := by unfold State.noteOverwrite; split <;> [skip; split] <;> rfl
@[simp] theorem State.noteOverwrite_tmc (s : State) (a : RegNum) : (s.noteOverwrite a).tmc = s.tmc := by unfold State.noteOverwrite; split <;> [skip; split] <;> rfl
@[simp] theorem State.noteOverwrite_tmr (s : State) (a : RegNum) : (s.noteOverwrite a).tmr = s.tmr := by unfold State.noteOverwrite; split <;> [skip; split] <;> rfl
@[simp] theorem State.noteOverwrite_pc0 (s : State) (a : RegNum) : (s.noteOverwrite a).pc0 = s.pc0 := by unfold State.noteOverwrite; split <;> [skip; split] <;> rfl
@[simp] theorem State.noteOverwrite_pc1 (s : State) (a : RegNum) : (s.noteOverwrite a).pc1 = s.pc1 := by unfold State.noteOverwrite; split <;> [skip; split] <;> rfl
@[simp] theorem State.noteOverwrite_pc2 (s : State) (a : RegNum) : (s.noteOverwrite a).pc2 = s.pc2 := by unfold State.noteOverwrite; split <;> [skip; split] <;> rfl
@[simp] theorem State.noteOverwrite_mmu (s : State) (a : RegNum) : (s.noteOverwrite a).mmu = s.mmu := by unfold State.noteOverwrite; split <;> [skip; split] <;> rfl
@[simp] theorem State.noteOverwrite_psTarget (s : State) (a : RegNum) : (s.noteOverwrite a).psTarget = s.psTarget := by unfold State.noteOverwrite; split <;> [skip; split] <;> rfl
@[simp] theorem State.noteOverwrite_psBefore (s : State) (a : RegNum) : (s.noteOverwrite a).psBefore = s.psBefore := by unfold State.noteOverwrite; split <;> [skip; split] <;> rfl
@[simp] theorem State.noteOverwrite_lru (s : State) (a : RegNum) : (s.noteOverwrite a).lru = s.lru := by unfold State.noteOverwrite; split <;> [skip; split] <;> rfl
@[simp] theorem State.noteOverwrite_ipc (s : State) (a : RegNum) : (s.noteOverwrite a).ipc = s.ipc := by unfold State.noteOverwrite; split <;> [skip; split] <;> rfl
@[simp] theorem State.noteOverwrite_ipa (s : State) (a : RegNum) : (s.noteOverwrite a).ipa = s.ipa := by unfold State.noteOverwrite; split <;> [skip; split] <;> rfl
@[simp] theorem State.noteOverwrite_ipb (s : State) (a : RegNum) : (s.noteOverwrite a).ipb = s.ipb := by unfold State.noteOverwrite; split <;> [skip; split] <;> rfl
@[simp] theorem State.noteOverwrite_q (s : State) (a : RegNum) : (s.noteOverwrite a).q = s.q := by unfold State.noteOverwrite; split <;> [skip; split] <;> rfl
@[simp] theorem State.noteOverwrite_alu (s : State) (a : RegNum) : (s.noteOverwrite a).alu = s.alu := by unfold State.noteOverwrite; split <;> [skip; split] <;> rfl
@[simp] theorem State.noteOverwrite_tlb (s : State) (a : RegNum) : (s.noteOverwrite a).tlb = s.tlb := by unfold State.noteOverwrite; split <;> [skip; split] <;> rfl
@[simp] theorem State.noteOverwrite_idm (s : State) (a : RegNum) : (s.noteOverwrite a).idm = s.idm := by unfold State.noteOverwrite; split <;> [skip; split] <;> rfl
@[simp] theorem State.noteOverwrite_rom (s : State) (a : RegNum) : (s.noteOverwrite a).rom = s.rom := by unfold State.noteOverwrite; split <;> [skip; split] <;> rfl
@[simp] theorem State.noteOverwrite_derr (s : State) (a : RegNum) : (s.noteOverwrite a).derr = s.derr := by unfold State.noteOverwrite; split <;> [skip; split] <;> rfl
@[simp] theorem State.noteOverwrite_mode (s : State) (a : RegNum) : (s.noteOverwrite a).mode = s.mode := by unfold State.noteOverwrite; split <;> [skip; split] <;> rfl
@[simp] theorem State.noteOverwrite_pins (s : State) (a : RegNum) : (s.noteOverwrite a).pins = s.pins := by unfold State.noteOverwrite; split <;> [skip; split] <;> rfl
@[simp] theorem State.noteOverwrite_warnPending (s : State) (a : RegNum) : (s.noteOverwrite a).warnPending = s.warnPending := by unfold State.noteOverwrite; split <;> [skip; split] <;> rfl
@[simp] theorem State.noteOverwrite_ir (s : State) (a : RegNum) : (s.noteOverwrite a).ir = s.ir := by unfold State.noteOverwrite; split <;> [skip; split] <;> rfl
@[simp] theorem State.noteOverwrite_irValid (s : State) (a : RegNum) : (s.noteOverwrite a).irValid = s.irValid := by unfold State.noteOverwrite; split <;> [skip; split] <;> rfl
@[simp] theorem State.noteOverwrite_testing (s : State) (a : RegNum) : (s.noteOverwrite a).testing = s.testing := by unfold State.noteOverwrite; split <;> [skip; split] <;> rfl
@[simp] theorem State.noteOverwrite_invPending (s : State) (a : RegNum) : (s.noteOverwrite a).invPending = s.invPending := by unfold State.noteOverwrite; split <;> [skip; split] <;> rfl
@[simp] theorem State.noteOverwrite_cdInForce (s : State) (a : RegNum) : (s.noteOverwrite a).cdInForce = s.cdInForce := by unfold State.noteOverwrite; split <;> [skip; split] <;> rfl
@[simp] theorem State.noteOverwrite_block (s : State) (a : RegNum) : (s.noteOverwrite a).block = s.block := by unfold State.noteOverwrite; split <;> [skip; split] <;> rfl
@[simp] theorem State.noteOverwrite_turn (s : State) (a : RegNum) : (s.noteOverwrite a).turn = s.turn := by unfold State.noteOverwrite; split <;> [skip; split] <;> rfl
@[simp] theorem State.noteOverwrite_nextTurn (s : State) (a : RegNum) : (s.noteOverwrite a).nextTurn = s.nextTurn := by unfold State.noteOverwrite; split <;> [skip; split] <;> rfl
@[simp] theorem State.noteOverwrite_lastNonseq (s : State) (a : RegNum) : (s.noteOverwrite a).lastNonseq = s.lastNonseq := by unfold State.noteOverwrite; split <;> [skip; split] <;> rfl
@[simp] theorem State.noteOverwrite_cacheSince (s : State) (a : RegNum) : (s.noteOverwrite a).cacheSince = s.cacheSince := by unfold State.noteOverwrite; split <;> [skip; split] <;> rfl
@[simp] theorem State.noteOverwrite_cacheUndefined (s : State) (a : RegNum) : (s.noteOverwrite a).cacheUndefined = s.cacheUndefined := by unfold State.noteOverwrite; split <;> [skip; split] <;> rfl
@[simp] theorem State.noteOverwrite_oldWords (s : State) (a : RegNum) : (s.noteOverwrite a).oldWords = s.oldWords := by unfold State.noteOverwrite; split <;> [skip; split] <;> rfl
@[simp] theorem State.noteOverwrite_oldMaps (s : State) (a : RegNum) : (s.noteOverwrite a).oldMaps = s.oldMaps := by unfold State.noteOverwrite; split <;> [skip; split] <;> rfl
@[simp] theorem State.noteOverwrite_stream (s : State) (a : RegNum) : (s.noteOverwrite a).stream = s.stream := by unfold State.noteOverwrite; split <;> [skip; split] <;> rfl
@[simp] theorem State.noteOverwrite_afterMultiple (s : State) (a : RegNum) : (s.noteOverwrite a).afterMultiple = s.afterMultiple := by unfold State.noteOverwrite; split <;> [skip; split] <;> rfl
@[simp] theorem State.noteOverwrite_mlByMove (s : State) (a : RegNum) : (s.noteOverwrite a).mlByMove = s.mlByMove := by unfold State.noteOverwrite; split <;> [skip; split] <;> rfl
@[simp] theorem State.noteOverwrite_sys (s : State) (a : RegNum) : (s.noteOverwrite a).sys = s.sys := by unfold State.noteOverwrite; split <;> [skip; split] <;> rfl
@[simp] theorem State.noteOverwrite_clock (s : State) (a : RegNum) : (s.noteOverwrite a).clock = s.clock := by unfold State.noteOverwrite; split <;> [skip; split] <;> rfl
@[simp] theorem State.noteOverwrite_env (s : State) (a : RegNum) : (s.noteOverwrite a).env = s.env := by unfold State.noteOverwrite; split <;> [skip; split] <;> rfl

@[simp] theorem State.writeReg_pc (s : State) (sh : Bool) (a : RegNum) (v : Word) : (s.writeReg sh a v).pc = s.pc := by simp [State.writeReg]
@[simp] theorem State.writeReg_npc (s : State) (sh : Bool) (a : RegNum) (v : Word) : (s.writeReg sh a v).npc = s.npc := by simp [State.writeReg]
@[simp] theorem State.writeReg_ppc (s : State) (sh : Bool) (a : RegNum) (v : Word) : (s.writeReg sh a v).ppc = s.ppc := by simp [State.writeReg]
@[simp] theorem State.writeReg_vab (s : State) (sh : Bool) (a : RegNum) (v : Word) : (s.writeReg sh a v).vab = s.vab := by simp [State.writeReg]
@[simp] theorem State.writeReg_ops (s : State) (sh : Bool) (a : RegNum) (v : Word) : (s.writeReg sh a v).ops = s.ops := by simp [State.writeReg]
@[simp] theorem State.writeReg_cps (s : State) (sh : Bool) (a : RegNum) (v : Word) : (s.writeReg sh a v).cps = s.cps := by simp [State.writeReg]
@[simp] theorem State.writeReg_cfg (s : State) (sh : Bool) (a : RegNum) (v : Word) : (s.writeReg sh a v).cfg = s.cfg := by simp [State.writeReg]
@[simp] theorem State.writeReg_cha (s : State) (sh : Bool) (a : RegNum) (v : Word) : (s.writeReg sh a v).cha = s.cha := by simp [State.writeReg]
@[simp] theorem State.writeReg_chd (s : State) (sh : Bool) (a : RegNum) (v : Word) : (s.writeReg sh a v).chd = s.chd := by simp [State.writeReg]
@[simp] theorem State.writeReg_rbp (s : State) (sh : Bool) (a : RegNum) (v : Word) : (s.writeReg sh a v).rbp = s.rbp := by simp [State.writeReg]
@[simp] theorem State.writeReg_tmc (s : State) (sh : Bool) (a : RegNum) (v : Word) : (s.writeReg sh a v).tmc = s.tmc := by simp [State.writeReg]
@[simp] theorem State.writeReg_tmr (s : State) (sh : Bool) (a : RegNum) (v : Word) : (s.writeReg sh a v).tmr = s.tmr := by simp [State.writeReg]
@[simp] theorem State.writeReg_pc0 (s : State) (sh : Bool) (a : RegNum) (v : Word) : (s.writeReg sh a v).pc0 = s.pc0 := by simp [State.writeReg]
@[simp] theorem State.writeReg_pc1 (s : State) (sh : Bool) (a : RegNum) (v : Word) : (s.writeReg sh a v).pc1 = s.pc1 := by simp [State.writeReg]
@[simp] theorem State.writeReg_pc2 (s : State) (sh : Bool) (a : RegNum) (v : Word) : (s.writeReg sh a v).pc2 = s.pc2 := by simp [State.writeReg]
@[simp] theorem State.writeReg_mmu (s : State) (sh : Bool) (a : RegNum) (v : Word) : (s.writeReg sh a v).mmu = s.mmu := by simp [State.writeReg]
@[simp] theorem State.writeReg_psTarget (s : State) (sh : Bool) (a : RegNum) (v : Word) : (s.writeReg sh a v).psTarget = s.psTarget := by simp [State.writeReg]
@[simp] theorem State.writeReg_psBefore (s : State) (sh : Bool) (a : RegNum) (v : Word) : (s.writeReg sh a v).psBefore = s.psBefore := by simp [State.writeReg]
@[simp] theorem State.writeReg_lru (s : State) (sh : Bool) (a : RegNum) (v : Word) : (s.writeReg sh a v).lru = s.lru := by simp [State.writeReg]
@[simp] theorem State.writeReg_ipc (s : State) (sh : Bool) (a : RegNum) (v : Word) : (s.writeReg sh a v).ipc = s.ipc := by simp [State.writeReg]
@[simp] theorem State.writeReg_ipa (s : State) (sh : Bool) (a : RegNum) (v : Word) : (s.writeReg sh a v).ipa = s.ipa := by simp [State.writeReg]
@[simp] theorem State.writeReg_ipb (s : State) (sh : Bool) (a : RegNum) (v : Word) : (s.writeReg sh a v).ipb = s.ipb := by simp [State.writeReg]
@[simp] theorem State.writeReg_q (s : State) (sh : Bool) (a : RegNum) (v : Word) : (s.writeReg sh a v).q = s.q := by simp [State.writeReg]
@[simp] theorem State.writeReg_alu (s : State) (sh : Bool) (a : RegNum) (v : Word) : (s.writeReg sh a v).alu = s.alu := by simp [State.writeReg]
@[simp] theorem State.writeReg_tlb (s : State) (sh : Bool) (a : RegNum) (v : Word) : (s.writeReg sh a v).tlb = s.tlb := by simp [State.writeReg]
@[simp] theorem State.writeReg_idm (s : State) (sh : Bool) (a : RegNum) (v : Word) : (s.writeReg sh a v).idm = s.idm := by simp [State.writeReg]
@[simp] theorem State.writeReg_rom (s : State) (sh : Bool) (a : RegNum) (v : Word) : (s.writeReg sh a v).rom = s.rom := by simp [State.writeReg]
@[simp] theorem State.writeReg_derr (s : State) (sh : Bool) (a : RegNum) (v : Word) : (s.writeReg sh a v).derr = s.derr := by simp [State.writeReg]
@[simp] theorem State.writeReg_mode (s : State) (sh : Bool) (a : RegNum) (v : Word) : (s.writeReg sh a v).mode = s.mode := by simp [State.writeReg]
@[simp] theorem State.writeReg_pins (s : State) (sh : Bool) (a : RegNum) (v : Word) : (s.writeReg sh a v).pins = s.pins := by simp [State.writeReg]
@[simp] theorem State.writeReg_warnPending (s : State) (sh : Bool) (a : RegNum) (v : Word) : (s.writeReg sh a v).warnPending = s.warnPending := by simp [State.writeReg]
@[simp] theorem State.writeReg_ir (s : State) (sh : Bool) (a : RegNum) (v : Word) : (s.writeReg sh a v).ir = s.ir := by simp [State.writeReg]
@[simp] theorem State.writeReg_irValid (s : State) (sh : Bool) (a : RegNum) (v : Word) : (s.writeReg sh a v).irValid = s.irValid := by simp [State.writeReg]
@[simp] theorem State.writeReg_testing (s : State) (sh : Bool) (a : RegNum) (v : Word) : (s.writeReg sh a v).testing = s.testing := by simp [State.writeReg]
@[simp] theorem State.writeReg_invPending (s : State) (sh : Bool) (a : RegNum) (v : Word) : (s.writeReg sh a v).invPending = s.invPending := by simp [State.writeReg]
@[simp] theorem State.writeReg_cdInForce (s : State) (sh : Bool) (a : RegNum) (v : Word) : (s.writeReg sh a v).cdInForce = s.cdInForce := by simp [State.writeReg]
@[simp] theorem State.writeReg_block (s : State) (sh : Bool) (a : RegNum) (v : Word) : (s.writeReg sh a v).block = s.block := by simp [State.writeReg]
@[simp] theorem State.writeReg_turn (s : State) (sh : Bool) (a : RegNum) (v : Word) : (s.writeReg sh a v).turn = s.turn := by simp [State.writeReg]
@[simp] theorem State.writeReg_nextTurn (s : State) (sh : Bool) (a : RegNum) (v : Word) : (s.writeReg sh a v).nextTurn = s.nextTurn := by simp [State.writeReg]
@[simp] theorem State.writeReg_lastNonseq (s : State) (sh : Bool) (a : RegNum) (v : Word) : (s.writeReg sh a v).lastNonseq = s.lastNonseq := by simp [State.writeReg]
@[simp] theorem State.writeReg_cacheSince (s : State) (sh : Bool) (a : RegNum) (v : Word) : (s.writeReg sh a v).cacheSince = s.cacheSince := by simp [State.writeReg]
@[simp] theorem State.writeReg_cacheUndefined (s : State) (sh : Bool) (a : RegNum) (v : Word) : (s.writeReg sh a v).cacheUndefined = s.cacheUndefined := by simp [State.writeReg]
@[simp] theorem State.writeReg_oldWords (s : State) (sh : Bool) (a : RegNum) (v : Word) : (s.writeReg sh a v).oldWords = s.oldWords := by simp [State.writeReg]
@[simp] theorem State.writeReg_oldMaps (s : State) (sh : Bool) (a : RegNum) (v : Word) : (s.writeReg sh a v).oldMaps = s.oldMaps := by simp [State.writeReg]
@[simp] theorem State.writeReg_stream (s : State) (sh : Bool) (a : RegNum) (v : Word) : (s.writeReg sh a v).stream = s.stream := by simp [State.writeReg]
@[simp] theorem State.writeReg_afterMultiple (s : State) (sh : Bool) (a : RegNum) (v : Word) : (s.writeReg sh a v).afterMultiple = s.afterMultiple := by simp [State.writeReg]
@[simp] theorem State.writeReg_mlByMove (s : State) (sh : Bool) (a : RegNum) (v : Word) : (s.writeReg sh a v).mlByMove = s.mlByMove := by simp [State.writeReg]
@[simp] theorem State.writeReg_sys (s : State) (sh : Bool) (a : RegNum) (v : Word) : (s.writeReg sh a v).sys = s.sys := by simp [State.writeReg]
@[simp] theorem State.writeReg_clock (s : State) (sh : Bool) (a : RegNum) (v : Word) : (s.writeReg sh a v).clock = s.clock := by simp [State.writeReg]
@[simp] theorem State.writeReg_env (s : State) (sh : Bool) (a : RegNum) (v : Word) : (s.writeReg sh a v).env = s.env := by simp [State.writeReg]

@[simp] theorem State.setVNZC_gpr (s : State) (x : Sum) (w : Word) : (s.setVNZC x w).gpr = s.gpr := by unfold State.setVNZC; split <;> rfl
@[simp] theorem State.setVNZC_gr1 (s : State) (x : Sum) (w : Word) : (s.setVNZC x w).gr1 = s.gr1 := by unfold State.setVNZC; split <;> rfl
@[simp] theorem State.setVNZC_sps (s : State) (x : Sum) (w : Word) : (s.setVNZC x w).sps = s.sps := by unfold State.setVNZC; split <;> rfl
@[simp] theorem State.setVNZC_pc (s : State) (x : Sum) (w : Word) : (s.setVNZC x w).pc = s.pc := by unfold State.setVNZC; split <;> rfl
@[simp] theorem State.setVNZC_npc (s : State) (x : Sum) (w : Word) : (s.setVNZC x w).npc = s.npc := by unfold State.setVNZC; split <;> rfl
@[simp] theorem State.setVNZC_ppc (s : State) (x : Sum) (w : Word) : (s.setVNZC x w).ppc = s.ppc := by unfold State.setVNZC; split <;> rfl
@[simp] theorem State.setVNZC_vab (s : State) (x : Sum) (w : Word) : (s.setVNZC x w).vab = s.vab := by unfold State.setVNZC; split <;> rfl
@[simp] theorem State.setVNZC_ops (s : State) (x : Sum) (w : Word) : (s.setVNZC x w).ops = s.ops := by unfold State.setVNZC; split <;> rfl
@[simp] theorem State.setVNZC_cps (s : State) (x : Sum) (w : Word) : (s.setVNZC x w).cps = s.cps := by unfold State.setVNZC; split <;> rfl
@[simp] theorem State.setVNZC_cfg (s : State) (x : Sum) (w : Word) : (s.setVNZC x w).cfg = s.cfg := by unfold State.setVNZC; split <;> rfl
@[simp] theorem State.setVNZC_cha (s : State) (x : Sum) (w : Word) : (s.setVNZC x w).cha = s.cha := by unfold State.setVNZC; split <;> rfl
@[simp] theorem State.setVNZC_chd (s : State) (x : Sum) (w : Word) : (s.setVNZC x w).chd = s.chd := by unfold State.setVNZC; split <;> rfl
@[simp] theorem State.setVNZC_chc (s : State) (x : Sum) (w : Word) : (s.setVNZC x w).chc = s.chc := by unfold State.setVNZC; split <;> rfl
@[simp] theorem State.setVNZC_rbp (s : State) (x : Sum) (w : Word) : (s.setVNZC x w).rbp = s.rbp := by unfold State.setVNZC; split <;> rfl
@[simp] theorem State.setVNZC_tmc (s : State) (x : Sum) (w : Word) : (s.setVNZC x w).tmc = s.tmc := by unfold State.setVNZC; split <;> rfl
@[simp] theorem State.setVNZC_tmr (s : State) (x : Sum) (w : Word) : (s.setVNZC x w).tmr = s.tmr := by unfold State.setVNZC; split <;> rfl
@[simp] theorem State.setVNZC_pc0 (s : State) (x : Sum) (w : Word) : (s.setVNZC x w).pc0 = s.pc0 := by unfold State.setVNZC; split <;> rfl
@[simp] theorem State.setVNZC_pc1 (s : State) (x : Sum) (w : Word) : (s.setVNZC x w).pc1 = s.pc1 := by unfold State.setVNZC; split <;> rfl
@[simp] theorem State.setVNZC_pc2 (s : State) (x : Sum) (w : Word) : (s.setVNZC x w).pc2 = s.pc2 := by unfold State.setVNZC; split <;> rfl
@[simp] theorem State.setVNZC_mmu (s : State) (x : Sum) (w : Word) : (s.setVNZC x w).mmu = s.mmu := by unfold State.setVNZC; split <;> rfl
@[simp] theorem State.setVNZC_psTarget (s : State) (x : Sum) (w : Word) : (s.setVNZC x w).psTarget = s.psTarget := by unfold State.setVNZC; split <;> rfl
@[simp] theorem State.setVNZC_psBefore (s : State) (x : Sum) (w : Word) : (s.setVNZC x w).psBefore = s.psBefore := by unfold State.setVNZC; split <;> rfl
@[simp] theorem State.setVNZC_lru (s : State) (x : Sum) (w : Word) : (s.setVNZC x w).lru = s.lru := by unfold State.setVNZC; split <;> rfl
@[simp] theorem State.setVNZC_ipc (s : State) (x : Sum) (w : Word) : (s.setVNZC x w).ipc = s.ipc := by unfold State.setVNZC; split <;> rfl
@[simp] theorem State.setVNZC_ipa (s : State) (x : Sum) (w : Word) : (s.setVNZC x w).ipa = s.ipa := by unfold State.setVNZC; split <;> rfl
@[simp] theorem State.setVNZC_ipb (s : State) (x : Sum) (w : Word) : (s.setVNZC x w).ipb = s.ipb := by unfold State.setVNZC; split <;> rfl
@[simp] theorem State.setVNZC_q (s : State) (x : Sum) (w : Word) : (s.setVNZC x w).q = s.q := by unfold State.setVNZC; split <;> rfl
@[simp] theorem State.setVNZC_tlb (s : State) (x : Sum) (w : Word) : (s.setVNZC x w).tlb = s.tlb := by unfold State.setVNZC; split <;> rfl
@[simp] theorem State.setVNZC_idm (s : State) (x : Sum) (w : Word) : (s.setVNZC x w).idm = s.idm := by unfold State.setVNZC; split <;> rfl
@[simp] theorem State.setVNZC_rom (s : State) (x : Sum) (w : Word) : (s.setVNZC x w).rom = s.rom := by unfold State.setVNZC; split <;> rfl
@[simp] theorem State.setVNZC_inflight (s : State) (x : Sum) (w : Word) : (s.setVNZC x w).inflight = s.inflight := by unfold State.setVNZC; split <;> rfl
@[simp] theorem State.setVNZC_derr (s : State) (x : Sum) (w : Word) : (s.setVNZC x w).derr = s.derr := by unfold State.setVNZC; split <;> rfl
@[simp] theorem State.setVNZC_mode (s : State) (x : Sum) (w : Word) : (s.setVNZC x w).mode = s.mode := by unfold State.setVNZC; split <;> rfl
@[simp] theorem State.setVNZC_pins (s : State) (x : Sum) (w : Word) : (s.setVNZC x w).pins = s.pins := by unfold State.setVNZC; split <;> rfl
@[simp] theorem State.setVNZC_warnPending (s : State) (x : Sum) (w : Word) : (s.setVNZC x w).warnPending = s.warnPending := by unfold State.setVNZC; split <;> rfl
@[simp] theorem State.setVNZC_ir (s : State) (x : Sum) (w : Word) : (s.setVNZC x w).ir = s.ir := by unfold State.setVNZC; split <;> rfl
@[simp] theorem State.setVNZC_irValid (s : State) (x : Sum) (w : Word) : (s.setVNZC x w).irValid = s.irValid := by unfold State.setVNZC; split <;> rfl
@[simp] theorem State.setVNZC_testing (s : State) (x : Sum) (w : Word) : (s.setVNZC x w).testing = s.testing := by unfold State.setVNZC; split <;> rfl
@[simp] theorem State.setVNZC_invPending (s : State) (x : Sum) (w : Word) : (s.setVNZC x w).invPending = s.invPending := by unfold State.setVNZC; split <;> rfl
@[simp] theorem State.setVNZC_cdInForce (s : State) (x : Sum) (w : Word) : (s.setVNZC x w).cdInForce = s.cdInForce := by unfold State.setVNZC; split <;> rfl
@[simp] theorem State.setVNZC_block (s : State) (x : Sum) (w : Word) : (s.setVNZC x w).block = s.block := by unfold State.setVNZC; split <;> rfl
@[simp] theorem State.setVNZC_turn (s : State) (x : Sum) (w : Word) : (s.setVNZC x w).turn = s.turn := by unfold State.setVNZC; split <;> rfl
@[simp] theorem State.setVNZC_nextTurn (s : State) (x : Sum) (w : Word) : (s.setVNZC x w).nextTurn = s.nextTurn := by unfold State.setVNZC; split <;> rfl
@[simp] theorem State.setVNZC_lastNonseq (s : State) (x : Sum) (w : Word) : (s.setVNZC x w).lastNonseq = s.lastNonseq := by unfold State.setVNZC; split <;> rfl
@[simp] theorem State.setVNZC_cacheSince (s : State) (x : Sum) (w : Word) : (s.setVNZC x w).cacheSince = s.cacheSince := by unfold State.setVNZC; split <;> rfl
@[simp] theorem State.setVNZC_cacheUndefined (s : State) (x : Sum) (w : Word) : (s.setVNZC x w).cacheUndefined = s.cacheUndefined := by unfold State.setVNZC; split <;> rfl
@[simp] theorem State.setVNZC_oldWords (s : State) (x : Sum) (w : Word) : (s.setVNZC x w).oldWords = s.oldWords := by unfold State.setVNZC; split <;> rfl
@[simp] theorem State.setVNZC_oldMaps (s : State) (x : Sum) (w : Word) : (s.setVNZC x w).oldMaps = s.oldMaps := by unfold State.setVNZC; split <;> rfl
@[simp] theorem State.setVNZC_stream (s : State) (x : Sum) (w : Word) : (s.setVNZC x w).stream = s.stream := by unfold State.setVNZC; split <;> rfl
@[simp] theorem State.setVNZC_afterMultiple (s : State) (x : Sum) (w : Word) : (s.setVNZC x w).afterMultiple = s.afterMultiple := by unfold State.setVNZC; split <;> rfl
@[simp] theorem State.setVNZC_mlByMove (s : State) (x : Sum) (w : Word) : (s.setVNZC x w).mlByMove = s.mlByMove := by unfold State.setVNZC; split <;> rfl
@[simp] theorem State.setVNZC_sys (s : State) (x : Sum) (w : Word) : (s.setVNZC x w).sys = s.sys := by unfold State.setVNZC; split <;> rfl
@[simp] theorem State.setVNZC_clock (s : State) (x : Sum) (w : Word) : (s.setVNZC x w).clock = s.clock := by unfold State.setVNZC; split <;> rfl
@[simp] theorem State.setVNZC_env (s : State) (x : Sum) (w : Word) : (s.setVNZC x w).env = s.env := by unfold State.setVNZC; split <;> rfl

@[simp] theorem State.setNZ_gpr (s : State) (w : Word) : (s.setNZ w).gpr = s.gpr := by unfold State.setNZ; split <;> rfl
@[simp] theorem State.setNZ_gr1 (s : State) (w : Word) : (s.setNZ w).gr1 = s.gr1 := by unfold State.setNZ; split <;> rfl
@[simp] theorem State.setNZ_sps (s : State) (w : Word) : (s.setNZ w).sps = s.sps := by unfold State.setNZ; split <;> rfl
@[simp] theorem State.setNZ_pc (s : State) (w : Word) : (s.setNZ w).pc = s.pc := by unfold State.setNZ; split <;> rfl
@[simp] theorem State.setNZ_npc (s : State) (w : Word) : (s.setNZ w).npc = s.npc := by unfold State.setNZ; split <;> rfl
@[simp] theorem State.setNZ_ppc (s : State) (w : Word) : (s.setNZ w).ppc = s.ppc := by unfold State.setNZ; split <;> rfl
@[simp] theorem State.setNZ_vab (s : State) (w : Word) : (s.setNZ w).vab = s.vab := by unfold State.setNZ; split <;> rfl
@[simp] theorem State.setNZ_ops (s : State) (w : Word) : (s.setNZ w).ops = s.ops := by unfold State.setNZ; split <;> rfl
@[simp] theorem State.setNZ_cps (s : State) (w : Word) : (s.setNZ w).cps = s.cps := by unfold State.setNZ; split <;> rfl
@[simp] theorem State.setNZ_cfg (s : State) (w : Word) : (s.setNZ w).cfg = s.cfg := by unfold State.setNZ; split <;> rfl
@[simp] theorem State.setNZ_cha (s : State) (w : Word) : (s.setNZ w).cha = s.cha := by unfold State.setNZ; split <;> rfl
@[simp] theorem State.setNZ_chd (s : State) (w : Word) : (s.setNZ w).chd = s.chd := by unfold State.setNZ; split <;> rfl
@[simp] theorem State.setNZ_chc (s : State) (w : Word) : (s.setNZ w).chc = s.chc := by unfold State.setNZ; split <;> rfl
@[simp] theorem State.setNZ_rbp (s : State) (w : Word) : (s.setNZ w).rbp = s.rbp := by unfold State.setNZ; split <;> rfl
@[simp] theorem State.setNZ_tmc (s : State) (w : Word) : (s.setNZ w).tmc = s.tmc := by unfold State.setNZ; split <;> rfl
@[simp] theorem State.setNZ_tmr (s : State) (w : Word) : (s.setNZ w).tmr = s.tmr := by unfold State.setNZ; split <;> rfl
@[simp] theorem State.setNZ_pc0 (s : State) (w : Word) : (s.setNZ w).pc0 = s.pc0 := by unfold State.setNZ; split <;> rfl
@[simp] theorem State.setNZ_pc1 (s : State) (w : Word) : (s.setNZ w).pc1 = s.pc1 := by unfold State.setNZ; split <;> rfl
@[simp] theorem State.setNZ_pc2 (s : State) (w : Word) : (s.setNZ w).pc2 = s.pc2 := by unfold State.setNZ; split <;> rfl
@[simp] theorem State.setNZ_mmu (s : State) (w : Word) : (s.setNZ w).mmu = s.mmu := by unfold State.setNZ; split <;> rfl
@[simp] theorem State.setNZ_psTarget (s : State) (w : Word) : (s.setNZ w).psTarget = s.psTarget := by unfold State.setNZ; split <;> rfl
@[simp] theorem State.setNZ_psBefore (s : State) (w : Word) : (s.setNZ w).psBefore = s.psBefore := by unfold State.setNZ; split <;> rfl
@[simp] theorem State.setNZ_lru (s : State) (w : Word) : (s.setNZ w).lru = s.lru := by unfold State.setNZ; split <;> rfl
@[simp] theorem State.setNZ_ipc (s : State) (w : Word) : (s.setNZ w).ipc = s.ipc := by unfold State.setNZ; split <;> rfl
@[simp] theorem State.setNZ_ipa (s : State) (w : Word) : (s.setNZ w).ipa = s.ipa := by unfold State.setNZ; split <;> rfl
@[simp] theorem State.setNZ_ipb (s : State) (w : Word) : (s.setNZ w).ipb = s.ipb := by unfold State.setNZ; split <;> rfl
@[simp] theorem State.setNZ_q (s : State) (w : Word) : (s.setNZ w).q = s.q := by unfold State.setNZ; split <;> rfl
@[simp] theorem State.setNZ_tlb (s : State) (w : Word) : (s.setNZ w).tlb = s.tlb := by unfold State.setNZ; split <;> rfl
@[simp] theorem State.setNZ_idm (s : State) (w : Word) : (s.setNZ w).idm = s.idm := by unfold State.setNZ; split <;> rfl
@[simp] theorem State.setNZ_rom (s : State) (w : Word) : (s.setNZ w).rom = s.rom := by unfold State.setNZ; split <;> rfl
@[simp] theorem State.setNZ_inflight (s : State) (w : Word) : (s.setNZ w).inflight = s.inflight := by unfold State.setNZ; split <;> rfl
@[simp] theorem State.setNZ_derr (s : State) (w : Word) : (s.setNZ w).derr = s.derr := by unfold State.setNZ; split <;> rfl
@[simp] theorem State.setNZ_mode (s : State) (w : Word) : (s.setNZ w).mode = s.mode := by unfold State.setNZ; split <;> rfl
@[simp] theorem State.setNZ_pins (s : State) (w : Word) : (s.setNZ w).pins = s.pins := by unfold State.setNZ; split <;> rfl
@[simp] theorem State.setNZ_warnPending (s : State) (w : Word) : (s.setNZ w).warnPending = s.warnPending := by unfold State.setNZ; split <;> rfl
@[simp] theorem State.setNZ_ir (s : State) (w : Word) : (s.setNZ w).ir = s.ir := by unfold State.setNZ; split <;> rfl
@[simp] theorem State.setNZ_irValid (s : State) (w : Word) : (s.setNZ w).irValid = s.irValid := by unfold State.setNZ; split <;> rfl
@[simp] theorem State.setNZ_testing (s : State) (w : Word) : (s.setNZ w).testing = s.testing := by unfold State.setNZ; split <;> rfl
@[simp] theorem State.setNZ_invPending (s : State) (w : Word) : (s.setNZ w).invPending = s.invPending := by unfold State.setNZ; split <;> rfl
@[simp] theorem State.setNZ_cdInForce (s : State) (w : Word) : (s.setNZ w).cdInForce = s.cdInForce := by unfold State.setNZ; split <;> rfl
@[simp] theorem State.setNZ_block (s : State) (w : Word) : (s.setNZ w).block = s.block := by unfold State.setNZ; split <;> rfl
@[simp] theorem State.setNZ_turn (s : State) (w : Word) : (s.setNZ w).turn = s.turn := by unfold State.setNZ; split <;> rfl
@[simp] theorem State.setNZ_nextTurn (s : State) (w : Word) : (s.setNZ w).nextTurn = s.nextTurn := by unfold State.setNZ; split <;> rfl
@[simp] theorem State.setNZ_lastNonseq (s : State) (w : Word) : (s.setNZ w).lastNonseq = s.lastNonseq := by unfold State.setNZ; split <;> rfl
@[simp] theorem State.setNZ_cacheSince (s : State) (w : Word) : (s.setNZ w).cacheSince = s.cacheSince := by unfold State.setNZ; split <;> rfl
@[simp] theorem State.setNZ_cacheUndefined (s : State) (w : Word) : (s.setNZ w).cacheUndefined = s.cacheUndefined := by unfold State.setNZ; split <;> rfl
@[simp] theorem State.setNZ_oldWords (s : State) (w : Word) : (s.setNZ w).oldWords = s.oldWords := by unfold State.setNZ; split <;> rfl
@[simp] theorem State.setNZ_oldMaps (s : State) (w : Word) : (s.setNZ w).oldMaps = s.oldMaps := by unfold State.setNZ; split <;> rfl
@[simp] theorem State.setNZ_stream (s : State) (w : Word) : (s.setNZ w).stream = s.stream := by unfold State.setNZ; split <;> rfl
@[simp] theorem State.setNZ_afterMultiple (s : State) (w : Word) : (s.setNZ w).afterMultiple = s.afterMultiple := by unfold State.setNZ; split <;> rfl
@[simp] theorem State.setNZ_mlByMove (s : State) (w : Word) : (s.setNZ w).mlByMove = s.mlByMove := by unfold State.setNZ; split <;> rfl
@[simp] theorem State.setNZ_sys (s : State) (w : Word) : (s.setNZ w).sys = s.sys := by unfold State.setNZ; split <;> rfl
@[simp] theorem State.setNZ_clock (s : State) (w : Word) : (s.setNZ w).clock = s.clock := by unfold State.setNZ; split <;> rfl
@[simp] theorem State.setNZ_env (s : State) (w : Word) : (s.setNZ w).env = s.env := by unfold State.setNZ; split <;> rfl

@[simp] theorem State.setDivideFlag_gpr (s : State) (d : Bool) : (s.setDivideFlag d).gpr = s.gpr := by unfold State.setDivideFlag; split <;> rfl
@[simp] theorem State.setDivideFlag_gr1 (s : State) (d : Bool) : (s.setDivideFlag d).gr1 = s.gr1 := by unfold State.setDivideFlag; split <;> rfl
@[simp] theorem State.setDivideFlag_sps (s : State) (d : Bool) : (s.setDivideFlag d).sps = s.sps := by unfold State.setDivideFlag; split <;> rfl
@[simp] theorem State.setDivideFlag_pc (s : State) (d : Bool) : (s.setDivideFlag d).pc = s.pc := by unfold State.setDivideFlag; split <;> rfl
@[simp] theorem State.setDivideFlag_npc (s : State) (d : Bool) : (s.setDivideFlag d).npc = s.npc := by unfold State.setDivideFlag; split <;> rfl
@[simp] theorem State.setDivideFlag_ppc (s : State) (d : Bool) : (s.setDivideFlag d).ppc = s.ppc := by unfold State.setDivideFlag; split <;> rfl
@[simp] theorem State.setDivideFlag_vab (s : State) (d : Bool) : (s.setDivideFlag d).vab = s.vab := by unfold State.setDivideFlag; split <;> rfl
@[simp] theorem State.setDivideFlag_ops (s : State) (d : Bool) : (s.setDivideFlag d).ops = s.ops := by unfold State.setDivideFlag; split <;> rfl
@[simp] theorem State.setDivideFlag_cps (s : State) (d : Bool) : (s.setDivideFlag d).cps = s.cps := by unfold State.setDivideFlag; split <;> rfl
@[simp] theorem State.setDivideFlag_cfg (s : State) (d : Bool) : (s.setDivideFlag d).cfg = s.cfg := by unfold State.setDivideFlag; split <;> rfl
@[simp] theorem State.setDivideFlag_cha (s : State) (d : Bool) : (s.setDivideFlag d).cha = s.cha := by unfold State.setDivideFlag; split <;> rfl
@[simp] theorem State.setDivideFlag_chd (s : State) (d : Bool) : (s.setDivideFlag d).chd = s.chd := by unfold State.setDivideFlag; split <;> rfl
@[simp] theorem State.setDivideFlag_chc (s : State) (d : Bool) : (s.setDivideFlag d).chc = s.chc := by unfold State.setDivideFlag; split <;> rfl
@[simp] theorem State.setDivideFlag_rbp (s : State) (d : Bool) : (s.setDivideFlag d).rbp = s.rbp := by unfold State.setDivideFlag; split <;> rfl
@[simp] theorem State.setDivideFlag_tmc (s : State) (d : Bool) : (s.setDivideFlag d).tmc = s.tmc := by unfold State.setDivideFlag; split <;> rfl
@[simp] theorem State.setDivideFlag_tmr (s : State) (d : Bool) : (s.setDivideFlag d).tmr = s.tmr := by unfold State.setDivideFlag; split <;> rfl
@[simp] theorem State.setDivideFlag_pc0 (s : State) (d : Bool) : (s.setDivideFlag d).pc0 = s.pc0 := by unfold State.setDivideFlag; split <;> rfl
@[simp] theorem State.setDivideFlag_pc1 (s : State) (d : Bool) : (s.setDivideFlag d).pc1 = s.pc1 := by unfold State.setDivideFlag; split <;> rfl
@[simp] theorem State.setDivideFlag_pc2 (s : State) (d : Bool) : (s.setDivideFlag d).pc2 = s.pc2 := by unfold State.setDivideFlag; split <;> rfl
@[simp] theorem State.setDivideFlag_mmu (s : State) (d : Bool) : (s.setDivideFlag d).mmu = s.mmu := by unfold State.setDivideFlag; split <;> rfl
@[simp] theorem State.setDivideFlag_psTarget (s : State) (d : Bool) : (s.setDivideFlag d).psTarget = s.psTarget := by unfold State.setDivideFlag; split <;> rfl
@[simp] theorem State.setDivideFlag_psBefore (s : State) (d : Bool) : (s.setDivideFlag d).psBefore = s.psBefore := by unfold State.setDivideFlag; split <;> rfl
@[simp] theorem State.setDivideFlag_lru (s : State) (d : Bool) : (s.setDivideFlag d).lru = s.lru := by unfold State.setDivideFlag; split <;> rfl
@[simp] theorem State.setDivideFlag_ipc (s : State) (d : Bool) : (s.setDivideFlag d).ipc = s.ipc := by unfold State.setDivideFlag; split <;> rfl
@[simp] theorem State.setDivideFlag_ipa (s : State) (d : Bool) : (s.setDivideFlag d).ipa = s.ipa := by unfold State.setDivideFlag; split <;> rfl
@[simp] theorem State.setDivideFlag_ipb (s : State) (d : Bool) : (s.setDivideFlag d).ipb = s.ipb := by unfold State.setDivideFlag; split <;> rfl
@[simp] theorem State.setDivideFlag_q (s : State) (d : Bool) : (s.setDivideFlag d).q = s.q := by unfold State.setDivideFlag; split <;> rfl
@[simp] theorem State.setDivideFlag_tlb (s : State) (d : Bool) : (s.setDivideFlag d).tlb = s.tlb := by unfold State.setDivideFlag; split <;> rfl
@[simp] theorem State.setDivideFlag_idm (s : State) (d : Bool) : (s.setDivideFlag d).idm = s.idm := by unfold State.setDivideFlag; split <;> rfl
@[simp] theorem State.setDivideFlag_rom (s : State) (d : Bool) : (s.setDivideFlag d).rom = s.rom := by unfold State.setDivideFlag; split <;> rfl
@[simp] theorem State.setDivideFlag_inflight (s : State) (d : Bool) : (s.setDivideFlag d).inflight = s.inflight := by unfold State.setDivideFlag; split <;> rfl
@[simp] theorem State.setDivideFlag_derr (s : State) (d : Bool) : (s.setDivideFlag d).derr = s.derr := by unfold State.setDivideFlag; split <;> rfl
@[simp] theorem State.setDivideFlag_mode (s : State) (d : Bool) : (s.setDivideFlag d).mode = s.mode := by unfold State.setDivideFlag; split <;> rfl
@[simp] theorem State.setDivideFlag_pins (s : State) (d : Bool) : (s.setDivideFlag d).pins = s.pins := by unfold State.setDivideFlag; split <;> rfl
@[simp] theorem State.setDivideFlag_warnPending (s : State) (d : Bool) : (s.setDivideFlag d).warnPending = s.warnPending := by unfold State.setDivideFlag; split <;> rfl
@[simp] theorem State.setDivideFlag_ir (s : State) (d : Bool) : (s.setDivideFlag d).ir = s.ir := by unfold State.setDivideFlag; split <;> rfl
@[simp] theorem State.setDivideFlag_irValid (s : State) (d : Bool) : (s.setDivideFlag d).irValid = s.irValid := by unfold State.setDivideFlag; split <;> rfl
@[simp] theorem State.setDivideFlag_testing (s : State) (d : Bool) : (s.setDivideFlag d).testing = s.testing := by unfold State.setDivideFlag; split <;> rfl
@[simp] theorem State.setDivideFlag_invPending (s : State) (d : Bool) : (s.setDivideFlag d).invPending = s.invPending := by unfold State.setDivideFlag; split <;> rfl
@[simp] theorem State.setDivideFlag_cdInForce (s : State) (d : Bool) : (s.setDivideFlag d).cdInForce = s.cdInForce := by unfold State.setDivideFlag; split <;> rfl
@[simp] theorem State.setDivideFlag_block (s : State) (d : Bool) : (s.setDivideFlag d).block = s.block := by unfold State.setDivideFlag; split <;> rfl
@[simp] theorem State.setDivideFlag_turn (s : State) (d : Bool) : (s.setDivideFlag d).turn = s.turn := by unfold State.setDivideFlag; split <;> rfl
@[simp] theorem State.setDivideFlag_nextTurn (s : State) (d : Bool) : (s.setDivideFlag d).nextTurn = s.nextTurn := by unfold State.setDivideFlag; split <;> rfl
@[simp] theorem State.setDivideFlag_lastNonseq (s : State) (d : Bool) : (s.setDivideFlag d).lastNonseq = s.lastNonseq := by unfold State.setDivideFlag; split <;> rfl
@[simp] theorem State.setDivideFlag_cacheSince (s : State) (d : Bool) : (s.setDivideFlag d).cacheSince = s.cacheSince := by unfold State.setDivideFlag; split <;> rfl
@[simp] theorem State.setDivideFlag_cacheUndefined (s : State) (d : Bool) : (s.setDivideFlag d).cacheUndefined = s.cacheUndefined := by unfold State.setDivideFlag; split <;> rfl
@[simp] theorem State.setDivideFlag_oldWords (s : State) (d : Bool) : (s.setDivideFlag d).oldWords = s.oldWords := by unfold State.setDivideFlag; split <;> rfl
@[simp] theorem State.setDivideFlag_oldMaps (s : State) (d : Bool) : (s.setDivideFlag d).oldMaps = s.oldMaps := by unfold State.setDivideFlag; split <;> rfl
@[simp] theorem State.setDivideFlag_stream (s : State) (d : Bool) : (s.setDivideFlag d).stream = s.stream := by unfold State.setDivideFlag; split <;> rfl
@[simp] theorem State.setDivideFlag_afterMultiple (s : State) (d : Bool) : (s.setDivideFlag d).afterMultiple = s.afterMultiple := by unfold State.setDivideFlag; split <;> rfl
@[simp] theorem State.setDivideFlag_mlByMove (s : State) (d : Bool) : (s.setDivideFlag d).mlByMove = s.mlByMove := by unfold State.setDivideFlag; split <;> rfl
@[simp] theorem State.setDivideFlag_sys (s : State) (d : Bool) : (s.setDivideFlag d).sys = s.sys := by unfold State.setDivideFlag; split <;> rfl
@[simp] theorem State.setDivideFlag_clock (s : State) (d : Bool) : (s.setDivideFlag d).clock = s.clock := by unfold State.setDivideFlag; split <;> rfl
@[simp] theorem State.setDivideFlag_env (s : State) (d : Bool) : (s.setDivideFlag d).env = s.env := by unfold State.setDivideFlag; split <;> rfl

@[simp] theorem State.setBytePointer_gpr (s : State) (b : BitVec 2) : (s.setBytePointer b).gpr = s.gpr := by unfold State.setBytePointer; split <;> rfl
@[simp] theorem State.setBytePointer_gr1 (s : State) (b : BitVec 2) : (s.setBytePointer b).gr1 = s.gr1 := by unfold State.setBytePointer; split <;> rfl
@[simp] theorem State.setBytePointer_sps (s : State) (b : BitVec 2) : (s.setBytePointer b).sps = s.sps := by unfold State.setBytePointer; split <;> rfl
@[simp] theorem State.setBytePointer_pc (s : State) (b : BitVec 2) : (s.setBytePointer b).pc = s.pc := by unfold State.setBytePointer; split <;> rfl
@[simp] theorem State.setBytePointer_npc (s : State) (b : BitVec 2) : (s.setBytePointer b).npc = s.npc := by unfold State.setBytePointer; split <;> rfl
@[simp] theorem State.setBytePointer_ppc (s : State) (b : BitVec 2) : (s.setBytePointer b).ppc = s.ppc := by unfold State.setBytePointer; split <;> rfl
@[simp] theorem State.setBytePointer_vab (s : State) (b : BitVec 2) : (s.setBytePointer b).vab = s.vab := by unfold State.setBytePointer; split <;> rfl
@[simp] theorem State.setBytePointer_ops (s : State) (b : BitVec 2) : (s.setBytePointer b).ops = s.ops := by unfold State.setBytePointer; split <;> rfl
@[simp] theorem State.setBytePointer_cps (s : State) (b : BitVec 2) : (s.setBytePointer b).cps = s.cps := by unfold State.setBytePointer; split <;> rfl
@[simp] theorem State.setBytePointer_cfg (s : State) (b : BitVec 2) : (s.setBytePointer b).cfg = s.cfg := by unfold State.setBytePointer; split <;> rfl
@[simp] theorem State.setBytePointer_cha (s : State) (b : BitVec 2) : (s.setBytePointer b).cha = s.cha := by unfold State.setBytePointer; split <;> rfl
@[simp] theorem State.setBytePointer_chd (s : State) (b : BitVec 2) : (s.setBytePointer b).chd = s.chd := by unfold State.setBytePointer; split <;> rfl
@[simp] theorem State.setBytePointer_chc (s : State) (b : BitVec 2) : (s.setBytePointer b).chc = s.chc := by unfold State.setBytePointer; split <;> rfl
@[simp] theorem State.setBytePointer_rbp (s : State) (b : BitVec 2) : (s.setBytePointer b).rbp = s.rbp := by unfold State.setBytePointer; split <;> rfl
@[simp] theorem State.setBytePointer_tmc (s : State) (b : BitVec 2) : (s.setBytePointer b).tmc = s.tmc := by unfold State.setBytePointer; split <;> rfl
@[simp] theorem State.setBytePointer_tmr (s : State) (b : BitVec 2) : (s.setBytePointer b).tmr = s.tmr := by unfold State.setBytePointer; split <;> rfl
@[simp] theorem State.setBytePointer_pc0 (s : State) (b : BitVec 2) : (s.setBytePointer b).pc0 = s.pc0 := by unfold State.setBytePointer; split <;> rfl
@[simp] theorem State.setBytePointer_pc1 (s : State) (b : BitVec 2) : (s.setBytePointer b).pc1 = s.pc1 := by unfold State.setBytePointer; split <;> rfl
@[simp] theorem State.setBytePointer_pc2 (s : State) (b : BitVec 2) : (s.setBytePointer b).pc2 = s.pc2 := by unfold State.setBytePointer; split <;> rfl
@[simp] theorem State.setBytePointer_mmu (s : State) (b : BitVec 2) : (s.setBytePointer b).mmu = s.mmu := by unfold State.setBytePointer; split <;> rfl
@[simp] theorem State.setBytePointer_psTarget (s : State) (b : BitVec 2) : (s.setBytePointer b).psTarget = s.psTarget := by unfold State.setBytePointer; split <;> rfl
@[simp] theorem State.setBytePointer_psBefore (s : State) (b : BitVec 2) : (s.setBytePointer b).psBefore = s.psBefore := by unfold State.setBytePointer; split <;> rfl
@[simp] theorem State.setBytePointer_lru (s : State) (b : BitVec 2) : (s.setBytePointer b).lru = s.lru := by unfold State.setBytePointer; split <;> rfl
@[simp] theorem State.setBytePointer_ipc (s : State) (b : BitVec 2) : (s.setBytePointer b).ipc = s.ipc := by unfold State.setBytePointer; split <;> rfl
@[simp] theorem State.setBytePointer_ipa (s : State) (b : BitVec 2) : (s.setBytePointer b).ipa = s.ipa := by unfold State.setBytePointer; split <;> rfl
@[simp] theorem State.setBytePointer_ipb (s : State) (b : BitVec 2) : (s.setBytePointer b).ipb = s.ipb := by unfold State.setBytePointer; split <;> rfl
@[simp] theorem State.setBytePointer_q (s : State) (b : BitVec 2) : (s.setBytePointer b).q = s.q := by unfold State.setBytePointer; split <;> rfl
@[simp] theorem State.setBytePointer_tlb (s : State) (b : BitVec 2) : (s.setBytePointer b).tlb = s.tlb := by unfold State.setBytePointer; split <;> rfl
@[simp] theorem State.setBytePointer_idm (s : State) (b : BitVec 2) : (s.setBytePointer b).idm = s.idm := by unfold State.setBytePointer; split <;> rfl
@[simp] theorem State.setBytePointer_rom (s : State) (b : BitVec 2) : (s.setBytePointer b).rom = s.rom := by unfold State.setBytePointer; split <;> rfl
@[simp] theorem State.setBytePointer_inflight (s : State) (b : BitVec 2) : (s.setBytePointer b).inflight = s.inflight := by unfold State.setBytePointer; split <;> rfl
@[simp] theorem State.setBytePointer_derr (s : State) (b : BitVec 2) : (s.setBytePointer b).derr = s.derr := by unfold State.setBytePointer; split <;> rfl
@[simp] theorem State.setBytePointer_mode (s : State) (b : BitVec 2) : (s.setBytePointer b).mode = s.mode := by unfold State.setBytePointer; split <;> rfl
@[simp] theorem State.setBytePointer_pins (s : State) (b : BitVec 2) : (s.setBytePointer b).pins = s.pins := by unfold State.setBytePointer; split <;> rfl
@[simp] theorem State.setBytePointer_warnPending (s : State) (b : BitVec 2) : (s.setBytePointer b).warnPending = s.warnPending := by unfold State.setBytePointer; split <;> rfl
@[simp] theorem State.setBytePointer_ir (s : State) (b : BitVec 2) : (s.setBytePointer b).ir = s.ir := by unfold State.setBytePointer; split <;> rfl
@[simp] theorem State.setBytePointer_irValid (s : State) (b : BitVec 2) : (s.setBytePointer b).irValid = s.irValid := by unfold State.setBytePointer; split <;> rfl
@[simp] theorem State.setBytePointer_testing (s : State) (b : BitVec 2) : (s.setBytePointer b).testing = s.testing := by unfold State.setBytePointer; split <;> rfl
@[simp] theorem State.setBytePointer_invPending (s : State) (b : BitVec 2) : (s.setBytePointer b).invPending = s.invPending := by unfold State.setBytePointer; split <;> rfl
@[simp] theorem State.setBytePointer_cdInForce (s : State) (b : BitVec 2) : (s.setBytePointer b).cdInForce = s.cdInForce := by unfold State.setBytePointer; split <;> rfl
@[simp] theorem State.setBytePointer_block (s : State) (b : BitVec 2) : (s.setBytePointer b).block = s.block := by unfold State.setBytePointer; split <;> rfl
@[simp] theorem State.setBytePointer_turn (s : State) (b : BitVec 2) : (s.setBytePointer b).turn = s.turn := by unfold State.setBytePointer; split <;> rfl
@[simp] theorem State.setBytePointer_nextTurn (s : State) (b : BitVec 2) : (s.setBytePointer b).nextTurn = s.nextTurn := by unfold State.setBytePointer; split <;> rfl
@[simp] theorem State.setBytePointer_lastNonseq (s : State) (b : BitVec 2) : (s.setBytePointer b).lastNonseq = s.lastNonseq := by unfold State.setBytePointer; split <;> rfl
@[simp] theorem State.setBytePointer_cacheSince (s : State) (b : BitVec 2) : (s.setBytePointer b).cacheSince = s.cacheSince := by unfold State.setBytePointer; split <;> rfl
@[simp] theorem State.setBytePointer_cacheUndefined (s : State) (b : BitVec 2) : (s.setBytePointer b).cacheUndefined = s.cacheUndefined := by unfold State.setBytePointer; split <;> rfl
@[simp] theorem State.setBytePointer_oldWords (s : State) (b : BitVec 2) : (s.setBytePointer b).oldWords = s.oldWords := by unfold State.setBytePointer; split <;> rfl
@[simp] theorem State.setBytePointer_oldMaps (s : State) (b : BitVec 2) : (s.setBytePointer b).oldMaps = s.oldMaps := by unfold State.setBytePointer; split <;> rfl
@[simp] theorem State.setBytePointer_stream (s : State) (b : BitVec 2) : (s.setBytePointer b).stream = s.stream := by unfold State.setBytePointer; split <;> rfl
@[simp] theorem State.setBytePointer_afterMultiple (s : State) (b : BitVec 2) : (s.setBytePointer b).afterMultiple = s.afterMultiple := by unfold State.setBytePointer; split <;> rfl
@[simp] theorem State.setBytePointer_mlByMove (s : State) (b : BitVec 2) : (s.setBytePointer b).mlByMove = s.mlByMove := by unfold State.setBytePointer; split <;> rfl
@[simp] theorem State.setBytePointer_sys (s : State) (b : BitVec 2) : (s.setBytePointer b).sys = s.sys := by unfold State.setBytePointer; split <;> rfl
@[simp] theorem State.setBytePointer_clock (s : State) (b : BitVec 2) : (s.setBytePointer b).clock = s.clock := by unfold State.setBytePointer; split <;> rfl
@[simp] theorem State.setBytePointer_env (s : State) (b : BitVec 2) : (s.setBytePointer b).env = s.env := by unfold State.setBytePointer; split <;> rfl

@[simp] theorem State.setPointers_gpr (s : State) (a b c : RegNum) : (s.setPointers a b c).gpr = s.gpr := rfl
@[simp] theorem State.setPointers_gr1 (s : State) (a b c : RegNum) : (s.setPointers a b c).gr1 = s.gr1 := rfl
@[simp] theorem State.setPointers_sps (s : State) (a b c : RegNum) : (s.setPointers a b c).sps = s.sps := rfl
@[simp] theorem State.setPointers_pc (s : State) (a b c : RegNum) : (s.setPointers a b c).pc = s.pc := rfl
@[simp] theorem State.setPointers_npc (s : State) (a b c : RegNum) : (s.setPointers a b c).npc = s.npc := rfl
@[simp] theorem State.setPointers_ppc (s : State) (a b c : RegNum) : (s.setPointers a b c).ppc = s.ppc := rfl
@[simp] theorem State.setPointers_vab (s : State) (a b c : RegNum) : (s.setPointers a b c).vab = s.vab := rfl
@[simp] theorem State.setPointers_ops (s : State) (a b c : RegNum) : (s.setPointers a b c).ops = s.ops := rfl
@[simp] theorem State.setPointers_cps (s : State) (a b c : RegNum) : (s.setPointers a b c).cps = s.cps := rfl
@[simp] theorem State.setPointers_cfg (s : State) (a b c : RegNum) : (s.setPointers a b c).cfg = s.cfg := rfl
@[simp] theorem State.setPointers_cha (s : State) (a b c : RegNum) : (s.setPointers a b c).cha = s.cha := rfl
@[simp] theorem State.setPointers_chd (s : State) (a b c : RegNum) : (s.setPointers a b c).chd = s.chd := rfl
@[simp] theorem State.setPointers_chc (s : State) (a b c : RegNum) : (s.setPointers a b c).chc = s.chc := rfl
@[simp] theorem State.setPointers_rbp (s : State) (a b c : RegNum) : (s.setPointers a b c).rbp = s.rbp := rfl
@[simp] theorem State.setPointers_tmc (s : State) (a b c : RegNum) : (s.setPointers a b c).tmc = s.tmc := rfl
@[simp] theorem State.setPointers_tmr (s : State) (a b c : RegNum) : (s.setPointers a b c).tmr = s.tmr := rfl
@[simp] theorem State.setPointers_pc0 (s : State) (a b c : RegNum) : (s.setPointers a b c).pc0 = s.pc0 := rfl
@[simp] theorem State.setPointers_pc1 (s : State) (a b c : RegNum) : (s.setPointers a b c).pc1 = s.pc1 := rfl
@[simp] theorem State.setPointers_pc2 (s : State) (a b c : RegNum) : (s.setPointers a b c).pc2 = s.pc2 := rfl
@[simp] theorem State.setPointers_mmu (s : State) (a b c : RegNum) : (s.setPointers a b c).mmu = s.mmu := rfl
@[simp] theorem State.setPointers_psTarget (s : State) (a b c : RegNum) : (s.setPointers a b c).psTarget = s.psTarget := rfl
@[simp] theorem State.setPointers_psBefore (s : State) (a b c : RegNum) : (s.setPointers a b c).psBefore = s.psBefore := rfl
@[simp] theorem State.setPointers_lru (s : State) (a b c : RegNum) : (s.setPointers a b c).lru = s.lru := rfl
@[simp] theorem State.setPointers_q (s : State) (a b c : RegNum) : (s.setPointers a b c).q = s.q := rfl
@[simp] theorem State.setPointers_alu (s : State) (a b c : RegNum) : (s.setPointers a b c).alu = s.alu := rfl
@[simp] theorem State.setPointers_tlb (s : State) (a b c : RegNum) : (s.setPointers a b c).tlb = s.tlb := rfl
@[simp] theorem State.setPointers_idm (s : State) (a b c : RegNum) : (s.setPointers a b c).idm = s.idm := rfl
@[simp] theorem State.setPointers_rom (s : State) (a b c : RegNum) : (s.setPointers a b c).rom = s.rom := rfl
@[simp] theorem State.setPointers_inflight (s : State) (a b c : RegNum) : (s.setPointers a b c).inflight = s.inflight := rfl
@[simp] theorem State.setPointers_derr (s : State) (a b c : RegNum) : (s.setPointers a b c).derr = s.derr := rfl
@[simp] theorem State.setPointers_mode (s : State) (a b c : RegNum) : (s.setPointers a b c).mode = s.mode := rfl
@[simp] theorem State.setPointers_pins (s : State) (a b c : RegNum) : (s.setPointers a b c).pins = s.pins := rfl
@[simp] theorem State.setPointers_warnPending (s : State) (a b c : RegNum) : (s.setPointers a b c).warnPending = s.warnPending := rfl
@[simp] theorem State.setPointers_ir (s : State) (a b c : RegNum) : (s.setPointers a b c).ir = s.ir := rfl
@[simp] theorem State.setPointers_irValid (s : State) (a b c : RegNum) : (s.setPointers a b c).irValid = s.irValid := rfl
@[simp] theorem State.setPointers_testing (s : State) (a b c : RegNum) : (s.setPointers a b c).testing = s.testing := rfl
@[simp] theorem State.setPointers_invPending (s : State) (a b c : RegNum) : (s.setPointers a b c).invPending = s.invPending := rfl
@[simp] theorem State.setPointers_cdInForce (s : State) (a b c : RegNum) : (s.setPointers a b c).cdInForce = s.cdInForce := rfl
@[simp] theorem State.setPointers_block (s : State) (a b c : RegNum) : (s.setPointers a b c).block = s.block := rfl
@[simp] theorem State.setPointers_turn (s : State) (a b c : RegNum) : (s.setPointers a b c).turn = s.turn := rfl
@[simp] theorem State.setPointers_nextTurn (s : State) (a b c : RegNum) : (s.setPointers a b c).nextTurn = s.nextTurn := rfl
@[simp] theorem State.setPointers_lastNonseq (s : State) (a b c : RegNum) : (s.setPointers a b c).lastNonseq = s.lastNonseq := rfl
@[simp] theorem State.setPointers_cacheSince (s : State) (a b c : RegNum) : (s.setPointers a b c).cacheSince = s.cacheSince := rfl
@[simp] theorem State.setPointers_cacheUndefined (s : State) (a b c : RegNum) : (s.setPointers a b c).cacheUndefined = s.cacheUndefined := rfl
@[simp] theorem State.setPointers_oldWords (s : State) (a b c : RegNum) : (s.setPointers a b c).oldWords = s.oldWords := rfl
@[simp] theorem State.setPointers_oldMaps (s : State) (a b c : RegNum) : (s.setPointers a b c).oldMaps = s.oldMaps := rfl
@[simp] theorem State.setPointers_stream (s : State) (a b c : RegNum) : (s.setPointers a b c).stream = s.stream := rfl
@[simp] theorem State.setPointers_afterMultiple (s : State) (a b c : RegNum) : (s.setPointers a b c).afterMultiple = s.afterMultiple := rfl
@[simp] theorem State.setPointers_mlByMove (s : State) (a b c : RegNum) : (s.setPointers a b c).mlByMove = s.mlByMove := rfl
@[simp] theorem State.setPointers_sys (s : State) (a b c : RegNum) : (s.setPointers a b c).sys = s.sys := rfl
@[simp] theorem State.setPointers_clock (s : State) (a b c : RegNum) : (s.setPointers a b c).clock = s.clock := rfl
@[simp] theorem State.setPointers_env (s : State) (a b c : RegNum) : (s.setPointers a b c).env = s.env := rfl

@[simp] theorem State.ageEffects_gpr (s : State) : (s.ageEffects).gpr = s.gpr := rfl
@[simp] theorem State.ageEffects_gr1 (s : State) : (s.ageEffects).gr1 = s.gr1 := rfl
@[simp] theorem State.ageEffects_pc (s : State) : (s.ageEffects).pc = s.pc := rfl
@[simp] theorem State.ageEffects_npc (s : State) : (s.ageEffects).npc = s.npc := rfl
@[simp] theorem State.ageEffects_ppc (s : State) : (s.ageEffects).ppc = s.ppc := rfl
@[simp] theorem State.ageEffects_vab (s : State) : (s.ageEffects).vab = s.vab := rfl
@[simp] theorem State.ageEffects_ops (s : State) : (s.ageEffects).ops = s.ops := rfl
@[simp] theorem State.ageEffects_cps (s : State) : (s.ageEffects).cps = s.cps := rfl
@[simp] theorem State.ageEffects_cfg (s : State) : (s.ageEffects).cfg = s.cfg := rfl
@[simp] theorem State.ageEffects_cha (s : State) : (s.ageEffects).cha = s.cha := rfl
@[simp] theorem State.ageEffects_chd (s : State) : (s.ageEffects).chd = s.chd := rfl
@[simp] theorem State.ageEffects_chc (s : State) : (s.ageEffects).chc = s.chc := rfl
@[simp] theorem State.ageEffects_rbp (s : State) : (s.ageEffects).rbp = s.rbp := rfl
@[simp] theorem State.ageEffects_tmc (s : State) : (s.ageEffects).tmc = s.tmc := rfl
@[simp] theorem State.ageEffects_tmr (s : State) : (s.ageEffects).tmr = s.tmr := rfl
@[simp] theorem State.ageEffects_pc0 (s : State) : (s.ageEffects).pc0 = s.pc0 := rfl
@[simp] theorem State.ageEffects_pc1 (s : State) : (s.ageEffects).pc1 = s.pc1 := rfl
@[simp] theorem State.ageEffects_pc2 (s : State) : (s.ageEffects).pc2 = s.pc2 := rfl
@[simp] theorem State.ageEffects_psBefore (s : State) : (s.ageEffects).psBefore = s.psBefore := rfl
@[simp] theorem State.ageEffects_lru (s : State) : (s.ageEffects).lru = s.lru := rfl
@[simp] theorem State.ageEffects_q (s : State) : (s.ageEffects).q = s.q := rfl
@[simp] theorem State.ageEffects_alu (s : State) : (s.ageEffects).alu = s.alu := rfl
@[simp] theorem State.ageEffects_tlb (s : State) : (s.ageEffects).tlb = s.tlb := rfl
@[simp] theorem State.ageEffects_idm (s : State) : (s.ageEffects).idm = s.idm := rfl
@[simp] theorem State.ageEffects_rom (s : State) : (s.ageEffects).rom = s.rom := rfl
@[simp] theorem State.ageEffects_inflight (s : State) : (s.ageEffects).inflight = s.inflight := rfl
@[simp] theorem State.ageEffects_derr (s : State) : (s.ageEffects).derr = s.derr := rfl
@[simp] theorem State.ageEffects_mode (s : State) : (s.ageEffects).mode = s.mode := rfl
@[simp] theorem State.ageEffects_pins (s : State) : (s.ageEffects).pins = s.pins := rfl
@[simp] theorem State.ageEffects_warnPending (s : State) : (s.ageEffects).warnPending = s.warnPending := rfl
@[simp] theorem State.ageEffects_ir (s : State) : (s.ageEffects).ir = s.ir := rfl
@[simp] theorem State.ageEffects_irValid (s : State) : (s.ageEffects).irValid = s.irValid := rfl
@[simp] theorem State.ageEffects_testing (s : State) : (s.ageEffects).testing = s.testing := rfl
@[simp] theorem State.ageEffects_invPending (s : State) : (s.ageEffects).invPending = s.invPending := rfl
@[simp] theorem State.ageEffects_cdInForce (s : State) : (s.ageEffects).cdInForce = s.cdInForce := rfl
@[simp] theorem State.ageEffects_block (s : State) : (s.ageEffects).block = s.block := rfl
@[simp] theorem State.ageEffects_turn (s : State) : (s.ageEffects).turn = s.turn := rfl
@[simp] theorem State.ageEffects_nextTurn (s : State) : (s.ageEffects).nextTurn = s.nextTurn := rfl
@[simp] theorem State.ageEffects_lastNonseq (s : State) : (s.ageEffects).lastNonseq = s.lastNonseq := rfl
@[simp] theorem State.ageEffects_cacheSince (s : State) : (s.ageEffects).cacheSince = s.cacheSince := rfl
@[simp] theorem State.ageEffects_cacheUndefined (s : State) : (s.ageEffects).cacheUndefined = s.cacheUndefined := rfl
@[simp] theorem State.ageEffects_oldWords (s : State) : (s.ageEffects).oldWords = s.oldWords := rfl
@[simp] theorem State.ageEffects_oldMaps (s : State) : (s.ageEffects).oldMaps = s.oldMaps := rfl
@[simp] theorem State.ageEffects_stream (s : State) : (s.ageEffects).stream = s.stream := rfl
@[simp] theorem State.ageEffects_afterMultiple (s : State) : (s.ageEffects).afterMultiple = s.afterMultiple := rfl
@[simp] theorem State.ageEffects_mlByMove (s : State) : (s.ageEffects).mlByMove = s.mlByMove := rfl
@[simp] theorem State.ageEffects_sys (s : State) : (s.ageEffects).sys = s.sys := rfl
@[simp] theorem State.ageEffects_clock (s : State) : (s.ageEffects).clock = s.clock := rfl
@[simp] theorem State.ageEffects_env (s : State) : (s.ageEffects).env = s.env := rfl

@[simp] theorem State.settleEffects_gpr (s : State) : (s.settleEffects).gpr = s.gpr := rfl
@[simp] theorem State.settleEffects_gr1 (s : State) : (s.settleEffects).gr1 = s.gr1 := rfl
@[simp] theorem State.settleEffects_pc (s : State) : (s.settleEffects).pc = s.pc := rfl
@[simp] theorem State.settleEffects_npc (s : State) : (s.settleEffects).npc = s.npc := rfl
@[simp] theorem State.settleEffects_ppc (s : State) : (s.settleEffects).ppc = s.ppc := rfl
@[simp] theorem State.settleEffects_vab (s : State) : (s.settleEffects).vab = s.vab := rfl
@[simp] theorem State.settleEffects_ops (s : State) : (s.settleEffects).ops = s.ops := rfl
@[simp] theorem State.settleEffects_cps (s : State) : (s.settleEffects).cps = s.cps := rfl
@[simp] theorem State.settleEffects_cfg (s : State) : (s.settleEffects).cfg = s.cfg := rfl
@[simp] theorem State.settleEffects_cha (s : State) : (s.settleEffects).cha = s.cha := rfl
@[simp] theorem State.settleEffects_chd (s : State) : (s.settleEffects).chd = s.chd := rfl
@[simp] theorem State.settleEffects_chc (s : State) : (s.settleEffects).chc = s.chc := rfl
@[simp] theorem State.settleEffects_rbp (s : State) : (s.settleEffects).rbp = s.rbp := rfl
@[simp] theorem State.settleEffects_tmc (s : State) : (s.settleEffects).tmc = s.tmc := rfl
@[simp] theorem State.settleEffects_tmr (s : State) : (s.settleEffects).tmr = s.tmr := rfl
@[simp] theorem State.settleEffects_pc0 (s : State) : (s.settleEffects).pc0 = s.pc0 := rfl
@[simp] theorem State.settleEffects_pc1 (s : State) : (s.settleEffects).pc1 = s.pc1 := rfl
@[simp] theorem State.settleEffects_pc2 (s : State) : (s.settleEffects).pc2 = s.pc2 := rfl
@[simp] theorem State.settleEffects_psBefore (s : State) : (s.settleEffects).psBefore = s.psBefore := rfl
@[simp] theorem State.settleEffects_lru (s : State) : (s.settleEffects).lru = s.lru := rfl
@[simp] theorem State.settleEffects_q (s : State) : (s.settleEffects).q = s.q := rfl
@[simp] theorem State.settleEffects_alu (s : State) : (s.settleEffects).alu = s.alu := rfl
@[simp] theorem State.settleEffects_tlb (s : State) : (s.settleEffects).tlb = s.tlb := rfl
@[simp] theorem State.settleEffects_idm (s : State) : (s.settleEffects).idm = s.idm := rfl
@[simp] theorem State.settleEffects_rom (s : State) : (s.settleEffects).rom = s.rom := rfl
@[simp] theorem State.settleEffects_inflight (s : State) : (s.settleEffects).inflight = s.inflight := rfl
@[simp] theorem State.settleEffects_derr (s : State) : (s.settleEffects).derr = s.derr := rfl
@[simp] theorem State.settleEffects_mode (s : State) : (s.settleEffects).mode = s.mode := rfl
@[simp] theorem State.settleEffects_pins (s : State) : (s.settleEffects).pins = s.pins := rfl
@[simp] theorem State.settleEffects_warnPending (s : State) : (s.settleEffects).warnPending = s.warnPending := rfl
@[simp] theorem State.settleEffects_ir (s : State) : (s.settleEffects).ir = s.ir := rfl
@[simp] theorem State.settleEffects_irValid (s : State) : (s.settleEffects).irValid = s.irValid := rfl
@[simp] theorem State.settleEffects_testing (s : State) : (s.settleEffects).testing = s.testing := rfl
@[simp] theorem State.settleEffects_invPending (s : State) : (s.settleEffects).invPending = s.invPending := rfl
@[simp] theorem State.settleEffects_cdInForce (s : State) : (s.settleEffects).cdInForce = s.cdInForce := rfl
@[simp] theorem State.settleEffects_block (s : State) : (s.settleEffects).block = s.block := rfl
@[simp] theorem State.settleEffects_turn (s : State) : (s.settleEffects).turn = s.turn := rfl
@[simp] theorem State.settleEffects_nextTurn (s : State) : (s.settleEffects).nextTurn = s.nextTurn := rfl
@[simp] theorem State.settleEffects_lastNonseq (s : State) : (s.settleEffects).lastNonseq = s.lastNonseq := rfl
@[simp] theorem State.settleEffects_cacheSince (s : State) : (s.settleEffects).cacheSince = s.cacheSince := rfl
@[simp] theorem State.settleEffects_cacheUndefined (s : State) : (s.settleEffects).cacheUndefined = s.cacheUndefined := rfl
@[simp] theorem State.settleEffects_oldWords (s : State) : (s.settleEffects).oldWords = s.oldWords := rfl
@[simp] theorem State.settleEffects_oldMaps (s : State) : (s.settleEffects).oldMaps = s.oldMaps := rfl
@[simp] theorem State.settleEffects_stream (s : State) : (s.settleEffects).stream = s.stream := rfl
@[simp] theorem State.settleEffects_afterMultiple (s : State) : (s.settleEffects).afterMultiple = s.afterMultiple := rfl
@[simp] theorem State.settleEffects_mlByMove (s : State) : (s.settleEffects).mlByMove = s.mlByMove := rfl
@[simp] theorem State.settleEffects_sys (s : State) : (s.settleEffects).sys = s.sys := rfl
@[simp] theorem State.settleEffects_clock (s : State) : (s.settleEffects).clock = s.clock := rfl
@[simp] theorem State.settleEffects_env (s : State) : (s.settleEffects).env = s.env := rfl

@[simp] theorem State.traceCopy_gpr (s : State) : (s.traceCopy).gpr = s.gpr := rfl
@[simp] theorem State.traceCopy_gr1 (s : State) : (s.traceCopy).gr1 = s.gr1 := rfl
@[simp] theorem State.traceCopy_sps (s : State) : (s.traceCopy).sps = s.sps := rfl
@[simp] theorem State.traceCopy_pc (s : State) : (s.traceCopy).pc = s.pc := rfl
@[simp] theorem State.traceCopy_npc (s : State) : (s.traceCopy).npc = s.npc := rfl
@[simp] theorem State.traceCopy_ppc (s : State) : (s.traceCopy).ppc = s.ppc := rfl
@[simp] theorem State.traceCopy_vab (s : State) : (s.traceCopy).vab = s.vab := rfl
@[simp] theorem State.traceCopy_ops (s : State) : (s.traceCopy).ops = s.ops := rfl
@[simp] theorem State.traceCopy_cfg (s : State) : (s.traceCopy).cfg = s.cfg := rfl
@[simp] theorem State.traceCopy_cha (s : State) : (s.traceCopy).cha = s.cha := rfl
@[simp] theorem State.traceCopy_chd (s : State) : (s.traceCopy).chd = s.chd := rfl
@[simp] theorem State.traceCopy_chc (s : State) : (s.traceCopy).chc = s.chc := rfl
@[simp] theorem State.traceCopy_rbp (s : State) : (s.traceCopy).rbp = s.rbp := rfl
@[simp] theorem State.traceCopy_tmc (s : State) : (s.traceCopy).tmc = s.tmc := rfl
@[simp] theorem State.traceCopy_tmr (s : State) : (s.traceCopy).tmr = s.tmr := rfl
@[simp] theorem State.traceCopy_pc0 (s : State) : (s.traceCopy).pc0 = s.pc0 := rfl
@[simp] theorem State.traceCopy_pc1 (s : State) : (s.traceCopy).pc1 = s.pc1 := rfl
@[simp] theorem State.traceCopy_pc2 (s : State) : (s.traceCopy).pc2 = s.pc2 := rfl
@[simp] theorem State.traceCopy_mmu (s : State) : (s.traceCopy).mmu = s.mmu := rfl
@[simp] theorem State.traceCopy_psTarget (s : State) : (s.traceCopy).psTarget = s.psTarget := rfl
@[simp] theorem State.traceCopy_psBefore (s : State) : (s.traceCopy).psBefore = s.psBefore := rfl
@[simp] theorem State.traceCopy_lru (s : State) : (s.traceCopy).lru = s.lru := rfl
@[simp] theorem State.traceCopy_ipc (s : State) : (s.traceCopy).ipc = s.ipc := rfl
@[simp] theorem State.traceCopy_ipa (s : State) : (s.traceCopy).ipa = s.ipa := rfl
@[simp] theorem State.traceCopy_ipb (s : State) : (s.traceCopy).ipb = s.ipb := rfl
@[simp] theorem State.traceCopy_q (s : State) : (s.traceCopy).q = s.q := rfl
@[simp] theorem State.traceCopy_alu (s : State) : (s.traceCopy).alu = s.alu := rfl
@[simp] theorem State.traceCopy_tlb (s : State) : (s.traceCopy).tlb = s.tlb := rfl
@[simp] theorem State.traceCopy_idm (s : State) : (s.traceCopy).idm = s.idm := rfl
@[simp] theorem State.traceCopy_rom (s : State) : (s.traceCopy).rom = s.rom := rfl
@[simp] theorem State.traceCopy_inflight (s : State) : (s.traceCopy).inflight = s.inflight := rfl
@[simp] theorem State.traceCopy_derr (s : State) : (s.traceCopy).derr = s.derr := rfl
@[simp] theorem State.traceCopy_mode (s : State) : (s.traceCopy).mode = s.mode := rfl
@[simp] theorem State.traceCopy_pins (s : State) : (s.traceCopy).pins = s.pins := rfl
@[simp] theorem State.traceCopy_warnPending (s : State) : (s.traceCopy).warnPending = s.warnPending := rfl
@[simp] theorem State.traceCopy_ir (s : State) : (s.traceCopy).ir = s.ir := rfl
@[simp] theorem State.traceCopy_irValid (s : State) : (s.traceCopy).irValid = s.irValid := rfl
@[simp] theorem State.traceCopy_testing (s : State) : (s.traceCopy).testing = s.testing := rfl
@[simp] theorem State.traceCopy_invPending (s : State) : (s.traceCopy).invPending = s.invPending := rfl
@[simp] theorem State.traceCopy_cdInForce (s : State) : (s.traceCopy).cdInForce = s.cdInForce := rfl
@[simp] theorem State.traceCopy_block (s : State) : (s.traceCopy).block = s.block := rfl
@[simp] theorem State.traceCopy_turn (s : State) : (s.traceCopy).turn = s.turn := rfl
@[simp] theorem State.traceCopy_nextTurn (s : State) : (s.traceCopy).nextTurn = s.nextTurn := rfl
@[simp] theorem State.traceCopy_lastNonseq (s : State) : (s.traceCopy).lastNonseq = s.lastNonseq := rfl
@[simp] theorem State.traceCopy_cacheSince (s : State) : (s.traceCopy).cacheSince = s.cacheSince := rfl
@[simp] theorem State.traceCopy_cacheUndefined (s : State) : (s.traceCopy).cacheUndefined = s.cacheUndefined := rfl
@[simp] theorem State.traceCopy_oldWords (s : State) : (s.traceCopy).oldWords = s.oldWords := rfl
@[simp] theorem State.traceCopy_oldMaps (s : State) : (s.traceCopy).oldMaps = s.oldMaps := rfl
@[simp] theorem State.traceCopy_stream (s : State) : (s.traceCopy).stream = s.stream := rfl
@[simp] theorem State.traceCopy_afterMultiple (s : State) : (s.traceCopy).afterMultiple = s.afterMultiple := rfl
@[simp] theorem State.traceCopy_mlByMove (s : State) : (s.traceCopy).mlByMove = s.mlByMove := rfl
@[simp] theorem State.traceCopy_sys (s : State) : (s.traceCopy).sys = s.sys := rfl
@[simp] theorem State.traceCopy_clock (s : State) : (s.traceCopy).clock = s.clock := rfl
@[simp] theorem State.traceCopy_env (s : State) : (s.traceCopy).env = s.env := rfl

@[simp] theorem State.traceKeep_gpr (s : State) : (s.traceKeep).gpr = s.gpr := rfl
@[simp] theorem State.traceKeep_gr1 (s : State) : (s.traceKeep).gr1 = s.gr1 := rfl
@[simp] theorem State.traceKeep_sps (s : State) : (s.traceKeep).sps = s.sps := rfl
@[simp] theorem State.traceKeep_pc (s : State) : (s.traceKeep).pc = s.pc := rfl
@[simp] theorem State.traceKeep_npc (s : State) : (s.traceKeep).npc = s.npc := rfl
@[simp] theorem State.traceKeep_ppc (s : State) : (s.traceKeep).ppc = s.ppc := rfl
@[simp] theorem State.traceKeep_vab (s : State) : (s.traceKeep).vab = s.vab := rfl
@[simp] theorem State.traceKeep_ops (s : State) : (s.traceKeep).ops = s.ops := rfl
@[simp] theorem State.traceKeep_cfg (s : State) : (s.traceKeep).cfg = s.cfg := rfl
@[simp] theorem State.traceKeep_cha (s : State) : (s.traceKeep).cha = s.cha := rfl
@[simp] theorem State.traceKeep_chd (s : State) : (s.traceKeep).chd = s.chd := rfl
@[simp] theorem State.traceKeep_chc (s : State) : (s.traceKeep).chc = s.chc := rfl
@[simp] theorem State.traceKeep_rbp (s : State) : (s.traceKeep).rbp = s.rbp := rfl
@[simp] theorem State.traceKeep_tmc (s : State) : (s.traceKeep).tmc = s.tmc := rfl
@[simp] theorem State.traceKeep_tmr (s : State) : (s.traceKeep).tmr = s.tmr := rfl
@[simp] theorem State.traceKeep_pc0 (s : State) : (s.traceKeep).pc0 = s.pc0 := rfl
@[simp] theorem State.traceKeep_pc1 (s : State) : (s.traceKeep).pc1 = s.pc1 := rfl
@[simp] theorem State.traceKeep_pc2 (s : State) : (s.traceKeep).pc2 = s.pc2 := rfl
@[simp] theorem State.traceKeep_mmu (s : State) : (s.traceKeep).mmu = s.mmu := rfl
@[simp] theorem State.traceKeep_psTarget (s : State) : (s.traceKeep).psTarget = s.psTarget := rfl
@[simp] theorem State.traceKeep_psBefore (s : State) : (s.traceKeep).psBefore = s.psBefore := rfl
@[simp] theorem State.traceKeep_lru (s : State) : (s.traceKeep).lru = s.lru := rfl
@[simp] theorem State.traceKeep_ipc (s : State) : (s.traceKeep).ipc = s.ipc := rfl
@[simp] theorem State.traceKeep_ipa (s : State) : (s.traceKeep).ipa = s.ipa := rfl
@[simp] theorem State.traceKeep_ipb (s : State) : (s.traceKeep).ipb = s.ipb := rfl
@[simp] theorem State.traceKeep_q (s : State) : (s.traceKeep).q = s.q := rfl
@[simp] theorem State.traceKeep_alu (s : State) : (s.traceKeep).alu = s.alu := rfl
@[simp] theorem State.traceKeep_tlb (s : State) : (s.traceKeep).tlb = s.tlb := rfl
@[simp] theorem State.traceKeep_idm (s : State) : (s.traceKeep).idm = s.idm := rfl
@[simp] theorem State.traceKeep_rom (s : State) : (s.traceKeep).rom = s.rom := rfl
@[simp] theorem State.traceKeep_inflight (s : State) : (s.traceKeep).inflight = s.inflight := rfl
@[simp] theorem State.traceKeep_derr (s : State) : (s.traceKeep).derr = s.derr := rfl
@[simp] theorem State.traceKeep_mode (s : State) : (s.traceKeep).mode = s.mode := rfl
@[simp] theorem State.traceKeep_pins (s : State) : (s.traceKeep).pins = s.pins := rfl
@[simp] theorem State.traceKeep_warnPending (s : State) : (s.traceKeep).warnPending = s.warnPending := rfl
@[simp] theorem State.traceKeep_ir (s : State) : (s.traceKeep).ir = s.ir := rfl
@[simp] theorem State.traceKeep_irValid (s : State) : (s.traceKeep).irValid = s.irValid := rfl
@[simp] theorem State.traceKeep_testing (s : State) : (s.traceKeep).testing = s.testing := rfl
@[simp] theorem State.traceKeep_invPending (s : State) : (s.traceKeep).invPending = s.invPending := rfl
@[simp] theorem State.traceKeep_cdInForce (s : State) : (s.traceKeep).cdInForce = s.cdInForce := rfl
@[simp] theorem State.traceKeep_block (s : State) : (s.traceKeep).block = s.block := rfl
@[simp] theorem State.traceKeep_turn (s : State) : (s.traceKeep).turn = s.turn := rfl
@[simp] theorem State.traceKeep_nextTurn (s : State) : (s.traceKeep).nextTurn = s.nextTurn := rfl
@[simp] theorem State.traceKeep_lastNonseq (s : State) : (s.traceKeep).lastNonseq = s.lastNonseq := rfl
@[simp] theorem State.traceKeep_cacheSince (s : State) : (s.traceKeep).cacheSince = s.cacheSince := rfl
@[simp] theorem State.traceKeep_cacheUndefined (s : State) : (s.traceKeep).cacheUndefined = s.cacheUndefined := rfl
@[simp] theorem State.traceKeep_oldWords (s : State) : (s.traceKeep).oldWords = s.oldWords := rfl
@[simp] theorem State.traceKeep_oldMaps (s : State) : (s.traceKeep).oldMaps = s.oldMaps := rfl
@[simp] theorem State.traceKeep_stream (s : State) : (s.traceKeep).stream = s.stream := rfl
@[simp] theorem State.traceKeep_afterMultiple (s : State) : (s.traceKeep).afterMultiple = s.afterMultiple := rfl
@[simp] theorem State.traceKeep_mlByMove (s : State) : (s.traceKeep).mlByMove = s.mlByMove := rfl
@[simp] theorem State.traceKeep_sys (s : State) : (s.traceKeep).sys = s.sys := rfl
@[simp] theorem State.traceKeep_clock (s : State) : (s.traceKeep).clock = s.clock := rfl
@[simp] theorem State.traceKeep_env (s : State) : (s.traceKeep).env = s.env := rfl

@[simp] theorem State.advanceTo_gpr (s : State) (t : IAddr) (u : Option Nat) : (s.advanceTo t u).gpr = s.gpr := by unfold State.advanceTo; split <;> rfl
@[simp] theorem State.advanceTo_gr1 (s : State) (t : IAddr) (u : Option Nat) : (s.advanceTo t u).gr1 = s.gr1 := by unfold State.advanceTo; split <;> rfl
@[simp] theorem State.advanceTo_sps (s : State) (t : IAddr) (u : Option Nat) : (s.advanceTo t u).sps = s.sps := by unfold State.advanceTo; split <;> rfl
@[simp] theorem State.advanceTo_vab (s : State) (t : IAddr) (u : Option Nat) : (s.advanceTo t u).vab = s.vab := by unfold State.advanceTo; split <;> rfl
@[simp] theorem State.advanceTo_ops (s : State) (t : IAddr) (u : Option Nat) : (s.advanceTo t u).ops = s.ops := by unfold State.advanceTo; split <;> rfl
@[simp] theorem State.advanceTo_cps (s : State) (t : IAddr) (u : Option Nat) : (s.advanceTo t u).cps = s.cps := by unfold State.advanceTo; split <;> rfl
@[simp] theorem State.advanceTo_cfg (s : State) (t : IAddr) (u : Option Nat) : (s.advanceTo t u).cfg = s.cfg := by unfold State.advanceTo; split <;> rfl
@[simp] theorem State.advanceTo_cha (s : State) (t : IAddr) (u : Option Nat) : (s.advanceTo t u).cha = s.cha := by unfold State.advanceTo; split <;> rfl
@[simp] theorem State.advanceTo_chd (s : State) (t : IAddr) (u : Option Nat) : (s.advanceTo t u).chd = s.chd := by unfold State.advanceTo; split <;> rfl
@[simp] theorem State.advanceTo_chc (s : State) (t : IAddr) (u : Option Nat) : (s.advanceTo t u).chc = s.chc := by unfold State.advanceTo; split <;> rfl
@[simp] theorem State.advanceTo_rbp (s : State) (t : IAddr) (u : Option Nat) : (s.advanceTo t u).rbp = s.rbp := by unfold State.advanceTo; split <;> rfl
@[simp] theorem State.advanceTo_tmc (s : State) (t : IAddr) (u : Option Nat) : (s.advanceTo t u).tmc = s.tmc := by unfold State.advanceTo; split <;> rfl
@[simp] theorem State.advanceTo_tmr (s : State) (t : IAddr) (u : Option Nat) : (s.advanceTo t u).tmr = s.tmr := by unfold State.advanceTo; split <;> rfl
@[simp] theorem State.advanceTo_pc0 (s : State) (t : IAddr) (u : Option Nat) : (s.advanceTo t u).pc0 = s.pc0 := by unfold State.advanceTo; split <;> rfl
@[simp] theorem State.advanceTo_pc1 (s : State) (t : IAddr) (u : Option Nat) : (s.advanceTo t u).pc1 = s.pc1 := by unfold State.advanceTo; split <;> rfl
@[simp] theorem State.advanceTo_pc2 (s : State) (t : IAddr) (u : Option Nat) : (s.advanceTo t u).pc2 = s.pc2 := by unfold State.advanceTo; split <;> rfl
@[simp] theorem State.advanceTo_mmu (s : State) (t : IAddr) (u : Option Nat) : (s.advanceTo t u).mmu = s.mmu := by unfold State.advanceTo; split <;> rfl
@[simp] theorem State.advanceTo_psTarget (s : State) (t : IAddr) (u : Option Nat) : (s.advanceTo t u).psTarget = s.psTarget := by unfold State.advanceTo; split <;> rfl
@[simp] theorem State.advanceTo_psBefore (s : State) (t : IAddr) (u : Option Nat) : (s.advanceTo t u).psBefore = s.psBefore := by unfold State.advanceTo; split <;> rfl
@[simp] theorem State.advanceTo_lru (s : State) (t : IAddr) (u : Option Nat) : (s.advanceTo t u).lru = s.lru := by unfold State.advanceTo; split <;> rfl
@[simp] theorem State.advanceTo_ipc (s : State) (t : IAddr) (u : Option Nat) : (s.advanceTo t u).ipc = s.ipc := by unfold State.advanceTo; split <;> rfl
@[simp] theorem State.advanceTo_ipa (s : State) (t : IAddr) (u : Option Nat) : (s.advanceTo t u).ipa = s.ipa := by unfold State.advanceTo; split <;> rfl
@[simp] theorem State.advanceTo_ipb (s : State) (t : IAddr) (u : Option Nat) : (s.advanceTo t u).ipb = s.ipb := by unfold State.advanceTo; split <;> rfl
@[simp] theorem State.advanceTo_q (s : State) (t : IAddr) (u : Option Nat) : (s.advanceTo t u).q = s.q := by unfold State.advanceTo; split <;> rfl
@[simp] theorem State.advanceTo_alu (s : State) (t : IAddr) (u : Option Nat) : (s.advanceTo t u).alu = s.alu := by unfold State.advanceTo; split <;> rfl
@[simp] theorem State.advanceTo_tlb (s : State) (t : IAddr) (u : Option Nat) : (s.advanceTo t u).tlb = s.tlb := by unfold State.advanceTo; split <;> rfl
@[simp] theorem State.advanceTo_idm (s : State) (t : IAddr) (u : Option Nat) : (s.advanceTo t u).idm = s.idm := by unfold State.advanceTo; split <;> rfl
@[simp] theorem State.advanceTo_rom (s : State) (t : IAddr) (u : Option Nat) : (s.advanceTo t u).rom = s.rom := by unfold State.advanceTo; split <;> rfl
@[simp] theorem State.advanceTo_inflight (s : State) (t : IAddr) (u : Option Nat) : (s.advanceTo t u).inflight = s.inflight := by unfold State.advanceTo; split <;> rfl
@[simp] theorem State.advanceTo_derr (s : State) (t : IAddr) (u : Option Nat) : (s.advanceTo t u).derr = s.derr := by unfold State.advanceTo; split <;> rfl
@[simp] theorem State.advanceTo_mode (s : State) (t : IAddr) (u : Option Nat) : (s.advanceTo t u).mode = s.mode := by unfold State.advanceTo; split <;> rfl
@[simp] theorem State.advanceTo_pins (s : State) (t : IAddr) (u : Option Nat) : (s.advanceTo t u).pins = s.pins := by unfold State.advanceTo; split <;> rfl
@[simp] theorem State.advanceTo_warnPending (s : State) (t : IAddr) (u : Option Nat) : (s.advanceTo t u).warnPending = s.warnPending := by unfold State.advanceTo; split <;> rfl
@[simp] theorem State.advanceTo_ir (s : State) (t : IAddr) (u : Option Nat) : (s.advanceTo t u).ir = s.ir := by unfold State.advanceTo; split <;> rfl
@[simp] theorem State.advanceTo_irValid (s : State) (t : IAddr) (u : Option Nat) : (s.advanceTo t u).irValid = s.irValid := by unfold State.advanceTo; split <;> rfl
@[simp] theorem State.advanceTo_testing (s : State) (t : IAddr) (u : Option Nat) : (s.advanceTo t u).testing = s.testing := by unfold State.advanceTo; split <;> rfl
@[simp] theorem State.advanceTo_invPending (s : State) (t : IAddr) (u : Option Nat) : (s.advanceTo t u).invPending = s.invPending := by unfold State.advanceTo; split <;> rfl
@[simp] theorem State.advanceTo_cdInForce (s : State) (t : IAddr) (u : Option Nat) : (s.advanceTo t u).cdInForce = s.cdInForce := by unfold State.advanceTo; split <;> rfl
@[simp] theorem State.advanceTo_block (s : State) (t : IAddr) (u : Option Nat) : (s.advanceTo t u).block = s.block := by unfold State.advanceTo; split <;> rfl
@[simp] theorem State.advanceTo_lastNonseq (s : State) (t : IAddr) (u : Option Nat) : (s.advanceTo t u).lastNonseq = s.lastNonseq := by unfold State.advanceTo; split <;> rfl
@[simp] theorem State.advanceTo_cacheSince (s : State) (t : IAddr) (u : Option Nat) : (s.advanceTo t u).cacheSince = s.cacheSince := by unfold State.advanceTo; split <;> rfl
@[simp] theorem State.advanceTo_cacheUndefined (s : State) (t : IAddr) (u : Option Nat) : (s.advanceTo t u).cacheUndefined = s.cacheUndefined := by unfold State.advanceTo; split <;> rfl
@[simp] theorem State.advanceTo_oldWords (s : State) (t : IAddr) (u : Option Nat) : (s.advanceTo t u).oldWords = s.oldWords := by unfold State.advanceTo; split <;> rfl
@[simp] theorem State.advanceTo_oldMaps (s : State) (t : IAddr) (u : Option Nat) : (s.advanceTo t u).oldMaps = s.oldMaps := by unfold State.advanceTo; split <;> rfl
@[simp] theorem State.advanceTo_stream (s : State) (t : IAddr) (u : Option Nat) : (s.advanceTo t u).stream = s.stream := by unfold State.advanceTo; split <;> rfl
@[simp] theorem State.advanceTo_afterMultiple (s : State) (t : IAddr) (u : Option Nat) : (s.advanceTo t u).afterMultiple = s.afterMultiple := by unfold State.advanceTo; split <;> rfl
@[simp] theorem State.advanceTo_mlByMove (s : State) (t : IAddr) (u : Option Nat) : (s.advanceTo t u).mlByMove = s.mlByMove := by unfold State.advanceTo; split <;> rfl
@[simp] theorem State.advanceTo_sys (s : State) (t : IAddr) (u : Option Nat) : (s.advanceTo t u).sys = s.sys := by unfold State.advanceTo; split <;> rfl
@[simp] theorem State.advanceTo_clock (s : State) (t : IAddr) (u : Option Nat) : (s.advanceTo t u).clock = s.clock := by unfold State.advanceTo; split <;> rfl
@[simp] theorem State.advanceTo_env (s : State) (t : IAddr) (u : Option Nat) : (s.advanceTo t u).env = s.env := by unfold State.advanceTo; split <;> rfl

@[simp] theorem State.advance_gpr (s : State) : (s.advance).gpr = s.gpr := by simp [State.advance]
@[simp] theorem State.advance_gr1 (s : State) : (s.advance).gr1 = s.gr1 := by simp [State.advance]
@[simp] theorem State.advance_vab (s : State) : (s.advance).vab = s.vab := by simp [State.advance]
@[simp] theorem State.advance_ops (s : State) : (s.advance).ops = s.ops := by simp [State.advance]
@[simp] theorem State.advance_cps (s : State) : (s.advance).cps = s.cps := by simp [State.advance]
@[simp] theorem State.advance_cfg (s : State) : (s.advance).cfg = s.cfg := by simp [State.advance]
@[simp] theorem State.advance_cha (s : State) : (s.advance).cha = s.cha := by simp [State.advance]
@[simp] theorem State.advance_chd (s : State) : (s.advance).chd = s.chd := by simp [State.advance]
@[simp] theorem State.advance_chc (s : State) : (s.advance).chc = s.chc := by simp [State.advance]
@[simp] theorem State.advance_rbp (s : State) : (s.advance).rbp = s.rbp := by simp [State.advance]
@[simp] theorem State.advance_tmc (s : State) : (s.advance).tmc = s.tmc := by simp [State.advance]
@[simp] theorem State.advance_tmr (s : State) : (s.advance).tmr = s.tmr := by simp [State.advance]
@[simp] theorem State.advance_pc0 (s : State) : (s.advance).pc0 = s.pc0 := by simp [State.advance]
@[simp] theorem State.advance_pc1 (s : State) : (s.advance).pc1 = s.pc1 := by simp [State.advance]
@[simp] theorem State.advance_pc2 (s : State) : (s.advance).pc2 = s.pc2 := by simp [State.advance]
@[simp] theorem State.advance_psBefore (s : State) : (s.advance).psBefore = s.psBefore := by simp [State.advance]
@[simp] theorem State.advance_lru (s : State) : (s.advance).lru = s.lru := by simp [State.advance]
@[simp] theorem State.advance_q (s : State) : (s.advance).q = s.q := by simp [State.advance]
@[simp] theorem State.advance_alu (s : State) : (s.advance).alu = s.alu := by simp [State.advance]
@[simp] theorem State.advance_tlb (s : State) : (s.advance).tlb = s.tlb := by simp [State.advance]
@[simp] theorem State.advance_idm (s : State) : (s.advance).idm = s.idm := by simp [State.advance]
@[simp] theorem State.advance_rom (s : State) : (s.advance).rom = s.rom := by simp [State.advance]
@[simp] theorem State.advance_inflight (s : State) : (s.advance).inflight = s.inflight := by simp [State.advance]
@[simp] theorem State.advance_derr (s : State) : (s.advance).derr = s.derr := by simp [State.advance]
@[simp] theorem State.advance_mode (s : State) : (s.advance).mode = s.mode := by simp [State.advance]
@[simp] theorem State.advance_pins (s : State) : (s.advance).pins = s.pins := by simp [State.advance]
@[simp] theorem State.advance_warnPending (s : State) : (s.advance).warnPending = s.warnPending := by simp [State.advance]
@[simp] theorem State.advance_ir (s : State) : (s.advance).ir = s.ir := by simp [State.advance]
@[simp] theorem State.advance_irValid (s : State) : (s.advance).irValid = s.irValid := by simp [State.advance]
@[simp] theorem State.advance_testing (s : State) : (s.advance).testing = s.testing := by simp [State.advance]
@[simp] theorem State.advance_invPending (s : State) : (s.advance).invPending = s.invPending := by simp [State.advance]
@[simp] theorem State.advance_cdInForce (s : State) : (s.advance).cdInForce = s.cdInForce := by simp [State.advance]
@[simp] theorem State.advance_block (s : State) : (s.advance).block = s.block := by simp [State.advance]
@[simp] theorem State.advance_lastNonseq (s : State) : (s.advance).lastNonseq = s.lastNonseq := by simp [State.advance]
@[simp] theorem State.advance_cacheSince (s : State) : (s.advance).cacheSince = s.cacheSince := by simp [State.advance]
@[simp] theorem State.advance_cacheUndefined (s : State) : (s.advance).cacheUndefined = s.cacheUndefined := by simp [State.advance]
@[simp] theorem State.advance_oldWords (s : State) : (s.advance).oldWords = s.oldWords := by simp [State.advance]
@[simp] theorem State.advance_oldMaps (s : State) : (s.advance).oldMaps = s.oldMaps := by simp [State.advance]
@[simp] theorem State.advance_stream (s : State) : (s.advance).stream = s.stream := by simp [State.advance]
@[simp] theorem State.advance_mlByMove (s : State) : (s.advance).mlByMove = s.mlByMove := by simp [State.advance]
@[simp] theorem State.advance_sys (s : State) : (s.advance).sys = s.sys := by simp [State.advance]
@[simp] theorem State.advance_clock (s : State) : (s.advance).clock = s.clock := by simp [State.advance]
@[simp] theorem State.advance_env (s : State) : (s.advance).env = s.env := by simp [State.advance]

@[simp] theorem State.retire_gpr (s : State) : (s.retire).gpr = s.gpr := by simp [State.retire]
@[simp] theorem State.retire_gr1 (s : State) : (s.retire).gr1 = s.gr1 := by simp [State.retire]
@[simp] theorem State.retire_vab (s : State) : (s.retire).vab = s.vab := by simp [State.retire]
@[simp] theorem State.retire_ops (s : State) : (s.retire).ops = s.ops := by simp [State.retire]
@[simp] theorem State.retire_cfg (s : State) : (s.retire).cfg = s.cfg := by simp [State.retire]
@[simp] theorem State.retire_cha (s : State) : (s.retire).cha = s.cha := by simp [State.retire]
@[simp] theorem State.retire_chd (s : State) : (s.retire).chd = s.chd := by simp [State.retire]
@[simp] theorem State.retire_chc (s : State) : (s.retire).chc = s.chc := by simp [State.retire]
@[simp] theorem State.retire_rbp (s : State) : (s.retire).rbp = s.rbp := by simp [State.retire]
@[simp] theorem State.retire_tmc (s : State) : (s.retire).tmc = s.tmc := by simp [State.retire]
@[simp] theorem State.retire_tmr (s : State) : (s.retire).tmr = s.tmr := by simp [State.retire]
@[simp] theorem State.retire_pc0 (s : State) : (s.retire).pc0 = s.pc0 := by simp [State.retire]
@[simp] theorem State.retire_pc1 (s : State) : (s.retire).pc1 = s.pc1 := by simp [State.retire]
@[simp] theorem State.retire_pc2 (s : State) : (s.retire).pc2 = s.pc2 := by simp [State.retire]
@[simp] theorem State.retire_psBefore (s : State) : (s.retire).psBefore = s.psBefore := by simp [State.retire]
@[simp] theorem State.retire_lru (s : State) : (s.retire).lru = s.lru := by simp [State.retire]
@[simp] theorem State.retire_q (s : State) : (s.retire).q = s.q := by simp [State.retire]
@[simp] theorem State.retire_alu (s : State) : (s.retire).alu = s.alu := by simp [State.retire]
@[simp] theorem State.retire_tlb (s : State) : (s.retire).tlb = s.tlb := by simp [State.retire]
@[simp] theorem State.retire_idm (s : State) : (s.retire).idm = s.idm := by simp [State.retire]
@[simp] theorem State.retire_rom (s : State) : (s.retire).rom = s.rom := by simp [State.retire]
@[simp] theorem State.retire_inflight (s : State) : (s.retire).inflight = s.inflight := by simp [State.retire]
@[simp] theorem State.retire_derr (s : State) : (s.retire).derr = s.derr := by simp [State.retire]
@[simp] theorem State.retire_mode (s : State) : (s.retire).mode = s.mode := by simp [State.retire]
@[simp] theorem State.retire_pins (s : State) : (s.retire).pins = s.pins := by simp [State.retire]
@[simp] theorem State.retire_warnPending (s : State) : (s.retire).warnPending = s.warnPending := by simp [State.retire]
@[simp] theorem State.retire_ir (s : State) : (s.retire).ir = s.ir := by simp [State.retire]
@[simp] theorem State.retire_irValid (s : State) : (s.retire).irValid = s.irValid := by simp [State.retire]
@[simp] theorem State.retire_testing (s : State) : (s.retire).testing = s.testing := by simp [State.retire]
@[simp] theorem State.retire_invPending (s : State) : (s.retire).invPending = s.invPending := by simp [State.retire]
@[simp] theorem State.retire_cdInForce (s : State) : (s.retire).cdInForce = s.cdInForce := by simp [State.retire]
@[simp] theorem State.retire_block (s : State) : (s.retire).block = s.block := by simp [State.retire]
@[simp] theorem State.retire_lastNonseq (s : State) : (s.retire).lastNonseq = s.lastNonseq := by simp [State.retire]
@[simp] theorem State.retire_cacheSince (s : State) : (s.retire).cacheSince = s.cacheSince := by simp [State.retire]
@[simp] theorem State.retire_cacheUndefined (s : State) : (s.retire).cacheUndefined = s.cacheUndefined := by simp [State.retire]
@[simp] theorem State.retire_oldWords (s : State) : (s.retire).oldWords = s.oldWords := by simp [State.retire]
@[simp] theorem State.retire_oldMaps (s : State) : (s.retire).oldMaps = s.oldMaps := by simp [State.retire]
@[simp] theorem State.retire_stream (s : State) : (s.retire).stream = s.stream := by simp [State.retire]
@[simp] theorem State.retire_mlByMove (s : State) : (s.retire).mlByMove = s.mlByMove := by simp [State.retire]
@[simp] theorem State.retire_sys (s : State) : (s.retire).sys = s.sys := by simp [State.retire]
@[simp] theorem State.retire_clock (s : State) : (s.retire).clock = s.clock := by simp [State.retire]
@[simp] theorem State.retire_env (s : State) : (s.retire).env = s.env := by simp [State.retire]

@[simp] theorem State.capturePcs_gpr (s : State) : (s.capturePcs).gpr = s.gpr := rfl
@[simp] theorem State.capturePcs_gr1 (s : State) : (s.capturePcs).gr1 = s.gr1 := rfl
@[simp] theorem State.capturePcs_sps (s : State) : (s.capturePcs).sps = s.sps := rfl
@[simp] theorem State.capturePcs_pc (s : State) : (s.capturePcs).pc = s.pc := rfl
@[simp] theorem State.capturePcs_npc (s : State) : (s.capturePcs).npc = s.npc := rfl
@[simp] theorem State.capturePcs_ppc (s : State) : (s.capturePcs).ppc = s.ppc := rfl
@[simp] theorem State.capturePcs_vab (s : State) : (s.capturePcs).vab = s.vab := rfl
@[simp] theorem State.capturePcs_ops (s : State) : (s.capturePcs).ops = s.ops := rfl
@[simp] theorem State.capturePcs_cps (s : State) : (s.capturePcs).cps = s.cps := rfl
@[simp] theorem State.capturePcs_cfg (s : State) : (s.capturePcs).cfg = s.cfg := rfl
@[simp] theorem State.capturePcs_cha (s : State) : (s.capturePcs).cha = s.cha := rfl
@[simp] theorem State.capturePcs_chd (s : State) : (s.capturePcs).chd = s.chd := rfl
@[simp] theorem State.capturePcs_chc (s : State) : (s.capturePcs).chc = s.chc := rfl
@[simp] theorem State.capturePcs_rbp (s : State) : (s.capturePcs).rbp = s.rbp := rfl
@[simp] theorem State.capturePcs_tmc (s : State) : (s.capturePcs).tmc = s.tmc := rfl
@[simp] theorem State.capturePcs_tmr (s : State) : (s.capturePcs).tmr = s.tmr := rfl
@[simp] theorem State.capturePcs_mmu (s : State) : (s.capturePcs).mmu = s.mmu := rfl
@[simp] theorem State.capturePcs_psTarget (s : State) : (s.capturePcs).psTarget = s.psTarget := rfl
@[simp] theorem State.capturePcs_psBefore (s : State) : (s.capturePcs).psBefore = s.psBefore := rfl
@[simp] theorem State.capturePcs_lru (s : State) : (s.capturePcs).lru = s.lru := rfl
@[simp] theorem State.capturePcs_ipc (s : State) : (s.capturePcs).ipc = s.ipc := rfl
@[simp] theorem State.capturePcs_ipa (s : State) : (s.capturePcs).ipa = s.ipa := rfl
@[simp] theorem State.capturePcs_ipb (s : State) : (s.capturePcs).ipb = s.ipb := rfl
@[simp] theorem State.capturePcs_q (s : State) : (s.capturePcs).q = s.q := rfl
@[simp] theorem State.capturePcs_alu (s : State) : (s.capturePcs).alu = s.alu := rfl
@[simp] theorem State.capturePcs_tlb (s : State) : (s.capturePcs).tlb = s.tlb := rfl
@[simp] theorem State.capturePcs_idm (s : State) : (s.capturePcs).idm = s.idm := rfl
@[simp] theorem State.capturePcs_rom (s : State) : (s.capturePcs).rom = s.rom := rfl
@[simp] theorem State.capturePcs_inflight (s : State) : (s.capturePcs).inflight = s.inflight := rfl
@[simp] theorem State.capturePcs_derr (s : State) : (s.capturePcs).derr = s.derr := rfl
@[simp] theorem State.capturePcs_mode (s : State) : (s.capturePcs).mode = s.mode := rfl
@[simp] theorem State.capturePcs_pins (s : State) : (s.capturePcs).pins = s.pins := rfl
@[simp] theorem State.capturePcs_warnPending (s : State) : (s.capturePcs).warnPending = s.warnPending := rfl
@[simp] theorem State.capturePcs_ir (s : State) : (s.capturePcs).ir = s.ir := rfl
@[simp] theorem State.capturePcs_irValid (s : State) : (s.capturePcs).irValid = s.irValid := rfl
@[simp] theorem State.capturePcs_testing (s : State) : (s.capturePcs).testing = s.testing := rfl
@[simp] theorem State.capturePcs_invPending (s : State) : (s.capturePcs).invPending = s.invPending := rfl
@[simp] theorem State.capturePcs_cdInForce (s : State) : (s.capturePcs).cdInForce = s.cdInForce := rfl
@[simp] theorem State.capturePcs_block (s : State) : (s.capturePcs).block = s.block := rfl
@[simp] theorem State.capturePcs_turn (s : State) : (s.capturePcs).turn = s.turn := rfl
@[simp] theorem State.capturePcs_nextTurn (s : State) : (s.capturePcs).nextTurn = s.nextTurn := rfl
@[simp] theorem State.capturePcs_lastNonseq (s : State) : (s.capturePcs).lastNonseq = s.lastNonseq := rfl
@[simp] theorem State.capturePcs_cacheSince (s : State) : (s.capturePcs).cacheSince = s.cacheSince := rfl
@[simp] theorem State.capturePcs_cacheUndefined (s : State) : (s.capturePcs).cacheUndefined = s.cacheUndefined := rfl
@[simp] theorem State.capturePcs_oldWords (s : State) : (s.capturePcs).oldWords = s.oldWords := rfl
@[simp] theorem State.capturePcs_oldMaps (s : State) : (s.capturePcs).oldMaps = s.oldMaps := rfl
@[simp] theorem State.capturePcs_stream (s : State) : (s.capturePcs).stream = s.stream := rfl
@[simp] theorem State.capturePcs_afterMultiple (s : State) : (s.capturePcs).afterMultiple = s.afterMultiple := rfl
@[simp] theorem State.capturePcs_mlByMove (s : State) : (s.capturePcs).mlByMove = s.mlByMove := rfl
@[simp] theorem State.capturePcs_sys (s : State) : (s.capturePcs).sys = s.sys := rfl
@[simp] theorem State.capturePcs_clock (s : State) : (s.capturePcs).clock = s.clock := rfl
@[simp] theorem State.capturePcs_env (s : State) : (s.capturePcs).env = s.env := rfl

@[simp] theorem State.rememberMap_gpr (s : State) : (s.rememberMap).gpr = s.gpr := rfl
@[simp] theorem State.rememberMap_gr1 (s : State) : (s.rememberMap).gr1 = s.gr1 := rfl
@[simp] theorem State.rememberMap_sps (s : State) : (s.rememberMap).sps = s.sps := rfl
@[simp] theorem State.rememberMap_pc (s : State) : (s.rememberMap).pc = s.pc := rfl
@[simp] theorem State.rememberMap_npc (s : State) : (s.rememberMap).npc = s.npc := rfl
@[simp] theorem State.rememberMap_ppc (s : State) : (s.rememberMap).ppc = s.ppc := rfl
@[simp] theorem State.rememberMap_vab (s : State) : (s.rememberMap).vab = s.vab := rfl
@[simp] theorem State.rememberMap_ops (s : State) : (s.rememberMap).ops = s.ops := rfl
@[simp] theorem State.rememberMap_cps (s : State) : (s.rememberMap).cps = s.cps := rfl
@[simp] theorem State.rememberMap_cfg (s : State) : (s.rememberMap).cfg = s.cfg := rfl
@[simp] theorem State.rememberMap_cha (s : State) : (s.rememberMap).cha = s.cha := rfl
@[simp] theorem State.rememberMap_chd (s : State) : (s.rememberMap).chd = s.chd := rfl
@[simp] theorem State.rememberMap_chc (s : State) : (s.rememberMap).chc = s.chc := rfl
@[simp] theorem State.rememberMap_rbp (s : State) : (s.rememberMap).rbp = s.rbp := rfl
@[simp] theorem State.rememberMap_tmc (s : State) : (s.rememberMap).tmc = s.tmc := rfl
@[simp] theorem State.rememberMap_tmr (s : State) : (s.rememberMap).tmr = s.tmr := rfl
@[simp] theorem State.rememberMap_pc0 (s : State) : (s.rememberMap).pc0 = s.pc0 := rfl
@[simp] theorem State.rememberMap_pc1 (s : State) : (s.rememberMap).pc1 = s.pc1 := rfl
@[simp] theorem State.rememberMap_pc2 (s : State) : (s.rememberMap).pc2 = s.pc2 := rfl
@[simp] theorem State.rememberMap_mmu (s : State) : (s.rememberMap).mmu = s.mmu := rfl
@[simp] theorem State.rememberMap_psTarget (s : State) : (s.rememberMap).psTarget = s.psTarget := rfl
@[simp] theorem State.rememberMap_psBefore (s : State) : (s.rememberMap).psBefore = s.psBefore := rfl
@[simp] theorem State.rememberMap_lru (s : State) : (s.rememberMap).lru = s.lru := rfl
@[simp] theorem State.rememberMap_ipc (s : State) : (s.rememberMap).ipc = s.ipc := rfl
@[simp] theorem State.rememberMap_ipa (s : State) : (s.rememberMap).ipa = s.ipa := rfl
@[simp] theorem State.rememberMap_ipb (s : State) : (s.rememberMap).ipb = s.ipb := rfl
@[simp] theorem State.rememberMap_q (s : State) : (s.rememberMap).q = s.q := rfl
@[simp] theorem State.rememberMap_alu (s : State) : (s.rememberMap).alu = s.alu := rfl
@[simp] theorem State.rememberMap_tlb (s : State) : (s.rememberMap).tlb = s.tlb := rfl
@[simp] theorem State.rememberMap_idm (s : State) : (s.rememberMap).idm = s.idm := rfl
@[simp] theorem State.rememberMap_rom (s : State) : (s.rememberMap).rom = s.rom := rfl
@[simp] theorem State.rememberMap_inflight (s : State) : (s.rememberMap).inflight = s.inflight := rfl
@[simp] theorem State.rememberMap_derr (s : State) : (s.rememberMap).derr = s.derr := rfl
@[simp] theorem State.rememberMap_mode (s : State) : (s.rememberMap).mode = s.mode := rfl
@[simp] theorem State.rememberMap_pins (s : State) : (s.rememberMap).pins = s.pins := rfl
@[simp] theorem State.rememberMap_warnPending (s : State) : (s.rememberMap).warnPending = s.warnPending := rfl
@[simp] theorem State.rememberMap_ir (s : State) : (s.rememberMap).ir = s.ir := rfl
@[simp] theorem State.rememberMap_irValid (s : State) : (s.rememberMap).irValid = s.irValid := rfl
@[simp] theorem State.rememberMap_testing (s : State) : (s.rememberMap).testing = s.testing := rfl
@[simp] theorem State.rememberMap_invPending (s : State) : (s.rememberMap).invPending = s.invPending := rfl
@[simp] theorem State.rememberMap_cdInForce (s : State) : (s.rememberMap).cdInForce = s.cdInForce := rfl
@[simp] theorem State.rememberMap_block (s : State) : (s.rememberMap).block = s.block := rfl
@[simp] theorem State.rememberMap_turn (s : State) : (s.rememberMap).turn = s.turn := rfl
@[simp] theorem State.rememberMap_nextTurn (s : State) : (s.rememberMap).nextTurn = s.nextTurn := rfl
@[simp] theorem State.rememberMap_lastNonseq (s : State) : (s.rememberMap).lastNonseq = s.lastNonseq := rfl
@[simp] theorem State.rememberMap_cacheSince (s : State) : (s.rememberMap).cacheSince = s.cacheSince := rfl
@[simp] theorem State.rememberMap_cacheUndefined (s : State) : (s.rememberMap).cacheUndefined = s.cacheUndefined := rfl
@[simp] theorem State.rememberMap_oldWords (s : State) : (s.rememberMap).oldWords = s.oldWords := rfl
@[simp] theorem State.rememberMap_stream (s : State) : (s.rememberMap).stream = s.stream := rfl
@[simp] theorem State.rememberMap_afterMultiple (s : State) : (s.rememberMap).afterMultiple = s.afterMultiple := rfl
@[simp] theorem State.rememberMap_mlByMove (s : State) : (s.rememberMap).mlByMove = s.mlByMove := rfl
@[simp] theorem State.rememberMap_sys (s : State) : (s.rememberMap).sys = s.sys := rfl
@[simp] theorem State.rememberMap_clock (s : State) : (s.rememberMap).clock = s.clock := rfl
@[simp] theorem State.rememberMap_env (s : State) : (s.rememberMap).env = s.env := rfl

@[simp] theorem State.setCps_gpr (s : State) (c : Word) : (s.setCps c).gpr = s.gpr := by unfold State.setCps; dsimp only; split <;> rfl
@[simp] theorem State.setCps_gr1 (s : State) (c : Word) : (s.setCps c).gr1 = s.gr1 := by unfold State.setCps; dsimp only; split <;> rfl
@[simp] theorem State.setCps_sps (s : State) (c : Word) : (s.setCps c).sps = s.sps := by unfold State.setCps; dsimp only; split <;> rfl
@[simp] theorem State.setCps_pc (s : State) (c : Word) : (s.setCps c).pc = s.pc := by unfold State.setCps; dsimp only; split <;> rfl
@[simp] theorem State.setCps_npc (s : State) (c : Word) : (s.setCps c).npc = s.npc := by unfold State.setCps; dsimp only; split <;> rfl
@[simp] theorem State.setCps_ppc (s : State) (c : Word) : (s.setCps c).ppc = s.ppc := by unfold State.setCps; dsimp only; split <;> rfl
@[simp] theorem State.setCps_vab (s : State) (c : Word) : (s.setCps c).vab = s.vab := by unfold State.setCps; dsimp only; split <;> rfl
@[simp] theorem State.setCps_ops (s : State) (c : Word) : (s.setCps c).ops = s.ops := by unfold State.setCps; dsimp only; split <;> rfl
@[simp] theorem State.setCps_cfg (s : State) (c : Word) : (s.setCps c).cfg = s.cfg := by unfold State.setCps; dsimp only; split <;> rfl
@[simp] theorem State.setCps_cha (s : State) (c : Word) : (s.setCps c).cha = s.cha := by unfold State.setCps; dsimp only; split <;> rfl
@[simp] theorem State.setCps_chd (s : State) (c : Word) : (s.setCps c).chd = s.chd := by unfold State.setCps; dsimp only; split <;> rfl
@[simp] theorem State.setCps_chc (s : State) (c : Word) : (s.setCps c).chc = s.chc := by unfold State.setCps; dsimp only; split <;> rfl
@[simp] theorem State.setCps_rbp (s : State) (c : Word) : (s.setCps c).rbp = s.rbp := by unfold State.setCps; dsimp only; split <;> rfl
@[simp] theorem State.setCps_tmc (s : State) (c : Word) : (s.setCps c).tmc = s.tmc := by unfold State.setCps; dsimp only; split <;> rfl
@[simp] theorem State.setCps_tmr (s : State) (c : Word) : (s.setCps c).tmr = s.tmr := by unfold State.setCps; dsimp only; split <;> rfl
@[simp] theorem State.setCps_pc0 (s : State) (c : Word) : (s.setCps c).pc0 = s.pc0 := by unfold State.setCps; dsimp only; split <;> rfl
@[simp] theorem State.setCps_pc1 (s : State) (c : Word) : (s.setCps c).pc1 = s.pc1 := by unfold State.setCps; dsimp only; split <;> rfl
@[simp] theorem State.setCps_pc2 (s : State) (c : Word) : (s.setCps c).pc2 = s.pc2 := by unfold State.setCps; dsimp only; split <;> rfl
@[simp] theorem State.setCps_mmu (s : State) (c : Word) : (s.setCps c).mmu = s.mmu := by unfold State.setCps; dsimp only; split <;> rfl
@[simp] theorem State.setCps_psTarget (s : State) (c : Word) : (s.setCps c).psTarget = s.psTarget := by unfold State.setCps; dsimp only; split <;> rfl
@[simp] theorem State.setCps_psBefore (s : State) (c : Word) : (s.setCps c).psBefore = s.psBefore := by unfold State.setCps; dsimp only; split <;> rfl
@[simp] theorem State.setCps_lru (s : State) (c : Word) : (s.setCps c).lru = s.lru := by unfold State.setCps; dsimp only; split <;> rfl
@[simp] theorem State.setCps_ipc (s : State) (c : Word) : (s.setCps c).ipc = s.ipc := by unfold State.setCps; dsimp only; split <;> rfl
@[simp] theorem State.setCps_ipa (s : State) (c : Word) : (s.setCps c).ipa = s.ipa := by unfold State.setCps; dsimp only; split <;> rfl
@[simp] theorem State.setCps_ipb (s : State) (c : Word) : (s.setCps c).ipb = s.ipb := by unfold State.setCps; dsimp only; split <;> rfl
@[simp] theorem State.setCps_q (s : State) (c : Word) : (s.setCps c).q = s.q := by unfold State.setCps; dsimp only; split <;> rfl
@[simp] theorem State.setCps_alu (s : State) (c : Word) : (s.setCps c).alu = s.alu := by unfold State.setCps; dsimp only; split <;> rfl
@[simp] theorem State.setCps_tlb (s : State) (c : Word) : (s.setCps c).tlb = s.tlb := by unfold State.setCps; dsimp only; split <;> rfl
@[simp] theorem State.setCps_idm (s : State) (c : Word) : (s.setCps c).idm = s.idm := by unfold State.setCps; dsimp only; split <;> rfl
@[simp] theorem State.setCps_rom (s : State) (c : Word) : (s.setCps c).rom = s.rom := by unfold State.setCps; dsimp only; split <;> rfl
@[simp] theorem State.setCps_inflight (s : State) (c : Word) : (s.setCps c).inflight = s.inflight := by unfold State.setCps; dsimp only; split <;> rfl
@[simp] theorem State.setCps_derr (s : State) (c : Word) : (s.setCps c).derr = s.derr := by unfold State.setCps; dsimp only; split <;> rfl
@[simp] theorem State.setCps_mode (s : State) (c : Word) : (s.setCps c).mode = s.mode := by unfold State.setCps; dsimp only; split <;> rfl
@[simp] theorem State.setCps_pins (s : State) (c : Word) : (s.setCps c).pins = s.pins := by unfold State.setCps; dsimp only; split <;> rfl
@[simp] theorem State.setCps_warnPending (s : State) (c : Word) : (s.setCps c).warnPending = s.warnPending := by unfold State.setCps; dsimp only; split <;> rfl
@[simp] theorem State.setCps_ir (s : State) (c : Word) : (s.setCps c).ir = s.ir := by unfold State.setCps; dsimp only; split <;> rfl
@[simp] theorem State.setCps_irValid (s : State) (c : Word) : (s.setCps c).irValid = s.irValid := by unfold State.setCps; dsimp only; split <;> rfl
@[simp] theorem State.setCps_testing (s : State) (c : Word) : (s.setCps c).testing = s.testing := by unfold State.setCps; dsimp only; split <;> rfl
@[simp] theorem State.setCps_invPending (s : State) (c : Word) : (s.setCps c).invPending = s.invPending := by unfold State.setCps; dsimp only; split <;> rfl
@[simp] theorem State.setCps_cdInForce (s : State) (c : Word) : (s.setCps c).cdInForce = s.cdInForce := by unfold State.setCps; dsimp only; split <;> rfl
@[simp] theorem State.setCps_block (s : State) (c : Word) : (s.setCps c).block = s.block := by unfold State.setCps; dsimp only; split <;> rfl
@[simp] theorem State.setCps_turn (s : State) (c : Word) : (s.setCps c).turn = s.turn := by unfold State.setCps; dsimp only; split <;> rfl
@[simp] theorem State.setCps_nextTurn (s : State) (c : Word) : (s.setCps c).nextTurn = s.nextTurn := by unfold State.setCps; dsimp only; split <;> rfl
@[simp] theorem State.setCps_lastNonseq (s : State) (c : Word) : (s.setCps c).lastNonseq = s.lastNonseq := by unfold State.setCps; dsimp only; split <;> rfl
@[simp] theorem State.setCps_cacheSince (s : State) (c : Word) : (s.setCps c).cacheSince = s.cacheSince := by unfold State.setCps; dsimp only; split <;> rfl
@[simp] theorem State.setCps_cacheUndefined (s : State) (c : Word) : (s.setCps c).cacheUndefined = s.cacheUndefined := by unfold State.setCps; dsimp only; split <;> rfl
@[simp] theorem State.setCps_oldWords (s : State) (c : Word) : (s.setCps c).oldWords = s.oldWords := by unfold State.setCps; dsimp only; split <;> rfl
@[simp] theorem State.setCps_stream (s : State) (c : Word) : (s.setCps c).stream = s.stream := by unfold State.setCps; dsimp only; split <;> rfl
@[simp] theorem State.setCps_afterMultiple (s : State) (c : Word) : (s.setCps c).afterMultiple = s.afterMultiple := by unfold State.setCps; dsimp only; split <;> rfl
@[simp] theorem State.setCps_mlByMove (s : State) (c : Word) : (s.setCps c).mlByMove = s.mlByMove := by unfold State.setCps; dsimp only; split <;> rfl
@[simp] theorem State.setCps_sys (s : State) (c : Word) : (s.setCps c).sys = s.sys := by unfold State.setCps; dsimp only; split <;> rfl
@[simp] theorem State.setCps_clock (s : State) (c : Word) : (s.setCps c).clock = s.clock := by unfold State.setCps; dsimp only; split <;> rfl
@[simp] theorem State.setCps_env (s : State) (c : Word) : (s.setCps c).env = s.env := by unfold State.setCps; dsimp only; split <;> rfl

@[simp] theorem State.discardPrefetch_gpr (s : State) : (s.discardPrefetch).gpr = s.gpr := by unfold State.discardPrefetch; split <;> rfl
@[simp] theorem State.discardPrefetch_gr1 (s : State) : (s.discardPrefetch).gr1 = s.gr1 := by unfold State.discardPrefetch; split <;> rfl
@[simp] theorem State.discardPrefetch_sps (s : State) : (s.discardPrefetch).sps = s.sps := by unfold State.discardPrefetch; split <;> rfl
@[simp] theorem State.discardPrefetch_pc (s : State) : (s.discardPrefetch).pc = s.pc := by unfold State.discardPrefetch; split <;> rfl
@[simp] theorem State.discardPrefetch_npc (s : State) : (s.discardPrefetch).npc = s.npc := by unfold State.discardPrefetch; split <;> rfl
@[simp] theorem State.discardPrefetch_ppc (s : State) : (s.discardPrefetch).ppc = s.ppc := by unfold State.discardPrefetch; split <;> rfl
@[simp] theorem State.discardPrefetch_vab (s : State) : (s.discardPrefetch).vab = s.vab := by unfold State.discardPrefetch; split <;> rfl
@[simp] theorem State.discardPrefetch_ops (s : State) : (s.discardPrefetch).ops = s.ops := by unfold State.discardPrefetch; split <;> rfl
@[simp] theorem State.discardPrefetch_cps (s : State) : (s.discardPrefetch).cps = s.cps := by unfold State.discardPrefetch; split <;> rfl
@[simp] theorem State.discardPrefetch_cfg (s : State) : (s.discardPrefetch).cfg = s.cfg := by unfold State.discardPrefetch; split <;> rfl
@[simp] theorem State.discardPrefetch_cha (s : State) : (s.discardPrefetch).cha = s.cha := by unfold State.discardPrefetch; split <;> rfl
@[simp] theorem State.discardPrefetch_chd (s : State) : (s.discardPrefetch).chd = s.chd := by unfold State.discardPrefetch; split <;> rfl
@[simp] theorem State.discardPrefetch_chc (s : State) : (s.discardPrefetch).chc = s.chc := by unfold State.discardPrefetch; split <;> rfl
@[simp] theorem State.discardPrefetch_rbp (s : State) : (s.discardPrefetch).rbp = s.rbp := by unfold State.discardPrefetch; split <;> rfl
@[simp] theorem State.discardPrefetch_tmc (s : State) : (s.discardPrefetch).tmc = s.tmc := by unfold State.discardPrefetch; split <;> rfl
@[simp] theorem State.discardPrefetch_tmr (s : State) : (s.discardPrefetch).tmr = s.tmr := by unfold State.discardPrefetch; split <;> rfl
@[simp] theorem State.discardPrefetch_pc0 (s : State) : (s.discardPrefetch).pc0 = s.pc0 := by unfold State.discardPrefetch; split <;> rfl
@[simp] theorem State.discardPrefetch_pc1 (s : State) : (s.discardPrefetch).pc1 = s.pc1 := by unfold State.discardPrefetch; split <;> rfl
@[simp] theorem State.discardPrefetch_pc2 (s : State) : (s.discardPrefetch).pc2 = s.pc2 := by unfold State.discardPrefetch; split <;> rfl
@[simp] theorem State.discardPrefetch_mmu (s : State) : (s.discardPrefetch).mmu = s.mmu := by unfold State.discardPrefetch; split <;> rfl
@[simp] theorem State.discardPrefetch_psTarget (s : State) : (s.discardPrefetch).psTarget = s.psTarget := by unfold State.discardPrefetch; split <;> rfl
@[simp] theorem State.discardPrefetch_psBefore (s : State) : (s.discardPrefetch).psBefore = s.psBefore := by unfold State.discardPrefetch; split <;> rfl
@[simp] theorem State.discardPrefetch_lru (s : State) : (s.discardPrefetch).lru = s.lru := by unfold State.discardPrefetch; split <;> rfl
@[simp] theorem State.discardPrefetch_ipc (s : State) : (s.discardPrefetch).ipc = s.ipc := by unfold State.discardPrefetch; split <;> rfl
@[simp] theorem State.discardPrefetch_ipa (s : State) : (s.discardPrefetch).ipa = s.ipa := by unfold State.discardPrefetch; split <;> rfl
@[simp] theorem State.discardPrefetch_ipb (s : State) : (s.discardPrefetch).ipb = s.ipb := by unfold State.discardPrefetch; split <;> rfl
@[simp] theorem State.discardPrefetch_q (s : State) : (s.discardPrefetch).q = s.q := by unfold State.discardPrefetch; split <;> rfl
@[simp] theorem State.discardPrefetch_alu (s : State) : (s.discardPrefetch).alu = s.alu := by unfold State.discardPrefetch; split <;> rfl
@[simp] theorem State.discardPrefetch_tlb (s : State) : (s.discardPrefetch).tlb = s.tlb := by unfold State.discardPrefetch; split <;> rfl
@[simp] theorem State.discardPrefetch_idm (s : State) : (s.discardPrefetch).idm = s.idm := by unfold State.discardPrefetch; split <;> rfl
@[simp] theorem State.discardPrefetch_rom (s : State) : (s.discardPrefetch).rom = s.rom := by unfold State.discardPrefetch; split <;> rfl
@[simp] theorem State.discardPrefetch_inflight (s : State) : (s.discardPrefetch).inflight = s.inflight := by unfold State.discardPrefetch; split <;> rfl
@[simp] theorem State.discardPrefetch_derr (s : State) : (s.discardPrefetch).derr = s.derr := by unfold State.discardPrefetch; split <;> rfl
@[simp] theorem State.discardPrefetch_mode (s : State) : (s.discardPrefetch).mode = s.mode := by unfold State.discardPrefetch; split <;> rfl
@[simp] theorem State.discardPrefetch_pins (s : State) : (s.discardPrefetch).pins = s.pins := by unfold State.discardPrefetch; split <;> rfl
@[simp] theorem State.discardPrefetch_warnPending (s : State) : (s.discardPrefetch).warnPending = s.warnPending := by unfold State.discardPrefetch; split <;> rfl
@[simp] theorem State.discardPrefetch_ir (s : State) : (s.discardPrefetch).ir = s.ir := by unfold State.discardPrefetch; split <;> rfl
@[simp] theorem State.discardPrefetch_irValid (s : State) : (s.discardPrefetch).irValid = s.irValid := by unfold State.discardPrefetch; split <;> rfl
@[simp] theorem State.discardPrefetch_testing (s : State) : (s.discardPrefetch).testing = s.testing := by unfold State.discardPrefetch; split <;> rfl
@[simp] theorem State.discardPrefetch_invPending (s : State) : (s.discardPrefetch).invPending = s.invPending := by unfold State.discardPrefetch; split <;> rfl
@[simp] theorem State.discardPrefetch_cdInForce (s : State) : (s.discardPrefetch).cdInForce = s.cdInForce := by unfold State.discardPrefetch; split <;> rfl
@[simp] theorem State.discardPrefetch_turn (s : State) : (s.discardPrefetch).turn = s.turn := by unfold State.discardPrefetch; split <;> rfl
@[simp] theorem State.discardPrefetch_nextTurn (s : State) : (s.discardPrefetch).nextTurn = s.nextTurn := by unfold State.discardPrefetch; split <;> rfl
@[simp] theorem State.discardPrefetch_cacheSince (s : State) : (s.discardPrefetch).cacheSince = s.cacheSince := by unfold State.discardPrefetch; split <;> rfl
@[simp] theorem State.discardPrefetch_cacheUndefined (s : State) : (s.discardPrefetch).cacheUndefined = s.cacheUndefined := by unfold State.discardPrefetch; split <;> rfl
@[simp] theorem State.discardPrefetch_oldWords (s : State) : (s.discardPrefetch).oldWords = s.oldWords := by unfold State.discardPrefetch; split <;> rfl
@[simp] theorem State.discardPrefetch_oldMaps (s : State) : (s.discardPrefetch).oldMaps = s.oldMaps := by unfold State.discardPrefetch; split <;> rfl
@[simp] theorem State.discardPrefetch_stream (s : State) : (s.discardPrefetch).stream = s.stream := by unfold State.discardPrefetch; split <;> rfl
@[simp] theorem State.discardPrefetch_afterMultiple (s : State) : (s.discardPrefetch).afterMultiple = s.afterMultiple := by unfold State.discardPrefetch; split <;> rfl
@[simp] theorem State.discardPrefetch_mlByMove (s : State) : (s.discardPrefetch).mlByMove = s.mlByMove := by unfold State.discardPrefetch; split <;> rfl
@[simp] theorem State.discardPrefetch_sys (s : State) : (s.discardPrefetch).sys = s.sys := by unfold State.discardPrefetch; split <;> rfl
@[simp] theorem State.discardPrefetch_clock (s : State) : (s.discardPrefetch).clock = s.clock := by unfold State.discardPrefetch; split <;> rfl
@[simp] theorem State.discardPrefetch_env (s : State) : (s.discardPrefetch).env = s.env := by unfold State.discardPrefetch; split <;> rfl

@[simp] theorem State.turned_gpr (s : State) : (s.turned).gpr = s.gpr := by unfold State.turned; split <;> rfl
@[simp] theorem State.turned_gr1 (s : State) : (s.turned).gr1 = s.gr1 := by unfold State.turned; split <;> rfl
@[simp] theorem State.turned_sps (s : State) : (s.turned).sps = s.sps := by unfold State.turned; split <;> rfl
@[simp] theorem State.turned_pc (s : State) : (s.turned).pc = s.pc := by unfold State.turned; split <;> rfl
@[simp] theorem State.turned_npc (s : State) : (s.turned).npc = s.npc := by unfold State.turned; split <;> rfl
@[simp] theorem State.turned_ppc (s : State) : (s.turned).ppc = s.ppc := by unfold State.turned; split <;> rfl
@[simp] theorem State.turned_vab (s : State) : (s.turned).vab = s.vab := by unfold State.turned; split <;> rfl
@[simp] theorem State.turned_ops (s : State) : (s.turned).ops = s.ops := by unfold State.turned; split <;> rfl
@[simp] theorem State.turned_cps (s : State) : (s.turned).cps = s.cps := by unfold State.turned; split <;> rfl
@[simp] theorem State.turned_cfg (s : State) : (s.turned).cfg = s.cfg := by unfold State.turned; split <;> rfl
@[simp] theorem State.turned_cha (s : State) : (s.turned).cha = s.cha := by unfold State.turned; split <;> rfl
@[simp] theorem State.turned_chd (s : State) : (s.turned).chd = s.chd := by unfold State.turned; split <;> rfl
@[simp] theorem State.turned_chc (s : State) : (s.turned).chc = s.chc := by unfold State.turned; split <;> rfl
@[simp] theorem State.turned_rbp (s : State) : (s.turned).rbp = s.rbp := by unfold State.turned; split <;> rfl
@[simp] theorem State.turned_tmc (s : State) : (s.turned).tmc = s.tmc := by unfold State.turned; split <;> rfl
@[simp] theorem State.turned_tmr (s : State) : (s.turned).tmr = s.tmr := by unfold State.turned; split <;> rfl
@[simp] theorem State.turned_pc0 (s : State) : (s.turned).pc0 = s.pc0 := by unfold State.turned; split <;> rfl
@[simp] theorem State.turned_pc1 (s : State) : (s.turned).pc1 = s.pc1 := by unfold State.turned; split <;> rfl
@[simp] theorem State.turned_pc2 (s : State) : (s.turned).pc2 = s.pc2 := by unfold State.turned; split <;> rfl
@[simp] theorem State.turned_mmu (s : State) : (s.turned).mmu = s.mmu := by unfold State.turned; split <;> rfl
@[simp] theorem State.turned_psTarget (s : State) : (s.turned).psTarget = s.psTarget := by unfold State.turned; split <;> rfl
@[simp] theorem State.turned_psBefore (s : State) : (s.turned).psBefore = s.psBefore := by unfold State.turned; split <;> rfl
@[simp] theorem State.turned_lru (s : State) : (s.turned).lru = s.lru := by unfold State.turned; split <;> rfl
@[simp] theorem State.turned_ipc (s : State) : (s.turned).ipc = s.ipc := by unfold State.turned; split <;> rfl
@[simp] theorem State.turned_ipa (s : State) : (s.turned).ipa = s.ipa := by unfold State.turned; split <;> rfl
@[simp] theorem State.turned_ipb (s : State) : (s.turned).ipb = s.ipb := by unfold State.turned; split <;> rfl
@[simp] theorem State.turned_q (s : State) : (s.turned).q = s.q := by unfold State.turned; split <;> rfl
@[simp] theorem State.turned_alu (s : State) : (s.turned).alu = s.alu := by unfold State.turned; split <;> rfl
@[simp] theorem State.turned_tlb (s : State) : (s.turned).tlb = s.tlb := by unfold State.turned; split <;> rfl
@[simp] theorem State.turned_idm (s : State) : (s.turned).idm = s.idm := by unfold State.turned; split <;> rfl
@[simp] theorem State.turned_rom (s : State) : (s.turned).rom = s.rom := by unfold State.turned; split <;> rfl
@[simp] theorem State.turned_inflight (s : State) : (s.turned).inflight = s.inflight := by unfold State.turned; split <;> rfl
@[simp] theorem State.turned_derr (s : State) : (s.turned).derr = s.derr := by unfold State.turned; split <;> rfl
@[simp] theorem State.turned_mode (s : State) : (s.turned).mode = s.mode := by unfold State.turned; split <;> rfl
@[simp] theorem State.turned_pins (s : State) : (s.turned).pins = s.pins := by unfold State.turned; split <;> rfl
@[simp] theorem State.turned_warnPending (s : State) : (s.turned).warnPending = s.warnPending := by unfold State.turned; split <;> rfl
@[simp] theorem State.turned_ir (s : State) : (s.turned).ir = s.ir := by unfold State.turned; split <;> rfl
@[simp] theorem State.turned_irValid (s : State) : (s.turned).irValid = s.irValid := by unfold State.turned; split <;> rfl
@[simp] theorem State.turned_testing (s : State) : (s.turned).testing = s.testing := by unfold State.turned; split <;> rfl
@[simp] theorem State.turned_invPending (s : State) : (s.turned).invPending = s.invPending := by unfold State.turned; split <;> rfl
@[simp] theorem State.turned_nextTurn (s : State) : (s.turned).nextTurn = s.nextTurn := by unfold State.turned; split <;> rfl
@[simp] theorem State.turned_lastNonseq (s : State) : (s.turned).lastNonseq = s.lastNonseq := by unfold State.turned; split <;> rfl
@[simp] theorem State.turned_cacheSince (s : State) : (s.turned).cacheSince = s.cacheSince := by unfold State.turned; split <;> rfl
@[simp] theorem State.turned_cacheUndefined (s : State) : (s.turned).cacheUndefined = s.cacheUndefined := by unfold State.turned; split <;> rfl
@[simp] theorem State.turned_oldWords (s : State) : (s.turned).oldWords = s.oldWords := by unfold State.turned; split <;> rfl
@[simp] theorem State.turned_oldMaps (s : State) : (s.turned).oldMaps = s.oldMaps := by unfold State.turned; split <;> rfl
@[simp] theorem State.turned_stream (s : State) : (s.turned).stream = s.stream := by unfold State.turned; split <;> rfl
@[simp] theorem State.turned_afterMultiple (s : State) : (s.turned).afterMultiple = s.afterMultiple := by unfold State.turned; split <;> rfl
@[simp] theorem State.turned_mlByMove (s : State) : (s.turned).mlByMove = s.mlByMove := by unfold State.turned; split <;> rfl
@[simp] theorem State.turned_sys (s : State) : (s.turned).sys = s.sys := by unfold State.turned; split <;> rfl
@[simp] theorem State.turned_clock (s : State) : (s.turned).clock = s.clock := by unfold State.turned; split <;> rfl
@[simp] theorem State.turned_env (s : State) : (s.turned).env = s.env := by unfold State.turned; split <;> rfl

@[simp] theorem State.turnHere_gpr (s : State) : (s.turnHere).gpr = s.gpr := rfl
@[simp] theorem State.turnHere_gr1 (s : State) : (s.turnHere).gr1 = s.gr1 := rfl
@[simp] theorem State.turnHere_sps (s : State) : (s.turnHere).sps = s.sps := rfl
@[simp] theorem State.turnHere_pc (s : State) : (s.turnHere).pc = s.pc := rfl
@[simp] theorem State.turnHere_npc (s : State) : (s.turnHere).npc = s.npc := rfl
@[simp] theorem State.turnHere_ppc (s : State) : (s.turnHere).ppc = s.ppc := rfl
@[simp] theorem State.turnHere_vab (s : State) : (s.turnHere).vab = s.vab := rfl
@[simp] theorem State.turnHere_ops (s : State) : (s.turnHere).ops = s.ops := rfl
@[simp] theorem State.turnHere_cps (s : State) : (s.turnHere).cps = s.cps := rfl
@[simp] theorem State.turnHere_cfg (s : State) : (s.turnHere).cfg = s.cfg := rfl
@[simp] theorem State.turnHere_cha (s : State) : (s.turnHere).cha = s.cha := rfl
@[simp] theorem State.turnHere_chd (s : State) : (s.turnHere).chd = s.chd := rfl
@[simp] theorem State.turnHere_chc (s : State) : (s.turnHere).chc = s.chc := rfl
@[simp] theorem State.turnHere_rbp (s : State) : (s.turnHere).rbp = s.rbp := rfl
@[simp] theorem State.turnHere_tmc (s : State) : (s.turnHere).tmc = s.tmc := rfl
@[simp] theorem State.turnHere_tmr (s : State) : (s.turnHere).tmr = s.tmr := rfl
@[simp] theorem State.turnHere_pc0 (s : State) : (s.turnHere).pc0 = s.pc0 := rfl
@[simp] theorem State.turnHere_pc1 (s : State) : (s.turnHere).pc1 = s.pc1 := rfl
@[simp] theorem State.turnHere_pc2 (s : State) : (s.turnHere).pc2 = s.pc2 := rfl
@[simp] theorem State.turnHere_mmu (s : State) : (s.turnHere).mmu = s.mmu := rfl
@[simp] theorem State.turnHere_psTarget (s : State) : (s.turnHere).psTarget = s.psTarget := rfl
@[simp] theorem State.turnHere_psBefore (s : State) : (s.turnHere).psBefore = s.psBefore := rfl
@[simp] theorem State.turnHere_lru (s : State) : (s.turnHere).lru = s.lru := rfl
@[simp] theorem State.turnHere_ipc (s : State) : (s.turnHere).ipc = s.ipc := rfl
@[simp] theorem State.turnHere_ipa (s : State) : (s.turnHere).ipa = s.ipa := rfl
@[simp] theorem State.turnHere_ipb (s : State) : (s.turnHere).ipb = s.ipb := rfl
@[simp] theorem State.turnHere_q (s : State) : (s.turnHere).q = s.q := rfl
@[simp] theorem State.turnHere_alu (s : State) : (s.turnHere).alu = s.alu := rfl
@[simp] theorem State.turnHere_tlb (s : State) : (s.turnHere).tlb = s.tlb := rfl
@[simp] theorem State.turnHere_idm (s : State) : (s.turnHere).idm = s.idm := rfl
@[simp] theorem State.turnHere_rom (s : State) : (s.turnHere).rom = s.rom := rfl
@[simp] theorem State.turnHere_inflight (s : State) : (s.turnHere).inflight = s.inflight := rfl
@[simp] theorem State.turnHere_derr (s : State) : (s.turnHere).derr = s.derr := rfl
@[simp] theorem State.turnHere_mode (s : State) : (s.turnHere).mode = s.mode := rfl
@[simp] theorem State.turnHere_pins (s : State) : (s.turnHere).pins = s.pins := rfl
@[simp] theorem State.turnHere_warnPending (s : State) : (s.turnHere).warnPending = s.warnPending := rfl
@[simp] theorem State.turnHere_ir (s : State) : (s.turnHere).ir = s.ir := rfl
@[simp] theorem State.turnHere_irValid (s : State) : (s.turnHere).irValid = s.irValid := rfl
@[simp] theorem State.turnHere_testing (s : State) : (s.turnHere).testing = s.testing := rfl
@[simp] theorem State.turnHere_invPending (s : State) : (s.turnHere).invPending = s.invPending := rfl
@[simp] theorem State.turnHere_cdInForce (s : State) : (s.turnHere).cdInForce = s.cdInForce := rfl
@[simp] theorem State.turnHere_block (s : State) : (s.turnHere).block = s.block := rfl
@[simp] theorem State.turnHere_lastNonseq (s : State) : (s.turnHere).lastNonseq = s.lastNonseq := rfl
@[simp] theorem State.turnHere_cacheSince (s : State) : (s.turnHere).cacheSince = s.cacheSince := rfl
@[simp] theorem State.turnHere_cacheUndefined (s : State) : (s.turnHere).cacheUndefined = s.cacheUndefined := rfl
@[simp] theorem State.turnHere_oldWords (s : State) : (s.turnHere).oldWords = s.oldWords := rfl
@[simp] theorem State.turnHere_oldMaps (s : State) : (s.turnHere).oldMaps = s.oldMaps := rfl
@[simp] theorem State.turnHere_afterMultiple (s : State) : (s.turnHere).afterMultiple = s.afterMultiple := rfl
@[simp] theorem State.turnHere_mlByMove (s : State) : (s.turnHere).mlByMove = s.mlByMove := rfl
@[simp] theorem State.turnHere_sys (s : State) : (s.turnHere).sys = s.sys := rfl
@[simp] theorem State.turnHere_clock (s : State) : (s.turnHere).clock = s.clock := rfl
@[simp] theorem State.turnHere_env (s : State) : (s.turnHere).env = s.env := rfl

@[simp] theorem State.invalidateCache_gpr (s : State) : (s.invalidateCache).gpr = s.gpr := rfl
@[simp] theorem State.invalidateCache_gr1 (s : State) : (s.invalidateCache).gr1 = s.gr1 := rfl
@[simp] theorem State.invalidateCache_sps (s : State) : (s.invalidateCache).sps = s.sps := rfl
@[simp] theorem State.invalidateCache_pc (s : State) : (s.invalidateCache).pc = s.pc := rfl
@[simp] theorem State.invalidateCache_npc (s : State) : (s.invalidateCache).npc = s.npc := rfl
@[simp] theorem State.invalidateCache_ppc (s : State) : (s.invalidateCache).ppc = s.ppc := rfl
@[simp] theorem State.invalidateCache_vab (s : State) : (s.invalidateCache).vab = s.vab := rfl
@[simp] theorem State.invalidateCache_ops (s : State) : (s.invalidateCache).ops = s.ops := rfl
@[simp] theorem State.invalidateCache_cps (s : State) : (s.invalidateCache).cps = s.cps := rfl
@[simp] theorem State.invalidateCache_cfg (s : State) : (s.invalidateCache).cfg = s.cfg := rfl
@[simp] theorem State.invalidateCache_cha (s : State) : (s.invalidateCache).cha = s.cha := rfl
@[simp] theorem State.invalidateCache_chd (s : State) : (s.invalidateCache).chd = s.chd := rfl
@[simp] theorem State.invalidateCache_chc (s : State) : (s.invalidateCache).chc = s.chc := rfl
@[simp] theorem State.invalidateCache_rbp (s : State) : (s.invalidateCache).rbp = s.rbp := rfl
@[simp] theorem State.invalidateCache_tmc (s : State) : (s.invalidateCache).tmc = s.tmc := rfl
@[simp] theorem State.invalidateCache_tmr (s : State) : (s.invalidateCache).tmr = s.tmr := rfl
@[simp] theorem State.invalidateCache_pc0 (s : State) : (s.invalidateCache).pc0 = s.pc0 := rfl
@[simp] theorem State.invalidateCache_pc1 (s : State) : (s.invalidateCache).pc1 = s.pc1 := rfl
@[simp] theorem State.invalidateCache_pc2 (s : State) : (s.invalidateCache).pc2 = s.pc2 := rfl
@[simp] theorem State.invalidateCache_mmu (s : State) : (s.invalidateCache).mmu = s.mmu := rfl
@[simp] theorem State.invalidateCache_psTarget (s : State) : (s.invalidateCache).psTarget = s.psTarget := rfl
@[simp] theorem State.invalidateCache_psBefore (s : State) : (s.invalidateCache).psBefore = s.psBefore := rfl
@[simp] theorem State.invalidateCache_lru (s : State) : (s.invalidateCache).lru = s.lru := rfl
@[simp] theorem State.invalidateCache_ipc (s : State) : (s.invalidateCache).ipc = s.ipc := rfl
@[simp] theorem State.invalidateCache_ipa (s : State) : (s.invalidateCache).ipa = s.ipa := rfl
@[simp] theorem State.invalidateCache_ipb (s : State) : (s.invalidateCache).ipb = s.ipb := rfl
@[simp] theorem State.invalidateCache_q (s : State) : (s.invalidateCache).q = s.q := rfl
@[simp] theorem State.invalidateCache_alu (s : State) : (s.invalidateCache).alu = s.alu := rfl
@[simp] theorem State.invalidateCache_tlb (s : State) : (s.invalidateCache).tlb = s.tlb := rfl
@[simp] theorem State.invalidateCache_idm (s : State) : (s.invalidateCache).idm = s.idm := rfl
@[simp] theorem State.invalidateCache_rom (s : State) : (s.invalidateCache).rom = s.rom := rfl
@[simp] theorem State.invalidateCache_inflight (s : State) : (s.invalidateCache).inflight = s.inflight := rfl
@[simp] theorem State.invalidateCache_derr (s : State) : (s.invalidateCache).derr = s.derr := rfl
@[simp] theorem State.invalidateCache_mode (s : State) : (s.invalidateCache).mode = s.mode := rfl
@[simp] theorem State.invalidateCache_pins (s : State) : (s.invalidateCache).pins = s.pins := rfl
@[simp] theorem State.invalidateCache_warnPending (s : State) : (s.invalidateCache).warnPending = s.warnPending := rfl
@[simp] theorem State.invalidateCache_ir (s : State) : (s.invalidateCache).ir = s.ir := rfl
@[simp] theorem State.invalidateCache_irValid (s : State) : (s.invalidateCache).irValid = s.irValid := rfl
@[simp] theorem State.invalidateCache_testing (s : State) : (s.invalidateCache).testing = s.testing := rfl
@[simp] theorem State.invalidateCache_invPending (s : State) : (s.invalidateCache).invPending = s.invPending := rfl
@[simp] theorem State.invalidateCache_cdInForce (s : State) : (s.invalidateCache).cdInForce = s.cdInForce := rfl
@[simp] theorem State.invalidateCache_block (s : State) : (s.invalidateCache).block = s.block := rfl
@[simp] theorem State.invalidateCache_turn (s : State) : (s.invalidateCache).turn = s.turn := rfl
@[simp] theorem State.invalidateCache_nextTurn (s : State) : (s.invalidateCache).nextTurn = s.nextTurn := rfl
@[simp] theorem State.invalidateCache_lastNonseq (s : State) : (s.invalidateCache).lastNonseq = s.lastNonseq := rfl
@[simp] theorem State.invalidateCache_oldWords (s : State) : (s.invalidateCache).oldWords = s.oldWords := rfl
@[simp] theorem State.invalidateCache_oldMaps (s : State) : (s.invalidateCache).oldMaps = s.oldMaps := rfl
@[simp] theorem State.invalidateCache_stream (s : State) : (s.invalidateCache).stream = s.stream := rfl
@[simp] theorem State.invalidateCache_afterMultiple (s : State) : (s.invalidateCache).afterMultiple = s.afterMultiple := rfl
@[simp] theorem State.invalidateCache_mlByMove (s : State) : (s.invalidateCache).mlByMove = s.mlByMove := rfl
@[simp] theorem State.invalidateCache_sys (s : State) : (s.invalidateCache).sys = s.sys := rfl
@[simp] theorem State.invalidateCache_clock (s : State) : (s.invalidateCache).clock = s.clock := rfl
@[simp] theorem State.invalidateCache_env (s : State) : (s.invalidateCache).env = s.env := rfl

@[simp] theorem State.pendingInvalidate_gpr (s : State) : (s.pendingInvalidate).gpr = s.gpr := by unfold State.pendingInvalidate; split <;> rfl
@[simp] theorem State.pendingInvalidate_gr1 (s : State) : (s.pendingInvalidate).gr1 = s.gr1 := by unfold State.pendingInvalidate; split <;> rfl
@[simp] theorem State.pendingInvalidate_sps (s : State) : (s.pendingInvalidate).sps = s.sps := by unfold State.pendingInvalidate; split <;> rfl
@[simp] theorem State.pendingInvalidate_pc (s : State) : (s.pendingInvalidate).pc = s.pc := by unfold State.pendingInvalidate; split <;> rfl
@[simp] theorem State.pendingInvalidate_npc (s : State) : (s.pendingInvalidate).npc = s.npc := by unfold State.pendingInvalidate; split <;> rfl
@[simp] theorem State.pendingInvalidate_ppc (s : State) : (s.pendingInvalidate).ppc = s.ppc := by unfold State.pendingInvalidate; split <;> rfl
@[simp] theorem State.pendingInvalidate_vab (s : State) : (s.pendingInvalidate).vab = s.vab := by unfold State.pendingInvalidate; split <;> rfl
@[simp] theorem State.pendingInvalidate_ops (s : State) : (s.pendingInvalidate).ops = s.ops := by unfold State.pendingInvalidate; split <;> rfl
@[simp] theorem State.pendingInvalidate_cps (s : State) : (s.pendingInvalidate).cps = s.cps := by unfold State.pendingInvalidate; split <;> rfl
@[simp] theorem State.pendingInvalidate_cfg (s : State) : (s.pendingInvalidate).cfg = s.cfg := by unfold State.pendingInvalidate; split <;> rfl
@[simp] theorem State.pendingInvalidate_cha (s : State) : (s.pendingInvalidate).cha = s.cha := by unfold State.pendingInvalidate; split <;> rfl
@[simp] theorem State.pendingInvalidate_chd (s : State) : (s.pendingInvalidate).chd = s.chd := by unfold State.pendingInvalidate; split <;> rfl
@[simp] theorem State.pendingInvalidate_chc (s : State) : (s.pendingInvalidate).chc = s.chc := by unfold State.pendingInvalidate; split <;> rfl
@[simp] theorem State.pendingInvalidate_rbp (s : State) : (s.pendingInvalidate).rbp = s.rbp := by unfold State.pendingInvalidate; split <;> rfl
@[simp] theorem State.pendingInvalidate_tmc (s : State) : (s.pendingInvalidate).tmc = s.tmc := by unfold State.pendingInvalidate; split <;> rfl
@[simp] theorem State.pendingInvalidate_tmr (s : State) : (s.pendingInvalidate).tmr = s.tmr := by unfold State.pendingInvalidate; split <;> rfl
@[simp] theorem State.pendingInvalidate_pc0 (s : State) : (s.pendingInvalidate).pc0 = s.pc0 := by unfold State.pendingInvalidate; split <;> rfl
@[simp] theorem State.pendingInvalidate_pc1 (s : State) : (s.pendingInvalidate).pc1 = s.pc1 := by unfold State.pendingInvalidate; split <;> rfl
@[simp] theorem State.pendingInvalidate_pc2 (s : State) : (s.pendingInvalidate).pc2 = s.pc2 := by unfold State.pendingInvalidate; split <;> rfl
@[simp] theorem State.pendingInvalidate_mmu (s : State) : (s.pendingInvalidate).mmu = s.mmu := by unfold State.pendingInvalidate; split <;> rfl
@[simp] theorem State.pendingInvalidate_psTarget (s : State) : (s.pendingInvalidate).psTarget = s.psTarget := by unfold State.pendingInvalidate; split <;> rfl
@[simp] theorem State.pendingInvalidate_psBefore (s : State) : (s.pendingInvalidate).psBefore = s.psBefore := by unfold State.pendingInvalidate; split <;> rfl
@[simp] theorem State.pendingInvalidate_lru (s : State) : (s.pendingInvalidate).lru = s.lru := by unfold State.pendingInvalidate; split <;> rfl
@[simp] theorem State.pendingInvalidate_ipc (s : State) : (s.pendingInvalidate).ipc = s.ipc := by unfold State.pendingInvalidate; split <;> rfl
@[simp] theorem State.pendingInvalidate_ipa (s : State) : (s.pendingInvalidate).ipa = s.ipa := by unfold State.pendingInvalidate; split <;> rfl
@[simp] theorem State.pendingInvalidate_ipb (s : State) : (s.pendingInvalidate).ipb = s.ipb := by unfold State.pendingInvalidate; split <;> rfl
@[simp] theorem State.pendingInvalidate_q (s : State) : (s.pendingInvalidate).q = s.q := by unfold State.pendingInvalidate; split <;> rfl
@[simp] theorem State.pendingInvalidate_alu (s : State) : (s.pendingInvalidate).alu = s.alu := by unfold State.pendingInvalidate; split <;> rfl
@[simp] theorem State.pendingInvalidate_tlb (s : State) : (s.pendingInvalidate).tlb = s.tlb := by unfold State.pendingInvalidate; split <;> rfl
@[simp] theorem State.pendingInvalidate_idm (s : State) : (s.pendingInvalidate).idm = s.idm := by unfold State.pendingInvalidate; split <;> rfl
@[simp] theorem State.pendingInvalidate_rom (s : State) : (s.pendingInvalidate).rom = s.rom := by unfold State.pendingInvalidate; split <;> rfl
@[simp] theorem State.pendingInvalidate_inflight (s : State) : (s.pendingInvalidate).inflight = s.inflight := by unfold State.pendingInvalidate; split <;> rfl
@[simp] theorem State.pendingInvalidate_derr (s : State) : (s.pendingInvalidate).derr = s.derr := by unfold State.pendingInvalidate; split <;> rfl
@[simp] theorem State.pendingInvalidate_mode (s : State) : (s.pendingInvalidate).mode = s.mode := by unfold State.pendingInvalidate; split <;> rfl
@[simp] theorem State.pendingInvalidate_pins (s : State) : (s.pendingInvalidate).pins = s.pins := by unfold State.pendingInvalidate; split <;> rfl
@[simp] theorem State.pendingInvalidate_warnPending (s : State) : (s.pendingInvalidate).warnPending = s.warnPending := by unfold State.pendingInvalidate; split <;> rfl
@[simp] theorem State.pendingInvalidate_ir (s : State) : (s.pendingInvalidate).ir = s.ir := by unfold State.pendingInvalidate; split <;> rfl
@[simp] theorem State.pendingInvalidate_irValid (s : State) : (s.pendingInvalidate).irValid = s.irValid := by unfold State.pendingInvalidate; split <;> rfl
@[simp] theorem State.pendingInvalidate_testing (s : State) : (s.pendingInvalidate).testing = s.testing := by unfold State.pendingInvalidate; split <;> rfl
@[simp] theorem State.pendingInvalidate_cdInForce (s : State) : (s.pendingInvalidate).cdInForce = s.cdInForce := by unfold State.pendingInvalidate; split <;> rfl
@[simp] theorem State.pendingInvalidate_block (s : State) : (s.pendingInvalidate).block = s.block := by unfold State.pendingInvalidate; split <;> rfl
@[simp] theorem State.pendingInvalidate_turn (s : State) : (s.pendingInvalidate).turn = s.turn := by unfold State.pendingInvalidate; split <;> rfl
@[simp] theorem State.pendingInvalidate_nextTurn (s : State) : (s.pendingInvalidate).nextTurn = s.nextTurn := by unfold State.pendingInvalidate; split <;> rfl
@[simp] theorem State.pendingInvalidate_lastNonseq (s : State) : (s.pendingInvalidate).lastNonseq = s.lastNonseq := by unfold State.pendingInvalidate; split <;> rfl
@[simp] theorem State.pendingInvalidate_oldWords (s : State) : (s.pendingInvalidate).oldWords = s.oldWords := by unfold State.pendingInvalidate; split <;> rfl
@[simp] theorem State.pendingInvalidate_oldMaps (s : State) : (s.pendingInvalidate).oldMaps = s.oldMaps := by unfold State.pendingInvalidate; split <;> rfl
@[simp] theorem State.pendingInvalidate_stream (s : State) : (s.pendingInvalidate).stream = s.stream := by unfold State.pendingInvalidate; split <;> rfl
@[simp] theorem State.pendingInvalidate_afterMultiple (s : State) : (s.pendingInvalidate).afterMultiple = s.afterMultiple := by unfold State.pendingInvalidate; split <;> rfl
@[simp] theorem State.pendingInvalidate_mlByMove (s : State) : (s.pendingInvalidate).mlByMove = s.mlByMove := by unfold State.pendingInvalidate; split <;> rfl
@[simp] theorem State.pendingInvalidate_sys (s : State) : (s.pendingInvalidate).sys = s.sys := by unfold State.pendingInvalidate; split <;> rfl
@[simp] theorem State.pendingInvalidate_clock (s : State) : (s.pendingInvalidate).clock = s.clock := by unfold State.pendingInvalidate; split <;> rfl
@[simp] theorem State.pendingInvalidate_env (s : State) : (s.pendingInvalidate).env = s.env := by unfold State.pendingInvalidate; split <;> rfl

@[simp] theorem State.endStream_gpr (s : State) : (s.endStream).gpr = s.gpr := rfl
@[simp] theorem State.endStream_gr1 (s : State) : (s.endStream).gr1 = s.gr1 := rfl
@[simp] theorem State.endStream_sps (s : State) : (s.endStream).sps = s.sps := rfl
@[simp] theorem State.endStream_pc (s : State) : (s.endStream).pc = s.pc := rfl
@[simp] theorem State.endStream_npc (s : State) : (s.endStream).npc = s.npc := rfl
@[simp] theorem State.endStream_ppc (s : State) : (s.endStream).ppc = s.ppc := rfl
@[simp] theorem State.endStream_vab (s : State) : (s.endStream).vab = s.vab := rfl
@[simp] theorem State.endStream_ops (s : State) : (s.endStream).ops = s.ops := rfl
@[simp] theorem State.endStream_cps (s : State) : (s.endStream).cps = s.cps := rfl
@[simp] theorem State.endStream_cfg (s : State) : (s.endStream).cfg = s.cfg := rfl
@[simp] theorem State.endStream_cha (s : State) : (s.endStream).cha = s.cha := rfl
@[simp] theorem State.endStream_chd (s : State) : (s.endStream).chd = s.chd := rfl
@[simp] theorem State.endStream_chc (s : State) : (s.endStream).chc = s.chc := rfl
@[simp] theorem State.endStream_rbp (s : State) : (s.endStream).rbp = s.rbp := rfl
@[simp] theorem State.endStream_tmc (s : State) : (s.endStream).tmc = s.tmc := rfl
@[simp] theorem State.endStream_tmr (s : State) : (s.endStream).tmr = s.tmr := rfl
@[simp] theorem State.endStream_pc0 (s : State) : (s.endStream).pc0 = s.pc0 := rfl
@[simp] theorem State.endStream_pc1 (s : State) : (s.endStream).pc1 = s.pc1 := rfl
@[simp] theorem State.endStream_pc2 (s : State) : (s.endStream).pc2 = s.pc2 := rfl
@[simp] theorem State.endStream_mmu (s : State) : (s.endStream).mmu = s.mmu := rfl
@[simp] theorem State.endStream_psTarget (s : State) : (s.endStream).psTarget = s.psTarget := rfl
@[simp] theorem State.endStream_psBefore (s : State) : (s.endStream).psBefore = s.psBefore := rfl
@[simp] theorem State.endStream_lru (s : State) : (s.endStream).lru = s.lru := rfl
@[simp] theorem State.endStream_ipc (s : State) : (s.endStream).ipc = s.ipc := rfl
@[simp] theorem State.endStream_ipa (s : State) : (s.endStream).ipa = s.ipa := rfl
@[simp] theorem State.endStream_ipb (s : State) : (s.endStream).ipb = s.ipb := rfl
@[simp] theorem State.endStream_q (s : State) : (s.endStream).q = s.q := rfl
@[simp] theorem State.endStream_alu (s : State) : (s.endStream).alu = s.alu := rfl
@[simp] theorem State.endStream_tlb (s : State) : (s.endStream).tlb = s.tlb := rfl
@[simp] theorem State.endStream_idm (s : State) : (s.endStream).idm = s.idm := rfl
@[simp] theorem State.endStream_rom (s : State) : (s.endStream).rom = s.rom := rfl
@[simp] theorem State.endStream_inflight (s : State) : (s.endStream).inflight = s.inflight := rfl
@[simp] theorem State.endStream_derr (s : State) : (s.endStream).derr = s.derr := rfl
@[simp] theorem State.endStream_mode (s : State) : (s.endStream).mode = s.mode := rfl
@[simp] theorem State.endStream_pins (s : State) : (s.endStream).pins = s.pins := rfl
@[simp] theorem State.endStream_warnPending (s : State) : (s.endStream).warnPending = s.warnPending := rfl
@[simp] theorem State.endStream_ir (s : State) : (s.endStream).ir = s.ir := rfl
@[simp] theorem State.endStream_irValid (s : State) : (s.endStream).irValid = s.irValid := rfl
@[simp] theorem State.endStream_testing (s : State) : (s.endStream).testing = s.testing := rfl
@[simp] theorem State.endStream_invPending (s : State) : (s.endStream).invPending = s.invPending := rfl
@[simp] theorem State.endStream_cdInForce (s : State) : (s.endStream).cdInForce = s.cdInForce := rfl
@[simp] theorem State.endStream_block (s : State) : (s.endStream).block = s.block := rfl
@[simp] theorem State.endStream_turn (s : State) : (s.endStream).turn = s.turn := rfl
@[simp] theorem State.endStream_nextTurn (s : State) : (s.endStream).nextTurn = s.nextTurn := rfl
@[simp] theorem State.endStream_lastNonseq (s : State) : (s.endStream).lastNonseq = s.lastNonseq := rfl
@[simp] theorem State.endStream_cacheSince (s : State) : (s.endStream).cacheSince = s.cacheSince := rfl
@[simp] theorem State.endStream_cacheUndefined (s : State) : (s.endStream).cacheUndefined = s.cacheUndefined := rfl
@[simp] theorem State.endStream_oldWords (s : State) : (s.endStream).oldWords = s.oldWords := rfl
@[simp] theorem State.endStream_oldMaps (s : State) : (s.endStream).oldMaps = s.oldMaps := rfl
@[simp] theorem State.endStream_afterMultiple (s : State) : (s.endStream).afterMultiple = s.afterMultiple := rfl
@[simp] theorem State.endStream_mlByMove (s : State) : (s.endStream).mlByMove = s.mlByMove := rfl
@[simp] theorem State.endStream_sys (s : State) : (s.endStream).sys = s.sys := rfl
@[simp] theorem State.endStream_clock (s : State) : (s.endStream).clock = s.clock := rfl
@[simp] theorem State.endStream_env (s : State) : (s.endStream).env = s.env := rfl

@[simp] theorem State.windowTarget_gpr (s : State) : (s.windowTarget).gpr = s.gpr := by unfold State.windowTarget; split <;> rfl
@[simp] theorem State.windowTarget_gr1 (s : State) : (s.windowTarget).gr1 = s.gr1 := by unfold State.windowTarget; split <;> rfl
@[simp] theorem State.windowTarget_sps (s : State) : (s.windowTarget).sps = s.sps := by unfold State.windowTarget; split <;> rfl
@[simp] theorem State.windowTarget_pc (s : State) : (s.windowTarget).pc = s.pc := by unfold State.windowTarget; split <;> rfl
@[simp] theorem State.windowTarget_npc (s : State) : (s.windowTarget).npc = s.npc := by unfold State.windowTarget; split <;> rfl
@[simp] theorem State.windowTarget_ppc (s : State) : (s.windowTarget).ppc = s.ppc := by unfold State.windowTarget; split <;> rfl
@[simp] theorem State.windowTarget_vab (s : State) : (s.windowTarget).vab = s.vab := by unfold State.windowTarget; split <;> rfl
@[simp] theorem State.windowTarget_ops (s : State) : (s.windowTarget).ops = s.ops := by unfold State.windowTarget; split <;> rfl
@[simp] theorem State.windowTarget_cps (s : State) : (s.windowTarget).cps = s.cps := by unfold State.windowTarget; split <;> rfl
@[simp] theorem State.windowTarget_cfg (s : State) : (s.windowTarget).cfg = s.cfg := by unfold State.windowTarget; split <;> rfl
@[simp] theorem State.windowTarget_cha (s : State) : (s.windowTarget).cha = s.cha := by unfold State.windowTarget; split <;> rfl
@[simp] theorem State.windowTarget_chd (s : State) : (s.windowTarget).chd = s.chd := by unfold State.windowTarget; split <;> rfl
@[simp] theorem State.windowTarget_chc (s : State) : (s.windowTarget).chc = s.chc := by unfold State.windowTarget; split <;> rfl
@[simp] theorem State.windowTarget_rbp (s : State) : (s.windowTarget).rbp = s.rbp := by unfold State.windowTarget; split <;> rfl
@[simp] theorem State.windowTarget_tmc (s : State) : (s.windowTarget).tmc = s.tmc := by unfold State.windowTarget; split <;> rfl
@[simp] theorem State.windowTarget_tmr (s : State) : (s.windowTarget).tmr = s.tmr := by unfold State.windowTarget; split <;> rfl
@[simp] theorem State.windowTarget_pc0 (s : State) : (s.windowTarget).pc0 = s.pc0 := by unfold State.windowTarget; split <;> rfl
@[simp] theorem State.windowTarget_pc1 (s : State) : (s.windowTarget).pc1 = s.pc1 := by unfold State.windowTarget; split <;> rfl
@[simp] theorem State.windowTarget_pc2 (s : State) : (s.windowTarget).pc2 = s.pc2 := by unfold State.windowTarget; split <;> rfl
@[simp] theorem State.windowTarget_mmu (s : State) : (s.windowTarget).mmu = s.mmu := by unfold State.windowTarget; split <;> rfl
@[simp] theorem State.windowTarget_lru (s : State) : (s.windowTarget).lru = s.lru := by unfold State.windowTarget; split <;> rfl
@[simp] theorem State.windowTarget_ipc (s : State) : (s.windowTarget).ipc = s.ipc := by unfold State.windowTarget; split <;> rfl
@[simp] theorem State.windowTarget_ipa (s : State) : (s.windowTarget).ipa = s.ipa := by unfold State.windowTarget; split <;> rfl
@[simp] theorem State.windowTarget_ipb (s : State) : (s.windowTarget).ipb = s.ipb := by unfold State.windowTarget; split <;> rfl
@[simp] theorem State.windowTarget_q (s : State) : (s.windowTarget).q = s.q := by unfold State.windowTarget; split <;> rfl
@[simp] theorem State.windowTarget_alu (s : State) : (s.windowTarget).alu = s.alu := by unfold State.windowTarget; split <;> rfl
@[simp] theorem State.windowTarget_tlb (s : State) : (s.windowTarget).tlb = s.tlb := by unfold State.windowTarget; split <;> rfl
@[simp] theorem State.windowTarget_idm (s : State) : (s.windowTarget).idm = s.idm := by unfold State.windowTarget; split <;> rfl
@[simp] theorem State.windowTarget_rom (s : State) : (s.windowTarget).rom = s.rom := by unfold State.windowTarget; split <;> rfl
@[simp] theorem State.windowTarget_inflight (s : State) : (s.windowTarget).inflight = s.inflight := by unfold State.windowTarget; split <;> rfl
@[simp] theorem State.windowTarget_derr (s : State) : (s.windowTarget).derr = s.derr := by unfold State.windowTarget; split <;> rfl
@[simp] theorem State.windowTarget_mode (s : State) : (s.windowTarget).mode = s.mode := by unfold State.windowTarget; split <;> rfl
@[simp] theorem State.windowTarget_pins (s : State) : (s.windowTarget).pins = s.pins := by unfold State.windowTarget; split <;> rfl
@[simp] theorem State.windowTarget_warnPending (s : State) : (s.windowTarget).warnPending = s.warnPending := by unfold State.windowTarget; split <;> rfl
@[simp] theorem State.windowTarget_ir (s : State) : (s.windowTarget).ir = s.ir := by unfold State.windowTarget; split <;> rfl
@[simp] theorem State.windowTarget_irValid (s : State) : (s.windowTarget).irValid = s.irValid := by unfold State.windowTarget; split <;> rfl
@[simp] theorem State.windowTarget_testing (s : State) : (s.windowTarget).testing = s.testing := by unfold State.windowTarget; split <;> rfl
@[simp] theorem State.windowTarget_invPending (s : State) : (s.windowTarget).invPending = s.invPending := by unfold State.windowTarget; split <;> rfl
@[simp] theorem State.windowTarget_cdInForce (s : State) : (s.windowTarget).cdInForce = s.cdInForce := by unfold State.windowTarget; split <;> rfl
@[simp] theorem State.windowTarget_block (s : State) : (s.windowTarget).block = s.block := by unfold State.windowTarget; split <;> rfl
@[simp] theorem State.windowTarget_turn (s : State) : (s.windowTarget).turn = s.turn := by unfold State.windowTarget; split <;> rfl
@[simp] theorem State.windowTarget_nextTurn (s : State) : (s.windowTarget).nextTurn = s.nextTurn := by unfold State.windowTarget; split <;> rfl
@[simp] theorem State.windowTarget_lastNonseq (s : State) : (s.windowTarget).lastNonseq = s.lastNonseq := by unfold State.windowTarget; split <;> rfl
@[simp] theorem State.windowTarget_cacheSince (s : State) : (s.windowTarget).cacheSince = s.cacheSince := by unfold State.windowTarget; split <;> rfl
@[simp] theorem State.windowTarget_cacheUndefined (s : State) : (s.windowTarget).cacheUndefined = s.cacheUndefined := by unfold State.windowTarget; split <;> rfl
@[simp] theorem State.windowTarget_oldWords (s : State) : (s.windowTarget).oldWords = s.oldWords := by unfold State.windowTarget; split <;> rfl
@[simp] theorem State.windowTarget_oldMaps (s : State) : (s.windowTarget).oldMaps = s.oldMaps := by unfold State.windowTarget; split <;> rfl
@[simp] theorem State.windowTarget_stream (s : State) : (s.windowTarget).stream = s.stream := by unfold State.windowTarget; split <;> rfl
@[simp] theorem State.windowTarget_afterMultiple (s : State) : (s.windowTarget).afterMultiple = s.afterMultiple := by unfold State.windowTarget; split <;> rfl
@[simp] theorem State.windowTarget_mlByMove (s : State) : (s.windowTarget).mlByMove = s.mlByMove := by unfold State.windowTarget; split <;> rfl
@[simp] theorem State.windowTarget_sys (s : State) : (s.windowTarget).sys = s.sys := by unfold State.windowTarget; split <;> rfl
@[simp] theorem State.windowTarget_clock (s : State) : (s.windowTarget).clock = s.clock := by unfold State.windowTarget; split <;> rfl
@[simp] theorem State.windowTarget_env (s : State) : (s.windowTarget).env = s.env := by unfold State.windowTarget; split <;> rfl

@[simp] theorem State.branchTo_gpr (s : State) (t : IAddr) : (s.branchTo t).gpr = s.gpr := by simp [State.branchTo]
@[simp] theorem State.branchTo_gr1 (s : State) (t : IAddr) : (s.branchTo t).gr1 = s.gr1 := by simp [State.branchTo]
@[simp] theorem State.branchTo_vab (s : State) (t : IAddr) : (s.branchTo t).vab = s.vab := by simp [State.branchTo]
@[simp] theorem State.branchTo_ops (s : State) (t : IAddr) : (s.branchTo t).ops = s.ops := by simp [State.branchTo]
@[simp] theorem State.branchTo_cfg (s : State) (t : IAddr) : (s.branchTo t).cfg = s.cfg := by simp [State.branchTo]
@[simp] theorem State.branchTo_cha (s : State) (t : IAddr) : (s.branchTo t).cha = s.cha := by simp [State.branchTo]
@[simp] theorem State.branchTo_chd (s : State) (t : IAddr) : (s.branchTo t).chd = s.chd := by simp [State.branchTo]
@[simp] theorem State.branchTo_chc (s : State) (t : IAddr) : (s.branchTo t).chc = s.chc := by simp [State.branchTo]
@[simp] theorem State.branchTo_rbp (s : State) (t : IAddr) : (s.branchTo t).rbp = s.rbp := by simp [State.branchTo]
@[simp] theorem State.branchTo_tmc (s : State) (t : IAddr) : (s.branchTo t).tmc = s.tmc := by simp [State.branchTo]
@[simp] theorem State.branchTo_tmr (s : State) (t : IAddr) : (s.branchTo t).tmr = s.tmr := by simp [State.branchTo]
@[simp] theorem State.branchTo_pc0 (s : State) (t : IAddr) : (s.branchTo t).pc0 = s.pc0 := by simp [State.branchTo]
@[simp] theorem State.branchTo_pc1 (s : State) (t : IAddr) : (s.branchTo t).pc1 = s.pc1 := by simp [State.branchTo]
@[simp] theorem State.branchTo_pc2 (s : State) (t : IAddr) : (s.branchTo t).pc2 = s.pc2 := by simp [State.branchTo]
@[simp] theorem State.branchTo_lru (s : State) (t : IAddr) : (s.branchTo t).lru = s.lru := by simp [State.branchTo]
@[simp] theorem State.branchTo_q (s : State) (t : IAddr) : (s.branchTo t).q = s.q := by simp [State.branchTo]
@[simp] theorem State.branchTo_alu (s : State) (t : IAddr) : (s.branchTo t).alu = s.alu := by simp [State.branchTo]
@[simp] theorem State.branchTo_tlb (s : State) (t : IAddr) : (s.branchTo t).tlb = s.tlb := by simp [State.branchTo]
@[simp] theorem State.branchTo_idm (s : State) (t : IAddr) : (s.branchTo t).idm = s.idm := by simp [State.branchTo]
@[simp] theorem State.branchTo_rom (s : State) (t : IAddr) : (s.branchTo t).rom = s.rom := by simp [State.branchTo]
@[simp] theorem State.branchTo_inflight (s : State) (t : IAddr) : (s.branchTo t).inflight = s.inflight := by simp [State.branchTo]
@[simp] theorem State.branchTo_derr (s : State) (t : IAddr) : (s.branchTo t).derr = s.derr := by simp [State.branchTo]
@[simp] theorem State.branchTo_mode (s : State) (t : IAddr) : (s.branchTo t).mode = s.mode := by simp [State.branchTo]
@[simp] theorem State.branchTo_pins (s : State) (t : IAddr) : (s.branchTo t).pins = s.pins := by simp [State.branchTo]
@[simp] theorem State.branchTo_warnPending (s : State) (t : IAddr) : (s.branchTo t).warnPending = s.warnPending := by simp [State.branchTo]
@[simp] theorem State.branchTo_ir (s : State) (t : IAddr) : (s.branchTo t).ir = s.ir := by simp [State.branchTo]
@[simp] theorem State.branchTo_irValid (s : State) (t : IAddr) : (s.branchTo t).irValid = s.irValid := by simp [State.branchTo]
@[simp] theorem State.branchTo_testing (s : State) (t : IAddr) : (s.branchTo t).testing = s.testing := by simp [State.branchTo]
@[simp] theorem State.branchTo_cdInForce (s : State) (t : IAddr) : (s.branchTo t).cdInForce = s.cdInForce := by simp [State.branchTo]
@[simp] theorem State.branchTo_block (s : State) (t : IAddr) : (s.branchTo t).block = s.block := by simp [State.branchTo]
@[simp] theorem State.branchTo_lastNonseq (s : State) (t : IAddr) : (s.branchTo t).lastNonseq = s.lastNonseq := by simp [State.branchTo]
@[simp] theorem State.branchTo_oldWords (s : State) (t : IAddr) : (s.branchTo t).oldWords = s.oldWords := by simp [State.branchTo]
@[simp] theorem State.branchTo_oldMaps (s : State) (t : IAddr) : (s.branchTo t).oldMaps = s.oldMaps := by simp [State.branchTo]
@[simp] theorem State.branchTo_mlByMove (s : State) (t : IAddr) : (s.branchTo t).mlByMove = s.mlByMove := by simp [State.branchTo]
@[simp] theorem State.branchTo_sys (s : State) (t : IAddr) : (s.branchTo t).sys = s.sys := by simp [State.branchTo]
@[simp] theorem State.branchTo_clock (s : State) (t : IAddr) : (s.branchTo t).clock = s.clock := by simp [State.branchTo]
@[simp] theorem State.branchTo_env (s : State) (t : IAddr) : (s.branchTo t).env = s.env := by simp [State.branchTo]

@[simp] theorem State.saveStatus_gpr (s : State) : (s.saveStatus).gpr = s.gpr := rfl
@[simp] theorem State.saveStatus_gr1 (s : State) : (s.saveStatus).gr1 = s.gr1 := rfl
@[simp] theorem State.saveStatus_sps (s : State) : (s.saveStatus).sps = s.sps := rfl
@[simp] theorem State.saveStatus_pc (s : State) : (s.saveStatus).pc = s.pc := rfl
@[simp] theorem State.saveStatus_npc (s : State) : (s.saveStatus).npc = s.npc := rfl
@[simp] theorem State.saveStatus_ppc (s : State) : (s.saveStatus).ppc = s.ppc := rfl
@[simp] theorem State.saveStatus_vab (s : State) : (s.saveStatus).vab = s.vab := rfl
@[simp] theorem State.saveStatus_cfg (s : State) : (s.saveStatus).cfg = s.cfg := rfl
@[simp] theorem State.saveStatus_cha (s : State) : (s.saveStatus).cha = s.cha := rfl
@[simp] theorem State.saveStatus_chd (s : State) : (s.saveStatus).chd = s.chd := rfl
@[simp] theorem State.saveStatus_chc (s : State) : (s.saveStatus).chc = s.chc := rfl
@[simp] theorem State.saveStatus_rbp (s : State) : (s.saveStatus).rbp = s.rbp := rfl
@[simp] theorem State.saveStatus_tmc (s : State) : (s.saveStatus).tmc = s.tmc := rfl
@[simp] theorem State.saveStatus_tmr (s : State) : (s.saveStatus).tmr = s.tmr := rfl
@[simp] theorem State.saveStatus_mmu (s : State) : (s.saveStatus).mmu = s.mmu := rfl
@[simp] theorem State.saveStatus_psTarget (s : State) : (s.saveStatus).psTarget = s.psTarget := rfl
@[simp] theorem State.saveStatus_psBefore (s : State) : (s.saveStatus).psBefore = s.psBefore := rfl
@[simp] theorem State.saveStatus_lru (s : State) : (s.saveStatus).lru = s.lru := rfl
@[simp] theorem State.saveStatus_ipc (s : State) : (s.saveStatus).ipc = s.ipc := rfl
@[simp] theorem State.saveStatus_ipa (s : State) : (s.saveStatus).ipa = s.ipa := rfl
@[simp] theorem State.saveStatus_ipb (s : State) : (s.saveStatus).ipb = s.ipb := rfl
@[simp] theorem State.saveStatus_q (s : State) : (s.saveStatus).q = s.q := rfl
@[simp] theorem State.saveStatus_alu (s : State) : (s.saveStatus).alu = s.alu := rfl
@[simp] theorem State.saveStatus_tlb (s : State) : (s.saveStatus).tlb = s.tlb := rfl
@[simp] theorem State.saveStatus_idm (s : State) : (s.saveStatus).idm = s.idm := rfl
@[simp] theorem State.saveStatus_rom (s : State) : (s.saveStatus).rom = s.rom := rfl
@[simp] theorem State.saveStatus_inflight (s : State) : (s.saveStatus).inflight = s.inflight := rfl
@[simp] theorem State.saveStatus_derr (s : State) : (s.saveStatus).derr = s.derr := rfl
@[simp] theorem State.saveStatus_mode (s : State) : (s.saveStatus).mode = s.mode := rfl
@[simp] theorem State.saveStatus_pins (s : State) : (s.saveStatus).pins = s.pins := rfl
@[simp] theorem State.saveStatus_warnPending (s : State) : (s.saveStatus).warnPending = s.warnPending := rfl
@[simp] theorem State.saveStatus_ir (s : State) : (s.saveStatus).ir = s.ir := rfl
@[simp] theorem State.saveStatus_irValid (s : State) : (s.saveStatus).irValid = s.irValid := rfl
@[simp] theorem State.saveStatus_testing (s : State) : (s.saveStatus).testing = s.testing := rfl
@[simp] theorem State.saveStatus_invPending (s : State) : (s.saveStatus).invPending = s.invPending := rfl
@[simp] theorem State.saveStatus_cdInForce (s : State) : (s.saveStatus).cdInForce = s.cdInForce := rfl
@[simp] theorem State.saveStatus_block (s : State) : (s.saveStatus).block = s.block := rfl
@[simp] theorem State.saveStatus_turn (s : State) : (s.saveStatus).turn = s.turn := rfl
@[simp] theorem State.saveStatus_nextTurn (s : State) : (s.saveStatus).nextTurn = s.nextTurn := rfl
@[simp] theorem State.saveStatus_lastNonseq (s : State) : (s.saveStatus).lastNonseq = s.lastNonseq := rfl
@[simp] theorem State.saveStatus_cacheSince (s : State) : (s.saveStatus).cacheSince = s.cacheSince := rfl
@[simp] theorem State.saveStatus_cacheUndefined (s : State) : (s.saveStatus).cacheUndefined = s.cacheUndefined := rfl
@[simp] theorem State.saveStatus_oldWords (s : State) : (s.saveStatus).oldWords = s.oldWords := rfl
@[simp] theorem State.saveStatus_stream (s : State) : (s.saveStatus).stream = s.stream := rfl
@[simp] theorem State.saveStatus_afterMultiple (s : State) : (s.saveStatus).afterMultiple = s.afterMultiple := rfl
@[simp] theorem State.saveStatus_mlByMove (s : State) : (s.saveStatus).mlByMove = s.mlByMove := rfl
@[simp] theorem State.saveStatus_sys (s : State) : (s.saveStatus).sys = s.sys := rfl
@[simp] theorem State.saveStatus_clock (s : State) : (s.saveStatus).clock = s.clock := rfl
@[simp] theorem State.saveStatus_env (s : State) : (s.saveStatus).env = s.env := rfl

@[simp] theorem State.enterHandler_gpr (s : State) (t : IAddr) (re : Bool) : (s.enterHandler t re).gpr = s.gpr := rfl
@[simp] theorem State.enterHandler_gr1 (s : State) (t : IAddr) (re : Bool) : (s.enterHandler t re).gr1 = s.gr1 := rfl
@[simp] theorem State.enterHandler_ppc (s : State) (t : IAddr) (re : Bool) : (s.enterHandler t re).ppc = s.ppc := rfl
@[simp] theorem State.enterHandler_vab (s : State) (t : IAddr) (re : Bool) : (s.enterHandler t re).vab = s.vab := rfl
@[simp] theorem State.enterHandler_ops (s : State) (t : IAddr) (re : Bool) : (s.enterHandler t re).ops = s.ops := rfl
@[simp] theorem State.enterHandler_cfg (s : State) (t : IAddr) (re : Bool) : (s.enterHandler t re).cfg = s.cfg := rfl
@[simp] theorem State.enterHandler_cha (s : State) (t : IAddr) (re : Bool) : (s.enterHandler t re).cha = s.cha := rfl
@[simp] theorem State.enterHandler_chd (s : State) (t : IAddr) (re : Bool) : (s.enterHandler t re).chd = s.chd := rfl
@[simp] theorem State.enterHandler_chc (s : State) (t : IAddr) (re : Bool) : (s.enterHandler t re).chc = s.chc := rfl
@[simp] theorem State.enterHandler_rbp (s : State) (t : IAddr) (re : Bool) : (s.enterHandler t re).rbp = s.rbp := rfl
@[simp] theorem State.enterHandler_tmc (s : State) (t : IAddr) (re : Bool) : (s.enterHandler t re).tmc = s.tmc := rfl
@[simp] theorem State.enterHandler_tmr (s : State) (t : IAddr) (re : Bool) : (s.enterHandler t re).tmr = s.tmr := rfl
@[simp] theorem State.enterHandler_pc0 (s : State) (t : IAddr) (re : Bool) : (s.enterHandler t re).pc0 = s.pc0 := rfl
@[simp] theorem State.enterHandler_pc1 (s : State) (t : IAddr) (re : Bool) : (s.enterHandler t re).pc1 = s.pc1 := rfl
@[simp] theorem State.enterHandler_pc2 (s : State) (t : IAddr) (re : Bool) : (s.enterHandler t re).pc2 = s.pc2 := rfl
@[simp] theorem State.enterHandler_psBefore (s : State) (t : IAddr) (re : Bool) : (s.enterHandler t re).psBefore = s.psBefore := rfl
@[simp] theorem State.enterHandler_lru (s : State) (t : IAddr) (re : Bool) : (s.enterHandler t re).lru = s.lru := rfl
@[simp] theorem State.enterHandler_q (s : State) (t : IAddr) (re : Bool) : (s.enterHandler t re).q = s.q := rfl
@[simp] theorem State.enterHandler_alu (s : State) (t : IAddr) (re : Bool) : (s.enterHandler t re).alu = s.alu := rfl
@[simp] theorem State.enterHandler_tlb (s : State) (t : IAddr) (re : Bool) : (s.enterHandler t re).tlb = s.tlb := rfl
@[simp] theorem State.enterHandler_idm (s : State) (t : IAddr) (re : Bool) : (s.enterHandler t re).idm = s.idm := rfl
@[simp] theorem State.enterHandler_rom (s : State) (t : IAddr) (re : Bool) : (s.enterHandler t re).rom = s.rom := rfl
@[simp] theorem State.enterHandler_inflight (s : State) (t : IAddr) (re : Bool) : (s.enterHandler t re).inflight = s.inflight := rfl
@[simp] theorem State.enterHandler_derr (s : State) (t : IAddr) (re : Bool) : (s.enterHandler t re).derr = s.derr := rfl
@[simp] theorem State.enterHandler_mode (s : State) (t : IAddr) (re : Bool) : (s.enterHandler t re).mode = s.mode := rfl
@[simp] theorem State.enterHandler_pins (s : State) (t : IAddr) (re : Bool) : (s.enterHandler t re).pins = s.pins := rfl
@[simp] theorem State.enterHandler_warnPending (s : State) (t : IAddr) (re : Bool) : (s.enterHandler t re).warnPending = s.warnPending := rfl
@[simp] theorem State.enterHandler_ir (s : State) (t : IAddr) (re : Bool) : (s.enterHandler t re).ir = s.ir := rfl
@[simp] theorem State.enterHandler_irValid (s : State) (t : IAddr) (re : Bool) : (s.enterHandler t re).irValid = s.irValid := rfl
@[simp] theorem State.enterHandler_testing (s : State) (t : IAddr) (re : Bool) : (s.enterHandler t re).testing = s.testing := rfl
@[simp] theorem State.enterHandler_invPending (s : State) (t : IAddr) (re : Bool) : (s.enterHandler t re).invPending = s.invPending := rfl
@[simp] theorem State.enterHandler_cdInForce (s : State) (t : IAddr) (re : Bool) : (s.enterHandler t re).cdInForce = s.cdInForce := rfl
@[simp] theorem State.enterHandler_block (s : State) (t : IAddr) (re : Bool) : (s.enterHandler t re).block = s.block := rfl
@[simp] theorem State.enterHandler_lastNonseq (s : State) (t : IAddr) (re : Bool) : (s.enterHandler t re).lastNonseq = s.lastNonseq := rfl
@[simp] theorem State.enterHandler_cacheSince (s : State) (t : IAddr) (re : Bool) : (s.enterHandler t re).cacheSince = s.cacheSince := rfl
@[simp] theorem State.enterHandler_cacheUndefined (s : State) (t : IAddr) (re : Bool) : (s.enterHandler t re).cacheUndefined = s.cacheUndefined := rfl
@[simp] theorem State.enterHandler_oldWords (s : State) (t : IAddr) (re : Bool) : (s.enterHandler t re).oldWords = s.oldWords := rfl
@[simp] theorem State.enterHandler_oldMaps (s : State) (t : IAddr) (re : Bool) : (s.enterHandler t re).oldMaps = s.oldMaps := rfl
@[simp] theorem State.enterHandler_mlByMove (s : State) (t : IAddr) (re : Bool) : (s.enterHandler t re).mlByMove = s.mlByMove := rfl
@[simp] theorem State.enterHandler_sys (s : State) (t : IAddr) (re : Bool) : (s.enterHandler t re).sys = s.sys := rfl
@[simp] theorem State.enterHandler_clock (s : State) (t : IAddr) (re : Bool) : (s.enterHandler t re).clock = s.clock := rfl
@[simp] theorem State.enterHandler_env (s : State) (t : IAddr) (re : Bool) : (s.enterHandler t re).env = s.env := rfl

@[simp] theorem State.record_gpr (s : State) (d : Access) (ml : Bool) (cr : BitVec 8) : (s.record d ml cr).gpr = s.gpr := by unfold State.record; split <;> rfl
@[simp] theorem State.record_gr1 (s : State) (d : Access) (ml : Bool) (cr : BitVec 8) : (s.record d ml cr).gr1 = s.gr1 := by unfold State.record; split <;> rfl
@[simp] theorem State.record_sps (s : State) (d : Access) (ml : Bool) (cr : BitVec 8) : (s.record d ml cr).sps = s.sps := by unfold State.record; split <;> rfl
@[simp] theorem State.record_pc (s : State) (d : Access) (ml : Bool) (cr : BitVec 8) : (s.record d ml cr).pc = s.pc := by unfold State.record; split <;> rfl
@[simp] theorem State.record_npc (s : State) (d : Access) (ml : Bool) (cr : BitVec 8) : (s.record d ml cr).npc = s.npc := by unfold State.record; split <;> rfl
@[simp] theorem State.record_ppc (s : State) (d : Access) (ml : Bool) (cr : BitVec 8) : (s.record d ml cr).ppc = s.ppc := by unfold State.record; split <;> rfl
@[simp] theorem State.record_vab (s : State) (d : Access) (ml : Bool) (cr : BitVec 8) : (s.record d ml cr).vab = s.vab := by unfold State.record; split <;> rfl
@[simp] theorem State.record_ops (s : State) (d : Access) (ml : Bool) (cr : BitVec 8) : (s.record d ml cr).ops = s.ops := by unfold State.record; split <;> rfl
@[simp] theorem State.record_cps (s : State) (d : Access) (ml : Bool) (cr : BitVec 8) : (s.record d ml cr).cps = s.cps := by unfold State.record; split <;> rfl
@[simp] theorem State.record_cfg (s : State) (d : Access) (ml : Bool) (cr : BitVec 8) : (s.record d ml cr).cfg = s.cfg := by unfold State.record; split <;> rfl
@[simp] theorem State.record_rbp (s : State) (d : Access) (ml : Bool) (cr : BitVec 8) : (s.record d ml cr).rbp = s.rbp := by unfold State.record; split <;> rfl
@[simp] theorem State.record_tmc (s : State) (d : Access) (ml : Bool) (cr : BitVec 8) : (s.record d ml cr).tmc = s.tmc := by unfold State.record; split <;> rfl
@[simp] theorem State.record_tmr (s : State) (d : Access) (ml : Bool) (cr : BitVec 8) : (s.record d ml cr).tmr = s.tmr := by unfold State.record; split <;> rfl
@[simp] theorem State.record_pc0 (s : State) (d : Access) (ml : Bool) (cr : BitVec 8) : (s.record d ml cr).pc0 = s.pc0 := by unfold State.record; split <;> rfl
@[simp] theorem State.record_pc1 (s : State) (d : Access) (ml : Bool) (cr : BitVec 8) : (s.record d ml cr).pc1 = s.pc1 := by unfold State.record; split <;> rfl
@[simp] theorem State.record_pc2 (s : State) (d : Access) (ml : Bool) (cr : BitVec 8) : (s.record d ml cr).pc2 = s.pc2 := by unfold State.record; split <;> rfl
@[simp] theorem State.record_mmu (s : State) (d : Access) (ml : Bool) (cr : BitVec 8) : (s.record d ml cr).mmu = s.mmu := by unfold State.record; split <;> rfl
@[simp] theorem State.record_psTarget (s : State) (d : Access) (ml : Bool) (cr : BitVec 8) : (s.record d ml cr).psTarget = s.psTarget := by unfold State.record; split <;> rfl
@[simp] theorem State.record_psBefore (s : State) (d : Access) (ml : Bool) (cr : BitVec 8) : (s.record d ml cr).psBefore = s.psBefore := by unfold State.record; split <;> rfl
@[simp] theorem State.record_lru (s : State) (d : Access) (ml : Bool) (cr : BitVec 8) : (s.record d ml cr).lru = s.lru := by unfold State.record; split <;> rfl
@[simp] theorem State.record_ipc (s : State) (d : Access) (ml : Bool) (cr : BitVec 8) : (s.record d ml cr).ipc = s.ipc := by unfold State.record; split <;> rfl
@[simp] theorem State.record_ipa (s : State) (d : Access) (ml : Bool) (cr : BitVec 8) : (s.record d ml cr).ipa = s.ipa := by unfold State.record; split <;> rfl
@[simp] theorem State.record_ipb (s : State) (d : Access) (ml : Bool) (cr : BitVec 8) : (s.record d ml cr).ipb = s.ipb := by unfold State.record; split <;> rfl
@[simp] theorem State.record_q (s : State) (d : Access) (ml : Bool) (cr : BitVec 8) : (s.record d ml cr).q = s.q := by unfold State.record; split <;> rfl
@[simp] theorem State.record_alu (s : State) (d : Access) (ml : Bool) (cr : BitVec 8) : (s.record d ml cr).alu = s.alu := by unfold State.record; split <;> rfl
@[simp] theorem State.record_tlb (s : State) (d : Access) (ml : Bool) (cr : BitVec 8) : (s.record d ml cr).tlb = s.tlb := by unfold State.record; split <;> rfl
@[simp] theorem State.record_idm (s : State) (d : Access) (ml : Bool) (cr : BitVec 8) : (s.record d ml cr).idm = s.idm := by unfold State.record; split <;> rfl
@[simp] theorem State.record_rom (s : State) (d : Access) (ml : Bool) (cr : BitVec 8) : (s.record d ml cr).rom = s.rom := by unfold State.record; split <;> rfl
@[simp] theorem State.record_inflight (s : State) (d : Access) (ml : Bool) (cr : BitVec 8) : (s.record d ml cr).inflight = s.inflight := by unfold State.record; split <;> rfl
@[simp] theorem State.record_derr (s : State) (d : Access) (ml : Bool) (cr : BitVec 8) : (s.record d ml cr).derr = s.derr := by unfold State.record; split <;> rfl
@[simp] theorem State.record_mode (s : State) (d : Access) (ml : Bool) (cr : BitVec 8) : (s.record d ml cr).mode = s.mode := by unfold State.record; split <;> rfl
@[simp] theorem State.record_pins (s : State) (d : Access) (ml : Bool) (cr : BitVec 8) : (s.record d ml cr).pins = s.pins := by unfold State.record; split <;> rfl
@[simp] theorem State.record_warnPending (s : State) (d : Access) (ml : Bool) (cr : BitVec 8) : (s.record d ml cr).warnPending = s.warnPending := by unfold State.record; split <;> rfl
@[simp] theorem State.record_ir (s : State) (d : Access) (ml : Bool) (cr : BitVec 8) : (s.record d ml cr).ir = s.ir := by unfold State.record; split <;> rfl
@[simp] theorem State.record_irValid (s : State) (d : Access) (ml : Bool) (cr : BitVec 8) : (s.record d ml cr).irValid = s.irValid := by unfold State.record; split <;> rfl
@[simp] theorem State.record_testing (s : State) (d : Access) (ml : Bool) (cr : BitVec 8) : (s.record d ml cr).testing = s.testing := by unfold State.record; split <;> rfl
@[simp] theorem State.record_invPending (s : State) (d : Access) (ml : Bool) (cr : BitVec 8) : (s.record d ml cr).invPending = s.invPending := by unfold State.record; split <;> rfl
@[simp] theorem State.record_cdInForce (s : State) (d : Access) (ml : Bool) (cr : BitVec 8) : (s.record d ml cr).cdInForce = s.cdInForce := by unfold State.record; split <;> rfl
@[simp] theorem State.record_block (s : State) (d : Access) (ml : Bool) (cr : BitVec 8) : (s.record d ml cr).block = s.block := by unfold State.record; split <;> rfl
@[simp] theorem State.record_turn (s : State) (d : Access) (ml : Bool) (cr : BitVec 8) : (s.record d ml cr).turn = s.turn := by unfold State.record; split <;> rfl
@[simp] theorem State.record_nextTurn (s : State) (d : Access) (ml : Bool) (cr : BitVec 8) : (s.record d ml cr).nextTurn = s.nextTurn := by unfold State.record; split <;> rfl
@[simp] theorem State.record_lastNonseq (s : State) (d : Access) (ml : Bool) (cr : BitVec 8) : (s.record d ml cr).lastNonseq = s.lastNonseq := by unfold State.record; split <;> rfl
@[simp] theorem State.record_cacheSince (s : State) (d : Access) (ml : Bool) (cr : BitVec 8) : (s.record d ml cr).cacheSince = s.cacheSince := by unfold State.record; split <;> rfl
@[simp] theorem State.record_cacheUndefined (s : State) (d : Access) (ml : Bool) (cr : BitVec 8) : (s.record d ml cr).cacheUndefined = s.cacheUndefined := by unfold State.record; split <;> rfl
@[simp] theorem State.record_oldWords (s : State) (d : Access) (ml : Bool) (cr : BitVec 8) : (s.record d ml cr).oldWords = s.oldWords := by unfold State.record; split <;> rfl
@[simp] theorem State.record_oldMaps (s : State) (d : Access) (ml : Bool) (cr : BitVec 8) : (s.record d ml cr).oldMaps = s.oldMaps := by unfold State.record; split <;> rfl
@[simp] theorem State.record_stream (s : State) (d : Access) (ml : Bool) (cr : BitVec 8) : (s.record d ml cr).stream = s.stream := by unfold State.record; split <;> rfl
@[simp] theorem State.record_afterMultiple (s : State) (d : Access) (ml : Bool) (cr : BitVec 8) : (s.record d ml cr).afterMultiple = s.afterMultiple := by unfold State.record; split <;> rfl
@[simp] theorem State.record_sys (s : State) (d : Access) (ml : Bool) (cr : BitVec 8) : (s.record d ml cr).sys = s.sys := by unfold State.record; split <;> rfl
@[simp] theorem State.record_clock (s : State) (d : Access) (ml : Bool) (cr : BitVec 8) : (s.record d ml cr).clock = s.clock := by unfold State.record; split <;> rfl
@[simp] theorem State.record_env (s : State) (d : Access) (ml : Bool) (cr : BitVec 8) : (s.record d ml cr).env = s.env := by unfold State.record; split <;> rfl

@[simp] theorem State.setBp_gpr (s : State) (d : Access) : (s.setBp d).gpr = s.gpr := by unfold State.setBp; split <;> simp
@[simp] theorem State.setBp_gr1 (s : State) (d : Access) : (s.setBp d).gr1 = s.gr1 := by unfold State.setBp; split <;> simp
@[simp] theorem State.setBp_sps (s : State) (d : Access) : (s.setBp d).sps = s.sps := by unfold State.setBp; split <;> simp
@[simp] theorem State.setBp_pc (s : State) (d : Access) : (s.setBp d).pc = s.pc := by unfold State.setBp; split <;> simp
@[simp] theorem State.setBp_npc (s : State) (d : Access) : (s.setBp d).npc = s.npc := by unfold State.setBp; split <;> simp
@[simp] theorem State.setBp_ppc (s : State) (d : Access) : (s.setBp d).ppc = s.ppc := by unfold State.setBp; split <;> simp
@[simp] theorem State.setBp_vab (s : State) (d : Access) : (s.setBp d).vab = s.vab := by unfold State.setBp; split <;> simp
@[simp] theorem State.setBp_ops (s : State) (d : Access) : (s.setBp d).ops = s.ops := by unfold State.setBp; split <;> simp
@[simp] theorem State.setBp_cps (s : State) (d : Access) : (s.setBp d).cps = s.cps := by unfold State.setBp; split <;> simp
@[simp] theorem State.setBp_cfg (s : State) (d : Access) : (s.setBp d).cfg = s.cfg := by unfold State.setBp; split <;> simp
@[simp] theorem State.setBp_cha (s : State) (d : Access) : (s.setBp d).cha = s.cha := by unfold State.setBp; split <;> simp
@[simp] theorem State.setBp_chd (s : State) (d : Access) : (s.setBp d).chd = s.chd := by unfold State.setBp; split <;> simp
@[simp] theorem State.setBp_chc (s : State) (d : Access) : (s.setBp d).chc = s.chc := by unfold State.setBp; split <;> simp
@[simp] theorem State.setBp_rbp (s : State) (d : Access) : (s.setBp d).rbp = s.rbp := by unfold State.setBp; split <;> simp
@[simp] theorem State.setBp_tmc (s : State) (d : Access) : (s.setBp d).tmc = s.tmc := by unfold State.setBp; split <;> simp
@[simp] theorem State.setBp_tmr (s : State) (d : Access) : (s.setBp d).tmr = s.tmr := by unfold State.setBp; split <;> simp
@[simp] theorem State.setBp_pc0 (s : State) (d : Access) : (s.setBp d).pc0 = s.pc0 := by unfold State.setBp; split <;> simp
@[simp] theorem State.setBp_pc1 (s : State) (d : Access) : (s.setBp d).pc1 = s.pc1 := by unfold State.setBp; split <;> simp
@[simp] theorem State.setBp_pc2 (s : State) (d : Access) : (s.setBp d).pc2 = s.pc2 := by unfold State.setBp; split <;> simp
@[simp] theorem State.setBp_mmu (s : State) (d : Access) : (s.setBp d).mmu = s.mmu := by unfold State.setBp; split <;> simp
@[simp] theorem State.setBp_psTarget (s : State) (d : Access) : (s.setBp d).psTarget = s.psTarget := by unfold State.setBp; split <;> simp
@[simp] theorem State.setBp_psBefore (s : State) (d : Access) : (s.setBp d).psBefore = s.psBefore := by unfold State.setBp; split <;> simp
@[simp] theorem State.setBp_lru (s : State) (d : Access) : (s.setBp d).lru = s.lru := by unfold State.setBp; split <;> simp
@[simp] theorem State.setBp_ipc (s : State) (d : Access) : (s.setBp d).ipc = s.ipc := by unfold State.setBp; split <;> simp
@[simp] theorem State.setBp_ipa (s : State) (d : Access) : (s.setBp d).ipa = s.ipa := by unfold State.setBp; split <;> simp
@[simp] theorem State.setBp_ipb (s : State) (d : Access) : (s.setBp d).ipb = s.ipb := by unfold State.setBp; split <;> simp
@[simp] theorem State.setBp_q (s : State) (d : Access) : (s.setBp d).q = s.q := by unfold State.setBp; split <;> simp
@[simp] theorem State.setBp_tlb (s : State) (d : Access) : (s.setBp d).tlb = s.tlb := by unfold State.setBp; split <;> simp
@[simp] theorem State.setBp_idm (s : State) (d : Access) : (s.setBp d).idm = s.idm := by unfold State.setBp; split <;> simp
@[simp] theorem State.setBp_rom (s : State) (d : Access) : (s.setBp d).rom = s.rom := by unfold State.setBp; split <;> simp
@[simp] theorem State.setBp_inflight (s : State) (d : Access) : (s.setBp d).inflight = s.inflight := by unfold State.setBp; split <;> simp
@[simp] theorem State.setBp_derr (s : State) (d : Access) : (s.setBp d).derr = s.derr := by unfold State.setBp; split <;> simp
@[simp] theorem State.setBp_mode (s : State) (d : Access) : (s.setBp d).mode = s.mode := by unfold State.setBp; split <;> simp
@[simp] theorem State.setBp_pins (s : State) (d : Access) : (s.setBp d).pins = s.pins := by unfold State.setBp; split <;> simp
@[simp] theorem State.setBp_warnPending (s : State) (d : Access) : (s.setBp d).warnPending = s.warnPending := by unfold State.setBp; split <;> simp
@[simp] theorem State.setBp_ir (s : State) (d : Access) : (s.setBp d).ir = s.ir := by unfold State.setBp; split <;> simp
@[simp] theorem State.setBp_irValid (s : State) (d : Access) : (s.setBp d).irValid = s.irValid := by unfold State.setBp; split <;> simp
@[simp] theorem State.setBp_testing (s : State) (d : Access) : (s.setBp d).testing = s.testing := by unfold State.setBp; split <;> simp
@[simp] theorem State.setBp_invPending (s : State) (d : Access) : (s.setBp d).invPending = s.invPending := by unfold State.setBp; split <;> simp
@[simp] theorem State.setBp_cdInForce (s : State) (d : Access) : (s.setBp d).cdInForce = s.cdInForce := by unfold State.setBp; split <;> simp
@[simp] theorem State.setBp_block (s : State) (d : Access) : (s.setBp d).block = s.block := by unfold State.setBp; split <;> simp
@[simp] theorem State.setBp_turn (s : State) (d : Access) : (s.setBp d).turn = s.turn := by unfold State.setBp; split <;> simp
@[simp] theorem State.setBp_nextTurn (s : State) (d : Access) : (s.setBp d).nextTurn = s.nextTurn := by unfold State.setBp; split <;> simp
@[simp] theorem State.setBp_lastNonseq (s : State) (d : Access) : (s.setBp d).lastNonseq = s.lastNonseq := by unfold State.setBp; split <;> simp
@[simp] theorem State.setBp_cacheSince (s : State) (d : Access) : (s.setBp d).cacheSince = s.cacheSince := by unfold State.setBp; split <;> simp
@[simp] theorem State.setBp_cacheUndefined (s : State) (d : Access) : (s.setBp d).cacheUndefined = s.cacheUndefined := by unfold State.setBp; split <;> simp
@[simp] theorem State.setBp_oldWords (s : State) (d : Access) : (s.setBp d).oldWords = s.oldWords := by unfold State.setBp; split <;> simp
@[simp] theorem State.setBp_oldMaps (s : State) (d : Access) : (s.setBp d).oldMaps = s.oldMaps := by unfold State.setBp; split <;> simp
@[simp] theorem State.setBp_stream (s : State) (d : Access) : (s.setBp d).stream = s.stream := by unfold State.setBp; split <;> simp
@[simp] theorem State.setBp_afterMultiple (s : State) (d : Access) : (s.setBp d).afterMultiple = s.afterMultiple := by unfold State.setBp; split <;> simp
@[simp] theorem State.setBp_mlByMove (s : State) (d : Access) : (s.setBp d).mlByMove = s.mlByMove := by unfold State.setBp; split <;> simp
@[simp] theorem State.setBp_sys (s : State) (d : Access) : (s.setBp d).sys = s.sys := by unfold State.setBp; split <;> simp
@[simp] theorem State.setBp_clock (s : State) (d : Access) : (s.setBp d).clock = s.clock := by unfold State.setBp; split <;> simp
@[simp] theorem State.setBp_env (s : State) (d : Access) : (s.setBp d).env = s.env := by unfold State.setBp; split <;> simp

@[simp] theorem State.coprocessorActive_gpr (s : State) (d : Access) : (s.coprocessorActive d).gpr = s.gpr := by unfold State.coprocessorActive; split <;> rfl
@[simp] theorem State.coprocessorActive_gr1 (s : State) (d : Access) : (s.coprocessorActive d).gr1 = s.gr1 := by unfold State.coprocessorActive; split <;> rfl
@[simp] theorem State.coprocessorActive_sps (s : State) (d : Access) : (s.coprocessorActive d).sps = s.sps := by unfold State.coprocessorActive; split <;> rfl
@[simp] theorem State.coprocessorActive_pc (s : State) (d : Access) : (s.coprocessorActive d).pc = s.pc := by unfold State.coprocessorActive; split <;> rfl
@[simp] theorem State.coprocessorActive_npc (s : State) (d : Access) : (s.coprocessorActive d).npc = s.npc := by unfold State.coprocessorActive; split <;> rfl
@[simp] theorem State.coprocessorActive_ppc (s : State) (d : Access) : (s.coprocessorActive d).ppc = s.ppc := by unfold State.coprocessorActive; split <;> rfl
@[simp] theorem State.coprocessorActive_vab (s : State) (d : Access) : (s.coprocessorActive d).vab = s.vab := by unfold State.coprocessorActive; split <;> rfl
@[simp] theorem State.coprocessorActive_ops (s : State) (d : Access) : (s.coprocessorActive d).ops = s.ops := by unfold State.coprocessorActive; split <;> rfl
@[simp] theorem State.coprocessorActive_cfg (s : State) (d : Access) : (s.coprocessorActive d).cfg = s.cfg := by unfold State.coprocessorActive; split <;> rfl
@[simp] theorem State.coprocessorActive_cha (s : State) (d : Access) : (s.coprocessorActive d).cha = s.cha := by unfold State.coprocessorActive; split <;> rfl
@[simp] theorem State.coprocessorActive_chd (s : State) (d : Access) : (s.coprocessorActive d).chd = s.chd := by unfold State.coprocessorActive; split <;> rfl
@[simp] theorem State.coprocessorActive_chc (s : State) (d : Access) : (s.coprocessorActive d).chc = s.chc := by unfold State.coprocessorActive; split <;> rfl
@[simp] theorem State.coprocessorActive_rbp (s : State) (d : Access) : (s.coprocessorActive d).rbp = s.rbp := by unfold State.coprocessorActive; split <;> rfl
@[simp] theorem State.coprocessorActive_tmc (s : State) (d : Access) : (s.coprocessorActive d).tmc = s.tmc := by unfold State.coprocessorActive; split <;> rfl
@[simp] theorem State.coprocessorActive_tmr (s : State) (d : Access) : (s.coprocessorActive d).tmr = s.tmr := by unfold State.coprocessorActive; split <;> rfl
@[simp] theorem State.coprocessorActive_pc0 (s : State) (d : Access) : (s.coprocessorActive d).pc0 = s.pc0 := by unfold State.coprocessorActive; split <;> rfl
@[simp] theorem State.coprocessorActive_pc1 (s : State) (d : Access) : (s.coprocessorActive d).pc1 = s.pc1 := by unfold State.coprocessorActive; split <;> rfl
@[simp] theorem State.coprocessorActive_pc2 (s : State) (d : Access) : (s.coprocessorActive d).pc2 = s.pc2 := by unfold State.coprocessorActive; split <;> rfl
@[simp] theorem State.coprocessorActive_mmu (s : State) (d : Access) : (s.coprocessorActive d).mmu = s.mmu := by unfold State.coprocessorActive; split <;> rfl
@[simp] theorem State.coprocessorActive_psTarget (s : State) (d : Access) : (s.coprocessorActive d).psTarget = s.psTarget := by unfold State.coprocessorActive; split <;> rfl
@[simp] theorem State.coprocessorActive_psBefore (s : State) (d : Access) : (s.coprocessorActive d).psBefore = s.psBefore := by unfold State.coprocessorActive; split <;> rfl
@[simp] theorem State.coprocessorActive_lru (s : State) (d : Access) : (s.coprocessorActive d).lru = s.lru := by unfold State.coprocessorActive; split <;> rfl
@[simp] theorem State.coprocessorActive_ipc (s : State) (d : Access) : (s.coprocessorActive d).ipc = s.ipc := by unfold State.coprocessorActive; split <;> rfl
@[simp] theorem State.coprocessorActive_ipa (s : State) (d : Access) : (s.coprocessorActive d).ipa = s.ipa := by unfold State.coprocessorActive; split <;> rfl
@[simp] theorem State.coprocessorActive_ipb (s : State) (d : Access) : (s.coprocessorActive d).ipb = s.ipb := by unfold State.coprocessorActive; split <;> rfl
@[simp] theorem State.coprocessorActive_q (s : State) (d : Access) : (s.coprocessorActive d).q = s.q := by unfold State.coprocessorActive; split <;> rfl
@[simp] theorem State.coprocessorActive_alu (s : State) (d : Access) : (s.coprocessorActive d).alu = s.alu := by unfold State.coprocessorActive; split <;> rfl
@[simp] theorem State.coprocessorActive_tlb (s : State) (d : Access) : (s.coprocessorActive d).tlb = s.tlb := by unfold State.coprocessorActive; split <;> rfl
@[simp] theorem State.coprocessorActive_idm (s : State) (d : Access) : (s.coprocessorActive d).idm = s.idm := by unfold State.coprocessorActive; split <;> rfl
@[simp] theorem State.coprocessorActive_rom (s : State) (d : Access) : (s.coprocessorActive d).rom = s.rom := by unfold State.coprocessorActive; split <;> rfl
@[simp] theorem State.coprocessorActive_inflight (s : State) (d : Access) : (s.coprocessorActive d).inflight = s.inflight := by unfold State.coprocessorActive; split <;> rfl
@[simp] theorem State.coprocessorActive_derr (s : State) (d : Access) : (s.coprocessorActive d).derr = s.derr := by unfold State.coprocessorActive; split <;> rfl
@[simp] theorem State.coprocessorActive_mode (s : State) (d : Access) : (s.coprocessorActive d).mode = s.mode := by unfold State.coprocessorActive; split <;> rfl
@[simp] theorem State.coprocessorActive_pins (s : State) (d : Access) : (s.coprocessorActive d).pins = s.pins := by unfold State.coprocessorActive; split <;> rfl
@[simp] theorem State.coprocessorActive_warnPending (s : State) (d : Access) : (s.coprocessorActive d).warnPending = s.warnPending := by unfold State.coprocessorActive; split <;> rfl
@[simp] theorem State.coprocessorActive_ir (s : State) (d : Access) : (s.coprocessorActive d).ir = s.ir := by unfold State.coprocessorActive; split <;> rfl
@[simp] theorem State.coprocessorActive_irValid (s : State) (d : Access) : (s.coprocessorActive d).irValid = s.irValid := by unfold State.coprocessorActive; split <;> rfl
@[simp] theorem State.coprocessorActive_testing (s : State) (d : Access) : (s.coprocessorActive d).testing = s.testing := by unfold State.coprocessorActive; split <;> rfl
@[simp] theorem State.coprocessorActive_invPending (s : State) (d : Access) : (s.coprocessorActive d).invPending = s.invPending := by unfold State.coprocessorActive; split <;> rfl
@[simp] theorem State.coprocessorActive_cdInForce (s : State) (d : Access) : (s.coprocessorActive d).cdInForce = s.cdInForce := by unfold State.coprocessorActive; split <;> rfl
@[simp] theorem State.coprocessorActive_block (s : State) (d : Access) : (s.coprocessorActive d).block = s.block := by unfold State.coprocessorActive; split <;> rfl
@[simp] theorem State.coprocessorActive_turn (s : State) (d : Access) : (s.coprocessorActive d).turn = s.turn := by unfold State.coprocessorActive; split <;> rfl
@[simp] theorem State.coprocessorActive_nextTurn (s : State) (d : Access) : (s.coprocessorActive d).nextTurn = s.nextTurn := by unfold State.coprocessorActive; split <;> rfl
@[simp] theorem State.coprocessorActive_lastNonseq (s : State) (d : Access) : (s.coprocessorActive d).lastNonseq = s.lastNonseq := by unfold State.coprocessorActive; split <;> rfl
@[simp] theorem State.coprocessorActive_cacheSince (s : State) (d : Access) : (s.coprocessorActive d).cacheSince = s.cacheSince := by unfold State.coprocessorActive; split <;> rfl
@[simp] theorem State.coprocessorActive_cacheUndefined (s : State) (d : Access) : (s.coprocessorActive d).cacheUndefined = s.cacheUndefined := by unfold State.coprocessorActive; split <;> rfl
@[simp] theorem State.coprocessorActive_oldWords (s : State) (d : Access) : (s.coprocessorActive d).oldWords = s.oldWords := by unfold State.coprocessorActive; split <;> rfl
@[simp] theorem State.coprocessorActive_oldMaps (s : State) (d : Access) : (s.coprocessorActive d).oldMaps = s.oldMaps := by unfold State.coprocessorActive; split <;> rfl
@[simp] theorem State.coprocessorActive_stream (s : State) (d : Access) : (s.coprocessorActive d).stream = s.stream := by unfold State.coprocessorActive; split <;> rfl
@[simp] theorem State.coprocessorActive_afterMultiple (s : State) (d : Access) : (s.coprocessorActive d).afterMultiple = s.afterMultiple := by unfold State.coprocessorActive; split <;> rfl
@[simp] theorem State.coprocessorActive_mlByMove (s : State) (d : Access) : (s.coprocessorActive d).mlByMove = s.mlByMove := by unfold State.coprocessorActive; split <;> rfl
@[simp] theorem State.coprocessorActive_sys (s : State) (d : Access) : (s.coprocessorActive d).sys = s.sys := by unfold State.coprocessorActive; split <;> rfl
@[simp] theorem State.coprocessorActive_clock (s : State) (d : Access) : (s.coprocessorActive d).clock = s.clock := by unfold State.coprocessorActive; split <;> rfl
@[simp] theorem State.coprocessorActive_env (s : State) (d : Access) : (s.coprocessorActive d).env = s.env := by unfold State.coprocessorActive; split <;> rfl

@[simp] theorem State.writeIdm_gpr (s : State) (a : IAddr) (v : Word) : (s.writeIdm a v).gpr = s.gpr := rfl
@[simp] theorem State.writeIdm_gr1 (s : State) (a : IAddr) (v : Word) : (s.writeIdm a v).gr1 = s.gr1 := rfl
@[simp] theorem State.writeIdm_sps (s : State) (a : IAddr) (v : Word) : (s.writeIdm a v).sps = s.sps := rfl
@[simp] theorem State.writeIdm_pc (s : State) (a : IAddr) (v : Word) : (s.writeIdm a v).pc = s.pc := rfl
@[simp] theorem State.writeIdm_npc (s : State) (a : IAddr) (v : Word) : (s.writeIdm a v).npc = s.npc := rfl
@[simp] theorem State.writeIdm_ppc (s : State) (a : IAddr) (v : Word) : (s.writeIdm a v).ppc = s.ppc := rfl
@[simp] theorem State.writeIdm_vab (s : State) (a : IAddr) (v : Word) : (s.writeIdm a v).vab = s.vab := rfl
@[simp] theorem State.writeIdm_ops (s : State) (a : IAddr) (v : Word) : (s.writeIdm a v).ops = s.ops := rfl
@[simp] theorem State.writeIdm_cps (s : State) (a : IAddr) (v : Word) : (s.writeIdm a v).cps = s.cps := rfl
@[simp] theorem State.writeIdm_cfg (s : State) (a : IAddr) (v : Word) : (s.writeIdm a v).cfg = s.cfg := rfl
@[simp] theorem State.writeIdm_cha (s : State) (a : IAddr) (v : Word) : (s.writeIdm a v).cha = s.cha := rfl
@[simp] theorem State.writeIdm_chd (s : State) (a : IAddr) (v : Word) : (s.writeIdm a v).chd = s.chd := rfl
@[simp] theorem State.writeIdm_chc (s : State) (a : IAddr) (v : Word) : (s.writeIdm a v).chc = s.chc := rfl
@[simp] theorem State.writeIdm_rbp (s : State) (a : IAddr) (v : Word) : (s.writeIdm a v).rbp = s.rbp := rfl
@[simp] theorem State.writeIdm_tmc (s : State) (a : IAddr) (v : Word) : (s.writeIdm a v).tmc = s.tmc := rfl
@[simp] theorem State.writeIdm_tmr (s : State) (a : IAddr) (v : Word) : (s.writeIdm a v).tmr = s.tmr := rfl
@[simp] theorem State.writeIdm_pc0 (s : State) (a : IAddr) (v : Word) : (s.writeIdm a v).pc0 = s.pc0 := rfl
@[simp] theorem State.writeIdm_pc1 (s : State) (a : IAddr) (v : Word) : (s.writeIdm a v).pc1 = s.pc1 := rfl
@[simp] theorem State.writeIdm_pc2 (s : State) (a : IAddr) (v : Word) : (s.writeIdm a v).pc2 = s.pc2 := rfl
@[simp] theorem State.writeIdm_mmu (s : State) (a : IAddr) (v : Word) : (s.writeIdm a v).mmu = s.mmu := rfl
@[simp] theorem State.writeIdm_psTarget (s : State) (a : IAddr) (v : Word) : (s.writeIdm a v).psTarget = s.psTarget := rfl
@[simp] theorem State.writeIdm_psBefore (s : State) (a : IAddr) (v : Word) : (s.writeIdm a v).psBefore = s.psBefore := rfl
@[simp] theorem State.writeIdm_lru (s : State) (a : IAddr) (v : Word) : (s.writeIdm a v).lru = s.lru := rfl
@[simp] theorem State.writeIdm_ipc (s : State) (a : IAddr) (v : Word) : (s.writeIdm a v).ipc = s.ipc := rfl
@[simp] theorem State.writeIdm_ipa (s : State) (a : IAddr) (v : Word) : (s.writeIdm a v).ipa = s.ipa := rfl
@[simp] theorem State.writeIdm_ipb (s : State) (a : IAddr) (v : Word) : (s.writeIdm a v).ipb = s.ipb := rfl
@[simp] theorem State.writeIdm_q (s : State) (a : IAddr) (v : Word) : (s.writeIdm a v).q = s.q := rfl
@[simp] theorem State.writeIdm_alu (s : State) (a : IAddr) (v : Word) : (s.writeIdm a v).alu = s.alu := rfl
@[simp] theorem State.writeIdm_tlb (s : State) (a : IAddr) (v : Word) : (s.writeIdm a v).tlb = s.tlb := rfl
@[simp] theorem State.writeIdm_rom (s : State) (a : IAddr) (v : Word) : (s.writeIdm a v).rom = s.rom := rfl
@[simp] theorem State.writeIdm_inflight (s : State) (a : IAddr) (v : Word) : (s.writeIdm a v).inflight = s.inflight := rfl
@[simp] theorem State.writeIdm_derr (s : State) (a : IAddr) (v : Word) : (s.writeIdm a v).derr = s.derr := rfl
@[simp] theorem State.writeIdm_mode (s : State) (a : IAddr) (v : Word) : (s.writeIdm a v).mode = s.mode := rfl
@[simp] theorem State.writeIdm_pins (s : State) (a : IAddr) (v : Word) : (s.writeIdm a v).pins = s.pins := rfl
@[simp] theorem State.writeIdm_warnPending (s : State) (a : IAddr) (v : Word) : (s.writeIdm a v).warnPending = s.warnPending := rfl
@[simp] theorem State.writeIdm_ir (s : State) (a : IAddr) (v : Word) : (s.writeIdm a v).ir = s.ir := rfl
@[simp] theorem State.writeIdm_irValid (s : State) (a : IAddr) (v : Word) : (s.writeIdm a v).irValid = s.irValid := rfl
@[simp] theorem State.writeIdm_testing (s : State) (a : IAddr) (v : Word) : (s.writeIdm a v).testing = s.testing := rfl
@[simp] theorem State.writeIdm_invPending (s : State) (a : IAddr) (v : Word) : (s.writeIdm a v).invPending = s.invPending := rfl
@[simp] theorem State.writeIdm_cdInForce (s : State) (a : IAddr) (v : Word) : (s.writeIdm a v).cdInForce = s.cdInForce := rfl
@[simp] theorem State.writeIdm_block (s : State) (a : IAddr) (v : Word) : (s.writeIdm a v).block = s.block := rfl
@[simp] theorem State.writeIdm_turn (s : State) (a : IAddr) (v : Word) : (s.writeIdm a v).turn = s.turn := rfl
@[simp] theorem State.writeIdm_nextTurn (s : State) (a : IAddr) (v : Word) : (s.writeIdm a v).nextTurn = s.nextTurn := rfl
@[simp] theorem State.writeIdm_lastNonseq (s : State) (a : IAddr) (v : Word) : (s.writeIdm a v).lastNonseq = s.lastNonseq := rfl
@[simp] theorem State.writeIdm_cacheSince (s : State) (a : IAddr) (v : Word) : (s.writeIdm a v).cacheSince = s.cacheSince := rfl
@[simp] theorem State.writeIdm_cacheUndefined (s : State) (a : IAddr) (v : Word) : (s.writeIdm a v).cacheUndefined = s.cacheUndefined := rfl
@[simp] theorem State.writeIdm_oldMaps (s : State) (a : IAddr) (v : Word) : (s.writeIdm a v).oldMaps = s.oldMaps := rfl
@[simp] theorem State.writeIdm_stream (s : State) (a : IAddr) (v : Word) : (s.writeIdm a v).stream = s.stream := rfl
@[simp] theorem State.writeIdm_afterMultiple (s : State) (a : IAddr) (v : Word) : (s.writeIdm a v).afterMultiple = s.afterMultiple := rfl
@[simp] theorem State.writeIdm_mlByMove (s : State) (a : IAddr) (v : Word) : (s.writeIdm a v).mlByMove = s.mlByMove := rfl
@[simp] theorem State.writeIdm_sys (s : State) (a : IAddr) (v : Word) : (s.writeIdm a v).sys = s.sys := rfl
@[simp] theorem State.writeIdm_clock (s : State) (a : IAddr) (v : Word) : (s.writeIdm a v).clock = s.clock := rfl
@[simp] theorem State.writeIdm_env (s : State) (a : IAddr) (v : Word) : (s.writeIdm a v).env = s.env := rfl

@[simp] theorem State.busWrite_gpr (s : State) (d : Access) (v : Word) : (s.busWrite d v).gpr = s.gpr := by unfold State.busWrite; split <;> simp
@[simp] theorem State.busWrite_gr1 (s : State) (d : Access) (v : Word) : (s.busWrite d v).gr1 = s.gr1 := by unfold State.busWrite; split <;> simp
@[simp] theorem State.busWrite_sps (s : State) (d : Access) (v : Word) : (s.busWrite d v).sps = s.sps := by unfold State.busWrite; split <;> simp
@[simp] theorem State.busWrite_pc (s : State) (d : Access) (v : Word) : (s.busWrite d v).pc = s.pc := by unfold State.busWrite; split <;> simp
@[simp] theorem State.busWrite_npc (s : State) (d : Access) (v : Word) : (s.busWrite d v).npc = s.npc := by unfold State.busWrite; split <;> simp
@[simp] theorem State.busWrite_ppc (s : State) (d : Access) (v : Word) : (s.busWrite d v).ppc = s.ppc := by unfold State.busWrite; split <;> simp
@[simp] theorem State.busWrite_vab (s : State) (d : Access) (v : Word) : (s.busWrite d v).vab = s.vab := by unfold State.busWrite; split <;> simp
@[simp] theorem State.busWrite_ops (s : State) (d : Access) (v : Word) : (s.busWrite d v).ops = s.ops := by unfold State.busWrite; split <;> simp
@[simp] theorem State.busWrite_cps (s : State) (d : Access) (v : Word) : (s.busWrite d v).cps = s.cps := by unfold State.busWrite; split <;> simp
@[simp] theorem State.busWrite_cfg (s : State) (d : Access) (v : Word) : (s.busWrite d v).cfg = s.cfg := by unfold State.busWrite; split <;> simp
@[simp] theorem State.busWrite_cha (s : State) (d : Access) (v : Word) : (s.busWrite d v).cha = s.cha := by unfold State.busWrite; split <;> simp
@[simp] theorem State.busWrite_chd (s : State) (d : Access) (v : Word) : (s.busWrite d v).chd = s.chd := by unfold State.busWrite; split <;> simp
@[simp] theorem State.busWrite_chc (s : State) (d : Access) (v : Word) : (s.busWrite d v).chc = s.chc := by unfold State.busWrite; split <;> simp
@[simp] theorem State.busWrite_rbp (s : State) (d : Access) (v : Word) : (s.busWrite d v).rbp = s.rbp := by unfold State.busWrite; split <;> simp
@[simp] theorem State.busWrite_tmc (s : State) (d : Access) (v : Word) : (s.busWrite d v).tmc = s.tmc := by unfold State.busWrite; split <;> simp
@[simp] theorem State.busWrite_tmr (s : State) (d : Access) (v : Word) : (s.busWrite d v).tmr = s.tmr := by unfold State.busWrite; split <;> simp
@[simp] theorem State.busWrite_pc0 (s : State) (d : Access) (v : Word) : (s.busWrite d v).pc0 = s.pc0 := by unfold State.busWrite; split <;> simp
@[simp] theorem State.busWrite_pc1 (s : State) (d : Access) (v : Word) : (s.busWrite d v).pc1 = s.pc1 := by unfold State.busWrite; split <;> simp
@[simp] theorem State.busWrite_pc2 (s : State) (d : Access) (v : Word) : (s.busWrite d v).pc2 = s.pc2 := by unfold State.busWrite; split <;> simp
@[simp] theorem State.busWrite_mmu (s : State) (d : Access) (v : Word) : (s.busWrite d v).mmu = s.mmu := by unfold State.busWrite; split <;> simp
@[simp] theorem State.busWrite_psTarget (s : State) (d : Access) (v : Word) : (s.busWrite d v).psTarget = s.psTarget := by unfold State.busWrite; split <;> simp
@[simp] theorem State.busWrite_psBefore (s : State) (d : Access) (v : Word) : (s.busWrite d v).psBefore = s.psBefore := by unfold State.busWrite; split <;> simp
@[simp] theorem State.busWrite_lru (s : State) (d : Access) (v : Word) : (s.busWrite d v).lru = s.lru := by unfold State.busWrite; split <;> simp
@[simp] theorem State.busWrite_ipc (s : State) (d : Access) (v : Word) : (s.busWrite d v).ipc = s.ipc := by unfold State.busWrite; split <;> simp
@[simp] theorem State.busWrite_ipa (s : State) (d : Access) (v : Word) : (s.busWrite d v).ipa = s.ipa := by unfold State.busWrite; split <;> simp
@[simp] theorem State.busWrite_ipb (s : State) (d : Access) (v : Word) : (s.busWrite d v).ipb = s.ipb := by unfold State.busWrite; split <;> simp
@[simp] theorem State.busWrite_q (s : State) (d : Access) (v : Word) : (s.busWrite d v).q = s.q := by unfold State.busWrite; split <;> simp
@[simp] theorem State.busWrite_alu (s : State) (d : Access) (v : Word) : (s.busWrite d v).alu = s.alu := by unfold State.busWrite; split <;> simp
@[simp] theorem State.busWrite_tlb (s : State) (d : Access) (v : Word) : (s.busWrite d v).tlb = s.tlb := by unfold State.busWrite; split <;> simp
@[simp] theorem State.busWrite_rom (s : State) (d : Access) (v : Word) : (s.busWrite d v).rom = s.rom := by unfold State.busWrite; split <;> simp
@[simp] theorem State.busWrite_inflight (s : State) (d : Access) (v : Word) : (s.busWrite d v).inflight = s.inflight := by unfold State.busWrite; split <;> simp
@[simp] theorem State.busWrite_derr (s : State) (d : Access) (v : Word) : (s.busWrite d v).derr = s.derr := by unfold State.busWrite; split <;> simp
@[simp] theorem State.busWrite_mode (s : State) (d : Access) (v : Word) : (s.busWrite d v).mode = s.mode := by unfold State.busWrite; split <;> simp
@[simp] theorem State.busWrite_pins (s : State) (d : Access) (v : Word) : (s.busWrite d v).pins = s.pins := by unfold State.busWrite; split <;> simp
@[simp] theorem State.busWrite_warnPending (s : State) (d : Access) (v : Word) : (s.busWrite d v).warnPending = s.warnPending := by unfold State.busWrite; split <;> simp
@[simp] theorem State.busWrite_ir (s : State) (d : Access) (v : Word) : (s.busWrite d v).ir = s.ir := by unfold State.busWrite; split <;> simp
@[simp] theorem State.busWrite_irValid (s : State) (d : Access) (v : Word) : (s.busWrite d v).irValid = s.irValid := by unfold State.busWrite; split <;> simp
@[simp] theorem State.busWrite_testing (s : State) (d : Access) (v : Word) : (s.busWrite d v).testing = s.testing := by unfold State.busWrite; split <;> simp
@[simp] theorem State.busWrite_invPending (s : State) (d : Access) (v : Word) : (s.busWrite d v).invPending = s.invPending := by unfold State.busWrite; split <;> simp
@[simp] theorem State.busWrite_cdInForce (s : State) (d : Access) (v : Word) : (s.busWrite d v).cdInForce = s.cdInForce := by unfold State.busWrite; split <;> simp
@[simp] theorem State.busWrite_block (s : State) (d : Access) (v : Word) : (s.busWrite d v).block = s.block := by unfold State.busWrite; split <;> simp
@[simp] theorem State.busWrite_turn (s : State) (d : Access) (v : Word) : (s.busWrite d v).turn = s.turn := by unfold State.busWrite; split <;> simp
@[simp] theorem State.busWrite_nextTurn (s : State) (d : Access) (v : Word) : (s.busWrite d v).nextTurn = s.nextTurn := by unfold State.busWrite; split <;> simp
@[simp] theorem State.busWrite_lastNonseq (s : State) (d : Access) (v : Word) : (s.busWrite d v).lastNonseq = s.lastNonseq := by unfold State.busWrite; split <;> simp
@[simp] theorem State.busWrite_cacheSince (s : State) (d : Access) (v : Word) : (s.busWrite d v).cacheSince = s.cacheSince := by unfold State.busWrite; split <;> simp
@[simp] theorem State.busWrite_cacheUndefined (s : State) (d : Access) (v : Word) : (s.busWrite d v).cacheUndefined = s.cacheUndefined := by unfold State.busWrite; split <;> simp
@[simp] theorem State.busWrite_oldMaps (s : State) (d : Access) (v : Word) : (s.busWrite d v).oldMaps = s.oldMaps := by unfold State.busWrite; split <;> simp
@[simp] theorem State.busWrite_stream (s : State) (d : Access) (v : Word) : (s.busWrite d v).stream = s.stream := by unfold State.busWrite; split <;> simp
@[simp] theorem State.busWrite_afterMultiple (s : State) (d : Access) (v : Word) : (s.busWrite d v).afterMultiple = s.afterMultiple := by unfold State.busWrite; split <;> simp
@[simp] theorem State.busWrite_mlByMove (s : State) (d : Access) (v : Word) : (s.busWrite d v).mlByMove = s.mlByMove := by unfold State.busWrite; split <;> simp
@[simp] theorem State.busWrite_sys (s : State) (d : Access) (v : Word) : (s.busWrite d v).sys = s.sys := by unfold State.busWrite; split <;> simp
@[simp] theorem State.busWrite_clock (s : State) (d : Access) (v : Word) : (s.busWrite d v).clock = s.clock := by unfold State.busWrite; split <;> simp
@[simp] theorem State.busWrite_env (s : State) (d : Access) (v : Word) : (s.busWrite d v).env = s.env := by unfold State.busWrite; split <;> simp

@[simp] theorem State.failAccess_gpr (s : State) (d : Access) : (s.failAccess d).gpr = s.gpr := by unfold State.failAccess; split <;> rfl
@[simp] theorem State.failAccess_gr1 (s : State) (d : Access) : (s.failAccess d).gr1 = s.gr1 := by unfold State.failAccess; split <;> rfl
@[simp] theorem State.failAccess_sps (s : State) (d : Access) : (s.failAccess d).sps = s.sps := by unfold State.failAccess; split <;> rfl
@[simp] theorem State.failAccess_pc (s : State) (d : Access) : (s.failAccess d).pc = s.pc := by unfold State.failAccess; split <;> rfl
@[simp] theorem State.failAccess_npc (s : State) (d : Access) : (s.failAccess d).npc = s.npc := by unfold State.failAccess; split <;> rfl
@[simp] theorem State.failAccess_ppc (s : State) (d : Access) : (s.failAccess d).ppc = s.ppc := by unfold State.failAccess; split <;> rfl
@[simp] theorem State.failAccess_vab (s : State) (d : Access) : (s.failAccess d).vab = s.vab := by unfold State.failAccess; split <;> rfl
@[simp] theorem State.failAccess_ops (s : State) (d : Access) : (s.failAccess d).ops = s.ops := by unfold State.failAccess; split <;> rfl
@[simp] theorem State.failAccess_cps (s : State) (d : Access) : (s.failAccess d).cps = s.cps := by unfold State.failAccess; split <;> rfl
@[simp] theorem State.failAccess_cfg (s : State) (d : Access) : (s.failAccess d).cfg = s.cfg := by unfold State.failAccess; split <;> rfl
@[simp] theorem State.failAccess_cha (s : State) (d : Access) : (s.failAccess d).cha = s.cha := by unfold State.failAccess; split <;> rfl
@[simp] theorem State.failAccess_chd (s : State) (d : Access) : (s.failAccess d).chd = s.chd := by unfold State.failAccess; split <;> rfl
@[simp] theorem State.failAccess_rbp (s : State) (d : Access) : (s.failAccess d).rbp = s.rbp := by unfold State.failAccess; split <;> rfl
@[simp] theorem State.failAccess_tmc (s : State) (d : Access) : (s.failAccess d).tmc = s.tmc := by unfold State.failAccess; split <;> rfl
@[simp] theorem State.failAccess_tmr (s : State) (d : Access) : (s.failAccess d).tmr = s.tmr := by unfold State.failAccess; split <;> rfl
@[simp] theorem State.failAccess_pc0 (s : State) (d : Access) : (s.failAccess d).pc0 = s.pc0 := by unfold State.failAccess; split <;> rfl
@[simp] theorem State.failAccess_pc1 (s : State) (d : Access) : (s.failAccess d).pc1 = s.pc1 := by unfold State.failAccess; split <;> rfl
@[simp] theorem State.failAccess_pc2 (s : State) (d : Access) : (s.failAccess d).pc2 = s.pc2 := by unfold State.failAccess; split <;> rfl
@[simp] theorem State.failAccess_mmu (s : State) (d : Access) : (s.failAccess d).mmu = s.mmu := by unfold State.failAccess; split <;> rfl
@[simp] theorem State.failAccess_psTarget (s : State) (d : Access) : (s.failAccess d).psTarget = s.psTarget := by unfold State.failAccess; split <;> rfl
@[simp] theorem State.failAccess_psBefore (s : State) (d : Access) : (s.failAccess d).psBefore = s.psBefore := by unfold State.failAccess; split <;> rfl
@[simp] theorem State.failAccess_lru (s : State) (d : Access) : (s.failAccess d).lru = s.lru := by unfold State.failAccess; split <;> rfl
@[simp] theorem State.failAccess_ipc (s : State) (d : Access) : (s.failAccess d).ipc = s.ipc := by unfold State.failAccess; split <;> rfl
@[simp] theorem State.failAccess_ipa (s : State) (d : Access) : (s.failAccess d).ipa = s.ipa := by unfold State.failAccess; split <;> rfl
@[simp] theorem State.failAccess_ipb (s : State) (d : Access) : (s.failAccess d).ipb = s.ipb := by unfold State.failAccess; split <;> rfl
@[simp] theorem State.failAccess_q (s : State) (d : Access) : (s.failAccess d).q = s.q := by unfold State.failAccess; split <;> rfl
@[simp] theorem State.failAccess_alu (s : State) (d : Access) : (s.failAccess d).alu = s.alu := by unfold State.failAccess; split <;> rfl
@[simp] theorem State.failAccess_tlb (s : State) (d : Access) : (s.failAccess d).tlb = s.tlb := by unfold State.failAccess; split <;> rfl
@[simp] theorem State.failAccess_idm (s : State) (d : Access) : (s.failAccess d).idm = s.idm := by unfold State.failAccess; split <;> rfl
@[simp] theorem State.failAccess_rom (s : State) (d : Access) : (s.failAccess d).rom = s.rom := by unfold State.failAccess; split <;> rfl
@[simp] theorem State.failAccess_inflight (s : State) (d : Access) : (s.failAccess d).inflight = s.inflight := by unfold State.failAccess; split <;> rfl
@[simp] theorem State.failAccess_mode (s : State) (d : Access) : (s.failAccess d).mode = s.mode := by unfold State.failAccess; split <;> rfl
@[simp] theorem State.failAccess_pins (s : State) (d : Access) : (s.failAccess d).pins = s.pins := by unfold State.failAccess; split <;> rfl
@[simp] theorem State.failAccess_warnPending (s : State) (d : Access) : (s.failAccess d).warnPending = s.warnPending := by unfold State.failAccess; split <;> rfl
@[simp] theorem State.failAccess_ir (s : State) (d : Access) : (s.failAccess d).ir = s.ir := by unfold State.failAccess; split <;> rfl
@[simp] theorem State.failAccess_irValid (s : State) (d : Access) : (s.failAccess d).irValid = s.irValid := by unfold State.failAccess; split <;> rfl
@[simp] theorem State.failAccess_testing (s : State) (d : Access) : (s.failAccess d).testing = s.testing := by unfold State.failAccess; split <;> rfl
@[simp] theorem State.failAccess_invPending (s : State) (d : Access) : (s.failAccess d).invPending = s.invPending := by unfold State.failAccess; split <;> rfl
@[simp] theorem State.failAccess_cdInForce (s : State) (d : Access) : (s.failAccess d).cdInForce = s.cdInForce := by unfold State.failAccess; split <;> rfl
@[simp] theorem State.failAccess_block (s : State) (d : Access) : (s.failAccess d).block = s.block := by unfold State.failAccess; split <;> rfl
@[simp] theorem State.failAccess_turn (s : State) (d : Access) : (s.failAccess d).turn = s.turn := by unfold State.failAccess; split <;> rfl
@[simp] theorem State.failAccess_nextTurn (s : State) (d : Access) : (s.failAccess d).nextTurn = s.nextTurn := by unfold State.failAccess; split <;> rfl
@[simp] theorem State.failAccess_lastNonseq (s : State) (d : Access) : (s.failAccess d).lastNonseq = s.lastNonseq := by unfold State.failAccess; split <;> rfl
@[simp] theorem State.failAccess_cacheSince (s : State) (d : Access) : (s.failAccess d).cacheSince = s.cacheSince := by unfold State.failAccess; split <;> rfl
@[simp] theorem State.failAccess_cacheUndefined (s : State) (d : Access) : (s.failAccess d).cacheUndefined = s.cacheUndefined := by unfold State.failAccess; split <;> rfl
@[simp] theorem State.failAccess_oldWords (s : State) (d : Access) : (s.failAccess d).oldWords = s.oldWords := by unfold State.failAccess; split <;> rfl
@[simp] theorem State.failAccess_oldMaps (s : State) (d : Access) : (s.failAccess d).oldMaps = s.oldMaps := by unfold State.failAccess; split <;> rfl
@[simp] theorem State.failAccess_stream (s : State) (d : Access) : (s.failAccess d).stream = s.stream := by unfold State.failAccess; split <;> rfl
@[simp] theorem State.failAccess_afterMultiple (s : State) (d : Access) : (s.failAccess d).afterMultiple = s.afterMultiple := by unfold State.failAccess; split <;> rfl
@[simp] theorem State.failAccess_mlByMove (s : State) (d : Access) : (s.failAccess d).mlByMove = s.mlByMove := by unfold State.failAccess; split <;> rfl
@[simp] theorem State.failAccess_sys (s : State) (d : Access) : (s.failAccess d).sys = s.sys := by unfold State.failAccess; split <;> rfl
@[simp] theorem State.failAccess_clock (s : State) (d : Access) : (s.failAccess d).clock = s.clock := by unfold State.failAccess; split <;> rfl
@[simp] theorem State.failAccess_env (s : State) (d : Access) : (s.failAccess d).env = s.env := by unfold State.failAccess; split <;> rfl

@[simp] theorem State.clearCv_gpr (s : State) : (s.clearCv).gpr = s.gpr := by unfold State.clearCv; split <;> rfl
@[simp] theorem State.clearCv_gr1 (s : State) : (s.clearCv).gr1 = s.gr1 := by unfold State.clearCv; split <;> rfl
@[simp] theorem State.clearCv_sps (s : State) : (s.clearCv).sps = s.sps := by unfold State.clearCv; split <;> rfl
@[simp] theorem State.clearCv_pc (s : State) : (s.clearCv).pc = s.pc := by unfold State.clearCv; split <;> rfl
@[simp] theorem State.clearCv_npc (s : State) : (s.clearCv).npc = s.npc := by unfold State.clearCv; split <;> rfl
@[simp] theorem State.clearCv_ppc (s : State) : (s.clearCv).ppc = s.ppc := by unfold State.clearCv; split <;> rfl
@[simp] theorem State.clearCv_vab (s : State) : (s.clearCv).vab = s.vab := by unfold State.clearCv; split <;> rfl
@[simp] theorem State.clearCv_ops (s : State) : (s.clearCv).ops = s.ops := by unfold State.clearCv; split <;> rfl
@[simp] theorem State.clearCv_cps (s : State) : (s.clearCv).cps = s.cps := by unfold State.clearCv; split <;> rfl
@[simp] theorem State.clearCv_cfg (s : State) : (s.clearCv).cfg = s.cfg := by unfold State.clearCv; split <;> rfl
@[simp] theorem State.clearCv_cha (s : State) : (s.clearCv).cha = s.cha := by unfold State.clearCv; split <;> rfl
@[simp] theorem State.clearCv_chd (s : State) : (s.clearCv).chd = s.chd := by unfold State.clearCv; split <;> rfl
@[simp] theorem State.clearCv_rbp (s : State) : (s.clearCv).rbp = s.rbp := by unfold State.clearCv; split <;> rfl
@[simp] theorem State.clearCv_tmc (s : State) : (s.clearCv).tmc = s.tmc := by unfold State.clearCv; split <;> rfl
@[simp] theorem State.clearCv_tmr (s : State) : (s.clearCv).tmr = s.tmr := by unfold State.clearCv; split <;> rfl
@[simp] theorem State.clearCv_pc0 (s : State) : (s.clearCv).pc0 = s.pc0 := by unfold State.clearCv; split <;> rfl
@[simp] theorem State.clearCv_pc1 (s : State) : (s.clearCv).pc1 = s.pc1 := by unfold State.clearCv; split <;> rfl
@[simp] theorem State.clearCv_pc2 (s : State) : (s.clearCv).pc2 = s.pc2 := by unfold State.clearCv; split <;> rfl
@[simp] theorem State.clearCv_mmu (s : State) : (s.clearCv).mmu = s.mmu := by unfold State.clearCv; split <;> rfl
@[simp] theorem State.clearCv_psTarget (s : State) : (s.clearCv).psTarget = s.psTarget := by unfold State.clearCv; split <;> rfl
@[simp] theorem State.clearCv_psBefore (s : State) : (s.clearCv).psBefore = s.psBefore := by unfold State.clearCv; split <;> rfl
@[simp] theorem State.clearCv_lru (s : State) : (s.clearCv).lru = s.lru := by unfold State.clearCv; split <;> rfl
@[simp] theorem State.clearCv_ipc (s : State) : (s.clearCv).ipc = s.ipc := by unfold State.clearCv; split <;> rfl
@[simp] theorem State.clearCv_ipa (s : State) : (s.clearCv).ipa = s.ipa := by unfold State.clearCv; split <;> rfl
@[simp] theorem State.clearCv_ipb (s : State) : (s.clearCv).ipb = s.ipb := by unfold State.clearCv; split <;> rfl
@[simp] theorem State.clearCv_q (s : State) : (s.clearCv).q = s.q := by unfold State.clearCv; split <;> rfl
@[simp] theorem State.clearCv_alu (s : State) : (s.clearCv).alu = s.alu := by unfold State.clearCv; split <;> rfl
@[simp] theorem State.clearCv_tlb (s : State) : (s.clearCv).tlb = s.tlb := by unfold State.clearCv; split <;> rfl
@[simp] theorem State.clearCv_idm (s : State) : (s.clearCv).idm = s.idm := by unfold State.clearCv; split <;> rfl
@[simp] theorem State.clearCv_rom (s : State) : (s.clearCv).rom = s.rom := by unfold State.clearCv; split <;> rfl
@[simp] theorem State.clearCv_inflight (s : State) : (s.clearCv).inflight = s.inflight := by unfold State.clearCv; split <;> rfl
@[simp] theorem State.clearCv_derr (s : State) : (s.clearCv).derr = s.derr := by unfold State.clearCv; split <;> rfl
@[simp] theorem State.clearCv_mode (s : State) : (s.clearCv).mode = s.mode := by unfold State.clearCv; split <;> rfl
@[simp] theorem State.clearCv_pins (s : State) : (s.clearCv).pins = s.pins := by unfold State.clearCv; split <;> rfl
@[simp] theorem State.clearCv_warnPending (s : State) : (s.clearCv).warnPending = s.warnPending := by unfold State.clearCv; split <;> rfl
@[simp] theorem State.clearCv_ir (s : State) : (s.clearCv).ir = s.ir := by unfold State.clearCv; split <;> rfl
@[simp] theorem State.clearCv_irValid (s : State) : (s.clearCv).irValid = s.irValid := by unfold State.clearCv; split <;> rfl
@[simp] theorem State.clearCv_testing (s : State) : (s.clearCv).testing = s.testing := by unfold State.clearCv; split <;> rfl
@[simp] theorem State.clearCv_invPending (s : State) : (s.clearCv).invPending = s.invPending := by unfold State.clearCv; split <;> rfl
@[simp] theorem State.clearCv_cdInForce (s : State) : (s.clearCv).cdInForce = s.cdInForce := by unfold State.clearCv; split <;> rfl
@[simp] theorem State.clearCv_block (s : State) : (s.clearCv).block = s.block := by unfold State.clearCv; split <;> rfl
@[simp] theorem State.clearCv_turn (s : State) : (s.clearCv).turn = s.turn := by unfold State.clearCv; split <;> rfl
@[simp] theorem State.clearCv_nextTurn (s : State) : (s.clearCv).nextTurn = s.nextTurn := by unfold State.clearCv; split <;> rfl
@[simp] theorem State.clearCv_lastNonseq (s : State) : (s.clearCv).lastNonseq = s.lastNonseq := by unfold State.clearCv; split <;> rfl
@[simp] theorem State.clearCv_cacheSince (s : State) : (s.clearCv).cacheSince = s.cacheSince := by unfold State.clearCv; split <;> rfl
@[simp] theorem State.clearCv_cacheUndefined (s : State) : (s.clearCv).cacheUndefined = s.cacheUndefined := by unfold State.clearCv; split <;> rfl
@[simp] theorem State.clearCv_oldWords (s : State) : (s.clearCv).oldWords = s.oldWords := by unfold State.clearCv; split <;> rfl
@[simp] theorem State.clearCv_oldMaps (s : State) : (s.clearCv).oldMaps = s.oldMaps := by unfold State.clearCv; split <;> rfl
@[simp] theorem State.clearCv_stream (s : State) : (s.clearCv).stream = s.stream := by unfold State.clearCv; split <;> rfl
@[simp] theorem State.clearCv_afterMultiple (s : State) : (s.clearCv).afterMultiple = s.afterMultiple := by unfold State.clearCv; split <;> rfl
@[simp] theorem State.clearCv_mlByMove (s : State) : (s.clearCv).mlByMove = s.mlByMove := by unfold State.clearCv; split <;> rfl
@[simp] theorem State.clearCv_sys (s : State) : (s.clearCv).sys = s.sys := by unfold State.clearCv; split <;> rfl
@[simp] theorem State.clearCv_clock (s : State) : (s.clearCv).clock = s.clock := by unfold State.clearCv; split <;> rfl
@[simp] theorem State.clearCv_env (s : State) : (s.clearCv).env = s.env := by unfold State.clearCv; split <;> rfl

@[simp] theorem State.endAccess_gpr (s : State) (d : Access) : (s.endAccess d).gpr = s.gpr := rfl
@[simp] theorem State.endAccess_gr1 (s : State) (d : Access) : (s.endAccess d).gr1 = s.gr1 := rfl
@[simp] theorem State.endAccess_sps (s : State) (d : Access) : (s.endAccess d).sps = s.sps := rfl
@[simp] theorem State.endAccess_pc (s : State) (d : Access) : (s.endAccess d).pc = s.pc := rfl
@[simp] theorem State.endAccess_npc (s : State) (d : Access) : (s.endAccess d).npc = s.npc := rfl
@[simp] theorem State.endAccess_ppc (s : State) (d : Access) : (s.endAccess d).ppc = s.ppc := rfl
@[simp] theorem State.endAccess_vab (s : State) (d : Access) : (s.endAccess d).vab = s.vab := rfl
@[simp] theorem State.endAccess_ops (s : State) (d : Access) : (s.endAccess d).ops = s.ops := rfl
@[simp] theorem State.endAccess_cps (s : State) (d : Access) : (s.endAccess d).cps = s.cps := rfl
@[simp] theorem State.endAccess_cfg (s : State) (d : Access) : (s.endAccess d).cfg = s.cfg := rfl
@[simp] theorem State.endAccess_cha (s : State) (d : Access) : (s.endAccess d).cha = s.cha := rfl
@[simp] theorem State.endAccess_chd (s : State) (d : Access) : (s.endAccess d).chd = s.chd := rfl
@[simp] theorem State.endAccess_chc (s : State) (d : Access) : (s.endAccess d).chc = s.chc := rfl
@[simp] theorem State.endAccess_rbp (s : State) (d : Access) : (s.endAccess d).rbp = s.rbp := rfl
@[simp] theorem State.endAccess_tmc (s : State) (d : Access) : (s.endAccess d).tmc = s.tmc := rfl
@[simp] theorem State.endAccess_tmr (s : State) (d : Access) : (s.endAccess d).tmr = s.tmr := rfl
@[simp] theorem State.endAccess_pc0 (s : State) (d : Access) : (s.endAccess d).pc0 = s.pc0 := rfl
@[simp] theorem State.endAccess_pc1 (s : State) (d : Access) : (s.endAccess d).pc1 = s.pc1 := rfl
@[simp] theorem State.endAccess_pc2 (s : State) (d : Access) : (s.endAccess d).pc2 = s.pc2 := rfl
@[simp] theorem State.endAccess_mmu (s : State) (d : Access) : (s.endAccess d).mmu = s.mmu := rfl
@[simp] theorem State.endAccess_psTarget (s : State) (d : Access) : (s.endAccess d).psTarget = s.psTarget := rfl
@[simp] theorem State.endAccess_psBefore (s : State) (d : Access) : (s.endAccess d).psBefore = s.psBefore := rfl
@[simp] theorem State.endAccess_lru (s : State) (d : Access) : (s.endAccess d).lru = s.lru := rfl
@[simp] theorem State.endAccess_ipc (s : State) (d : Access) : (s.endAccess d).ipc = s.ipc := rfl
@[simp] theorem State.endAccess_ipa (s : State) (d : Access) : (s.endAccess d).ipa = s.ipa := rfl
@[simp] theorem State.endAccess_ipb (s : State) (d : Access) : (s.endAccess d).ipb = s.ipb := rfl
@[simp] theorem State.endAccess_q (s : State) (d : Access) : (s.endAccess d).q = s.q := rfl
@[simp] theorem State.endAccess_alu (s : State) (d : Access) : (s.endAccess d).alu = s.alu := rfl
@[simp] theorem State.endAccess_tlb (s : State) (d : Access) : (s.endAccess d).tlb = s.tlb := rfl
@[simp] theorem State.endAccess_idm (s : State) (d : Access) : (s.endAccess d).idm = s.idm := rfl
@[simp] theorem State.endAccess_rom (s : State) (d : Access) : (s.endAccess d).rom = s.rom := rfl
@[simp] theorem State.endAccess_derr (s : State) (d : Access) : (s.endAccess d).derr = s.derr := rfl
@[simp] theorem State.endAccess_mode (s : State) (d : Access) : (s.endAccess d).mode = s.mode := rfl
@[simp] theorem State.endAccess_pins (s : State) (d : Access) : (s.endAccess d).pins = s.pins := rfl
@[simp] theorem State.endAccess_warnPending (s : State) (d : Access) : (s.endAccess d).warnPending = s.warnPending := rfl
@[simp] theorem State.endAccess_ir (s : State) (d : Access) : (s.endAccess d).ir = s.ir := rfl
@[simp] theorem State.endAccess_irValid (s : State) (d : Access) : (s.endAccess d).irValid = s.irValid := rfl
@[simp] theorem State.endAccess_testing (s : State) (d : Access) : (s.endAccess d).testing = s.testing := rfl
@[simp] theorem State.endAccess_invPending (s : State) (d : Access) : (s.endAccess d).invPending = s.invPending := rfl
@[simp] theorem State.endAccess_cdInForce (s : State) (d : Access) : (s.endAccess d).cdInForce = s.cdInForce := rfl
@[simp] theorem State.endAccess_block (s : State) (d : Access) : (s.endAccess d).block = s.block := rfl
@[simp] theorem State.endAccess_turn (s : State) (d : Access) : (s.endAccess d).turn = s.turn := rfl
@[simp] theorem State.endAccess_nextTurn (s : State) (d : Access) : (s.endAccess d).nextTurn = s.nextTurn := rfl
@[simp] theorem State.endAccess_lastNonseq (s : State) (d : Access) : (s.endAccess d).lastNonseq = s.lastNonseq := rfl
@[simp] theorem State.endAccess_cacheSince (s : State) (d : Access) : (s.endAccess d).cacheSince = s.cacheSince := rfl
@[simp] theorem State.endAccess_cacheUndefined (s : State) (d : Access) : (s.endAccess d).cacheUndefined = s.cacheUndefined := rfl
@[simp] theorem State.endAccess_oldWords (s : State) (d : Access) : (s.endAccess d).oldWords = s.oldWords := rfl
@[simp] theorem State.endAccess_oldMaps (s : State) (d : Access) : (s.endAccess d).oldMaps = s.oldMaps := rfl
@[simp] theorem State.endAccess_stream (s : State) (d : Access) : (s.endAccess d).stream = s.stream := rfl
@[simp] theorem State.endAccess_afterMultiple (s : State) (d : Access) : (s.endAccess d).afterMultiple = s.afterMultiple := rfl
@[simp] theorem State.endAccess_mlByMove (s : State) (d : Access) : (s.endAccess d).mlByMove = s.mlByMove := rfl
@[simp] theorem State.endAccess_sys (s : State) (d : Access) : (s.endAccess d).sys = s.sys := rfl

@[simp] theorem State.transfer_pc (s : State) (d : Access) : (s.transfer d).pc = s.pc := by unfold State.transfer; dsimp only; split <;> [(split <;> split <;> simp); simp]
@[simp] theorem State.transfer_npc (s : State) (d : Access) : (s.transfer d).npc = s.npc := by unfold State.transfer; dsimp only; split <;> [(split <;> split <;> simp); simp]
@[simp] theorem State.transfer_ppc (s : State) (d : Access) : (s.transfer d).ppc = s.ppc := by unfold State.transfer; dsimp only; split <;> [(split <;> split <;> simp); simp]
@[simp] theorem State.transfer_vab (s : State) (d : Access) : (s.transfer d).vab = s.vab := by unfold State.transfer; dsimp only; split <;> [(split <;> split <;> simp); simp]
@[simp] theorem State.transfer_ops (s : State) (d : Access) : (s.transfer d).ops = s.ops := by unfold State.transfer; dsimp only; split <;> [(split <;> split <;> simp); simp]
@[simp] theorem State.transfer_cps (s : State) (d : Access) : (s.transfer d).cps = s.cps := by unfold State.transfer; dsimp only; split <;> [(split <;> split <;> simp); simp]
@[simp] theorem State.transfer_cfg (s : State) (d : Access) : (s.transfer d).cfg = s.cfg := by unfold State.transfer; dsimp only; split <;> [(split <;> split <;> simp); simp]
@[simp] theorem State.transfer_cha (s : State) (d : Access) : (s.transfer d).cha = s.cha := by unfold State.transfer; dsimp only; split <;> [(split <;> split <;> simp); simp]
@[simp] theorem State.transfer_chd (s : State) (d : Access) : (s.transfer d).chd = s.chd := by unfold State.transfer; dsimp only; split <;> [(split <;> split <;> simp); simp]
@[simp] theorem State.transfer_chc (s : State) (d : Access) : (s.transfer d).chc = s.chc := by unfold State.transfer; dsimp only; split <;> [(split <;> split <;> simp); simp]
@[simp] theorem State.transfer_rbp (s : State) (d : Access) : (s.transfer d).rbp = s.rbp := by unfold State.transfer; dsimp only; split <;> [(split <;> split <;> simp); simp]
@[simp] theorem State.transfer_tmc (s : State) (d : Access) : (s.transfer d).tmc = s.tmc := by unfold State.transfer; dsimp only; split <;> [(split <;> split <;> simp); simp]
@[simp] theorem State.transfer_tmr (s : State) (d : Access) : (s.transfer d).tmr = s.tmr := by unfold State.transfer; dsimp only; split <;> [(split <;> split <;> simp); simp]
@[simp] theorem State.transfer_pc0 (s : State) (d : Access) : (s.transfer d).pc0 = s.pc0 := by unfold State.transfer; dsimp only; split <;> [(split <;> split <;> simp); simp]
@[simp] theorem State.transfer_pc1 (s : State) (d : Access) : (s.transfer d).pc1 = s.pc1 := by unfold State.transfer; dsimp only; split <;> [(split <;> split <;> simp); simp]
@[simp] theorem State.transfer_pc2 (s : State) (d : Access) : (s.transfer d).pc2 = s.pc2 := by unfold State.transfer; dsimp only; split <;> [(split <;> split <;> simp); simp]
@[simp] theorem State.transfer_mmu (s : State) (d : Access) : (s.transfer d).mmu = s.mmu := by unfold State.transfer; dsimp only; split <;> [(split <;> split <;> simp); simp]
@[simp] theorem State.transfer_psTarget (s : State) (d : Access) : (s.transfer d).psTarget = s.psTarget := by unfold State.transfer; dsimp only; split <;> [(split <;> split <;> simp); simp]
@[simp] theorem State.transfer_psBefore (s : State) (d : Access) : (s.transfer d).psBefore = s.psBefore := by unfold State.transfer; dsimp only; split <;> [(split <;> split <;> simp); simp]
@[simp] theorem State.transfer_lru (s : State) (d : Access) : (s.transfer d).lru = s.lru := by unfold State.transfer; dsimp only; split <;> [(split <;> split <;> simp); simp]
@[simp] theorem State.transfer_ipc (s : State) (d : Access) : (s.transfer d).ipc = s.ipc := by unfold State.transfer; dsimp only; split <;> [(split <;> split <;> simp); simp]
@[simp] theorem State.transfer_ipa (s : State) (d : Access) : (s.transfer d).ipa = s.ipa := by unfold State.transfer; dsimp only; split <;> [(split <;> split <;> simp); simp]
@[simp] theorem State.transfer_ipb (s : State) (d : Access) : (s.transfer d).ipb = s.ipb := by unfold State.transfer; dsimp only; split <;> [(split <;> split <;> simp); simp]
@[simp] theorem State.transfer_q (s : State) (d : Access) : (s.transfer d).q = s.q := by unfold State.transfer; dsimp only; split <;> [(split <;> split <;> simp); simp]
@[simp] theorem State.transfer_alu (s : State) (d : Access) : (s.transfer d).alu = s.alu := by unfold State.transfer; dsimp only; split <;> [(split <;> split <;> simp); simp]
@[simp] theorem State.transfer_tlb (s : State) (d : Access) : (s.transfer d).tlb = s.tlb := by unfold State.transfer; dsimp only; split <;> [(split <;> split <;> simp); simp]
@[simp] theorem State.transfer_rom (s : State) (d : Access) : (s.transfer d).rom = s.rom := by unfold State.transfer; dsimp only; split <;> [(split <;> split <;> simp); simp]
@[simp] theorem State.transfer_inflight (s : State) (d : Access) : (s.transfer d).inflight = s.inflight := by unfold State.transfer; dsimp only; split <;> [(split <;> split <;> simp); simp]
@[simp] theorem State.transfer_derr (s : State) (d : Access) : (s.transfer d).derr = s.derr := by unfold State.transfer; dsimp only; split <;> [(split <;> split <;> simp); simp]
@[simp] theorem State.transfer_mode (s : State) (d : Access) : (s.transfer d).mode = s.mode := by unfold State.transfer; dsimp only; split <;> [(split <;> split <;> simp); simp]
@[simp] theorem State.transfer_pins (s : State) (d : Access) : (s.transfer d).pins = s.pins := by unfold State.transfer; dsimp only; split <;> [(split <;> split <;> simp); simp]
@[simp] theorem State.transfer_warnPending (s : State) (d : Access) : (s.transfer d).warnPending = s.warnPending := by unfold State.transfer; dsimp only; split <;> [(split <;> split <;> simp); simp]
@[simp] theorem State.transfer_ir (s : State) (d : Access) : (s.transfer d).ir = s.ir := by unfold State.transfer; dsimp only; split <;> [(split <;> split <;> simp); simp]
@[simp] theorem State.transfer_irValid (s : State) (d : Access) : (s.transfer d).irValid = s.irValid := by unfold State.transfer; dsimp only; split <;> [(split <;> split <;> simp); simp]
@[simp] theorem State.transfer_testing (s : State) (d : Access) : (s.transfer d).testing = s.testing := by unfold State.transfer; dsimp only; split <;> [(split <;> split <;> simp); simp]
@[simp] theorem State.transfer_invPending (s : State) (d : Access) : (s.transfer d).invPending = s.invPending := by unfold State.transfer; dsimp only; split <;> [(split <;> split <;> simp); simp]
@[simp] theorem State.transfer_cdInForce (s : State) (d : Access) : (s.transfer d).cdInForce = s.cdInForce := by unfold State.transfer; dsimp only; split <;> [(split <;> split <;> simp); simp]
@[simp] theorem State.transfer_block (s : State) (d : Access) : (s.transfer d).block = s.block := by unfold State.transfer; dsimp only; split <;> [(split <;> split <;> simp); simp]
@[simp] theorem State.transfer_turn (s : State) (d : Access) : (s.transfer d).turn = s.turn := by unfold State.transfer; dsimp only; split <;> [(split <;> split <;> simp); simp]
@[simp] theorem State.transfer_nextTurn (s : State) (d : Access) : (s.transfer d).nextTurn = s.nextTurn := by unfold State.transfer; dsimp only; split <;> [(split <;> split <;> simp); simp]
@[simp] theorem State.transfer_lastNonseq (s : State) (d : Access) : (s.transfer d).lastNonseq = s.lastNonseq := by unfold State.transfer; dsimp only; split <;> [(split <;> split <;> simp); simp]
@[simp] theorem State.transfer_cacheSince (s : State) (d : Access) : (s.transfer d).cacheSince = s.cacheSince := by unfold State.transfer; dsimp only; split <;> [(split <;> split <;> simp); simp]
@[simp] theorem State.transfer_cacheUndefined (s : State) (d : Access) : (s.transfer d).cacheUndefined = s.cacheUndefined := by unfold State.transfer; dsimp only; split <;> [(split <;> split <;> simp); simp]
@[simp] theorem State.transfer_oldMaps (s : State) (d : Access) : (s.transfer d).oldMaps = s.oldMaps := by unfold State.transfer; dsimp only; split <;> [(split <;> split <;> simp); simp]
@[simp] theorem State.transfer_stream (s : State) (d : Access) : (s.transfer d).stream = s.stream := by unfold State.transfer; dsimp only; split <;> [(split <;> split <;> simp); simp]
@[simp] theorem State.transfer_afterMultiple (s : State) (d : Access) : (s.transfer d).afterMultiple = s.afterMultiple := by unfold State.transfer; dsimp only; split <;> [(split <;> split <;> simp); simp]
@[simp] theorem State.transfer_mlByMove (s : State) (d : Access) : (s.transfer d).mlByMove = s.mlByMove := by unfold State.transfer; dsimp only; split <;> [(split <;> split <;> simp); simp]
@[simp] theorem State.transfer_sys (s : State) (d : Access) : (s.transfer d).sys = s.sys := by unfold State.transfer; dsimp only; split <;> [(split <;> split <;> simp); simp]
@[simp] theorem State.transfer_clock (s : State) (d : Access) : (s.transfer d).clock = s.clock := by unfold State.transfer; dsimp only; split <;> [(split <;> split <;> simp); simp]
@[simp] theorem State.transfer_env (s : State) (d : Access) : (s.transfer d).env = s.env := by unfold State.transfer; dsimp only; split <;> [(split <;> split <;> simp); simp]

@[simp] theorem State.complete_pc (s : State) (d : Access) : (s.complete d).pc = s.pc := by unfold State.complete; split <;> simp
@[simp] theorem State.complete_npc (s : State) (d : Access) : (s.complete d).npc = s.npc := by unfold State.complete; split <;> simp
@[simp] theorem State.complete_ppc (s : State) (d : Access) : (s.complete d).ppc = s.ppc := by unfold State.complete; split <;> simp
@[simp] theorem State.complete_vab (s : State) (d : Access) : (s.complete d).vab = s.vab := by unfold State.complete; split <;> simp
@[simp] theorem State.complete_ops (s : State) (d : Access) : (s.complete d).ops = s.ops := by unfold State.complete; split <;> simp
@[simp] theorem State.complete_cps (s : State) (d : Access) : (s.complete d).cps = s.cps := by unfold State.complete; split <;> simp
@[simp] theorem State.complete_cfg (s : State) (d : Access) : (s.complete d).cfg = s.cfg := by unfold State.complete; split <;> simp
@[simp] theorem State.complete_cha (s : State) (d : Access) : (s.complete d).cha = s.cha := by unfold State.complete; split <;> simp
@[simp] theorem State.complete_chd (s : State) (d : Access) : (s.complete d).chd = s.chd := by unfold State.complete; split <;> simp
@[simp] theorem State.complete_rbp (s : State) (d : Access) : (s.complete d).rbp = s.rbp := by unfold State.complete; split <;> simp
@[simp] theorem State.complete_tmc (s : State) (d : Access) : (s.complete d).tmc = s.tmc := by unfold State.complete; split <;> simp
@[simp] theorem State.complete_tmr (s : State) (d : Access) : (s.complete d).tmr = s.tmr := by unfold State.complete; split <;> simp
@[simp] theorem State.complete_pc0 (s : State) (d : Access) : (s.complete d).pc0 = s.pc0 := by unfold State.complete; split <;> simp
@[simp] theorem State.complete_pc1 (s : State) (d : Access) : (s.complete d).pc1 = s.pc1 := by unfold State.complete; split <;> simp
@[simp] theorem State.complete_pc2 (s : State) (d : Access) : (s.complete d).pc2 = s.pc2 := by unfold State.complete; split <;> simp
@[simp] theorem State.complete_mmu (s : State) (d : Access) : (s.complete d).mmu = s.mmu := by unfold State.complete; split <;> simp
@[simp] theorem State.complete_psTarget (s : State) (d : Access) : (s.complete d).psTarget = s.psTarget := by unfold State.complete; split <;> simp
@[simp] theorem State.complete_psBefore (s : State) (d : Access) : (s.complete d).psBefore = s.psBefore := by unfold State.complete; split <;> simp
@[simp] theorem State.complete_lru (s : State) (d : Access) : (s.complete d).lru = s.lru := by unfold State.complete; split <;> simp
@[simp] theorem State.complete_ipc (s : State) (d : Access) : (s.complete d).ipc = s.ipc := by unfold State.complete; split <;> simp
@[simp] theorem State.complete_ipa (s : State) (d : Access) : (s.complete d).ipa = s.ipa := by unfold State.complete; split <;> simp
@[simp] theorem State.complete_ipb (s : State) (d : Access) : (s.complete d).ipb = s.ipb := by unfold State.complete; split <;> simp
@[simp] theorem State.complete_q (s : State) (d : Access) : (s.complete d).q = s.q := by unfold State.complete; split <;> simp
@[simp] theorem State.complete_alu (s : State) (d : Access) : (s.complete d).alu = s.alu := by unfold State.complete; split <;> simp
@[simp] theorem State.complete_tlb (s : State) (d : Access) : (s.complete d).tlb = s.tlb := by unfold State.complete; split <;> simp
@[simp] theorem State.complete_rom (s : State) (d : Access) : (s.complete d).rom = s.rom := by unfold State.complete; split <;> simp
@[simp] theorem State.complete_mode (s : State) (d : Access) : (s.complete d).mode = s.mode := by unfold State.complete; split <;> simp
@[simp] theorem State.complete_pins (s : State) (d : Access) : (s.complete d).pins = s.pins := by unfold State.complete; split <;> simp
@[simp] theorem State.complete_warnPending (s : State) (d : Access) : (s.complete d).warnPending = s.warnPending := by unfold State.complete; split <;> simp
@[simp] theorem State.complete_ir (s : State) (d : Access) : (s.complete d).ir = s.ir := by unfold State.complete; split <;> simp
@[simp] theorem State.complete_irValid (s : State) (d : Access) : (s.complete d).irValid = s.irValid := by unfold State.complete; split <;> simp
@[simp] theorem State.complete_testing (s : State) (d : Access) : (s.complete d).testing = s.testing := by unfold State.complete; split <;> simp
@[simp] theorem State.complete_invPending (s : State) (d : Access) : (s.complete d).invPending = s.invPending := by unfold State.complete; split <;> simp
@[simp] theorem State.complete_cdInForce (s : State) (d : Access) : (s.complete d).cdInForce = s.cdInForce := by unfold State.complete; split <;> simp
@[simp] theorem State.complete_block (s : State) (d : Access) : (s.complete d).block = s.block := by unfold State.complete; split <;> simp
@[simp] theorem State.complete_turn (s : State) (d : Access) : (s.complete d).turn = s.turn := by unfold State.complete; split <;> simp
@[simp] theorem State.complete_nextTurn (s : State) (d : Access) : (s.complete d).nextTurn = s.nextTurn := by unfold State.complete; split <;> simp
@[simp] theorem State.complete_lastNonseq (s : State) (d : Access) : (s.complete d).lastNonseq = s.lastNonseq := by unfold State.complete; split <;> simp
@[simp] theorem State.complete_cacheSince (s : State) (d : Access) : (s.complete d).cacheSince = s.cacheSince := by unfold State.complete; split <;> simp
@[simp] theorem State.complete_cacheUndefined (s : State) (d : Access) : (s.complete d).cacheUndefined = s.cacheUndefined := by unfold State.complete; split <;> simp
@[simp] theorem State.complete_oldMaps (s : State) (d : Access) : (s.complete d).oldMaps = s.oldMaps := by unfold State.complete; split <;> simp
@[simp] theorem State.complete_stream (s : State) (d : Access) : (s.complete d).stream = s.stream := by unfold State.complete; split <;> simp
@[simp] theorem State.complete_afterMultiple (s : State) (d : Access) : (s.complete d).afterMultiple = s.afterMultiple := by unfold State.complete; split <;> simp
@[simp] theorem State.complete_mlByMove (s : State) (d : Access) : (s.complete d).mlByMove = s.mlByMove := by unfold State.complete; split <;> simp
@[simp] theorem State.complete_sys (s : State) (d : Access) : (s.complete d).sys = s.sys := by unfold State.complete; split <;> simp

@[simp] theorem State.drain_pc (s : State) : (s.drain).pc = s.pc := by unfold State.drain; split <;> simp
@[simp] theorem State.drain_npc (s : State) : (s.drain).npc = s.npc := by unfold State.drain; split <;> simp
@[simp] theorem State.drain_ppc (s : State) : (s.drain).ppc = s.ppc := by unfold State.drain; split <;> simp
@[simp] theorem State.drain_vab (s : State) : (s.drain).vab = s.vab := by unfold State.drain; split <;> simp
@[simp] theorem State.drain_ops (s : State) : (s.drain).ops = s.ops := by unfold State.drain; split <;> simp
@[simp] theorem State.drain_cps (s : State) : (s.drain).cps = s.cps := by unfold State.drain; split <;> simp
@[simp] theorem State.drain_cfg (s : State) : (s.drain).cfg = s.cfg := by unfold State.drain; split <;> simp
@[simp] theorem State.drain_cha (s : State) : (s.drain).cha = s.cha := by unfold State.drain; split <;> simp
@[simp] theorem State.drain_chd (s : State) : (s.drain).chd = s.chd := by unfold State.drain; split <;> simp
@[simp] theorem State.drain_rbp (s : State) : (s.drain).rbp = s.rbp := by unfold State.drain; split <;> simp
@[simp] theorem State.drain_tmc (s : State) : (s.drain).tmc = s.tmc := by unfold State.drain; split <;> simp
@[simp] theorem State.drain_tmr (s : State) : (s.drain).tmr = s.tmr := by unfold State.drain; split <;> simp
@[simp] theorem State.drain_pc0 (s : State) : (s.drain).pc0 = s.pc0 := by unfold State.drain; split <;> simp
@[simp] theorem State.drain_pc1 (s : State) : (s.drain).pc1 = s.pc1 := by unfold State.drain; split <;> simp
@[simp] theorem State.drain_pc2 (s : State) : (s.drain).pc2 = s.pc2 := by unfold State.drain; split <;> simp
@[simp] theorem State.drain_mmu (s : State) : (s.drain).mmu = s.mmu := by unfold State.drain; split <;> simp
@[simp] theorem State.drain_psTarget (s : State) : (s.drain).psTarget = s.psTarget := by unfold State.drain; split <;> simp
@[simp] theorem State.drain_psBefore (s : State) : (s.drain).psBefore = s.psBefore := by unfold State.drain; split <;> simp
@[simp] theorem State.drain_lru (s : State) : (s.drain).lru = s.lru := by unfold State.drain; split <;> simp
@[simp] theorem State.drain_ipc (s : State) : (s.drain).ipc = s.ipc := by unfold State.drain; split <;> simp
@[simp] theorem State.drain_ipa (s : State) : (s.drain).ipa = s.ipa := by unfold State.drain; split <;> simp
@[simp] theorem State.drain_ipb (s : State) : (s.drain).ipb = s.ipb := by unfold State.drain; split <;> simp
@[simp] theorem State.drain_q (s : State) : (s.drain).q = s.q := by unfold State.drain; split <;> simp
@[simp] theorem State.drain_alu (s : State) : (s.drain).alu = s.alu := by unfold State.drain; split <;> simp
@[simp] theorem State.drain_tlb (s : State) : (s.drain).tlb = s.tlb := by unfold State.drain; split <;> simp
@[simp] theorem State.drain_rom (s : State) : (s.drain).rom = s.rom := by unfold State.drain; split <;> simp
@[simp] theorem State.drain_mode (s : State) : (s.drain).mode = s.mode := by unfold State.drain; split <;> simp
@[simp] theorem State.drain_pins (s : State) : (s.drain).pins = s.pins := by unfold State.drain; split <;> simp
@[simp] theorem State.drain_warnPending (s : State) : (s.drain).warnPending = s.warnPending := by unfold State.drain; split <;> simp
@[simp] theorem State.drain_ir (s : State) : (s.drain).ir = s.ir := by unfold State.drain; split <;> simp
@[simp] theorem State.drain_irValid (s : State) : (s.drain).irValid = s.irValid := by unfold State.drain; split <;> simp
@[simp] theorem State.drain_testing (s : State) : (s.drain).testing = s.testing := by unfold State.drain; split <;> simp
@[simp] theorem State.drain_invPending (s : State) : (s.drain).invPending = s.invPending := by unfold State.drain; split <;> simp
@[simp] theorem State.drain_cdInForce (s : State) : (s.drain).cdInForce = s.cdInForce := by unfold State.drain; split <;> simp
@[simp] theorem State.drain_block (s : State) : (s.drain).block = s.block := by unfold State.drain; split <;> simp
@[simp] theorem State.drain_turn (s : State) : (s.drain).turn = s.turn := by unfold State.drain; split <;> simp
@[simp] theorem State.drain_nextTurn (s : State) : (s.drain).nextTurn = s.nextTurn := by unfold State.drain; split <;> simp
@[simp] theorem State.drain_lastNonseq (s : State) : (s.drain).lastNonseq = s.lastNonseq := by unfold State.drain; split <;> simp
@[simp] theorem State.drain_cacheSince (s : State) : (s.drain).cacheSince = s.cacheSince := by unfold State.drain; split <;> simp
@[simp] theorem State.drain_cacheUndefined (s : State) : (s.drain).cacheUndefined = s.cacheUndefined := by unfold State.drain; split <;> simp
@[simp] theorem State.drain_oldMaps (s : State) : (s.drain).oldMaps = s.oldMaps := by unfold State.drain; split <;> simp
@[simp] theorem State.drain_stream (s : State) : (s.drain).stream = s.stream := by unfold State.drain; split <;> simp
@[simp] theorem State.drain_afterMultiple (s : State) : (s.drain).afterMultiple = s.afterMultiple := by unfold State.drain; split <;> simp
@[simp] theorem State.drain_mlByMove (s : State) : (s.drain).mlByMove = s.mlByMove := by unfold State.drain; split <;> simp
@[simp] theorem State.drain_sys (s : State) : (s.drain).sys = s.sys := by unfold State.drain; split <;> simp

@[simp] theorem State.settle_pc (s : State) : (s.settle).pc = s.pc := by unfold State.settle; split <;> simp
@[simp] theorem State.settle_npc (s : State) : (s.settle).npc = s.npc := by unfold State.settle; split <;> simp
@[simp] theorem State.settle_ppc (s : State) : (s.settle).ppc = s.ppc := by unfold State.settle; split <;> simp
@[simp] theorem State.settle_vab (s : State) : (s.settle).vab = s.vab := by unfold State.settle; split <;> simp
@[simp] theorem State.settle_ops (s : State) : (s.settle).ops = s.ops := by unfold State.settle; split <;> simp
@[simp] theorem State.settle_cps (s : State) : (s.settle).cps = s.cps := by unfold State.settle; split <;> simp
@[simp] theorem State.settle_cfg (s : State) : (s.settle).cfg = s.cfg := by unfold State.settle; split <;> simp
@[simp] theorem State.settle_cha (s : State) : (s.settle).cha = s.cha := by unfold State.settle; split <;> simp
@[simp] theorem State.settle_chd (s : State) : (s.settle).chd = s.chd := by unfold State.settle; split <;> simp
@[simp] theorem State.settle_rbp (s : State) : (s.settle).rbp = s.rbp := by unfold State.settle; split <;> simp
@[simp] theorem State.settle_tmc (s : State) : (s.settle).tmc = s.tmc := by unfold State.settle; split <;> simp
@[simp] theorem State.settle_tmr (s : State) : (s.settle).tmr = s.tmr := by unfold State.settle; split <;> simp
@[simp] theorem State.settle_pc0 (s : State) : (s.settle).pc0 = s.pc0 := by unfold State.settle; split <;> simp
@[simp] theorem State.settle_pc1 (s : State) : (s.settle).pc1 = s.pc1 := by unfold State.settle; split <;> simp
@[simp] theorem State.settle_pc2 (s : State) : (s.settle).pc2 = s.pc2 := by unfold State.settle; split <;> simp
@[simp] theorem State.settle_mmu (s : State) : (s.settle).mmu = s.mmu := by unfold State.settle; split <;> simp
@[simp] theorem State.settle_psTarget (s : State) : (s.settle).psTarget = s.psTarget := by unfold State.settle; split <;> simp
@[simp] theorem State.settle_psBefore (s : State) : (s.settle).psBefore = s.psBefore := by unfold State.settle; split <;> simp
@[simp] theorem State.settle_lru (s : State) : (s.settle).lru = s.lru := by unfold State.settle; split <;> simp
@[simp] theorem State.settle_ipc (s : State) : (s.settle).ipc = s.ipc := by unfold State.settle; split <;> simp
@[simp] theorem State.settle_ipa (s : State) : (s.settle).ipa = s.ipa := by unfold State.settle; split <;> simp
@[simp] theorem State.settle_ipb (s : State) : (s.settle).ipb = s.ipb := by unfold State.settle; split <;> simp
@[simp] theorem State.settle_q (s : State) : (s.settle).q = s.q := by unfold State.settle; split <;> simp
@[simp] theorem State.settle_alu (s : State) : (s.settle).alu = s.alu := by unfold State.settle; split <;> simp
@[simp] theorem State.settle_tlb (s : State) : (s.settle).tlb = s.tlb := by unfold State.settle; split <;> simp
@[simp] theorem State.settle_rom (s : State) : (s.settle).rom = s.rom := by unfold State.settle; split <;> simp
@[simp] theorem State.settle_mode (s : State) : (s.settle).mode = s.mode := by unfold State.settle; split <;> simp
@[simp] theorem State.settle_pins (s : State) : (s.settle).pins = s.pins := by unfold State.settle; split <;> simp
@[simp] theorem State.settle_warnPending (s : State) : (s.settle).warnPending = s.warnPending := by unfold State.settle; split <;> simp
@[simp] theorem State.settle_ir (s : State) : (s.settle).ir = s.ir := by unfold State.settle; split <;> simp
@[simp] theorem State.settle_irValid (s : State) : (s.settle).irValid = s.irValid := by unfold State.settle; split <;> simp
@[simp] theorem State.settle_testing (s : State) : (s.settle).testing = s.testing := by unfold State.settle; split <;> simp
@[simp] theorem State.settle_invPending (s : State) : (s.settle).invPending = s.invPending := by unfold State.settle; split <;> simp
@[simp] theorem State.settle_cdInForce (s : State) : (s.settle).cdInForce = s.cdInForce := by unfold State.settle; split <;> simp
@[simp] theorem State.settle_block (s : State) : (s.settle).block = s.block := by unfold State.settle; split <;> simp
@[simp] theorem State.settle_turn (s : State) : (s.settle).turn = s.turn := by unfold State.settle; split <;> simp
@[simp] theorem State.settle_nextTurn (s : State) : (s.settle).nextTurn = s.nextTurn := by unfold State.settle; split <;> simp
@[simp] theorem State.settle_lastNonseq (s : State) : (s.settle).lastNonseq = s.lastNonseq := by unfold State.settle; split <;> simp
@[simp] theorem State.settle_cacheSince (s : State) : (s.settle).cacheSince = s.cacheSince := by unfold State.settle; split <;> simp
@[simp] theorem State.settle_cacheUndefined (s : State) : (s.settle).cacheUndefined = s.cacheUndefined := by unfold State.settle; split <;> simp
@[simp] theorem State.settle_oldMaps (s : State) : (s.settle).oldMaps = s.oldMaps := by unfold State.settle; split <;> simp
@[simp] theorem State.settle_stream (s : State) : (s.settle).stream = s.stream := by unfold State.settle; split <;> simp
@[simp] theorem State.settle_afterMultiple (s : State) : (s.settle).afterMultiple = s.afterMultiple := by unfold State.settle; split <;> simp
@[simp] theorem State.settle_mlByMove (s : State) : (s.settle).mlByMove = s.mlByMove := by unfold State.settle; split <;> simp
@[simp] theorem State.settle_sys (s : State) : (s.settle).sys = s.sys := by unfold State.settle; split <;> simp

@[simp] theorem State.hold_gpr (s : State) : (s.hold).gpr = s.gpr := rfl
@[simp] theorem State.hold_gr1 (s : State) : (s.hold).gr1 = s.gr1 := rfl
@[simp] theorem State.hold_sps (s : State) : (s.hold).sps = s.sps := rfl
@[simp] theorem State.hold_pc (s : State) : (s.hold).pc = s.pc := rfl
@[simp] theorem State.hold_npc (s : State) : (s.hold).npc = s.npc := rfl
@[simp] theorem State.hold_ppc (s : State) : (s.hold).ppc = s.ppc := rfl
@[simp] theorem State.hold_vab (s : State) : (s.hold).vab = s.vab := rfl
@[simp] theorem State.hold_ops (s : State) : (s.hold).ops = s.ops := rfl
@[simp] theorem State.hold_cps (s : State) : (s.hold).cps = s.cps := rfl
@[simp] theorem State.hold_cfg (s : State) : (s.hold).cfg = s.cfg := rfl
@[simp] theorem State.hold_cha (s : State) : (s.hold).cha = s.cha := rfl
@[simp] theorem State.hold_chd (s : State) : (s.hold).chd = s.chd := rfl
@[simp] theorem State.hold_chc (s : State) : (s.hold).chc = s.chc := rfl
@[simp] theorem State.hold_rbp (s : State) : (s.hold).rbp = s.rbp := rfl
@[simp] theorem State.hold_tmc (s : State) : (s.hold).tmc = s.tmc := rfl
@[simp] theorem State.hold_tmr (s : State) : (s.hold).tmr = s.tmr := rfl
@[simp] theorem State.hold_pc0 (s : State) : (s.hold).pc0 = s.pc0 := rfl
@[simp] theorem State.hold_pc1 (s : State) : (s.hold).pc1 = s.pc1 := rfl
@[simp] theorem State.hold_pc2 (s : State) : (s.hold).pc2 = s.pc2 := rfl
@[simp] theorem State.hold_mmu (s : State) : (s.hold).mmu = s.mmu := rfl
@[simp] theorem State.hold_psTarget (s : State) : (s.hold).psTarget = s.psTarget := rfl
@[simp] theorem State.hold_psBefore (s : State) : (s.hold).psBefore = s.psBefore := rfl
@[simp] theorem State.hold_lru (s : State) : (s.hold).lru = s.lru := rfl
@[simp] theorem State.hold_ipc (s : State) : (s.hold).ipc = s.ipc := rfl
@[simp] theorem State.hold_ipa (s : State) : (s.hold).ipa = s.ipa := rfl
@[simp] theorem State.hold_ipb (s : State) : (s.hold).ipb = s.ipb := rfl
@[simp] theorem State.hold_q (s : State) : (s.hold).q = s.q := rfl
@[simp] theorem State.hold_alu (s : State) : (s.hold).alu = s.alu := rfl
@[simp] theorem State.hold_tlb (s : State) : (s.hold).tlb = s.tlb := rfl
@[simp] theorem State.hold_idm (s : State) : (s.hold).idm = s.idm := rfl
@[simp] theorem State.hold_rom (s : State) : (s.hold).rom = s.rom := rfl
@[simp] theorem State.hold_inflight (s : State) : (s.hold).inflight = s.inflight := rfl
@[simp] theorem State.hold_derr (s : State) : (s.hold).derr = s.derr := rfl
@[simp] theorem State.hold_pins (s : State) : (s.hold).pins = s.pins := rfl
@[simp] theorem State.hold_warnPending (s : State) : (s.hold).warnPending = s.warnPending := rfl
@[simp] theorem State.hold_ir (s : State) : (s.hold).ir = s.ir := rfl
@[simp] theorem State.hold_irValid (s : State) : (s.hold).irValid = s.irValid := rfl
@[simp] theorem State.hold_testing (s : State) : (s.hold).testing = s.testing := rfl
@[simp] theorem State.hold_invPending (s : State) : (s.hold).invPending = s.invPending := rfl
@[simp] theorem State.hold_cdInForce (s : State) : (s.hold).cdInForce = s.cdInForce := rfl
@[simp] theorem State.hold_block (s : State) : (s.hold).block = s.block := rfl
@[simp] theorem State.hold_turn (s : State) : (s.hold).turn = s.turn := rfl
@[simp] theorem State.hold_nextTurn (s : State) : (s.hold).nextTurn = s.nextTurn := rfl
@[simp] theorem State.hold_lastNonseq (s : State) : (s.hold).lastNonseq = s.lastNonseq := rfl
@[simp] theorem State.hold_cacheSince (s : State) : (s.hold).cacheSince = s.cacheSince := rfl
@[simp] theorem State.hold_cacheUndefined (s : State) : (s.hold).cacheUndefined = s.cacheUndefined := rfl
@[simp] theorem State.hold_oldWords (s : State) : (s.hold).oldWords = s.oldWords := rfl
@[simp] theorem State.hold_oldMaps (s : State) : (s.hold).oldMaps = s.oldMaps := rfl
@[simp] theorem State.hold_stream (s : State) : (s.hold).stream = s.stream := rfl
@[simp] theorem State.hold_afterMultiple (s : State) : (s.hold).afterMultiple = s.afterMultiple := rfl
@[simp] theorem State.hold_mlByMove (s : State) : (s.hold).mlByMove = s.mlByMove := rfl
@[simp] theorem State.hold_sys (s : State) : (s.hold).sys = s.sys := rfl
@[simp] theorem State.hold_clock (s : State) : (s.hold).clock = s.clock := rfl
@[simp] theorem State.hold_env (s : State) : (s.hold).env = s.env := rfl

@[simp] theorem State.abandon_gpr (s : State) : (s.abandon).gpr = s.gpr := by unfold State.abandon; split <;> rfl
@[simp] theorem State.abandon_gr1 (s : State) : (s.abandon).gr1 = s.gr1 := by unfold State.abandon; split <;> rfl
@[simp] theorem State.abandon_sps (s : State) : (s.abandon).sps = s.sps := by unfold State.abandon; split <;> rfl
@[simp] theorem State.abandon_pc (s : State) : (s.abandon).pc = s.pc := by unfold State.abandon; split <;> rfl
@[simp] theorem State.abandon_npc (s : State) : (s.abandon).npc = s.npc := by unfold State.abandon; split <;> rfl
@[simp] theorem State.abandon_ppc (s : State) : (s.abandon).ppc = s.ppc := by unfold State.abandon; split <;> rfl
@[simp] theorem State.abandon_vab (s : State) : (s.abandon).vab = s.vab := by unfold State.abandon; split <;> rfl
@[simp] theorem State.abandon_ops (s : State) : (s.abandon).ops = s.ops := by unfold State.abandon; split <;> rfl
@[simp] theorem State.abandon_cps (s : State) : (s.abandon).cps = s.cps := by unfold State.abandon; split <;> rfl
@[simp] theorem State.abandon_cfg (s : State) : (s.abandon).cfg = s.cfg := by unfold State.abandon; split <;> rfl
@[simp] theorem State.abandon_cha (s : State) : (s.abandon).cha = s.cha := by unfold State.abandon; split <;> rfl
@[simp] theorem State.abandon_chd (s : State) : (s.abandon).chd = s.chd := by unfold State.abandon; split <;> rfl
@[simp] theorem State.abandon_chc (s : State) : (s.abandon).chc = s.chc := by unfold State.abandon; split <;> rfl
@[simp] theorem State.abandon_rbp (s : State) : (s.abandon).rbp = s.rbp := by unfold State.abandon; split <;> rfl
@[simp] theorem State.abandon_tmc (s : State) : (s.abandon).tmc = s.tmc := by unfold State.abandon; split <;> rfl
@[simp] theorem State.abandon_tmr (s : State) : (s.abandon).tmr = s.tmr := by unfold State.abandon; split <;> rfl
@[simp] theorem State.abandon_pc0 (s : State) : (s.abandon).pc0 = s.pc0 := by unfold State.abandon; split <;> rfl
@[simp] theorem State.abandon_pc1 (s : State) : (s.abandon).pc1 = s.pc1 := by unfold State.abandon; split <;> rfl
@[simp] theorem State.abandon_pc2 (s : State) : (s.abandon).pc2 = s.pc2 := by unfold State.abandon; split <;> rfl
@[simp] theorem State.abandon_mmu (s : State) : (s.abandon).mmu = s.mmu := by unfold State.abandon; split <;> rfl
@[simp] theorem State.abandon_psTarget (s : State) : (s.abandon).psTarget = s.psTarget := by unfold State.abandon; split <;> rfl
@[simp] theorem State.abandon_psBefore (s : State) : (s.abandon).psBefore = s.psBefore := by unfold State.abandon; split <;> rfl
@[simp] theorem State.abandon_lru (s : State) : (s.abandon).lru = s.lru := by unfold State.abandon; split <;> rfl
@[simp] theorem State.abandon_ipc (s : State) : (s.abandon).ipc = s.ipc := by unfold State.abandon; split <;> rfl
@[simp] theorem State.abandon_ipa (s : State) : (s.abandon).ipa = s.ipa := by unfold State.abandon; split <;> rfl
@[simp] theorem State.abandon_ipb (s : State) : (s.abandon).ipb = s.ipb := by unfold State.abandon; split <;> rfl
@[simp] theorem State.abandon_q (s : State) : (s.abandon).q = s.q := by unfold State.abandon; split <;> rfl
@[simp] theorem State.abandon_alu (s : State) : (s.abandon).alu = s.alu := by unfold State.abandon; split <;> rfl
@[simp] theorem State.abandon_tlb (s : State) : (s.abandon).tlb = s.tlb := by unfold State.abandon; split <;> rfl
@[simp] theorem State.abandon_idm (s : State) : (s.abandon).idm = s.idm := by unfold State.abandon; split <;> rfl
@[simp] theorem State.abandon_rom (s : State) : (s.abandon).rom = s.rom := by unfold State.abandon; split <;> rfl
@[simp] theorem State.abandon_derr (s : State) : (s.abandon).derr = s.derr := by unfold State.abandon; split <;> rfl
@[simp] theorem State.abandon_mode (s : State) : (s.abandon).mode = s.mode := by unfold State.abandon; split <;> rfl
@[simp] theorem State.abandon_pins (s : State) : (s.abandon).pins = s.pins := by unfold State.abandon; split <;> rfl
@[simp] theorem State.abandon_warnPending (s : State) : (s.abandon).warnPending = s.warnPending := by unfold State.abandon; split <;> rfl
@[simp] theorem State.abandon_ir (s : State) : (s.abandon).ir = s.ir := by unfold State.abandon; split <;> rfl
@[simp] theorem State.abandon_irValid (s : State) : (s.abandon).irValid = s.irValid := by unfold State.abandon; split <;> rfl
@[simp] theorem State.abandon_testing (s : State) : (s.abandon).testing = s.testing := by unfold State.abandon; split <;> rfl
@[simp] theorem State.abandon_invPending (s : State) : (s.abandon).invPending = s.invPending := by unfold State.abandon; split <;> rfl
@[simp] theorem State.abandon_cdInForce (s : State) : (s.abandon).cdInForce = s.cdInForce := by unfold State.abandon; split <;> rfl
@[simp] theorem State.abandon_block (s : State) : (s.abandon).block = s.block := by unfold State.abandon; split <;> rfl
@[simp] theorem State.abandon_turn (s : State) : (s.abandon).turn = s.turn := by unfold State.abandon; split <;> rfl
@[simp] theorem State.abandon_nextTurn (s : State) : (s.abandon).nextTurn = s.nextTurn := by unfold State.abandon; split <;> rfl
@[simp] theorem State.abandon_lastNonseq (s : State) : (s.abandon).lastNonseq = s.lastNonseq := by unfold State.abandon; split <;> rfl
@[simp] theorem State.abandon_cacheSince (s : State) : (s.abandon).cacheSince = s.cacheSince := by unfold State.abandon; split <;> rfl
@[simp] theorem State.abandon_cacheUndefined (s : State) : (s.abandon).cacheUndefined = s.cacheUndefined := by unfold State.abandon; split <;> rfl
@[simp] theorem State.abandon_oldWords (s : State) : (s.abandon).oldWords = s.oldWords := by unfold State.abandon; split <;> rfl
@[simp] theorem State.abandon_oldMaps (s : State) : (s.abandon).oldMaps = s.oldMaps := by unfold State.abandon; split <;> rfl
@[simp] theorem State.abandon_stream (s : State) : (s.abandon).stream = s.stream := by unfold State.abandon; split <;> rfl
@[simp] theorem State.abandon_afterMultiple (s : State) : (s.abandon).afterMultiple = s.afterMultiple := by unfold State.abandon; split <;> rfl
@[simp] theorem State.abandon_mlByMove (s : State) : (s.abandon).mlByMove = s.mlByMove := by unfold State.abandon; split <;> rfl
@[simp] theorem State.abandon_sys (s : State) : (s.abandon).sys = s.sys := by unfold State.abandon; split <;> rfl
@[simp] theorem State.abandon_clock (s : State) : (s.abandon).clock = s.clock := by unfold State.abandon; split <;> rfl

@[simp] theorem State.endMultiple_gpr (s : State) : (s.endMultiple).gpr = s.gpr := by unfold State.endMultiple; split <;> rfl
@[simp] theorem State.endMultiple_gr1 (s : State) : (s.endMultiple).gr1 = s.gr1 := by unfold State.endMultiple; split <;> rfl
@[simp] theorem State.endMultiple_sps (s : State) : (s.endMultiple).sps = s.sps := by unfold State.endMultiple; split <;> rfl
@[simp] theorem State.endMultiple_pc (s : State) : (s.endMultiple).pc = s.pc := by unfold State.endMultiple; split <;> rfl
@[simp] theorem State.endMultiple_npc (s : State) : (s.endMultiple).npc = s.npc := by unfold State.endMultiple; split <;> rfl
@[simp] theorem State.endMultiple_ppc (s : State) : (s.endMultiple).ppc = s.ppc := by unfold State.endMultiple; split <;> rfl
@[simp] theorem State.endMultiple_vab (s : State) : (s.endMultiple).vab = s.vab := by unfold State.endMultiple; split <;> rfl
@[simp] theorem State.endMultiple_ops (s : State) : (s.endMultiple).ops = s.ops := by unfold State.endMultiple; split <;> rfl
@[simp] theorem State.endMultiple_cps (s : State) : (s.endMultiple).cps = s.cps := by unfold State.endMultiple; split <;> rfl
@[simp] theorem State.endMultiple_cfg (s : State) : (s.endMultiple).cfg = s.cfg := by unfold State.endMultiple; split <;> rfl
@[simp] theorem State.endMultiple_cha (s : State) : (s.endMultiple).cha = s.cha := by unfold State.endMultiple; split <;> rfl
@[simp] theorem State.endMultiple_chd (s : State) : (s.endMultiple).chd = s.chd := by unfold State.endMultiple; split <;> rfl
@[simp] theorem State.endMultiple_rbp (s : State) : (s.endMultiple).rbp = s.rbp := by unfold State.endMultiple; split <;> rfl
@[simp] theorem State.endMultiple_tmc (s : State) : (s.endMultiple).tmc = s.tmc := by unfold State.endMultiple; split <;> rfl
@[simp] theorem State.endMultiple_tmr (s : State) : (s.endMultiple).tmr = s.tmr := by unfold State.endMultiple; split <;> rfl
@[simp] theorem State.endMultiple_pc0 (s : State) : (s.endMultiple).pc0 = s.pc0 := by unfold State.endMultiple; split <;> rfl
@[simp] theorem State.endMultiple_pc1 (s : State) : (s.endMultiple).pc1 = s.pc1 := by unfold State.endMultiple; split <;> rfl
@[simp] theorem State.endMultiple_pc2 (s : State) : (s.endMultiple).pc2 = s.pc2 := by unfold State.endMultiple; split <;> rfl
@[simp] theorem State.endMultiple_mmu (s : State) : (s.endMultiple).mmu = s.mmu := by unfold State.endMultiple; split <;> rfl
@[simp] theorem State.endMultiple_psTarget (s : State) : (s.endMultiple).psTarget = s.psTarget := by unfold State.endMultiple; split <;> rfl
@[simp] theorem State.endMultiple_psBefore (s : State) : (s.endMultiple).psBefore = s.psBefore := by unfold State.endMultiple; split <;> rfl
@[simp] theorem State.endMultiple_lru (s : State) : (s.endMultiple).lru = s.lru := by unfold State.endMultiple; split <;> rfl
@[simp] theorem State.endMultiple_ipc (s : State) : (s.endMultiple).ipc = s.ipc := by unfold State.endMultiple; split <;> rfl
@[simp] theorem State.endMultiple_ipa (s : State) : (s.endMultiple).ipa = s.ipa := by unfold State.endMultiple; split <;> rfl
@[simp] theorem State.endMultiple_ipb (s : State) : (s.endMultiple).ipb = s.ipb := by unfold State.endMultiple; split <;> rfl
@[simp] theorem State.endMultiple_q (s : State) : (s.endMultiple).q = s.q := by unfold State.endMultiple; split <;> rfl
@[simp] theorem State.endMultiple_alu (s : State) : (s.endMultiple).alu = s.alu := by unfold State.endMultiple; split <;> rfl
@[simp] theorem State.endMultiple_tlb (s : State) : (s.endMultiple).tlb = s.tlb := by unfold State.endMultiple; split <;> rfl
@[simp] theorem State.endMultiple_idm (s : State) : (s.endMultiple).idm = s.idm := by unfold State.endMultiple; split <;> rfl
@[simp] theorem State.endMultiple_rom (s : State) : (s.endMultiple).rom = s.rom := by unfold State.endMultiple; split <;> rfl
@[simp] theorem State.endMultiple_inflight (s : State) : (s.endMultiple).inflight = s.inflight := by unfold State.endMultiple; split <;> rfl
@[simp] theorem State.endMultiple_derr (s : State) : (s.endMultiple).derr = s.derr := by unfold State.endMultiple; split <;> rfl
@[simp] theorem State.endMultiple_mode (s : State) : (s.endMultiple).mode = s.mode := by unfold State.endMultiple; split <;> rfl
@[simp] theorem State.endMultiple_pins (s : State) : (s.endMultiple).pins = s.pins := by unfold State.endMultiple; split <;> rfl
@[simp] theorem State.endMultiple_warnPending (s : State) : (s.endMultiple).warnPending = s.warnPending := by unfold State.endMultiple; split <;> rfl
@[simp] theorem State.endMultiple_ir (s : State) : (s.endMultiple).ir = s.ir := by unfold State.endMultiple; split <;> rfl
@[simp] theorem State.endMultiple_irValid (s : State) : (s.endMultiple).irValid = s.irValid := by unfold State.endMultiple; split <;> rfl
@[simp] theorem State.endMultiple_testing (s : State) : (s.endMultiple).testing = s.testing := by unfold State.endMultiple; split <;> rfl
@[simp] theorem State.endMultiple_invPending (s : State) : (s.endMultiple).invPending = s.invPending := by unfold State.endMultiple; split <;> rfl
@[simp] theorem State.endMultiple_cdInForce (s : State) : (s.endMultiple).cdInForce = s.cdInForce := by unfold State.endMultiple; split <;> rfl
@[simp] theorem State.endMultiple_block (s : State) : (s.endMultiple).block = s.block := by unfold State.endMultiple; split <;> rfl
@[simp] theorem State.endMultiple_turn (s : State) : (s.endMultiple).turn = s.turn := by unfold State.endMultiple; split <;> rfl
@[simp] theorem State.endMultiple_nextTurn (s : State) : (s.endMultiple).nextTurn = s.nextTurn := by unfold State.endMultiple; split <;> rfl
@[simp] theorem State.endMultiple_lastNonseq (s : State) : (s.endMultiple).lastNonseq = s.lastNonseq := by unfold State.endMultiple; split <;> rfl
@[simp] theorem State.endMultiple_cacheSince (s : State) : (s.endMultiple).cacheSince = s.cacheSince := by unfold State.endMultiple; split <;> rfl
@[simp] theorem State.endMultiple_cacheUndefined (s : State) : (s.endMultiple).cacheUndefined = s.cacheUndefined := by unfold State.endMultiple; split <;> rfl
@[simp] theorem State.endMultiple_oldWords (s : State) : (s.endMultiple).oldWords = s.oldWords := by unfold State.endMultiple; split <;> rfl
@[simp] theorem State.endMultiple_oldMaps (s : State) : (s.endMultiple).oldMaps = s.oldMaps := by unfold State.endMultiple; split <;> rfl
@[simp] theorem State.endMultiple_stream (s : State) : (s.endMultiple).stream = s.stream := by unfold State.endMultiple; split <;> rfl
@[simp] theorem State.endMultiple_afterMultiple (s : State) : (s.endMultiple).afterMultiple = s.afterMultiple := by unfold State.endMultiple; split <;> rfl
@[simp] theorem State.endMultiple_mlByMove (s : State) : (s.endMultiple).mlByMove = s.mlByMove := by unfold State.endMultiple; split <;> rfl
@[simp] theorem State.endMultiple_sys (s : State) : (s.endMultiple).sys = s.sys := by unfold State.endMultiple; split <;> rfl
@[simp] theorem State.endMultiple_clock (s : State) : (s.endMultiple).clock = s.clock := by unfold State.endMultiple; split <;> rfl
@[simp] theorem State.endMultiple_env (s : State) : (s.endMultiple).env = s.env := by unfold State.endMultiple; split <;> rfl

@[simp] theorem State.touchLine_gpr (s : State) (l : BitVec 5) (b : Bool) : (s.touchLine l b).gpr = s.gpr := rfl
@[simp] theorem State.touchLine_gr1 (s : State) (l : BitVec 5) (b : Bool) : (s.touchLine l b).gr1 = s.gr1 := rfl
@[simp] theorem State.touchLine_sps (s : State) (l : BitVec 5) (b : Bool) : (s.touchLine l b).sps = s.sps := rfl
@[simp] theorem State.touchLine_pc (s : State) (l : BitVec 5) (b : Bool) : (s.touchLine l b).pc = s.pc := rfl
@[simp] theorem State.touchLine_npc (s : State) (l : BitVec 5) (b : Bool) : (s.touchLine l b).npc = s.npc := rfl
@[simp] theorem State.touchLine_ppc (s : State) (l : BitVec 5) (b : Bool) : (s.touchLine l b).ppc = s.ppc := rfl
@[simp] theorem State.touchLine_vab (s : State) (l : BitVec 5) (b : Bool) : (s.touchLine l b).vab = s.vab := rfl
@[simp] theorem State.touchLine_ops (s : State) (l : BitVec 5) (b : Bool) : (s.touchLine l b).ops = s.ops := rfl
@[simp] theorem State.touchLine_cps (s : State) (l : BitVec 5) (b : Bool) : (s.touchLine l b).cps = s.cps := rfl
@[simp] theorem State.touchLine_cfg (s : State) (l : BitVec 5) (b : Bool) : (s.touchLine l b).cfg = s.cfg := rfl
@[simp] theorem State.touchLine_cha (s : State) (l : BitVec 5) (b : Bool) : (s.touchLine l b).cha = s.cha := rfl
@[simp] theorem State.touchLine_chd (s : State) (l : BitVec 5) (b : Bool) : (s.touchLine l b).chd = s.chd := rfl
@[simp] theorem State.touchLine_chc (s : State) (l : BitVec 5) (b : Bool) : (s.touchLine l b).chc = s.chc := rfl
@[simp] theorem State.touchLine_rbp (s : State) (l : BitVec 5) (b : Bool) : (s.touchLine l b).rbp = s.rbp := rfl
@[simp] theorem State.touchLine_tmc (s : State) (l : BitVec 5) (b : Bool) : (s.touchLine l b).tmc = s.tmc := rfl
@[simp] theorem State.touchLine_tmr (s : State) (l : BitVec 5) (b : Bool) : (s.touchLine l b).tmr = s.tmr := rfl
@[simp] theorem State.touchLine_pc0 (s : State) (l : BitVec 5) (b : Bool) : (s.touchLine l b).pc0 = s.pc0 := rfl
@[simp] theorem State.touchLine_pc1 (s : State) (l : BitVec 5) (b : Bool) : (s.touchLine l b).pc1 = s.pc1 := rfl
@[simp] theorem State.touchLine_pc2 (s : State) (l : BitVec 5) (b : Bool) : (s.touchLine l b).pc2 = s.pc2 := rfl
@[simp] theorem State.touchLine_mmu (s : State) (l : BitVec 5) (b : Bool) : (s.touchLine l b).mmu = s.mmu := rfl
@[simp] theorem State.touchLine_psTarget (s : State) (l : BitVec 5) (b : Bool) : (s.touchLine l b).psTarget = s.psTarget := rfl
@[simp] theorem State.touchLine_psBefore (s : State) (l : BitVec 5) (b : Bool) : (s.touchLine l b).psBefore = s.psBefore := rfl
@[simp] theorem State.touchLine_lru (s : State) (l : BitVec 5) (b : Bool) : (s.touchLine l b).lru = s.lru := rfl
@[simp] theorem State.touchLine_ipc (s : State) (l : BitVec 5) (b : Bool) : (s.touchLine l b).ipc = s.ipc := rfl
@[simp] theorem State.touchLine_ipa (s : State) (l : BitVec 5) (b : Bool) : (s.touchLine l b).ipa = s.ipa := rfl
@[simp] theorem State.touchLine_ipb (s : State) (l : BitVec 5) (b : Bool) : (s.touchLine l b).ipb = s.ipb := rfl
@[simp] theorem State.touchLine_q (s : State) (l : BitVec 5) (b : Bool) : (s.touchLine l b).q = s.q := rfl
@[simp] theorem State.touchLine_alu (s : State) (l : BitVec 5) (b : Bool) : (s.touchLine l b).alu = s.alu := rfl
@[simp] theorem State.touchLine_idm (s : State) (l : BitVec 5) (b : Bool) : (s.touchLine l b).idm = s.idm := rfl
@[simp] theorem State.touchLine_rom (s : State) (l : BitVec 5) (b : Bool) : (s.touchLine l b).rom = s.rom := rfl
@[simp] theorem State.touchLine_inflight (s : State) (l : BitVec 5) (b : Bool) : (s.touchLine l b).inflight = s.inflight := rfl
@[simp] theorem State.touchLine_derr (s : State) (l : BitVec 5) (b : Bool) : (s.touchLine l b).derr = s.derr := rfl
@[simp] theorem State.touchLine_mode (s : State) (l : BitVec 5) (b : Bool) : (s.touchLine l b).mode = s.mode := rfl
@[simp] theorem State.touchLine_pins (s : State) (l : BitVec 5) (b : Bool) : (s.touchLine l b).pins = s.pins := rfl
@[simp] theorem State.touchLine_warnPending (s : State) (l : BitVec 5) (b : Bool) : (s.touchLine l b).warnPending = s.warnPending := rfl
@[simp] theorem State.touchLine_ir (s : State) (l : BitVec 5) (b : Bool) : (s.touchLine l b).ir = s.ir := rfl
@[simp] theorem State.touchLine_irValid (s : State) (l : BitVec 5) (b : Bool) : (s.touchLine l b).irValid = s.irValid := rfl
@[simp] theorem State.touchLine_testing (s : State) (l : BitVec 5) (b : Bool) : (s.touchLine l b).testing = s.testing := rfl
@[simp] theorem State.touchLine_invPending (s : State) (l : BitVec 5) (b : Bool) : (s.touchLine l b).invPending = s.invPending := rfl
@[simp] theorem State.touchLine_cdInForce (s : State) (l : BitVec 5) (b : Bool) : (s.touchLine l b).cdInForce = s.cdInForce := rfl
@[simp] theorem State.touchLine_block (s : State) (l : BitVec 5) (b : Bool) : (s.touchLine l b).block = s.block := rfl
@[simp] theorem State.touchLine_turn (s : State) (l : BitVec 5) (b : Bool) : (s.touchLine l b).turn = s.turn := rfl
@[simp] theorem State.touchLine_nextTurn (s : State) (l : BitVec 5) (b : Bool) : (s.touchLine l b).nextTurn = s.nextTurn := rfl
@[simp] theorem State.touchLine_lastNonseq (s : State) (l : BitVec 5) (b : Bool) : (s.touchLine l b).lastNonseq = s.lastNonseq := rfl
@[simp] theorem State.touchLine_cacheSince (s : State) (l : BitVec 5) (b : Bool) : (s.touchLine l b).cacheSince = s.cacheSince := rfl
@[simp] theorem State.touchLine_cacheUndefined (s : State) (l : BitVec 5) (b : Bool) : (s.touchLine l b).cacheUndefined = s.cacheUndefined := rfl
@[simp] theorem State.touchLine_oldWords (s : State) (l : BitVec 5) (b : Bool) : (s.touchLine l b).oldWords = s.oldWords := rfl
@[simp] theorem State.touchLine_oldMaps (s : State) (l : BitVec 5) (b : Bool) : (s.touchLine l b).oldMaps = s.oldMaps := rfl
@[simp] theorem State.touchLine_stream (s : State) (l : BitVec 5) (b : Bool) : (s.touchLine l b).stream = s.stream := rfl
@[simp] theorem State.touchLine_afterMultiple (s : State) (l : BitVec 5) (b : Bool) : (s.touchLine l b).afterMultiple = s.afterMultiple := rfl
@[simp] theorem State.touchLine_mlByMove (s : State) (l : BitVec 5) (b : Bool) : (s.touchLine l b).mlByMove = s.mlByMove := rfl
@[simp] theorem State.touchLine_sys (s : State) (l : BitVec 5) (b : Bool) : (s.touchLine l b).sys = s.sys := rfl
@[simp] theorem State.touchLine_clock (s : State) (l : BitVec 5) (b : Bool) : (s.touchLine l b).clock = s.clock := rfl
@[simp] theorem State.touchLine_env (s : State) (l : BitVec 5) (b : Bool) : (s.touchLine l b).env = s.env := rfl

@[simp] theorem State.writeTlb_gpr (s : State) (n : BitVec 7) (v : Word) : (s.writeTlb n v).gpr = s.gpr := by unfold State.writeTlb; dsimp only; split <;> rfl
@[simp] theorem State.writeTlb_gr1 (s : State) (n : BitVec 7) (v : Word) : (s.writeTlb n v).gr1 = s.gr1 := by unfold State.writeTlb; dsimp only; split <;> rfl
@[simp] theorem State.writeTlb_sps (s : State) (n : BitVec 7) (v : Word) : (s.writeTlb n v).sps = s.sps := by unfold State.writeTlb; dsimp only; split <;> rfl
@[simp] theorem State.writeTlb_pc (s : State) (n : BitVec 7) (v : Word) : (s.writeTlb n v).pc = s.pc := by unfold State.writeTlb; dsimp only; split <;> rfl
@[simp] theorem State.writeTlb_npc (s : State) (n : BitVec 7) (v : Word) : (s.writeTlb n v).npc = s.npc := by unfold State.writeTlb; dsimp only; split <;> rfl
@[simp] theorem State.writeTlb_ppc (s : State) (n : BitVec 7) (v : Word) : (s.writeTlb n v).ppc = s.ppc := by unfold State.writeTlb; dsimp only; split <;> rfl
@[simp] theorem State.writeTlb_vab (s : State) (n : BitVec 7) (v : Word) : (s.writeTlb n v).vab = s.vab := by unfold State.writeTlb; dsimp only; split <;> rfl
@[simp] theorem State.writeTlb_ops (s : State) (n : BitVec 7) (v : Word) : (s.writeTlb n v).ops = s.ops := by unfold State.writeTlb; dsimp only; split <;> rfl
@[simp] theorem State.writeTlb_cps (s : State) (n : BitVec 7) (v : Word) : (s.writeTlb n v).cps = s.cps := by unfold State.writeTlb; dsimp only; split <;> rfl
@[simp] theorem State.writeTlb_cfg (s : State) (n : BitVec 7) (v : Word) : (s.writeTlb n v).cfg = s.cfg := by unfold State.writeTlb; dsimp only; split <;> rfl
@[simp] theorem State.writeTlb_cha (s : State) (n : BitVec 7) (v : Word) : (s.writeTlb n v).cha = s.cha := by unfold State.writeTlb; dsimp only; split <;> rfl
@[simp] theorem State.writeTlb_chd (s : State) (n : BitVec 7) (v : Word) : (s.writeTlb n v).chd = s.chd := by unfold State.writeTlb; dsimp only; split <;> rfl
@[simp] theorem State.writeTlb_chc (s : State) (n : BitVec 7) (v : Word) : (s.writeTlb n v).chc = s.chc := by unfold State.writeTlb; dsimp only; split <;> rfl
@[simp] theorem State.writeTlb_rbp (s : State) (n : BitVec 7) (v : Word) : (s.writeTlb n v).rbp = s.rbp := by unfold State.writeTlb; dsimp only; split <;> rfl
@[simp] theorem State.writeTlb_tmc (s : State) (n : BitVec 7) (v : Word) : (s.writeTlb n v).tmc = s.tmc := by unfold State.writeTlb; dsimp only; split <;> rfl
@[simp] theorem State.writeTlb_tmr (s : State) (n : BitVec 7) (v : Word) : (s.writeTlb n v).tmr = s.tmr := by unfold State.writeTlb; dsimp only; split <;> rfl
@[simp] theorem State.writeTlb_pc0 (s : State) (n : BitVec 7) (v : Word) : (s.writeTlb n v).pc0 = s.pc0 := by unfold State.writeTlb; dsimp only; split <;> rfl
@[simp] theorem State.writeTlb_pc1 (s : State) (n : BitVec 7) (v : Word) : (s.writeTlb n v).pc1 = s.pc1 := by unfold State.writeTlb; dsimp only; split <;> rfl
@[simp] theorem State.writeTlb_pc2 (s : State) (n : BitVec 7) (v : Word) : (s.writeTlb n v).pc2 = s.pc2 := by unfold State.writeTlb; dsimp only; split <;> rfl
@[simp] theorem State.writeTlb_mmu (s : State) (n : BitVec 7) (v : Word) : (s.writeTlb n v).mmu = s.mmu := by unfold State.writeTlb; dsimp only; split <;> rfl
@[simp] theorem State.writeTlb_psTarget (s : State) (n : BitVec 7) (v : Word) : (s.writeTlb n v).psTarget = s.psTarget := by unfold State.writeTlb; dsimp only; split <;> rfl
@[simp] theorem State.writeTlb_psBefore (s : State) (n : BitVec 7) (v : Word) : (s.writeTlb n v).psBefore = s.psBefore := by unfold State.writeTlb; dsimp only; split <;> rfl
@[simp] theorem State.writeTlb_lru (s : State) (n : BitVec 7) (v : Word) : (s.writeTlb n v).lru = s.lru := by unfold State.writeTlb; dsimp only; split <;> rfl
@[simp] theorem State.writeTlb_ipc (s : State) (n : BitVec 7) (v : Word) : (s.writeTlb n v).ipc = s.ipc := by unfold State.writeTlb; dsimp only; split <;> rfl
@[simp] theorem State.writeTlb_ipa (s : State) (n : BitVec 7) (v : Word) : (s.writeTlb n v).ipa = s.ipa := by unfold State.writeTlb; dsimp only; split <;> rfl
@[simp] theorem State.writeTlb_ipb (s : State) (n : BitVec 7) (v : Word) : (s.writeTlb n v).ipb = s.ipb := by unfold State.writeTlb; dsimp only; split <;> rfl
@[simp] theorem State.writeTlb_q (s : State) (n : BitVec 7) (v : Word) : (s.writeTlb n v).q = s.q := by unfold State.writeTlb; dsimp only; split <;> rfl
@[simp] theorem State.writeTlb_alu (s : State) (n : BitVec 7) (v : Word) : (s.writeTlb n v).alu = s.alu := by unfold State.writeTlb; dsimp only; split <;> rfl
@[simp] theorem State.writeTlb_idm (s : State) (n : BitVec 7) (v : Word) : (s.writeTlb n v).idm = s.idm := by unfold State.writeTlb; dsimp only; split <;> rfl
@[simp] theorem State.writeTlb_rom (s : State) (n : BitVec 7) (v : Word) : (s.writeTlb n v).rom = s.rom := by unfold State.writeTlb; dsimp only; split <;> rfl
@[simp] theorem State.writeTlb_inflight (s : State) (n : BitVec 7) (v : Word) : (s.writeTlb n v).inflight = s.inflight := by unfold State.writeTlb; dsimp only; split <;> rfl
@[simp] theorem State.writeTlb_derr (s : State) (n : BitVec 7) (v : Word) : (s.writeTlb n v).derr = s.derr := by unfold State.writeTlb; dsimp only; split <;> rfl
@[simp] theorem State.writeTlb_mode (s : State) (n : BitVec 7) (v : Word) : (s.writeTlb n v).mode = s.mode := by unfold State.writeTlb; dsimp only; split <;> rfl
@[simp] theorem State.writeTlb_pins (s : State) (n : BitVec 7) (v : Word) : (s.writeTlb n v).pins = s.pins := by unfold State.writeTlb; dsimp only; split <;> rfl
@[simp] theorem State.writeTlb_warnPending (s : State) (n : BitVec 7) (v : Word) : (s.writeTlb n v).warnPending = s.warnPending := by unfold State.writeTlb; dsimp only; split <;> rfl
@[simp] theorem State.writeTlb_ir (s : State) (n : BitVec 7) (v : Word) : (s.writeTlb n v).ir = s.ir := by unfold State.writeTlb; dsimp only; split <;> rfl
@[simp] theorem State.writeTlb_irValid (s : State) (n : BitVec 7) (v : Word) : (s.writeTlb n v).irValid = s.irValid := by unfold State.writeTlb; dsimp only; split <;> rfl
@[simp] theorem State.writeTlb_testing (s : State) (n : BitVec 7) (v : Word) : (s.writeTlb n v).testing = s.testing := by unfold State.writeTlb; dsimp only; split <;> rfl
@[simp] theorem State.writeTlb_invPending (s : State) (n : BitVec 7) (v : Word) : (s.writeTlb n v).invPending = s.invPending := by unfold State.writeTlb; dsimp only; split <;> rfl
@[simp] theorem State.writeTlb_cdInForce (s : State) (n : BitVec 7) (v : Word) : (s.writeTlb n v).cdInForce = s.cdInForce := by unfold State.writeTlb; dsimp only; split <;> rfl
@[simp] theorem State.writeTlb_block (s : State) (n : BitVec 7) (v : Word) : (s.writeTlb n v).block = s.block := by unfold State.writeTlb; dsimp only; split <;> rfl
@[simp] theorem State.writeTlb_turn (s : State) (n : BitVec 7) (v : Word) : (s.writeTlb n v).turn = s.turn := by unfold State.writeTlb; dsimp only; split <;> rfl
@[simp] theorem State.writeTlb_nextTurn (s : State) (n : BitVec 7) (v : Word) : (s.writeTlb n v).nextTurn = s.nextTurn := by unfold State.writeTlb; dsimp only; split <;> rfl
@[simp] theorem State.writeTlb_lastNonseq (s : State) (n : BitVec 7) (v : Word) : (s.writeTlb n v).lastNonseq = s.lastNonseq := by unfold State.writeTlb; dsimp only; split <;> rfl
@[simp] theorem State.writeTlb_cacheSince (s : State) (n : BitVec 7) (v : Word) : (s.writeTlb n v).cacheSince = s.cacheSince := by unfold State.writeTlb; dsimp only; split <;> rfl
@[simp] theorem State.writeTlb_cacheUndefined (s : State) (n : BitVec 7) (v : Word) : (s.writeTlb n v).cacheUndefined = s.cacheUndefined := by unfold State.writeTlb; dsimp only; split <;> rfl
@[simp] theorem State.writeTlb_oldWords (s : State) (n : BitVec 7) (v : Word) : (s.writeTlb n v).oldWords = s.oldWords := by unfold State.writeTlb; dsimp only; split <;> rfl
@[simp] theorem State.writeTlb_stream (s : State) (n : BitVec 7) (v : Word) : (s.writeTlb n v).stream = s.stream := by unfold State.writeTlb; dsimp only; split <;> rfl
@[simp] theorem State.writeTlb_afterMultiple (s : State) (n : BitVec 7) (v : Word) : (s.writeTlb n v).afterMultiple = s.afterMultiple := by unfold State.writeTlb; dsimp only; split <;> rfl
@[simp] theorem State.writeTlb_mlByMove (s : State) (n : BitVec 7) (v : Word) : (s.writeTlb n v).mlByMove = s.mlByMove := by unfold State.writeTlb; dsimp only; split <;> rfl
@[simp] theorem State.writeTlb_sys (s : State) (n : BitVec 7) (v : Word) : (s.writeTlb n v).sys = s.sys := by unfold State.writeTlb; dsimp only; split <;> rfl
@[simp] theorem State.writeTlb_clock (s : State) (n : BitVec 7) (v : Word) : (s.writeTlb n v).clock = s.clock := by unfold State.writeTlb; dsimp only; split <;> rfl
@[simp] theorem State.writeTlb_env (s : State) (n : BitVec 7) (v : Word) : (s.writeTlb n v).env = s.env := by unfold State.writeTlb; dsimp only; split <;> rfl

@[simp] theorem State.timer_gpr (s : State) (n : Nat) : (s.timer n).gpr = s.gpr := rfl
@[simp] theorem State.timer_gr1 (s : State) (n : Nat) : (s.timer n).gr1 = s.gr1 := rfl
@[simp] theorem State.timer_sps (s : State) (n : Nat) : (s.timer n).sps = s.sps := rfl
@[simp] theorem State.timer_pc (s : State) (n : Nat) : (s.timer n).pc = s.pc := rfl
@[simp] theorem State.timer_npc (s : State) (n : Nat) : (s.timer n).npc = s.npc := rfl
@[simp] theorem State.timer_ppc (s : State) (n : Nat) : (s.timer n).ppc = s.ppc := rfl
@[simp] theorem State.timer_vab (s : State) (n : Nat) : (s.timer n).vab = s.vab := rfl
@[simp] theorem State.timer_ops (s : State) (n : Nat) : (s.timer n).ops = s.ops := rfl
@[simp] theorem State.timer_cps (s : State) (n : Nat) : (s.timer n).cps = s.cps := rfl
@[simp] theorem State.timer_cfg (s : State) (n : Nat) : (s.timer n).cfg = s.cfg := rfl
@[simp] theorem State.timer_cha (s : State) (n : Nat) : (s.timer n).cha = s.cha := rfl
@[simp] theorem State.timer_chd (s : State) (n : Nat) : (s.timer n).chd = s.chd := rfl
@[simp] theorem State.timer_chc (s : State) (n : Nat) : (s.timer n).chc = s.chc := rfl
@[simp] theorem State.timer_rbp (s : State) (n : Nat) : (s.timer n).rbp = s.rbp := rfl
@[simp] theorem State.timer_pc0 (s : State) (n : Nat) : (s.timer n).pc0 = s.pc0 := rfl
@[simp] theorem State.timer_pc1 (s : State) (n : Nat) : (s.timer n).pc1 = s.pc1 := rfl
@[simp] theorem State.timer_pc2 (s : State) (n : Nat) : (s.timer n).pc2 = s.pc2 := rfl
@[simp] theorem State.timer_mmu (s : State) (n : Nat) : (s.timer n).mmu = s.mmu := rfl
@[simp] theorem State.timer_psTarget (s : State) (n : Nat) : (s.timer n).psTarget = s.psTarget := rfl
@[simp] theorem State.timer_psBefore (s : State) (n : Nat) : (s.timer n).psBefore = s.psBefore := rfl
@[simp] theorem State.timer_lru (s : State) (n : Nat) : (s.timer n).lru = s.lru := rfl
@[simp] theorem State.timer_ipc (s : State) (n : Nat) : (s.timer n).ipc = s.ipc := rfl
@[simp] theorem State.timer_ipa (s : State) (n : Nat) : (s.timer n).ipa = s.ipa := rfl
@[simp] theorem State.timer_ipb (s : State) (n : Nat) : (s.timer n).ipb = s.ipb := rfl
@[simp] theorem State.timer_q (s : State) (n : Nat) : (s.timer n).q = s.q := rfl
@[simp] theorem State.timer_alu (s : State) (n : Nat) : (s.timer n).alu = s.alu := rfl
@[simp] theorem State.timer_tlb (s : State) (n : Nat) : (s.timer n).tlb = s.tlb := rfl
@[simp] theorem State.timer_idm (s : State) (n : Nat) : (s.timer n).idm = s.idm := rfl
@[simp] theorem State.timer_rom (s : State) (n : Nat) : (s.timer n).rom = s.rom := rfl
@[simp] theorem State.timer_inflight (s : State) (n : Nat) : (s.timer n).inflight = s.inflight := rfl
@[simp] theorem State.timer_derr (s : State) (n : Nat) : (s.timer n).derr = s.derr := rfl
@[simp] theorem State.timer_mode (s : State) (n : Nat) : (s.timer n).mode = s.mode := rfl
@[simp] theorem State.timer_pins (s : State) (n : Nat) : (s.timer n).pins = s.pins := rfl
@[simp] theorem State.timer_warnPending (s : State) (n : Nat) : (s.timer n).warnPending = s.warnPending := rfl
@[simp] theorem State.timer_ir (s : State) (n : Nat) : (s.timer n).ir = s.ir := rfl
@[simp] theorem State.timer_irValid (s : State) (n : Nat) : (s.timer n).irValid = s.irValid := rfl
@[simp] theorem State.timer_testing (s : State) (n : Nat) : (s.timer n).testing = s.testing := rfl
@[simp] theorem State.timer_invPending (s : State) (n : Nat) : (s.timer n).invPending = s.invPending := rfl
@[simp] theorem State.timer_cdInForce (s : State) (n : Nat) : (s.timer n).cdInForce = s.cdInForce := rfl
@[simp] theorem State.timer_block (s : State) (n : Nat) : (s.timer n).block = s.block := rfl
@[simp] theorem State.timer_turn (s : State) (n : Nat) : (s.timer n).turn = s.turn := rfl
@[simp] theorem State.timer_nextTurn (s : State) (n : Nat) : (s.timer n).nextTurn = s.nextTurn := rfl
@[simp] theorem State.timer_lastNonseq (s : State) (n : Nat) : (s.timer n).lastNonseq = s.lastNonseq := rfl
@[simp] theorem State.timer_cacheSince (s : State) (n : Nat) : (s.timer n).cacheSince = s.cacheSince := rfl
@[simp] theorem State.timer_cacheUndefined (s : State) (n : Nat) : (s.timer n).cacheUndefined = s.cacheUndefined := rfl
@[simp] theorem State.timer_oldWords (s : State) (n : Nat) : (s.timer n).oldWords = s.oldWords := rfl
@[simp] theorem State.timer_oldMaps (s : State) (n : Nat) : (s.timer n).oldMaps = s.oldMaps := rfl
@[simp] theorem State.timer_stream (s : State) (n : Nat) : (s.timer n).stream = s.stream := rfl
@[simp] theorem State.timer_afterMultiple (s : State) (n : Nat) : (s.timer n).afterMultiple = s.afterMultiple := rfl
@[simp] theorem State.timer_mlByMove (s : State) (n : Nat) : (s.timer n).mlByMove = s.mlByMove := rfl
@[simp] theorem State.timer_sys (s : State) (n : Nat) : (s.timer n).sys = s.sys := rfl
@[simp] theorem State.timer_clock (s : State) (n : Nat) : (s.timer n).clock = s.clock := rfl
@[simp] theorem State.timer_env (s : State) (n : Nat) : (s.timer n).env = s.env := rfl

@[simp] theorem State.stepCycles_gpr (s : State) : (s.stepCycles).gpr = s.gpr := rfl
@[simp] theorem State.stepCycles_gr1 (s : State) : (s.stepCycles).gr1 = s.gr1 := rfl
@[simp] theorem State.stepCycles_sps (s : State) : (s.stepCycles).sps = s.sps := rfl
@[simp] theorem State.stepCycles_pc (s : State) : (s.stepCycles).pc = s.pc := rfl
@[simp] theorem State.stepCycles_npc (s : State) : (s.stepCycles).npc = s.npc := rfl
@[simp] theorem State.stepCycles_ppc (s : State) : (s.stepCycles).ppc = s.ppc := rfl
@[simp] theorem State.stepCycles_vab (s : State) : (s.stepCycles).vab = s.vab := rfl
@[simp] theorem State.stepCycles_ops (s : State) : (s.stepCycles).ops = s.ops := rfl
@[simp] theorem State.stepCycles_cps (s : State) : (s.stepCycles).cps = s.cps := rfl
@[simp] theorem State.stepCycles_cfg (s : State) : (s.stepCycles).cfg = s.cfg := rfl
@[simp] theorem State.stepCycles_cha (s : State) : (s.stepCycles).cha = s.cha := rfl
@[simp] theorem State.stepCycles_chd (s : State) : (s.stepCycles).chd = s.chd := rfl
@[simp] theorem State.stepCycles_chc (s : State) : (s.stepCycles).chc = s.chc := rfl
@[simp] theorem State.stepCycles_rbp (s : State) : (s.stepCycles).rbp = s.rbp := rfl
@[simp] theorem State.stepCycles_pc0 (s : State) : (s.stepCycles).pc0 = s.pc0 := rfl
@[simp] theorem State.stepCycles_pc1 (s : State) : (s.stepCycles).pc1 = s.pc1 := rfl
@[simp] theorem State.stepCycles_pc2 (s : State) : (s.stepCycles).pc2 = s.pc2 := rfl
@[simp] theorem State.stepCycles_mmu (s : State) : (s.stepCycles).mmu = s.mmu := rfl
@[simp] theorem State.stepCycles_psTarget (s : State) : (s.stepCycles).psTarget = s.psTarget := rfl
@[simp] theorem State.stepCycles_psBefore (s : State) : (s.stepCycles).psBefore = s.psBefore := rfl
@[simp] theorem State.stepCycles_lru (s : State) : (s.stepCycles).lru = s.lru := rfl
@[simp] theorem State.stepCycles_ipc (s : State) : (s.stepCycles).ipc = s.ipc := rfl
@[simp] theorem State.stepCycles_ipa (s : State) : (s.stepCycles).ipa = s.ipa := rfl
@[simp] theorem State.stepCycles_ipb (s : State) : (s.stepCycles).ipb = s.ipb := rfl
@[simp] theorem State.stepCycles_q (s : State) : (s.stepCycles).q = s.q := rfl
@[simp] theorem State.stepCycles_alu (s : State) : (s.stepCycles).alu = s.alu := rfl
@[simp] theorem State.stepCycles_tlb (s : State) : (s.stepCycles).tlb = s.tlb := rfl
@[simp] theorem State.stepCycles_idm (s : State) : (s.stepCycles).idm = s.idm := rfl
@[simp] theorem State.stepCycles_rom (s : State) : (s.stepCycles).rom = s.rom := rfl
@[simp] theorem State.stepCycles_inflight (s : State) : (s.stepCycles).inflight = s.inflight := rfl
@[simp] theorem State.stepCycles_derr (s : State) : (s.stepCycles).derr = s.derr := rfl
@[simp] theorem State.stepCycles_mode (s : State) : (s.stepCycles).mode = s.mode := rfl
@[simp] theorem State.stepCycles_pins (s : State) : (s.stepCycles).pins = s.pins := rfl
@[simp] theorem State.stepCycles_warnPending (s : State) : (s.stepCycles).warnPending = s.warnPending := rfl
@[simp] theorem State.stepCycles_ir (s : State) : (s.stepCycles).ir = s.ir := rfl
@[simp] theorem State.stepCycles_irValid (s : State) : (s.stepCycles).irValid = s.irValid := rfl
@[simp] theorem State.stepCycles_testing (s : State) : (s.stepCycles).testing = s.testing := rfl
@[simp] theorem State.stepCycles_invPending (s : State) : (s.stepCycles).invPending = s.invPending := rfl
@[simp] theorem State.stepCycles_cdInForce (s : State) : (s.stepCycles).cdInForce = s.cdInForce := rfl
@[simp] theorem State.stepCycles_block (s : State) : (s.stepCycles).block = s.block := rfl
@[simp] theorem State.stepCycles_turn (s : State) : (s.stepCycles).turn = s.turn := rfl
@[simp] theorem State.stepCycles_nextTurn (s : State) : (s.stepCycles).nextTurn = s.nextTurn := rfl
@[simp] theorem State.stepCycles_lastNonseq (s : State) : (s.stepCycles).lastNonseq = s.lastNonseq := rfl
@[simp] theorem State.stepCycles_cacheSince (s : State) : (s.stepCycles).cacheSince = s.cacheSince := rfl
@[simp] theorem State.stepCycles_cacheUndefined (s : State) : (s.stepCycles).cacheUndefined = s.cacheUndefined := rfl
@[simp] theorem State.stepCycles_oldWords (s : State) : (s.stepCycles).oldWords = s.oldWords := rfl
@[simp] theorem State.stepCycles_oldMaps (s : State) : (s.stepCycles).oldMaps = s.oldMaps := rfl
@[simp] theorem State.stepCycles_stream (s : State) : (s.stepCycles).stream = s.stream := rfl
@[simp] theorem State.stepCycles_afterMultiple (s : State) : (s.stepCycles).afterMultiple = s.afterMultiple := rfl
@[simp] theorem State.stepCycles_mlByMove (s : State) : (s.stepCycles).mlByMove = s.mlByMove := rfl
@[simp] theorem State.stepCycles_sys (s : State) : (s.stepCycles).sys = s.sys := rfl
@[simp] theorem State.stepCycles_clock (s : State) : (s.stepCycles).clock = s.clock := rfl

@[simp] theorem State.samplePins_gpr (s : State) : (s.samplePins).gpr = s.gpr := rfl
@[simp] theorem State.samplePins_gr1 (s : State) : (s.samplePins).gr1 = s.gr1 := rfl
@[simp] theorem State.samplePins_sps (s : State) : (s.samplePins).sps = s.sps := rfl
@[simp] theorem State.samplePins_pc (s : State) : (s.samplePins).pc = s.pc := rfl
@[simp] theorem State.samplePins_npc (s : State) : (s.samplePins).npc = s.npc := rfl
@[simp] theorem State.samplePins_ppc (s : State) : (s.samplePins).ppc = s.ppc := rfl
@[simp] theorem State.samplePins_vab (s : State) : (s.samplePins).vab = s.vab := rfl
@[simp] theorem State.samplePins_ops (s : State) : (s.samplePins).ops = s.ops := rfl
@[simp] theorem State.samplePins_cps (s : State) : (s.samplePins).cps = s.cps := rfl
@[simp] theorem State.samplePins_cfg (s : State) : (s.samplePins).cfg = s.cfg := rfl
@[simp] theorem State.samplePins_cha (s : State) : (s.samplePins).cha = s.cha := rfl
@[simp] theorem State.samplePins_chd (s : State) : (s.samplePins).chd = s.chd := rfl
@[simp] theorem State.samplePins_chc (s : State) : (s.samplePins).chc = s.chc := rfl
@[simp] theorem State.samplePins_rbp (s : State) : (s.samplePins).rbp = s.rbp := rfl
@[simp] theorem State.samplePins_tmc (s : State) : (s.samplePins).tmc = s.tmc := rfl
@[simp] theorem State.samplePins_tmr (s : State) : (s.samplePins).tmr = s.tmr := rfl
@[simp] theorem State.samplePins_pc0 (s : State) : (s.samplePins).pc0 = s.pc0 := rfl
@[simp] theorem State.samplePins_pc1 (s : State) : (s.samplePins).pc1 = s.pc1 := rfl
@[simp] theorem State.samplePins_pc2 (s : State) : (s.samplePins).pc2 = s.pc2 := rfl
@[simp] theorem State.samplePins_mmu (s : State) : (s.samplePins).mmu = s.mmu := rfl
@[simp] theorem State.samplePins_psTarget (s : State) : (s.samplePins).psTarget = s.psTarget := rfl
@[simp] theorem State.samplePins_psBefore (s : State) : (s.samplePins).psBefore = s.psBefore := rfl
@[simp] theorem State.samplePins_lru (s : State) : (s.samplePins).lru = s.lru := rfl
@[simp] theorem State.samplePins_ipc (s : State) : (s.samplePins).ipc = s.ipc := rfl
@[simp] theorem State.samplePins_ipa (s : State) : (s.samplePins).ipa = s.ipa := rfl
@[simp] theorem State.samplePins_ipb (s : State) : (s.samplePins).ipb = s.ipb := rfl
@[simp] theorem State.samplePins_q (s : State) : (s.samplePins).q = s.q := rfl
@[simp] theorem State.samplePins_alu (s : State) : (s.samplePins).alu = s.alu := rfl
@[simp] theorem State.samplePins_tlb (s : State) : (s.samplePins).tlb = s.tlb := rfl
@[simp] theorem State.samplePins_idm (s : State) : (s.samplePins).idm = s.idm := rfl
@[simp] theorem State.samplePins_rom (s : State) : (s.samplePins).rom = s.rom := rfl
@[simp] theorem State.samplePins_inflight (s : State) : (s.samplePins).inflight = s.inflight := rfl
@[simp] theorem State.samplePins_derr (s : State) : (s.samplePins).derr = s.derr := rfl
@[simp] theorem State.samplePins_mode (s : State) : (s.samplePins).mode = s.mode := rfl
@[simp] theorem State.samplePins_ir (s : State) : (s.samplePins).ir = s.ir := rfl
@[simp] theorem State.samplePins_irValid (s : State) : (s.samplePins).irValid = s.irValid := rfl
@[simp] theorem State.samplePins_testing (s : State) : (s.samplePins).testing = s.testing := rfl
@[simp] theorem State.samplePins_invPending (s : State) : (s.samplePins).invPending = s.invPending := rfl
@[simp] theorem State.samplePins_cdInForce (s : State) : (s.samplePins).cdInForce = s.cdInForce := rfl
@[simp] theorem State.samplePins_block (s : State) : (s.samplePins).block = s.block := rfl
@[simp] theorem State.samplePins_turn (s : State) : (s.samplePins).turn = s.turn := rfl
@[simp] theorem State.samplePins_nextTurn (s : State) : (s.samplePins).nextTurn = s.nextTurn := rfl
@[simp] theorem State.samplePins_lastNonseq (s : State) : (s.samplePins).lastNonseq = s.lastNonseq := rfl
@[simp] theorem State.samplePins_cacheSince (s : State) : (s.samplePins).cacheSince = s.cacheSince := rfl
@[simp] theorem State.samplePins_cacheUndefined (s : State) : (s.samplePins).cacheUndefined = s.cacheUndefined := rfl
@[simp] theorem State.samplePins_oldWords (s : State) : (s.samplePins).oldWords = s.oldWords := rfl
@[simp] theorem State.samplePins_oldMaps (s : State) : (s.samplePins).oldMaps = s.oldMaps := rfl
@[simp] theorem State.samplePins_stream (s : State) : (s.samplePins).stream = s.stream := rfl
@[simp] theorem State.samplePins_afterMultiple (s : State) : (s.samplePins).afterMultiple = s.afterMultiple := rfl
@[simp] theorem State.samplePins_mlByMove (s : State) : (s.samplePins).mlByMove = s.mlByMove := rfl
@[simp] theorem State.samplePins_sys (s : State) : (s.samplePins).sys = s.sys := rfl

@[simp] theorem Delayed.older_now {α : Type} (d : Delayed α) : d.older.now = d.now := rfl
@[simp] theorem Delayed.settle_now {α : Type} (d : Delayed α) : d.settle.now = d.now := rfl
@[simp] theorem Delayed.older_old {α : Type} (d : Delayed α) : d.older.old = d.old := rfl
@[simp] theorem Delayed.settle_old {α : Type} (d : Delayed α) : d.settle.old = d.old := rfl
@[simp] theorem Delayed.older_age {α : Type} (d : Delayed α) : d.older.age = d.age - 1 := rfl
@[simp] theorem Delayed.settle_age {α : Type} (d : Delayed α) : d.settle.age = 0 := rfl
@[simp] theorem Delayed.write_now {α : Type} (d : Delayed α) (v : α) : (d.write v).now = v := rfl
@[simp] theorem Delayed.write_old {α : Type} (d : Delayed α) (v : α) : (d.write v).old = d.now := rfl
@[simp] theorem Delayed.write_age {α : Type} (d : Delayed α) (v : α) : (d.write v).age = 2 := rfl
@[simp] theorem Delayed.settled_now {α : Type} (v : α) : (Delayed.settled v).now = v := rfl
@[simp] theorem Delayed.settled_old {α : Type} (v : α) : (Delayed.settled v).old = v := rfl
@[simp] theorem Delayed.settled_age {α : Type} (v : α) : (Delayed.settled v).age = 0 := rfl

@[simp] theorem State.ageEffects_sps (s : State) : s.ageEffects.sps = s.sps.older := rfl
@[simp] theorem State.settleEffects_sps (s : State) : s.settleEffects.sps = s.sps.settle := rfl
@[simp] theorem State.advance_sps (s : State) : s.advance.sps = s.sps.older := by simp [State.advance]
@[simp] theorem State.retire_sps (s : State) : s.retire.sps = s.sps.older := by simp [State.retire]
@[simp] theorem State.branchTo_sps (s : State) (t : IAddr) : (s.branchTo t).sps = s.sps.older := by simp [State.branchTo]
@[simp] theorem State.enterHandler_sps (s : State) (t : IAddr) (re : Bool) : (s.enterHandler t re).sps = s.sps.settle := rfl
@[simp] theorem State.ageEffects_mmu (s : State) : s.ageEffects.mmu = s.mmu.older := rfl
@[simp] theorem State.settleEffects_mmu (s : State) : s.settleEffects.mmu = s.mmu.settle := rfl
@[simp] theorem State.advance_mmu (s : State) : s.advance.mmu = s.mmu.older := by simp [State.advance]
@[simp] theorem State.retire_mmu (s : State) : s.retire.mmu = s.mmu.older := by simp [State.retire]
@[simp] theorem State.branchTo_mmu (s : State) (t : IAddr) : (s.branchTo t).mmu = s.mmu.older := by simp [State.branchTo]
@[simp] theorem State.enterHandler_mmu (s : State) (t : IAddr) (re : Bool) : (s.enterHandler t re).mmu = s.mmu.settle := rfl
@[simp] theorem State.ageEffects_ipa (s : State) : s.ageEffects.ipa = s.ipa.older := rfl
@[simp] theorem State.settleEffects_ipa (s : State) : s.settleEffects.ipa = s.ipa.settle := rfl
@[simp] theorem State.advance_ipa (s : State) : s.advance.ipa = s.ipa.older := by simp [State.advance]
@[simp] theorem State.retire_ipa (s : State) : s.retire.ipa = s.ipa.older := by simp [State.retire]
@[simp] theorem State.branchTo_ipa (s : State) (t : IAddr) : (s.branchTo t).ipa = s.ipa.older := by simp [State.branchTo]
@[simp] theorem State.enterHandler_ipa (s : State) (t : IAddr) (re : Bool) : (s.enterHandler t re).ipa = s.ipa.settle := rfl
@[simp] theorem State.ageEffects_ipb (s : State) : s.ageEffects.ipb = s.ipb.older := rfl
@[simp] theorem State.settleEffects_ipb (s : State) : s.settleEffects.ipb = s.ipb.settle := rfl
@[simp] theorem State.advance_ipb (s : State) : s.advance.ipb = s.ipb.older := by simp [State.advance]
@[simp] theorem State.retire_ipb (s : State) : s.retire.ipb = s.ipb.older := by simp [State.retire]
@[simp] theorem State.branchTo_ipb (s : State) (t : IAddr) : (s.branchTo t).ipb = s.ipb.older := by simp [State.branchTo]
@[simp] theorem State.enterHandler_ipb (s : State) (t : IAddr) (re : Bool) : (s.enterHandler t re).ipb = s.ipb.settle := rfl
@[simp] theorem State.ageEffects_ipc (s : State) : s.ageEffects.ipc = s.ipc.older := rfl
@[simp] theorem State.settleEffects_ipc (s : State) : s.settleEffects.ipc = s.ipc.settle := rfl
@[simp] theorem State.advance_ipc (s : State) : s.advance.ipc = s.ipc.older := by simp [State.advance]
@[simp] theorem State.retire_ipc (s : State) : s.retire.ipc = s.ipc.older := by simp [State.retire]
@[simp] theorem State.branchTo_ipc (s : State) (t : IAddr) : (s.branchTo t).ipc = s.ipc.older := by simp [State.branchTo]
@[simp] theorem State.enterHandler_ipc (s : State) (t : IAddr) (re : Bool) : (s.enterHandler t re).ipc = s.ipc.settle := rfl
@[simp] theorem State.setPointers_ipa (s : State) (a b c : RegNum) : (s.setPointers a b c).ipa = s.ipa.write a := rfl
@[simp] theorem State.setPointers_ipb (s : State) (a b c : RegNum) : (s.setPointers a b c).ipb = s.ipb.write b := rfl
@[simp] theorem State.setPointers_ipc (s : State) (a b c : RegNum) : (s.setPointers a b c).ipc = s.ipc.write c := rfl
@[simp] theorem State.branchTo_cps (s : State) (t : IAddr) : (s.branchTo t).cps = s.traceCopy.cps := by
  simp [State.branchTo]
@[simp] theorem State.retire_cps (s : State) : s.retire.cps = s.traceCopy.cps := by simp [State.retire]
@[simp] theorem State.retire_afterMultiple (s : State) : s.retire.afterMultiple = false := rfl
@[simp] theorem State.branchTo_afterMultiple (s : State) (t : IAddr) : (s.branchTo t).afterMultiple = false := rfl
@[simp] theorem State.endAccess_inflight (s : State) (d : Access) : (s.endAccess d).inflight = none := rfl

end Sys2Proof.Machine
end

