-- ==== Sys2Proof/Laws/Regs.lean ====
section
/-! SUPPORT. Reading a general register after a write, and what the derived readings of the state depend on (10 R35 to
R38). -/

namespace Sys2Proof.Machine

theorem implemented_cases {a : RegNum} (h : implemented a = true) : a = 1#8 ∨ 64 ≤ a.toNat := by
  simpa [implemented] using h

/-- An implemented register reads the same through every field. -/
theorem State.readReg_field (s : State) (f : Field) {a : RegNum} (h : implemented a = true) :
    s.readReg f a = s.readReg .A a := by
  rcases implemented_cases h with rfl | h
  · rfl
  · have h1 : a ≠ 1#8 := by rintro rfl; simp at h
    have h2 : ¬ a.toNat < 64 := by omega
    simp [State.readReg, h1, h2]

/-- What an implemented register reads depends on `gr1` and `gpr` only. -/
theorem State.readReg_congr {s t : State} (hg : t.gpr = s.gpr) (h1 : t.gr1 = s.gr1) (f : Field) {a : RegNum}
    (h : implemented a = true) : t.readReg f a = s.readReg f a := by
  rcases implemented_cases h with rfl | h
  · simp [State.readReg, h1]
  · have h1 : a ≠ 1#8 := by rintro rfl; simp at h
    have h2 : ¬ a.toNat < 64 := by omega
    simp [State.readReg, h1, h2, hg]

theorem gpr_index {a : RegNum} (h : 64 ≤ a.toNat) : a.toNat - 64 < 192 := by
  have := a.isLt
  omega

/-- Read after write of general registers (10 R37, R38). -/
theorem State.readReg_storeReg (s : State) (sh : Bool) (f : Field) (a b : RegNum) (v : Word)
    (hb : implemented b = true) :
    (s.storeReg sh a v).readReg f b = if b = a then v else s.readReg f b := by
  by_cases ha1 : a = 1#8
  · subst ha1
    by_cases hb1 : b = 1#8
    · simp [hb1, State.storeReg, State.readReg]
    · have hb2 : ¬ b.toNat < 64 := by
        rcases implemented_cases hb with h | h
        · exact absurd h hb1
        · omega
      simp [hb1, hb2, State.storeReg, State.readReg]
  · by_cases ha2 : a.toNat < 64
    · have hne : b ≠ a := by
        rintro rfl
        rcases implemented_cases hb with h | h
        · exact ha1 h
        · omega
      simp [State.storeReg, ha1, ha2, hne]
    · by_cases hb1 : b = 1#8
      · have hne : (1#8 : RegNum) ≠ a := fun h => ha1 h.symm
        simp [State.storeReg, ha1, ha2, hb1, hne, State.readReg]
      · have hb2 : 64 ≤ b.toNat := by
          rcases implemented_cases hb with h | h
          · exact absurd h hb1
          · exact h
        have hb3 : ¬ b.toNat < 64 := by omega
        have hbi := gpr_index hb2
        simp only [State.storeReg, ha1, ha2, if_false, State.readReg, hb1, hb3]
        by_cases hab : b = a
        · subst hab
          simp [hbi]
        · have : a.toNat - 64 ≠ b.toNat - 64 := by
            intro h
            have : a.toNat = b.toNat := by omega
            exact hab (BitVec.eq_of_toNat_eq this.symm)
          simp [this, hab]

theorem State.readReg_noteOverwrite (s : State) (f : Field) (a b : RegNum) (hb : implemented b = true) :
    (s.noteOverwrite a).readReg f b = s.readReg f b := State.readReg_congr (by simp) (by simp) f hb

/-- Read after the result of an instruction is written. -/
theorem State.readReg_writeReg (s : State) (sh : Bool) (f : Field) (a b : RegNum) (v : Word)
    (hb : implemented b = true) :
    (s.writeReg sh a v).readReg f b = if b = a then v else s.readReg f b := by
  rw [State.writeReg, State.readReg_storeReg _ _ _ _ _ _ hb, State.readReg_noteOverwrite _ _ _ _ hb]

/-- The processor is frozen or not by `CPS.FZ` and the Load Test Instruction mode alone. -/
theorem State.frozen_congr {s t : State} (hc : t.cps = s.cps) (ht : t.testing = s.testing) : t.frozen = s.frozen := by
  simp [State.frozen, State.fz, hc, ht]

theorem State.noteOverwrite_chc (s : State) (a : RegNum) : (s.noteOverwrite a).chc = s.chcAfterWrite a := by
  unfold State.noteOverwrite State.chcAfterWrite State.overwrites
  split
  · next h => simp [h]
  · next d h =>
    by_cases hd : d.isLoad && d.tr == a
    · cases s.frozen <;> simp [h, hd, putBit, chcNN]
    · simp [h, hd]

theorem State.noteOverwrite_inflight (s : State) (a : RegNum) : (s.noteOverwrite a).inflight = s.inflightAfterWrite a := by
  unfold State.noteOverwrite State.inflightAfterWrite State.overwrites
  split
  · next h => simp [h]
  · next d h =>
    by_cases hd : d.isLoad && d.tr == a
    · simp [h, hd]
    · simp [h, hd]

/-- A write sets NN when it overwrites the target of the load in flight (20 R146). -/
@[simp] theorem State.writeReg_chc (s : State) (sh : Bool) (a : RegNum) (v : Word) :
    (s.writeReg sh a v).chc = s.chcAfterWrite a := by simp [State.writeReg, State.noteOverwrite_chc]

/-- The data of a load whose target is overwritten is dropped (20 R146). -/
@[simp] theorem State.writeReg_inflight (s : State) (sh : Bool) (a : RegNum) (v : Word) :
    (s.writeReg sh a v).inflight = s.inflightAfterWrite a := by simp [State.writeReg, State.noteOverwrite_inflight]

theorem State.storeReg_sps (s : State) (sh : Bool) (a : RegNum) (v : Word) :
    (s.storeReg sh a v).sps =
      if a = 1#8 then
        if sh then { now := some (v.extractLsb' 2 7), old := s.sps.now, age := 2 } else .settled none
      else s.sps := by
  unfold State.storeReg
  split
  · rfl
  · split <;> rfl

theorem State.writeReg_sps (s : State) (sh : Bool) (a : RegNum) (v : Word) :
    (s.writeReg sh a v).sps =
      if a = 1#8 then
        if sh then { now := some (v.extractLsb' 2 7), old := s.sps.now, age := 2 } else .settled none
      else s.sps := by
  simp [State.writeReg, State.storeReg_sps]

/-- Bits of a word after one of them is replaced. -/
theorem getLsbD_putBit (w : Word) (i j : Nat) (b : Bool) (hi : i < 32) :
    (putBit w i b).getLsbD j = if j = i then b else w.getLsbD j := by
  by_cases hj : j < 32
  · by_cases h : j = i
    · subst h
      cases b <;> simp [putBit, hj]
    · cases b <;> simp [putBit, hj, h] <;> omega
  · have : j ≠ i := by omega
    simp [this, BitVec.getLsbD_of_ge _ _ (Nat.le_of_not_lt hj)]

theorem getLsbD_putField (w : Word) (i : Nat) {n : Nat} (v : BitVec n) (h : i + n ≤ 32) (k : Nat) :
    (putField w i v).getLsbD k = if i ≤ k ∧ k < i + n then v.getLsbD (k - i) else w.getLsbD k := by
  simp only [putField, BitVec.getLsbD_or, BitVec.getLsbD_and, BitVec.getLsbD_not, BitVec.getLsbD_shiftLeft,
    BitVec.getLsbD_setWidth, BitVec.getLsbD_allOnes]
  by_cases h1 : k < 32
  · by_cases h2 : k < i
    · simp [h1, h2, show ¬i ≤ k by omega]
    · by_cases h3 : k < i + n
      · simp [h1, h2, show i ≤ k by omega, h3, show k - i < 32 by omega, show k - i < n by omega]
      · simp [h1, h2, h3, show ¬k - i < n by omega, show k - i < 32 by omega, BitVec.getLsbD_of_ge v (k - i) (by omega)]
  · simp [h1, show ¬(i ≤ k ∧ k < i + n) by omega, BitVec.getLsbD_of_ge w k (by omega)]

/-- `CPS.TP` follows `CPS.TE` when an instruction ends; no other bit changes (60 R600). -/
theorem State.traceCopy_cps (s : State) (i : Nat) :
    s.traceCopy.cps.getLsbD i = if i = cpsTP then s.cps.getLsbD cpsTE else s.cps.getLsbD i := by
  rw [State.traceCopy, getLsbD_putBit _ _ _ _ (by decide)]

end Sys2Proof.Machine
end

