-- ==== Sys2Proof/Laws/Arith.lean ====
section
/-! SUPPORT. The add of the Integer Arithmetic class against arithmetic over the integers (40 R240), and the flags it sets
(40 R241). -/

namespace Sys2Proof.Machine

theorem bitOf_toNat (b : Bool) : (bitOf b).toNat = b.toNat := by cases b <;> rfl

theorem sum33_toNat (x y : Word) (cin : Bool) : (sum33 x y cin).toNat = x.toNat + y.toNat + cin.toNat := by
  have hx := x.isLt
  have hy := y.isLt
  have hc : cin.toNat ≤ 1 := by cases cin <;> simp
  simp only [sum33, BitVec.toNat_add, BitVec.toNat_setWidth, bitOf_toNat]
  omega

theorem getLsbD_top {n w : Nat} (v : BitVec n) (hn : n = w + 1) : v.getLsbD w = decide (2 ^ w ≤ v.toNat) := by
  subst hn
  have := BitVec.msb_eq_decide v
  simpa [BitVec.msb_eq_getLsbD_last] using this

theorem add3_cout (x y : Word) (cin : Bool) : (add3 x y cin).cout = (exactSum x y cin).carry := by
  simp only [add3, exactSum, getLsbD_top (sum33 x y cin) rfl, sum33_toNat]

theorem add3_r (x y : Word) (cin : Bool) : (add3 x y cin).r = (exactSum x y cin).word := by
  apply BitVec.eq_of_toNat_eq
  simp only [add3, exactSum, Exact.word, BitVec.extractLsb'_toNat, sum33_toNat, BitVec.toNat_ofInt, Nat.shiftRight_zero]
  omega

theorem carry31_eq (x y : Word) (cin : Bool) :
    carry31 x y cin = decide (2 ^ 31 ≤ x.toNat % 2 ^ 31 + y.toNat % 2 ^ 31 + cin.toNat) := by
  have hc : cin.toNat ≤ 1 := by cases cin <;> simp
  rw [carry31, getLsbD_top _ rfl]
  simp only [BitVec.toNat_add, BitVec.toNat_setWidth, BitVec.extractLsb'_toNat, bitOf_toNat, Nat.shiftRight_zero]
  congr 1
  apply propext
  omega

theorem add3_v (x y : Word) (cin : Bool) : (add3 x y cin).v = (exactSum x y cin).overflows := by
  have hx := x.isLt
  have hy := y.isLt
  have hc : cin.toNat ≤ 1 := by cases cin <;> simp
  simp only [add3, exactSum, Exact.overflows, carry31_eq, getLsbD_top (sum33 x y cin) rfl, sum33_toNat,
    BitVec.toInt_eq_toNat_cond]
  by_cases h1 : 2 ^ 31 ≤ x.toNat % 2 ^ 31 + y.toNat % 2 ^ 31 + cin.toNat <;>
    by_cases h2 : 2 ^ 32 ≤ x.toNat + y.toNat + cin.toNat <;>
    simp only [h1, h2, decide_true, decide_false, Bool.xor_self, Bool.xor_true, Bool.xor_false, Bool.not_false] <;>
    first
      | exact (decide_eq_true (by split_ifs <;> omega)).symm
      | exact (decide_eq_false (by split_ifs <;> omega)).symm

theorem not_toNat (y : Word) : (~~~y).toNat = 2 ^ 32 - 1 - y.toNat := BitVec.toNat_not

theorem not_toInt (y : Word) : (~~~y).toInt = -y.toInt - 1 := by
  have := y.isLt
  simp only [BitVec.toInt_eq_toNat_cond, not_toNat]
  split_ifs <;> omega

/-- An add of the complement is a subtraction (40 R240). -/
theorem exactSum_not (x y : Word) (cin : Bool) :
    (exactSum x (~~~y) cin).word = (exactDifference x y cin).word ∧
      (exactSum x (~~~y) cin).carry = (exactDifference x y cin).carry ∧
      (exactSum x (~~~y) cin).overflows = (exactDifference x y cin).overflows ∧
      (exactSum x (~~~y) cin).signed = (exactDifference x y cin).signed := by
  have hy := y.isLt
  refine ⟨?_, ?_, ?_, ?_⟩
  · apply BitVec.eq_of_toNat_eq
    simp only [exactSum, exactDifference, Exact.word, BitVec.toNat_ofInt, not_toNat]
    omega
  · simp only [exactSum, exactDifference, not_toNat]
    congr 1
    apply propext
    omega
  · simp only [exactSum, exactDifference, Exact.overflows, not_toInt]
    congr 1
    apply propext
    omega
  · simp only [exactSum, exactDifference, not_toInt]
    omega

end Sys2Proof.Machine
end

