-- ==== Sys2Proof/Laws/Operands.lean ====
section
/-! SUPPORT. What each operand form does when its registers may be used and can be had, and how an instruction that writes
one register ends. -/

namespace Sys2Proof.Machine

/-- An instruction that waits for its registers runs in the state after the wait (10 R37, 20 R144). -/
theorem State.awaitRegs_ready {s : State} {regs : List RegNum} (h : s.ready regs = true) (k : State → Result) :
    s.awaitRegs regs k = k (s.afterWait regs) := by
  cases hw : s.waitsFor regs with
  | false => simp [State.awaitRegs, State.afterWait, hw]
  | true =>
    have hd : s.settlement = .ends := by simpa [State.ready, hw] using h
    simp [State.awaitRegs, State.afterWait, State.finishAccess, hw, hd]

theorem State.binary_ready {s : State} {rc ra : RegNum} {rb : Src2} (h : s.BinaryReady rc ra rb)
    (k : RegNum → Word → Word → State → Result) :
    s.binary rc ra rb k = k (s.absReg .C rc) (s.srcA ra rb) (s.srcB ra rb) (s.atRead ra rb) := by
  obtain ⟨hc, ha, hb, hr⟩ := h
  have hw : s.ready (s.absReg .A ra :: srcRegs (s.resolve rb)) = true := hr
  simp [State.binary, hc, ha, hb, State.awaitRegs_ready hw, State.srcA, State.srcB, State.atRead, State.sourceRegs]

theorem State.sources_ready {s : State} {ra : RegNum} {rb : Src2} (h : s.SourcesReady ra rb)
    (k : Word → Word → State → Result) :
    s.sources ra rb k = k (s.srcA ra rb) (s.srcB ra rb) (s.atRead ra rb) := by
  obtain ⟨ha, hb, hr⟩ := h
  have hw : s.ready (s.absReg .A ra :: srcRegs (s.resolve rb)) = true := hr
  simp [State.sources, ha, hb, State.awaitRegs_ready hw, State.srcA, State.srcB, State.atRead, State.sourceRegs]

theorem State.unaryB_ready {s : State} {rc : RegNum} {rb : Src2} (hc : s.isProtected (s.absReg .C rc) = false)
    (hb : s.protectedSrc (s.resolve rb) = false) (hr : s.ready (srcRegs (s.resolve rb)) = true)
    (k : RegNum → Word → State → Result) :
    s.unaryB rc rb k =
      k (s.absReg .C rc) ((s.afterWait (srcRegs (s.resolve rb))).srcValue (s.resolve rb))
        (s.afterWait (srcRegs (s.resolve rb))) := by
  simp [State.unaryB, hc, hb, State.awaitRegs_ready hr]

theorem State.unaryA_ready {s : State} {rc ra : RegNum} (hc : s.isProtected (s.absReg .C rc) = false)
    (ha : s.isProtected (s.absReg .A ra) = false) (hr : s.ready [s.absReg .A ra] = true)
    (k : RegNum → Word → State → Result) :
    s.unaryA rc ra k =
      k (s.absReg .C rc) ((s.afterWait [s.absReg .A ra]).readReg .A (s.absReg .A ra)) (s.afterWait [s.absReg .A ra]) := by
  simp [State.unaryA, hc, ha, State.awaitRegs_ready hr]

theorem State.readA_ready {s : State} {ra : RegNum} (ha : s.isProtected (s.absReg .A ra) = false)
    (hr : s.ready [s.absReg .A ra] = true) (k : RegNum → Word → State → Result) :
    s.readA ra k =
      k (s.absReg .A ra) ((s.afterWait [s.absReg .A ra]).readReg .A (s.absReg .A ra)) (s.afterWait [s.absReg .A ra]) := by
  simp [State.readA, ha, State.awaitRegs_ready hr]

theorem State.readB_ready {s : State} {rb : RegNum} (hb : s.isProtected (s.absReg .B rb) = false)
    (hr : s.ready [s.absReg .B rb] = true) (k : Word → State → Result) :
    s.readB rb k =
      k ((s.afterWait [s.absReg .B rb]).readReg .B (s.absReg .B rb)) (s.afterWait [s.absReg .B rb]) := by
  simp [State.readB, hb, State.awaitRegs_ready hr]

theorem State.destA_ready {s : State} {ra : RegNum} (ha : s.isProtected (s.absReg .A ra) = false)
    (k : RegNum → State → Result) : s.destA ra k = k (s.absReg .A ra) s := by simp [State.destA, ha]

theorem retire_pcAdvances {s u : State} (hpc : u.pc = s.pc) (hnpc : u.npc = s.npc) (hppc : u.ppc = s.ppc)
    (ht : u.testing = s.testing) : PcAdvances s u.retire := by
  unfold PcAdvances
  split
  · next h => simp [State.retire, State.advance, State.advanceTo, h, hpc, hnpc, hppc, ht]
  · next h => simp [State.retire, State.advance, State.advanceTo, h, hpc, hnpc, ht]

theorem branchTo_pcBranches {s u : State} (x : IAddr) (hpc : u.pc = s.pc) (hnpc : u.npc = s.npc) (hppc : u.ppc = s.ppc)
    (ht : u.testing = s.testing) : PcBranches s (u.branchTo x) x := by
  unfold PcBranches
  split
  · next h => simp [State.branchTo, State.advanceTo, h, hpc, hnpc, hppc, ht]
  · next h => simp [State.branchTo, State.advanceTo, h, hpc, hnpc, ht]

/-- The end of an instruction that writes one register, `ALU` and `Q`: the first part, before the program counters. -/
theorem writesReg_of_fields {s u t : State} {c : RegNum} {w : Word} (sh : Bool)
    (hu : u = ({ s with alu := u.alu, q := u.q } : State).writeReg sh c w)
    (hregs : t.gpr = u.gpr ∧ t.gr1 = u.gr1) (hmem : t.idm = u.idm ∧ t.rom = u.rom)
    (hspecial : SameSpecial u t) (htlb : t.tlb = u.tlb) (hchannel : SameChannel u t) (hchc : t.chc = u.chc)
    (hin : t.inflight = u.inflight) (hsps : t.sps.now = u.sps.now) (hptr : SamePointers u t) (hcps : SameStatus u t)
    (hmode : t.mode = u.mode) : WritesReg s t c w := by
  have hover : ∀ (v : State), v.inflight = s.inflight → v.chc = s.chc → v.cps = s.cps → v.testing = s.testing →
      v.chcAfterWrite c = s.chcAfterWrite c ∧ v.inflightAfterWrite c = s.inflightAfterWrite c := by
    intro v h1 h2 h3 h4
    have ho : v.overwrites c = s.overwrites c := by unfold State.overwrites; rw [h1]
    simp [State.chcAfterWrite, State.inflightAfterWrite, ho, State.frozen_congr h3 h4, h1, h2]
  have hv := hover { s with alu := u.alu, q := u.q } rfl rfl rfl rfl
  constructor
  · intro h
    rw [State.readReg_congr hregs.1 hregs.2 _ h, hu, State.readReg_writeReg _ _ _ _ _ _ h, if_pos rfl]
  · intro a ha hn
    have hne : a ≠ c := by simpa using hn
    rw [State.readReg_congr hregs.1 hregs.2 _ ha, hu, State.readReg_writeReg _ _ _ _ _ _ ha, if_neg hne]
    rfl
  · intro a
    rw [hmem.1, hmem.2, hu]
    simp
  · obtain ⟨h1, h2, h3, h4, h5, h6, h7, h8, h9, h10, h11⟩ := hspecial
    rw [hu] at h1 h2 h3 h4 h5 h6 h7 h8 h9 h10 h11
    exact ⟨by simpa using h1, by simpa using h2, by simpa using h3, by simpa using h4, by simpa using h5,
      by simpa using h6, by simpa using h7, by simpa using h8, by simpa using h9, by simpa using h10, by simpa using h11⟩
  · rw [htlb, hu]
    simp
  · rw [hu] at hchannel
    simpa [SameChannel] using hchannel
  · rw [hchc, hu, State.writeReg_chc, hv.1]
  · rw [hin, hu, State.writeReg_inflight, hv.2]
  · intro hne
    rw [hsps, hu, State.writeReg_sps, if_neg hne]
  · rw [hu] at hptr
    simpa [SamePointers] using hptr
  · rw [hu] at hcps
    intro i
    simpa using hcps i
  · rw [hmode, hu]
    simp

theorem retire_sameSpecial (u : State) : SameSpecial u u.retire := by constructor <;> simp

theorem branchTo_sameSpecial (u : State) (x : IAddr) : SameSpecial u (u.branchTo x) := by constructor <;> simp

/-- An instruction that writes one register, `ALU` and `Q` and falls through (10 R38). -/
theorem writesReg_retire (s : State) (sh : Bool) (c : RegNum) (w alu q : Word) :
    WritesReg s (({ s with alu := alu, q := q } : State).writeReg sh c w).retire c w :=
  writesReg_of_fields sh (u := ({ s with alu := alu, q := q } : State).writeReg sh c w) (by simp) (by simp) (by simp)
    (retire_sameSpecial _) (by simp) (by simp [SameChannel]) (by simp) (by simp) (by simp) (by simp [SamePointers])
    (fun i => by rw [State.retire_cps, State.traceCopy_cps]) (by simp)

/-- An instruction that writes one register, `ALU` and `Q` and branches (47 R478). -/
theorem writesReg_branchTo (s : State) (sh : Bool) (c : RegNum) (w alu q : Word) (x : IAddr) :
    WritesReg s ((({ s with alu := alu, q := q } : State).writeReg sh c w).branchTo x) c w :=
  writesReg_of_fields sh (u := ({ s with alu := alu, q := q } : State).writeReg sh c w) (by simp) (by simp) (by simp)
    (branchTo_sameSpecial _ _) (by simp) (by simp [SameChannel]) (by simp) (by simp) (by simp) (by simp [SamePointers])
    (fun i => by rw [State.branchTo_cps, State.traceCopy_cps]) (by simp)

/-- An instruction that writes at most the indirect pointers and falls through. -/
theorem sameData_retire {s u : State} (h : u = { s with ipa := u.ipa, ipb := u.ipb, ipc := u.ipc }) :
    SameData s u.retire := by
  rw [h]
  constructor
  · intro a ha _
    exact State.readReg_congr (by simp) (by simp) _ ha
  · intro a
    simp
  · constructor <;> simp
  · simp
  · simp [SameChannel]
  · simp
  · simp
  · simp
  · intro i
    rw [State.retire_cps, State.traceCopy_cps]
  · simp
  · simp

/-- An instruction that writes nothing and falls through. -/
theorem writesNothing_retire (s : State) : WritesNothing s s.retire :=
  ⟨sameData_retire rfl, by simp [SamePointers], by simp⟩

/-- A taken branch that writes nothing. -/
theorem writesNothing_branchTo (s : State) (x : IAddr) : WritesNothing s (s.branchTo x) := by
  refine ⟨?_, by simp [SamePointers], by simp⟩
  constructor
  · intro a ha _
    exact State.readReg_congr (by simp) (by simp) _ ha
  · intro a
    simp
  · exact branchTo_sameSpecial s x
  · simp
  · simp [SameChannel]
  · simp
  · simp
  · simp
  · intro i
    rw [State.branchTo_cps, State.traceCopy_cps]
  · simp
  · simp

theorem State.setVNZC_eq (s : State) (sum : Sum) (w : Word) :
    s.setVNZC sum w = { s with alu := (s.setVNZC sum w).alu, q := s.q } := by
  unfold State.setVNZC
  split <;> rfl

theorem State.setNZ_eq (s : State) (w : Word) : s.setNZ w = { s with alu := (s.setNZ w).alu, q := s.q } := by
  unfold State.setNZ
  split <;> rfl

theorem getLsbD_withVNZC (alu : Word) (v n z c : Bool) (i : Nat) :
    (withVNZC alu v n z c).getLsbD i =
      if i = 10 then v else if i = 9 then n else if i = 8 then z else if i = 7 then c else alu.getLsbD i := by
  simp only [withVNZC, getLsbD_putBit _ _ _ _ (show aluC < 32 by decide),
    getLsbD_putBit _ _ _ _ (show aluZ < 32 by decide), getLsbD_putBit _ _ _ _ (show aluN < 32 by decide),
    getLsbD_putBit _ _ _ _ (show aluV < 32 by decide)]
  simp only [aluC, aluZ, aluN, aluV]
  by_cases h7 : i = 7
  · simp [h7]
  · by_cases h8 : i = 8
    · simp [h8]
    · by_cases h9 : i = 9
      · simp [h9]
      · by_cases h10 : i = 10
        · simp [h10]
        · simp [h7, h8, h9, h10]

/-- The flags rule of the Integer Arithmetic class (40 R241). -/
theorem setVNZC_flags (s : State) (sum : Sum) (w : Word) :
    FlagsVNZC s (s.setVNZC sum w) sum.v (sum.r.getLsbD 31) (w == 0#32) sum.cout := by
  intro i
  cases h : s.frozen
  · simp [State.setVNZC, h, getLsbD_withVNZC]
  · simp [State.setVNZC, h]

/-- How every add and subtract ends (40 R240, R241). -/
theorem arithResult_ends (s : State) (c : RegNum) (sum : Sum) (e : Exact) (hr : sum.r = e.word) (hc : sum.cout = e.carry)
    (hv : sum.v = e.overflows) : ArithEnds s (s.arithResult c sum sum.r) c e := by
  refine ⟨?_, ?_, ?_, ?_⟩
  · rw [State.arithResult, State.setVNZC_eq, hr]
    exact writesReg_retire s true c e.word _ _
  · intro i
    have := setVNZC_flags s sum sum.r i
    rw [hr, hc, hv] at this
    simpa [State.arithResult, hr] using this
  · simp [State.arithResult]
  · exact retire_pcAdvances (by simp) (by simp) (by simp) (by simp)

end Sys2Proof.Machine
end

