-- ==== Sys2Proof/Laws/Ops.lean ====
section
/-! SUPPORT. What taking an interrupt or trap does, and the other shared operations that end an instruction. -/

namespace Sys2Proof.Machine

/-- The image of `CPS` that a taken interrupt or trap leaves (60 R563, R564). -/
theorem trapImage_bit (s : State) (re : Bool) (i : Nat) :
    (putBit (putBit s.trapImage cpsIP false) cpsRE re).getLsbD i =
      if i = 8 then re
      else if i ∈ [0, 4, 10] then true
      else if i ∈ [7, 12, 13, 14] then false
      else if i ∈ [1, 2, 3, 5, 6, 9, 11, 15] ∧ s.sys.trapMask.getLsbD i = true then s.sys.trapValue.getLsbD i
      else s.cps.getLsbD i := by
  rw [getLsbD_putBit _ _ _ _ (by decide), getLsbD_putBit _ _ _ _ (by decide)]
  by_cases hi : i < 32
  · unfold cpsRE cpsIP State.trapImage
    simp only [BitVec.getLsbD_or, BitVec.getLsbD_and, BitVec.getLsbD_not]
    interval_cases i <;> simp [-BitVec.getLsbD_eq_getElem] <;>
      cases s.sys.trapMask.getLsbD _ <;> simp
  · have h1 : ∀ w : Word, w.getLsbD i = false := fun w => BitVec.getLsbD_of_ge w i (by omega)
    have h2 : i ∉ [0, 4, 10] ∧ i ∉ [7, 12, 13, 14] ∧ i ∉ [1, 2, 3, 5, 6, 9, 11, 15] := by
      refine ⟨?_, ?_, ?_⟩ <;> (intro h; simp at h; omega)
    have h3 : ¬i = 8 := by omega
    simp only [h1, h2, h3, if_false, cpsRE, cpsIP]
    simp

theorem vectorAddr_eq (s : State) (vn : Byte) :
    s.vectorAddr vn = BitVec.ofNat 30 (s.vab.toNat / 2 ^ 10 * 2 ^ 8 + vn.toNat) := by
  apply BitVec.eq_of_toNat_eq
  have h1 := s.vab.isLt
  have h2 := vn.isLt
  simp only [State.vectorAddr, BitVec.toNat_append, BitVec.extractLsb'_toNat, BitVec.toNat_ofNat, Nat.shiftRight_eq_div_pow]
  rw [← Nat.shiftLeft_add_eq_or_of_lt h2, Nat.shiftLeft_eq]
  omega

theorem blockAddr_eq (s : State) (vn : Byte) :
    s.blockAddr vn = BitVec.ofNat 30 (s.vab.toNat / 2 ^ 16 * 2 ^ 14 + vn.toNat * 64) := by
  apply BitVec.eq_of_toNat_eq
  have h1 := s.vab.isLt
  have h2 := vn.isLt
  simp only [State.blockAddr, BitVec.toNat_append, BitVec.extractLsb'_toNat, BitVec.toNat_ofNat, Nat.shiftRight_eq_div_pow]
  rw [← Nat.shiftLeft_add_eq_or_of_lt h2]
  simp only [Nat.shiftLeft_eq, Nat.zero_mod, Nat.or_zero]
  omega

@[simp] theorem State.setCps_cps (s : State) (c : Word) : (s.setCps c).cps = putBit c cpsIP false := by
  unfold State.setCps
  split <;> rfl

@[simp] theorem State.setCps_pcs (s : State) (c : Word) :
    (s.setCps c).ops = s.ops ∧ (s.setCps c).pc0 = s.pc0 ∧ (s.setCps c).pc1 = s.pc1 ∧ (s.setCps c).pc2 = s.pc2 := by
  simp

theorem State.saveStatus_saved (s : State) :
    s.saveStatus.ops = s.cpsView ∧ s.saveStatus.pc0 = s.pc0View ∧ s.saveStatus.pc1 = s.pc1View ∧
      s.saveStatus.pc2 = s.pc2View := by
  exact ⟨rfl, rfl, rfl, rfl⟩

theorem State.saveStatus_cps (s : State) : s.saveStatus.cps = putBit s.trapImage cpsIP false := rfl

/-- The handler of `vn` entered at `a` with `re`, whatever is left of the environment. -/
theorem entered_at {s : State} {vn : Byte} (e : Env) (a : IAddr) (re : Bool)
    (hre : re = if s.cfg.getLsbD 4 then (s.vectorWord vn).getLsbD s.sys.vectorRBit.val else s.cfg.getLsbD 3)
    (ha : a = if s.cfg.getLsbD 4 then (s.vectorWord vn).extractLsb' 2 30
      else BitVec.ofNat 30 (s.vab.toNat / 2 ^ 16 * 2 ^ 14 + vn.toNat * 64)) :
    TrapEntered s (({ s.saveStatus with env := e } : State).enterHandler a re) vn := by
  obtain ⟨h1, h2, h3, h4⟩ := s.saveStatus_saved
  constructor
  · simpa using h1
  · intro i
    rw [← hre]
    have := trapImage_bit s re i
    rw [← State.saveStatus_cps] at this
    exact this
  · rw [State.enterHandler_pc0]
    exact h2
  · rw [State.enterHandler_pc1]
    exact h3
  · rw [State.enterHandler_pc2]
    exact h4
  · exact ha
  · rfl
  · simp
  · intro r hr _
    exact State.readReg_congr (by simp) (by simp) _ hr
  · intro r
    simp
  · simp
  · simp [SameChannel]
  · simp
  · simp [State.enterHandler_sps]
  · simp [SamePointers, State.enterHandler_ipa]
  · simp
  · simp [State.enterHandler_mmu]
  · simp
  · simp

/-- Taking a trap whose vector can be read enters its handler (60 R560). -/
theorem enterTrap_entered {s : State} {vn : Byte} (h : s.vectorReadable = true) :
    ∃ t, s.enterTrap vn = .next t ∧ TrapEntered s t vn := by
  unfold State.enterTrap
  cases hv : s.cfg.getLsbD cfgVF with
  | true =>
    have h4 : s.cfg.getLsbD 4 = true := hv
    have hd : s.env.answers.headD .ready = .ready := by
      simpa [State.vectorReadable, h4, -BitVec.getLsbD_eq_getElem, -List.headD_eq_head?_getD] using h
    simp only [if_true, hd]
    refine ⟨_, rfl, entered_at _ _ _ ?_ ?_⟩
    · rw [if_pos h4, State.vectorWord, vectorAddr_eq]
    · rw [if_pos h4, State.vectorWord, vectorAddr_eq]
      rfl
  | false =>
    have h4 : s.cfg.getLsbD 4 = false := hv
    have hn : ¬s.cfg.getLsbD 4 = true := by rw [h4]; decide
    rw [if_neg (by decide)]
    refine ⟨_, rfl, entered_at s.saveStatus.env _ _ ?_ ?_⟩
    · rw [if_neg hn]
      rfl
    · rw [if_neg hn, blockAddr_eq]

/-- A vector that is answered with `*DERR` stops the model (60 R565), and one that is never answered holds it (70 R650). -/
theorem enterTrap_unread {s : State} {vn : Byte} (h : s.cfg.getLsbD 4 = true) :
    (s.env.answers.headD .ready = .error → s.enterTrap vn = .fault .vectorFetchError) ∧
      (s.env.answers.headD .ready = .never → ∃ t, s.enterTrap vn = .next t ∧ t.mode = .held) := by
  have hv : s.cfg.getLsbD cfgVF = true := h
  unfold State.enterTrap
  rw [if_pos hv]
  exact ⟨fun hx => by rw [hx], fun hx => by rw [hx]; exact ⟨_, rfl, rfl⟩⟩

/-- The take: the access in flight completes first, and its own exception goes before an event of lower priority than 4
(60 R560); without an answer the take waits (70 R650). -/
theorem takeTrap_cases (s : State) (prio : Nat) (vn : Byte) :
    (s.takeTrap prio vn = s.drain.enterTrap vn ∧ s.settlement ≠ .never ∧ (s.settlement = .ends ∨ prio ≤ 4)) ∨
      (∃ v, s.settlement = .error v ∧ 4 < prio ∧
        s.takeTrap prio vn = ({ s.drain with derr := none } : State).enterTrap v) ∨
      (s.settlement = .never ∧ s.takeTrap prio vn = .next s.hold) := by
  unfold State.takeTrap
  cases hd : s.settlement with
  | ends => exact .inl ⟨rfl, by simp, .inl rfl⟩
  | error v =>
    by_cases hp : 4 < prio
    · exact .inr (.inl ⟨v, rfl, hp, by simp [hp]⟩)
    · exact .inl ⟨by simp [hp], by simp, .inr (by omega)⟩
  | never => exact .inr (.inr ⟨rfl, rfl⟩)

/-- No trap is lost while neither `*RESET` nor `*WARN` is at hand (60 R547). -/
theorem trapLost_false {s : State} (h1 : s.nextPins.reset = false) (h2 : s.nextPins.warn = true → s.pins.warn = true) :
    s.trapLost = false := by
  unfold State.trapLost State.alarm
  rw [h1]
  cases hn : s.nextPins.warn with
  | false => rfl
  | true => rw [h2 hn]; rfl

/-- The trap of an instruction that has ended (60 R545, R553). -/
theorem raiseNext_entered {s : State} {vn : Byte} (hda : s.cps.getLsbD 0 = false) (hm : s.MayTrap) :
    ∃ t, s.raiseNext vn = .next t ∧ TrapEntered s.drain t vn := by
  obtain ⟨h1, h2, h3, h4⟩ := hm
  have : s.da = false := hda
  rcases takeTrap_cases s 3 vn with ⟨h, _⟩ | ⟨v, _, hp, _⟩ | ⟨h, _⟩
  · rw [State.raiseNext, this, trapLost_false h1 h2, if_neg (by decide), h]
    exact enterTrap_entered h4
  · omega
  · exact absurd h h3

theorem raiseNext_disabled {s : State} {vn : Byte} (hda : s.cps.getLsbD 0 = true) : s.raiseNext vn = .next s := by
  have : s.da = true := hda
  rw [State.raiseNext, this]
  rfl

/-- Completing an access uses up its answer (20 R147). -/
@[simp] theorem State.complete_env (s : State) (d : Access) :
    (s.complete d).env = { s.env with answers := answersAfter d s.env.answers } := by
  unfold State.complete State.failAccess State.clearCv
  split <;> split <;> simp [State.endAccess]

@[simp] theorem State.complete_inflight (s : State) (d : Access) : (s.complete d).inflight = none := by
  unfold State.complete State.failAccess State.clearCv
  split <;> split <;> simp [State.endAccess]

@[simp] theorem State.complete_clock (s : State) (d : Access) : (s.complete d).clock = s.clock + 1 := by
  unfold State.complete State.failAccess State.clearCv
  split <;> split <;> simp [State.endAccess]

theorem State.drain_env (s : State) : s.drain.env = (match s.inflight with
    | none => s.env
    | some d => { s.env with answers := answersAfter d s.env.answers }) := by
  unfold State.drain
  cases s.inflight with
  | none => rfl
  | some d => simp

/-- What the system answers an access does not depend on the rest of the state (60 R565). -/
theorem drain_vectorReadable {s t : State} (h1 : t.inflight = s.inflight) (h2 : t.env = s.env) (h3 : t.cfg = s.cfg) :
    t.drain.vectorReadable = s.drain.vectorReadable := by
  rw [State.vectorReadable, State.vectorReadable, t.drain_env, s.drain_env, h1, h2]
  simp [h3]

theorem settlement_congr {s t : State} (h1 : t.inflight = s.inflight) (h2 : t.env = s.env) : t.settlement = s.settlement := by
  unfold State.settlement State.answer
  rw [h1, h2]

/-- Whether a trap can be taken depends on the pins, the environment, the access in flight and `CFG`. -/
theorem mayTrap_congr {s t : State} (h1 : t.inflight = s.inflight) (h2 : t.env = s.env) (h3 : t.cfg = s.cfg)
    (h4 : t.pins = s.pins) (h : s.MayTrap) : t.MayTrap := by
  unfold State.MayTrap State.nextPins at *
  rw [settlement_congr h1 h2, drain_vectorReadable h1 h2 h3, h2, h4]
  exact h

end Sys2Proof.Machine
end

