-- ==== Sys2Proof/Laws/Mmu.lean ====
section
/-! SUPPORT. What a translation does (20 R150 to R157). -/

namespace Sys2Proof.Machine

theorem State.ps_lt (s : State) : s.ps < 4 := Nat.mod_lt _ (by decide)

/-- The page size that a translation uses when it was not just written (10 R39). -/
theorem State.pageSize_toNat {s : State} {want : Want} (h : s.mmu.age ≠ 1) (hp : want = .fetch → s.psTarget ≠ 1) :
    (s.pageSize want).toNat = s.ps := by
  have hf : s.pageSize want = s.mmu.now.extractLsb' 8 2 := by
    unfold State.pageSize
    have h1 : (s.mmu.age == 1) = false := by simpa using h
    cases want <;> simp_all
  rw [hf]
  simp [State.ps, BitVec.extractLsb'_toNat, Nat.shiftRight_eq_div_pow]

theorem offsetBits_eq {s : State} {p : BitVec 2} (hp : p.toNat = s.ps) : offsetBits p = 10 + s.ps := by rw [offsetBits, hp]

theorem tlbLine_toNat {s : State} {p : BitVec 2} (hp : p.toNat = s.ps) (va : Word) : (tlbLine va p).toNat = s.lineOf va := by
  simp [tlbLine, State.lineOf, offsetBits_eq hp, BitVec.extractLsb'_toNat, Nat.shiftRight_eq_div_pow]

theorem State.lineOf_lt (s : State) (va : Word) : s.lineOf va < 32 := Nat.mod_lt _ (by decide)

theorem tlbIndex_toNat (set1 : Bool) (line : BitVec 5) (w1 : Bool) :
    (tlbIndex set1 line w1).toNat = 64 * set1.toNat + 2 * line.toNat + w1.toNat := by
  have := line.isLt
  unfold tlbIndex
  rw [BitVec.toNat_append, BitVec.toNat_append, bitOf_toNat, bitOf_toNat,
    ← Nat.shiftLeft_add_eq_or_of_lt (show line.toNat < 2 ^ 5 from line.isLt),
    ← Nat.shiftLeft_add_eq_or_of_lt (show w1.toNat < 2 ^ 1 by cases w1 <;> decide)]
  simp only [Nat.shiftLeft_eq]
  omega

theorem State.readTlb_index {s : State} {p : BitVec 2} (hp : p.toNat = s.ps) (va : Word) (set1 w1 : Bool) :
    s.readTlb (tlbIndex set1 (tlbLine va p) w1) = s.tlbReg (64 * set1.toNat + 2 * s.lineOf va + w1.toNat) := by
  rw [State.readTlb, tlbIndex_toNat, tlbLine_toNat hp, State.tlbReg]

theorem State.entry0_eq {s : State} {p : BitVec 2} (hp : p.toNat = s.ps) (va : Word) (set1 : Bool) :
    s.readTlb (tlbIndex set1 (tlbLine va p) false) = s.entry0 va set1.toNat := State.readTlb_index hp va set1 false

theorem State.entry1_eq {s : State} {p : BitVec 2} (hp : p.toNat = s.ps) (va : Word) (set1 : Bool) :
    s.readTlb (tlbIndex set1 (tlbLine va p) true) = s.entry1 va set1.toNat := State.readTlb_index hp va set1 true

theorem shiftRight_eq_iff (a b : Word) (n : Nat) : a >>> n = b >>> n ↔ a.toNat / 2 ^ n = b.toNat / 2 ^ n := by
  rw [← BitVec.toNat_inj]
  simp [Nat.shiftRight_eq_div_pow]

/-- The match of an entry (20 R151). -/
theorem State.tlbMatch_iff {s : State} {p : BitVec 2} (hp : p.toNat = s.ps) (va : Word) (set1 : Bool) :
    s.tlbMatch va p set1 = true ↔ s.EntryMatches va set1.toNat := by
  rw [State.tlbMatch, State.EntryMatches, State.entry0_eq hp, offsetBits_eq hp]
  simp only [Bool.and_eq_true, beq_iff_eq, shiftRight_eq_iff, tlbVE]
  have h8 : ∀ a b : Word, a.extractLsb' 0 8 = b.extractLsb' 0 8 ↔ a.toNat % 2 ^ 8 = b.toNat % 2 ^ 8 := by
    intro a b
    rw [← BitVec.toNat_inj]
    simp [BitVec.extractLsb'_toNat]
  rw [h8, show 10 + s.ps + 5 = 15 + s.ps by omega]
  constructor
  · rintro ⟨⟨h1, h2⟩, h3⟩
    exact ⟨h3, h1, h2⟩
  · rintro ⟨h3, h1, h2⟩
    exact ⟨⟨h1, h2⟩, h3⟩

/-- The physical address (20 R152). -/
theorem physicalAddr_eq {s : State} {p : BitVec 2} (hp : p.toNat = s.ps) (w1 va : Word) :
    physicalAddr w1 va p =
      BitVec.ofNat 32 (w1.toNat / 2 ^ (10 + s.ps) * 2 ^ (10 + s.ps) + va.toNat % 2 ^ (10 + s.ps)) := by
  have hn : 10 + s.ps < 32 := by have := s.ps_lt; omega
  rw [physicalAddr, offsetBits_eq hp]
  generalize 10 + s.ps = n at hn
  apply BitVec.eq_of_toNat_eq
  have hlow : (va &&& ~~~(BitVec.allOnes 32 <<< n)).toNat = va.toNat % 2 ^ n := by
    have : ~~~(BitVec.allOnes 32 <<< n) = BitVec.ofNat 32 (2 ^ n - 1) := by
      apply BitVec.eq_of_getLsbD_eq
      intro i hi
      simp only [BitVec.getLsbD_not, hi, BitVec.getLsbD_shiftLeft, BitVec.getLsbD_allOnes, decide_true, Bool.true_and,
        BitVec.getLsbD_ofNat, Nat.testBit_two_pow_sub_one]
      by_cases h : i < n
      · simp [h]
      · simp [h, show i - n < 32 by omega]
    rw [this, BitVec.toNat_and, BitVec.toNat_ofNat, Nat.mod_eq_of_lt (a := 2 ^ n - 1), Nat.and_two_pow_sub_one_eq_mod]
    have : 2 ^ n ≤ 2 ^ 32 := Nat.pow_le_pow_right (by decide) (by omega)
    omega
  have hlt : va.toNat % 2 ^ n < 2 ^ n := Nat.mod_lt _ (Nat.two_pow_pos n)
  have hhigh : (w1 >>> n <<< n).toNat = w1.toNat / 2 ^ n * 2 ^ n := by
    rw [BitVec.toNat_shiftLeft, BitVec.toNat_ushiftRight, Nat.shiftRight_eq_div_pow, Nat.shiftLeft_eq, Nat.mod_eq_of_lt]
    exact Nat.lt_of_le_of_lt (Nat.div_mul_le_self _ _) w1.isLt
  have hsum : w1.toNat / 2 ^ n * 2 ^ n + va.toNat % 2 ^ n < 2 ^ 32 := by
    have h1 : w1.toNat / 2 ^ n < 2 ^ (32 - n) := by
      rw [Nat.div_lt_iff_lt_mul (Nat.two_pow_pos n), ← Nat.pow_add, show 32 - n + n = 32 by omega]
      exact w1.isLt
    have h2 : (w1.toNat / 2 ^ n + 1) * 2 ^ n ≤ 2 ^ (32 - n) * 2 ^ n := Nat.mul_le_mul_right _ h1
    rw [← Nat.pow_add, show 32 - n + n = 32 by omega, Nat.add_mul] at h2
    omega
  rw [BitVec.toNat_or, hhigh, hlow, BitVec.toNat_ofNat, Nat.mod_eq_of_lt hsum, ← Nat.shiftLeft_eq,
    Nat.shiftLeft_add_eq_or_of_lt hlt]

theorem permits_eq (w0 : Word) (want : Want) (user : Bool) : allowed w0 want user = permits w0 want user := by
  cases want <;> cases user <;> rfl

theorem State.readTlb_eq (s : State) (n : BitVec 7) : s.readTlb n = s.tlbReg n.toNat := rfl

/-- Both Usage bits of a line are set (20 R156). -/
theorem State.touchLine_reg {s : State} {p : BitVec 2} (hp : p.toNat = s.ps) (va : Word) (set1 : Bool) :
    (s.touchLine (tlbLine va p) set1).TlbIs (s.usedTlb va set1.toNat) := by
  intro k hk
  have hl := s.lineOf_lt va
  simp only [State.touchLine, State.tlbReg, State.usedTlb, tlbIndex_toNat, tlbLine_toNat hp, State.readTlb]
  rw [Vector.getElem?_setIfInBounds, Vector.getElem?_setIfInBounds]
  by_cases h1 : k = 64 + 2 * s.lineOf va + 1
  · subst h1
    have h2 : (64 + 2 * s.lineOf va + 1) % 64 = 2 * s.lineOf va + 1 := by omega
    rw [if_pos (by simp), if_pos h2]
    cases set1 <;> simp [putBit, tlbU, show 64 + 2 * s.lineOf va + 1 < 128 by omega]
  · by_cases h0 : k = 2 * s.lineOf va + 1
    · subst h0
      have h2 : (2 * s.lineOf va + 1) % 64 = 2 * s.lineOf va + 1 := by omega
      rw [if_neg (by simp), if_pos (by simp), if_pos h2]
      cases set1 <;> simp [putBit, tlbU, show 2 * s.lineOf va + 1 < 128 by omega]
    · have h2 : ¬k % 64 = 2 * s.lineOf va + 1 := by omega
      rw [if_neg (by simp; omega), if_neg (by simp; omega), if_neg h2]

/-- A translation through the one entry that matches (20 R155). -/
theorem State.translate_hit_pgm {s : State} {va : Word} {want : Want} {user : Bool} {set : Nat} (h : s.mmu.age ≠ 1)
    (hp : want = .fetch → s.psTarget ≠ 1) (hit : s.TlbHit va set) :
    ∃ tlb lru, ({ s with tlb := tlb } : State).TlbIs (s.usedTlb va set) ∧ lru &&& 0xFFFFFF81#32 = 0#32 ∧
      s.translate va want user =
        if permits (s.entry0 va set) want user then .ok (s.physical va set) ((s.entry1 va set).extractLsb' 6 2) { s with tlb := tlb }
        else .prot { s with tlb := tlb, lru := lru } := by
  have hps := State.pageSize_toNat h hp
  obtain ⟨hset, hm, hn⟩ := hit
  obtain ⟨b, rfl⟩ : ∃ b : Bool, set = b.toNat := by
    interval_cases set
    · exact ⟨false, rfl⟩
    · exact ⟨true, rfl⟩
  have hm1 : s.tlbMatch va (s.pageSize want) b = true := (State.tlbMatch_iff hps va b).mpr hm
  have hm2 : s.tlbMatch va (s.pageSize want) (!b) = false := by
    rw [Bool.eq_false_iff]
    intro hc
    have := (State.tlbMatch_iff hps va (!b)).mp hc
    cases b <;> exact hn this
  have hms : s.matchingSet va (s.pageSize want) want = b := by
    unfold State.matchingSet
    cases b
    · have : s.tlbMatch va (s.pageSize want) true = false := hm2
      simp [hm1, this]
    · have : s.tlbMatch va (s.pageSize want) false = false := hm2
      simp [hm1, this]
  refine ⟨(s.touchLine (tlbLine va (s.pageSize want)) b).tlb,
    s.free (.lruProt (want == .fetch)) &&& 0x0000007E#32, State.touchLine_reg hps va b, ?_, ?_⟩
  · rw [BitVec.and_assoc]
    simp
  · rw [State.translate]
    have hno : (!s.tlbMatch va (s.pageSize want) false && !s.tlbMatch va (s.pageSize want) true) = false := by
      cases b
      · rw [hm1]; rfl
      · rw [hm1]; simp
    simp only [hno, hms, State.entry0_eq hps, State.entry1_eq hps, permits_eq, physicalAddr_eq hps]
    rfl

/-- A translation through the one entry that matches (20 R155), its PGM bits apart. -/
theorem State.translate_hit {s : State} {va : Word} {want : Want} {user : Bool} {set : Nat} (h : s.mmu.age ≠ 1)
    (hp : want = .fetch → s.psTarget ≠ 1) (hit : s.TlbHit va set) :
    ∃ pgm tlb lru, ({ s with tlb := tlb } : State).TlbIs (s.usedTlb va set) ∧ lru &&& 0xFFFFFF81#32 = 0#32 ∧
      s.translate va want user =
        if permits (s.entry0 va set) want user then .ok (s.physical va set) pgm { s with tlb := tlb }
        else .prot { s with tlb := tlb, lru := lru } := by
  obtain ⟨tlb, lru, h1, h2, h3⟩ := State.translate_hit_pgm (user := user) h hp hit
  exact ⟨_, tlb, lru, h1, h2, h3⟩

/-- A translation that no entry matches (20 R157). -/
theorem State.translate_miss {s : State} {va : Word} {want : Want} {user : Bool} (h : s.mmu.age ≠ 1)
    (hp : want = .fetch → s.psTarget ≠ 1) (hit : s.TlbMiss va) :
    ∃ lru : Word, lru.toNat / 2 % 32 = s.lineOf va ∧ lru &&& 0xFFFFFF81#32 = 0#32 ∧
      ((s.entry1 va 0).getLsbD 1 = (s.entry1 va 1).getLsbD 1 → lru.getLsbD 6 = (s.entry1 va 0).getLsbD 1) ∧
      s.translate va want user = .miss { s with lru := lru } := by
  have hps := State.pageSize_toNat h hp
  have hm : ∀ b : Bool, s.tlbMatch va (s.pageSize want) b = false := by
    intro b
    rw [Bool.eq_false_iff]
    intro hc
    have := (State.tlbMatch_iff hps va b).mp hc
    cases b
    · exact hit.1 this
    · exact hit.2 this
  refine ⟨0#25 ++ bitOf (s.usage want (tlbLine va (s.pageSize want))) ++ tlbLine va (s.pageSize want) ++ 0#1, ?_, ?_, ?_, ?_⟩
  · rw [← tlbLine_toNat hps va]
    have := (tlbLine va (s.pageSize want)).isLt
    rw [BitVec.toNat_append, BitVec.toNat_append, BitVec.toNat_append, bitOf_toNat,
      ← Nat.shiftLeft_add_eq_or_of_lt this]
    simp only [Nat.shiftLeft_eq, BitVec.toNat_ofNat, Nat.zero_mod, Nat.or_zero, Nat.zero_mul, Nat.zero_or]
    omega
  · apply BitVec.eq_of_getLsbD_eq
    intro i hi
    rw [BitVec.getLsbD_and]
    simp only [BitVec.getLsbD_append]
    interval_cases i <;> simp
  · intro he
    have hu : s.usage want (tlbLine va (s.pageSize want)) = (s.entry1 va 0).getLsbD 1 := by
      unfold State.usage
      have e0 := State.entry1_eq hps va false
      have e1 := State.entry1_eq hps va true
      simp only [e0, e1, tlbU]
      exact if_pos he
    rw [hu]
    simp only [BitVec.getLsbD_append]
    simp [bitOf]
  · rw [State.translate]
    simp only [hm]
    rfl

end Sys2Proof.Machine
end

