-- ==== Sys2Proof/Laws/Access.lean ====
section
/-! SUPPORT. What issuing and completing an access does (20 R136 to R149, R165). -/

namespace Sys2Proof.Machine

theorem State.frozen_record (s : State) (d : Access) (ml : Bool) (cr : BitVec 8) : (s.record d ml cr).frozen = s.frozen :=
  State.frozen_congr (by simp) (by simp)

/-- `CHC` as an access records it, and after it has completed (20 R145, R147). -/
theorem channelControl_cv (d : Access) (ml : Bool) (cr : BitVec 8) (cv : Bool) :
    putBit (channelControl d ml cr) chcCV cv =
      d.ctl ++ cr ++ BitVec.ofBool d.isLoad ++ BitVec.ofBool ml ++ BitVec.ofBool d.set ++ BitVec.ofBool d.la ++ 0#2 ++ d.tr ++
        0#1 ++ BitVec.ofBool cv := by
  apply BitVec.eq_of_getLsbD_eq
  intro i hi
  rw [getLsbD_putBit _ _ _ _ (by decide)]
  unfold channelControl chcCV bitOf
  simp only [BitVec.getLsbD_append]
  interval_cases i <;> simp

theorem channelControl_true (d : Access) (ml : Bool) (cr : BitVec 8) :
    channelControl d ml cr =
      d.ctl ++ cr ++ BitVec.ofBool d.isLoad ++ BitVec.ofBool ml ++ BitVec.ofBool d.set ++ BitVec.ofBool d.la ++ 0#2 ++ d.tr ++
        0#1 ++ BitVec.ofBool true := by
  rw [← channelControl_cv d ml cr true]
  apply BitVec.eq_of_getLsbD_eq
  intro i hi
  rw [getLsbD_putBit _ _ _ _ (by decide)]
  split
  · next h =>
    subst h
    unfold channelControl
    simp only [chcCV, BitVec.getLsbD_append]
    simp
  · rfl

/-- What the recording of an access and the checks on it change: the channel registers, `ALU`, the TLB, `LRU` and `CPS`. -/
def Touched (s t : State) : Prop :=
  t = { s with cha := t.cha, chd := t.chd, chc := t.chc, mlByMove := t.mlByMove, alu := t.alu, tlb := t.tlb, lru := t.lru, cps := t.cps }

theorem Touched.trans {s t u : State} (h1 : Touched s t) (h2 : Touched t u) : Touched s u :=
  Eq.trans h2
    (congrArg
      (fun v : State =>
        { v with cha := u.cha, chd := u.chd, chc := u.chc, mlByMove := u.mlByMove, alu := u.alu, tlb := u.tlb,
                 lru := u.lru, cps := u.cps })
      h1)

theorem touched_record (s : State) (d : Access) (ml : Bool) (cr : BitVec 8) : Touched s (s.record d ml cr) := by
  unfold Touched State.record
  split <;> rfl

theorem touched_setBp (s : State) (d : Access) : Touched s (s.setBp d) := by
  unfold Touched State.setBp State.setBytePointer
  split <;> (try split) <;> rfl

theorem setBp_alu (s : State) (d : Access) : BytePointerIs s (s.setBp d) d.ctl d.addr := by
  intro i
  unfold State.setBp State.setBytePointer
  cases h4 : d.ctl.getLsbD ctlSB with
  | false =>
    have h4' : d.ctl.getLsbD 4 = false := h4
    rw [if_neg (by simp), if_neg (by rw [h4']; simp)]
  | true =>
    have h4' : d.ctl.getLsbD 4 = true := h4
    cases h7 : d.ce with
    | true =>
      have h7' : d.ctl.getLsbD 7 = true := h7
      rw [if_neg (by simp), if_neg (by rw [h7']; simp)]
    | false =>
      have h7' : d.ctl.getLsbD 7 = false := h7
      rw [if_pos (by simp)]
      cases hf : s.frozen with
      | true => simp
      | false =>
        rw [if_neg (by simp)]
        simp only [h4', h7', and_true]
        rw [getLsbD_putField _ _ _ (by decide)]
        unfold aluBP
        by_cases h5 : i = 5
        · subst h5; simp
        · by_cases h6 : i = 6
          · subst h6; simp
          · rw [if_neg (by omega), if_neg (by omega)]

/-- Steps (c) and (d), first part: the access is recorded and BP set (20 R145, R138). -/
theorem record_is (s : State) (d : Access) (ml : Bool) (cr : BitVec 8) :
    Touched s ((s.record d ml cr).setBp d) ∧
      ChannelIs s ((s.record d ml cr).setBp d) d.ctl d.isLoad ml d.set d.la cr d.tr d.addr d.data true ∧
      BytePointerIs s ((s.record d ml cr).setBp d) d.ctl d.addr ∧ ((s.record d ml cr).setBp d).tlb = s.tlb ∧
      ((s.record d ml cr).setBp d).lru = s.lru ∧ ((s.record d ml cr).setBp d).cps = s.cps := by
  refine ⟨?_, ?_, ?_, by simp, by simp, by simp⟩
  · exact (touched_record s d ml cr).trans (touched_setBp _ d)
  · constructor
    · unfold State.record
      split <;> simp
    · unfold State.record
      split
      · simp
      · simp only [State.setBp_chd]
        intro h
        rw [h]
        rfl
    · unfold State.record
      split
      · simp
      · simp only [State.setBp_chc]
        exact channelControl_true d ml cr
  · intro i
    have h := setBp_alu (s.record d ml cr) d i
    rw [State.frozen_record] at h
    simpa using h

theorem tlb_congr {s t : State} (h1 : t.tlb = s.tlb) (h2 : t.mmu = s.mmu) (va : Word) (k : Nat) :
    (t.TlbHit va k ↔ s.TlbHit va k) ∧ (t.TlbMiss va ↔ s.TlbMiss va) ∧ t.entry0 va k = s.entry0 va k ∧
      t.entry1 va k = s.entry1 va k ∧ t.physical va k = s.physical va k ∧ t.usedTlb va k = s.usedTlb va k ∧
      t.lineOf va = s.lineOf va ∧ t.tlbReg = s.tlbReg := by
  have h0 : t.ps = s.ps := by rw [State.ps, State.ps, h2]
  have hl : ∀ v, t.lineOf v = s.lineOf v := fun v => by rw [State.lineOf, State.lineOf, h0]
  have hr : t.tlbReg = s.tlbReg := by
    funext j
    rw [State.tlbReg, State.tlbReg, h1]
  have he0 : ∀ j, t.entry0 va j = s.entry0 va j := fun j => by rw [State.entry0, State.entry0, hl, hr]
  have he1 : ∀ j, t.entry1 va j = s.entry1 va j := fun j => by rw [State.entry1, State.entry1, hl, hr]
  have hm : ∀ j, t.EntryMatches va j ↔ s.EntryMatches va j := fun j => by
    rw [State.EntryMatches, State.EntryMatches, he0, h0, h2]
  refine ⟨?_, ?_, he0 k, he1 k, ?_, ?_, hl va, hr⟩
  · rw [State.TlbHit, State.TlbHit, hm, hm]
  · rw [State.TlbMiss, State.TlbMiss, hm, hm]
  · rw [State.physical, State.physical, he1, h0]
  · funext j
    rw [State.usedTlb, State.usedTlb, hl, hr]

theorem translates_eq (s : State) (ctl : BitVec 8) : s.translates ctl = s.translated ctl := rfl

theorem ce_of_translated {s : State} {d : Access} (h : s.translated d.ctl = true) : d.ce = false := by
  have h7 : d.ctl.getLsbD 7 = false := by
    cases hx : d.ctl.getLsbD 7 with
    | false => rfl
    | true =>
      rw [State.translated, hx] at h
      exact absurd h (by simp)
  exact h7

theorem field_mod (w : BitVec 8) : (w.extractLsb' 0 3).toNat = w.toNat % 8 := by simp [BitVec.extractLsb'_toNat]

/-- The alignment test (20 R134). -/
theorem unaligned_eq (s : State) (ctl : BitVec 8) (addr : Word) : s.unaligned ctl addr = s.misaligned ctl addr := by
  unfold State.unaligned State.misaligned ctlOpt cpsTU ctlCE ctlAS
  have h0 : (ctl.extractLsb' 0 3 == 0#3) = decide (ctl.toNat % 8 = 0) := by
    rw [Bool.eq_iff_iff]
    simp only [beq_iff_eq, decide_eq_true_eq, ← BitVec.toNat_inj, field_mod]
    rfl
  have h2 : (ctl.extractLsb' 0 3 == 2#3) = decide (ctl.toNat % 8 = 2) := by
    rw [Bool.eq_iff_iff]
    simp only [beq_iff_eq, decide_eq_true_eq, ← BitVec.toNat_inj, field_mod]
    rfl
  have h4 : (addr.extractLsb' 0 2 != 0#2) = decide (addr.toNat % 4 ≠ 0) := by
    rw [Bool.eq_iff_iff]
    simp only [bne_iff_ne, ne_eq, decide_eq_true_eq, ← BitVec.toNat_inj, BitVec.extractLsb'_toNat, Nat.shiftRight_zero]
    rfl
  have h1 : addr.getLsbD 0 = decide (addr.toNat % 2 = 1) := by
    rw [BitVec.getLsbD, Nat.testBit_eq_decide_div_mod_eq]
    simp
  rw [h0, h2, h4, h1]
  simp only [Bool.decide_or, Bool.decide_and]

/-- What is left by the recording of an access and the checks on it, `tlb` and `lru` told by the translation, `cps` by a
coprocessor transfer (20 R149). -/
structure Issue (s t : State) (d : Access) (ml : Bool) (cr : BitVec 8) : Prop where
  touched : Touched s t
  channel : ChannelIs s t d.ctl d.isLoad ml d.set d.la cr d.tr d.addr d.data true
  alu : BytePointerIs s t d.ctl d.addr

theorem Issue.mk' {s u t : State} {d : Access} {ml : Bool} {cr : BitVec 8}
    (hu : u = (s.record d ml cr).setBp d) (h : Touched u t) (h1 : t.cha = u.cha ∧ t.chd = u.chd ∧ t.chc = u.chc ∧ t.alu = u.alu) :
    Issue s t d ml cr := by
  obtain ⟨r1, r2, r3, _⟩ := record_is s d ml cr
  subst hu
  refine ⟨r1.trans h, ⟨?_, ?_, ?_⟩, ?_⟩
  · rw [h1.1]
    exact r2.cha
  · rw [h1.2.1]
    exact r2.chd
  · rw [h1.2.2.1]
    exact r2.chc
  · intro i
    rw [h1.2.2.2]
    exact r3 i

theorem want_ne_fetch (d : Access) (s : State) : d.want = .fetch → s.psTarget ≠ 1 := by
  intro h
  unfold Access.want at h
  split at h <;> (try split at h) <;> cases h

/-- An access that raises no trap goes out (20 R149). -/
theorem issue_goes {s : State} {d : Access} {ml : Bool} {cr : BitVec 8} {pa : Word} {tlb : Nat → Word}
    (hu : d.user = s.asUser d.ctl) (h : s.Goes d.ctl d.want d.addr pa tlb) :
    ∃ pgm t, s.issue d ml cr = .ok { d with pa := pa, pgm := pgm } t ∧ Issue s t d ml cr ∧ t.TlbIs tlb ∧ t.lru = s.lru ∧
      t.cps = if d.ctl.getLsbD 7 && d.ctl.getLsbD 5 then putBit s.cps cpsCA !d.isLoad else s.cps := by
  obtain ⟨hal, hcp, hg⟩ := h
  obtain ⟨r1, _, _, r4, r5, r6⟩ := record_is s d ml cr
  generalize hs1 : (s.record d ml cr).setBp d = s1 at r1 r4 r5 r6
  have hmmu : s1.mmu = s.mmu := by rw [r1]
  have hcfg : s1.cfg = s.cfg := by rw [r1]
  have hreg : s1.tlbReg = s.tlbReg := (tlb_congr r4 hmmu 0 0).2.2.2.2.2.2.2
  have htr : s1.translated d.ctl = s.translated d.ctl := by rw [State.translated, State.translated, r6]
  have hmis : s1.misaligned d.ctl d.addr = false := by
    rw [← hal, State.misaligned, State.misaligned, r6]
  cases h7 : d.ctl.getLsbD 7 with
  | true =>
    have hce : d.ce = true := h7
    have hntr : s.translated d.ctl = false := by rw [State.translated, h7]; rfl
    rw [hntr, if_neg (by decide)] at hg
    have hc1 : s1.cfg.getLsbD cfgCP = true := by rw [hcfg]; exact hcp h7
    refine ⟨0#2, s1.coprocessorActive d, ?_, ?_, ?_, ?_, ?_⟩
    · rw [State.issue, hs1, if_pos hce, if_pos hc1, hg.1]
    · refine Issue.mk' hs1.symm ?_ (by simp)
      unfold Touched State.coprocessorActive
      split <;> rfl
    · intro k hk
      rw [hg.2, ← hreg]
      simp [State.tlbReg]
    · simpa using r5
    · unfold State.coprocessorActive ctlPA
      cases h5 : d.ctl.getLsbD 5 with
      | true => simp [r6]
      | false => simp [r6]
  | false =>
    have hce : d.ce = false := h7
    have hun : ∀ (t : State), t.cps = s.cps → t.unaligned d.ctl d.addr = false := by
      intro t ht
      rw [unaligned_eq, ← hal, State.misaligned, State.misaligned, ht]
    cases htx : s.translated d.ctl with
    | true =>
      rw [htx, if_pos rfl] at hg
      obtain ⟨hage, set, hhit, hperm, hpa, htlb⟩ := hg
      have hc := tlb_congr r4 hmmu d.addr set
      obtain ⟨pgm, tl, lru, ht1, _, ht2⟩ := State.translate_hit (s := s1) (va := d.addr) (want := d.want) (user := d.user)
        (by rw [hmmu]; exact hage) (want_ne_fetch d s1) (hc.1.mpr hhit)
      rw [hc.2.2.1, hu, hperm, if_pos rfl, hc.2.2.2.2.1, ← hpa, ← hu] at ht2
      refine ⟨pgm, { s1 with tlb := tl }, ?_, ?_, ?_, ?_, ?_⟩
      · rw [State.issue, hs1, hce, if_neg (by decide), translates_eq, htr, htx, if_pos rfl, ht2]
        simp only [State.issueAligned]
        rw [if_neg (by rw [hun _ (by exact r6)]; decide)]
      · exact Issue.mk' hs1.symm rfl ⟨rfl, rfl, rfl, rfl⟩
      · rw [htlb, ← hc.2.2.2.2.2.1]
        exact ht1
      · exact r5
      · simpa using r6
    | false =>
      rw [htx, if_neg (by decide)] at hg
      refine ⟨0#2, s1, ?_, ?_, ?_, r5, ?_⟩
      · rw [State.issue, hs1, hce, if_neg (by decide), translates_eq, htr, htx, if_neg (by decide), hg.1]
        simp only [State.issueAligned]
        rw [if_neg (by rw [hun _ r6]; decide)]
      · exact Issue.mk' hs1.symm rfl ⟨rfl, rfl, rfl, rfl⟩
      · intro k hk
        rw [hg.2, ← hreg]
      · simpa using r6

/-- The access of a coprocessor that is not there (20 R149, 60 R537). -/
theorem issue_absent {s : State} {d : Access} {ml : Bool} {cr : BitVec 8} (h7 : d.ctl.getLsbD 7 = true)
    (hcp : s.cfg.getLsbD 1 = false) :
    ∃ t, s.issue d ml cr = .trap 3#8 t ∧ Issue s t d ml cr ∧ t.TlbIs s.tlbReg ∧ t.lru = s.lru ∧ t.cps = s.cps := by
  obtain ⟨r1, _, _, r4, r5, r6⟩ := record_is s d ml cr
  generalize hs1 : (s.record d ml cr).setBp d = s1 at r1 r4 r5 r6
  have hmmu : s1.mmu = s.mmu := by rw [r1]
  have hcfg : s1.cfg.getLsbD cfgCP = false := by rw [r1]; exact hcp
  have hce : d.ce = true := h7
  refine ⟨s1, ?_, Issue.mk' hs1.symm rfl ⟨rfl, rfl, rfl, rfl⟩, ?_, r5, r6⟩
  · rw [State.issue, hs1, if_pos hce, hcfg, if_neg (by decide)]
  · intro k _
    rw [(tlb_congr r4 hmmu 0 0).2.2.2.2.2.2.2]

/-- A data TLB miss (20 R155, R157). -/
theorem issue_miss {s : State} {d : Access} {ml : Bool} {cr : BitVec 8} (hu : d.user = s.asUser d.ctl)
    (htx : s.translated d.ctl = true) (hage : s.mmu.age ≠ 1) (hm : s.TlbMiss d.addr) :
    ∃ t, s.issue d ml cr = .trap (if s.asUser d.ctl then 9#8 else 11#8) t ∧ Issue s t d ml cr ∧ t.TlbIs s.tlbReg ∧
      RecommendsFor s d.addr t.lru ∧ t.cps = s.cps := by
  obtain ⟨r1, _, _, r4, r5, r6⟩ := record_is s d ml cr
  generalize hs1 : (s.record d ml cr).setBp d = s1 at r1 r4 r5 r6
  have hmmu : s1.mmu = s.mmu := by rw [r1]
  have hce := ce_of_translated htx
  have htr : s1.translated d.ctl = s.translated d.ctl := by rw [State.translated, State.translated, r6]
  have hc0 := tlb_congr r4 hmmu d.addr 0
  have hc1 := tlb_congr r4 hmmu d.addr 1
  obtain ⟨lru, h1, h2, h3, h4⟩ := State.translate_miss (s := s1) (va := d.addr) (want := d.want) (user := d.user)
    (by rw [hmmu]; exact hage) (want_ne_fetch d s1) (hc0.2.1.mpr hm)
  rw [hc0.2.2.2.1, hc1.2.2.2.1] at h3
  rw [hc0.2.2.2.2.2.2.1] at h1
  refine ⟨{ s1 with lru := lru }, ?_, Issue.mk' hs1.symm rfl ⟨rfl, rfl, rfl, rfl⟩, ?_, ⟨h1, h2, h3⟩, r6⟩
  · rw [State.issue, hs1, hce, if_neg (by decide), translates_eq, htr, htx, if_pos rfl, h4, hu]
  · intro k _
    rw [← hc0.2.2.2.2.2.2.2]
    rfl

/-- A data TLB protection violation (20 R155). -/
theorem issue_prot {s : State} {d : Access} {ml : Bool} {cr : BitVec 8} {set : Nat} (hu : d.user = s.asUser d.ctl)
    (htx : s.translated d.ctl = true) (hage : s.mmu.age ≠ 1) (hhit : s.TlbHit d.addr set)
    (hperm : permits (s.entry0 d.addr set) d.want (s.asUser d.ctl) = false) :
    ∃ t, s.issue d ml cr = .trap 13#8 t ∧ Issue s t d ml cr ∧ t.TlbIs (s.usedTlb d.addr set) ∧
      t.lru &&& 0xFFFFFF81#32 = 0#32 ∧ t.cps = s.cps := by
  obtain ⟨r1, _, _, r4, r5, r6⟩ := record_is s d ml cr
  generalize hs1 : (s.record d ml cr).setBp d = s1 at r1 r4 r5 r6
  have hmmu : s1.mmu = s.mmu := by rw [r1]
  have hce := ce_of_translated htx
  have htr : s1.translated d.ctl = s.translated d.ctl := by rw [State.translated, State.translated, r6]
  have hc := tlb_congr r4 hmmu d.addr set
  obtain ⟨pgm, tl, lru, ht1, ht3, ht2⟩ := State.translate_hit (s := s1) (va := d.addr) (want := d.want) (user := d.user)
    (by rw [hmmu]; exact hage) (want_ne_fetch d s1) (hc.1.mpr hhit)
  rw [hc.2.2.1, hu, hperm, if_neg (by decide), ← hu] at ht2
  refine ⟨{ s1 with tlb := tl, lru := lru }, ?_, Issue.mk' hs1.symm rfl ⟨rfl, rfl, rfl, rfl⟩, ?_, ht3, r6⟩
  · rw [State.issue, hs1, hce, if_neg (by decide), translates_eq, htr, htx, if_pos rfl, ht2]
  · rw [← hc.2.2.2.2.2.1]
    exact ht1

/-- An unaligned access, which is looked at last (20 R134, R149). -/
theorem issue_unaligned {s : State} {d : Access} {ml : Bool} {cr : BitVec 8} {tlb : Nat → Word}
    (hu : d.user = s.asUser d.ctl) (hal : s.misaligned d.ctl d.addr = true)
    (hg : if s.translated d.ctl then
        s.mmu.age ≠ 1 ∧ ∃ set, s.TlbHit d.addr set ∧ permits (s.entry0 d.addr set) d.want (s.asUser d.ctl) = true ∧
          tlb = s.usedTlb d.addr set
      else tlb = s.tlbReg) :
    ∃ t, s.issue d ml cr = .trap 1#8 t ∧ Issue s t d ml cr ∧ t.TlbIs tlb ∧ t.lru = s.lru ∧ t.cps = s.cps := by
  obtain ⟨r1, _, _, r4, r5, r6⟩ := record_is s d ml cr
  generalize hs1 : (s.record d ml cr).setBp d = s1 at r1 r4 r5 r6
  have hmmu : s1.mmu = s.mmu := by rw [r1]
  have hreg : s1.tlbReg = s.tlbReg := (tlb_congr r4 hmmu 0 0).2.2.2.2.2.2.2
  have htr : s1.translated d.ctl = s.translated d.ctl := by rw [State.translated, State.translated, r6]
  have hce : d.ce = false := by
    have h7 : d.ctl.getLsbD 7 = false := by
      cases hx : d.ctl.getLsbD 7 with
      | false => rfl
      | true =>
        rw [State.misaligned, hx] at hal
        exact absurd hal (by simp)
    exact h7
  have hun : ∀ (t : State), t.cps = s.cps → t.unaligned d.ctl d.addr = true := by
    intro t ht
    rw [unaligned_eq, ← hal, State.misaligned, State.misaligned, ht]
  cases htx : s.translated d.ctl with
  | true =>
    rw [htx, if_pos rfl] at hg
    obtain ⟨hage, set, hhit, hperm, htlb⟩ := hg
    have hc := tlb_congr r4 hmmu d.addr set
    obtain ⟨pgm, tl, lru, ht1, _, ht2⟩ := State.translate_hit (s := s1) (va := d.addr) (want := d.want) (user := d.user)
      (by rw [hmmu]; exact hage) (want_ne_fetch d s1) (hc.1.mpr hhit)
    rw [hc.2.2.1, hu, hperm, if_pos rfl, ← hu] at ht2
    refine ⟨{ s1 with tlb := tl }, ?_, Issue.mk' hs1.symm rfl ⟨rfl, rfl, rfl, rfl⟩, ?_, r5, r6⟩
    · rw [State.issue, hs1, hce, if_neg (by decide), translates_eq, htr, htx, if_pos rfl, ht2]
      simp only [State.issueAligned]
      rw [if_pos (hun _ (by exact r6))]
    · rw [htlb, ← hc.2.2.2.2.2.1]
      exact ht1
  | false =>
    rw [htx, if_neg (by decide)] at hg
    refine ⟨s1, ?_, Issue.mk' hs1.symm rfl ⟨rfl, rfl, rfl, rfl⟩, ?_, r5, r6⟩
    · rw [State.issue, hs1, hce, if_neg (by decide), translates_eq, htr, htx, if_neg (by decide)]
      simp only [State.issueAligned]
      rw [if_pos (hun _ r6)]
    · intro k hk
      rw [hg, ← hreg]

/-- The system's answer (20 R139, R165). -/
theorem answer_iff (s : State) (d : Access) :
    (s.answer d = .ready ↔ s.answered (d.isLoad && d.set) = true) ∧
      (s.answer d = .error ↔ s.refusedBySystem (d.isLoad && d.set) = true) := by
  unfold State.answer State.answered State.refusedBySystem
  cases s.env.answers with
  | nil => simp
  | cons e t =>
    cases e with
    | ready => cases (d.isLoad && d.set) <;> simp
    | error => simp
    | never => simp

theorem settlement_ends {s : State} {d : Access} (hd : s.inflight = some d)
    (h : s.answered (d.isLoad && d.set) = true) : s.settlement = .ends := by
  rw [State.settlement, hd]
  simp only [(answer_iff s d).1.mpr h]

theorem settlement_error {s : State} {d : Access} (hd : s.inflight = some d)
    (h : s.refusedBySystem (d.isLoad && d.set) = true) : s.settlement = .error d.errorVector := by
  rw [State.settlement, hd]
  simp only [(answer_iff s d).2.mpr h]

theorem opt_eq (ctl : BitVec 8) (n : Nat) (hn : n < 8) : ctlOpt ctl = BitVec.ofNat 3 n ↔ ctl.toNat % 8 = n := by
  unfold ctlOpt
  rw [← BitVec.toNat_inj, field_mod, BitVec.toNat_ofNat, Nat.mod_eq_of_lt hn]

theorem narrowed_eq (s : State) (ctl : BitVec 8) : s.narrowed ctl = s.narrowAccess ctl := by
  unfold State.narrowed State.narrowAccess
  have h0 : (ctlOpt ctl != 0#3) = decide (ctl.toNat % 8 ≠ 0) := by
    rw [Bool.eq_iff_iff, bne_iff_ne, decide_eq_true_eq, ne_eq, ne_eq, opt_eq ctl 0 (by decide)]
  have h4 : (ctlOpt ctl != 4#3) = decide (ctl.toNat % 8 ≠ 4) := by
    rw [Bool.eq_iff_iff, bne_iff_ne, decide_eq_true_eq, ne_eq, ne_eq, opt_eq ctl 4 (by decide)]
  rw [h0, h4, Bool.and_assoc, ← Bool.decide_and]

theorem accessSpace_cases (s : State) (ctl : BitVec 8) :
    (ctl.getLsbD 7 = true ∨ ctl.getLsbD 6 = true → s.accessSpace ctl = .cop ∨ s.accessSpace ctl = .io) ∧
      (ctl.getLsbD 7 = false → ctl.getLsbD 6 = false →
        s.accessSpace ctl = if s.romAccess ctl then .rom else .idm) := by
  unfold State.accessSpace State.romAccess ctlCE ctlAS
  constructor
  · rintro (h | h)
    · rw [if_pos h]
      exact .inl rfl
    · by_cases h7 : ctl.getLsbD 7 = true
      · rw [if_pos h7]
        exact .inl rfl
      · rw [if_neg h7, if_pos h]
        exact .inr rfl
  · intro h7 h6
    rw [h7, h6, if_neg (by decide), if_neg (by decide)]
    have h4 : decide (ctlOpt ctl = 4#3) = decide (ctl.toNat % 8 = 4) := by
      rw [Bool.eq_iff_iff, decide_eq_true_eq, decide_eq_true_eq]
      exact opt_eq ctl 4 (by decide)
    rw [h4]

/-- ROM accesses are not narrowed (20 R137). -/
theorem not_narrow_of_rom {s : State} {ctl : BitVec 8} (h : s.romAccess ctl = true) : s.narrowAccess ctl = false := by
  unfold State.romAccess at h
  have h4 : ctl.toNat % 8 = 4 := by simp at h; exact h.1
  unfold State.narrowAccess
  rw [h4]
  simp

/-- The word that an access brings (20 R136, R140). -/
theorem busRead_brings (s : State) (d : Access) : s.Brings d.ctl d.pa (s.busRead d) := by
  intro h7 h6
  rw [State.busRead, (accessSpace_cases s d.ctl).2 h7 h6]
  cases h : s.romAccess d.ctl with
  | true =>
    rw [not_narrow_of_rom h]
    rfl
  | false =>
    simp only [Bool.false_eq_true, if_false, narrowed_eq]
    rfl

theorem byteAt_word (v : Word) (w : IAddr) (a : Nat) (h : a / 4 = w.toNat) :
    byteAt v a = byteOfWord v (a - wordBase w) := by
  have hf : ∀ i, (v.extractLsb' i 8 : BitVec 8) = BitVec.ofNat 8 (v.toNat / 2 ^ i) := by
    intro i
    apply BitVec.eq_of_toNat_eq
    simp [BitVec.extractLsb'_toNat, Nat.shiftRight_eq_div_pow]
  have h4 : a % 4 = a - wordBase w := by unfold wordBase; omega
  have hlt : a % 4 < 4 := Nat.mod_lt _ (by decide)
  unfold byteAt
  rw [h4] at *
  generalize a - wordBase w = k at hlt
  interval_cases k
  · exact (hf 24).symm
  · exact (hf 16).symm
  · exact (hf 8).symm
  · exact (hf 0).symm

theorem leftWord_eq (s : State) (ctl : BitVec 8) (pa v : Word) :
    (if s.narrowed ctl then Config.narrowWrite (ctlOpt ctl) (pa.extractLsb' 0 2) (Memory.readWord s.idm (wordAddr pa)) v
      else v) = s.leftWord ctl pa v (Memory.read s.idm) := by
  have hb : wordBase (wordAddr pa) = pa.toNat / 4 * 4 := by
    unfold wordBase wordAddr
    have := pa.isLt
    rw [BitVec.extractLsb'_toNat, Nat.shiftRight_eq_div_pow]
    omega
  unfold State.leftWord
  rw [narrowed_eq, Memory.readWord, hb]
  rfl

/-- What an access stores (20 R136, R140). -/
theorem busWrite_stores (s : State) (d : Access) (v : Word) : StoresWord s (s.busWrite d v) d.ctl d.pa v := by
  intro a
  refine ⟨?_, by simp⟩
  unfold State.bytesAfter
  by_cases h76 : d.ctl.getLsbD 7 = true ∨ d.ctl.getLsbD 6 = true
  · have hm : s.movesByte d.ctl d.pa a = false := by
      unfold State.movesByte
      rcases h76 with h | h <;> rw [h] <;> simp
    rw [hm, if_neg (by decide), State.busWrite]
    rcases (accessSpace_cases s d.ctl).1 h76 with h | h <;> rw [h]
  · have h7 : d.ctl.getLsbD 7 = false := by
      cases hx : d.ctl.getLsbD 7 with
      | false => rfl
      | true => exact absurd (.inl hx) h76
    have h6 : d.ctl.getLsbD 6 = false := by
      cases hx : d.ctl.getLsbD 6 with
      | false => rfl
      | true => exact absurd (.inr hx) h76
    rw [State.busWrite, (accessSpace_cases s d.ctl).2 h7 h6]
    cases h : s.romAccess d.ctl with
    | true =>
      have hm : s.movesByte d.ctl d.pa a = false := by
        unfold State.movesByte
        simp [h]
      simp only [if_true, hm, Bool.false_eq_true, if_false]
    | false =>
      have hm : s.movesByte d.ctl d.pa a = decide (a / 4 = (wordAddr d.pa).toNat) := by
        unfold State.movesByte wordAddr
        rw [h7, h6, h]
        have hp : d.pa.toNat / 4 < 2 ^ 30 := by have := d.pa.isLt; omega
        rw [BitVec.extractLsb'_toNat, Nat.shiftRight_eq_div_pow,
          Nat.mod_eq_of_lt (show d.pa.toNat / 2 ^ 2 < 2 ^ 30 from hp)]
        rfl
      simp only [Bool.false_eq_true, if_false, State.writeIdm, leftWord_eq]
      rw [hm, Memory.read_writeWord]
      by_cases hw : a / 4 = (wordAddr d.pa).toNat
      · have hb : wordBase (wordAddr d.pa) ≤ a ∧ a < wordBase (wordAddr d.pa) + 4 := by
          unfold wordBase
          omega
        rw [decide_eq_true hw, if_pos rfl, if_pos hb, byteAt_word _ (wordAddr d.pa) a hw]
      · have hb : ¬(wordBase (wordAddr d.pa) ≤ a ∧ a < wordBase (wordAddr d.pa) + 4) := by
          unfold wordBase
          omega
        rw [decide_eq_false hw, if_neg hb]
        rfl

/-- What the completion of an access that the system answers without `*DERR` does (20 R146, R147, R162). -/
structure Completed (s t : State) (d : Access) : Prop where
  inflight : t.inflight = none
  load : d.isLoad = true → ∃ w, s.Brings d.ctl d.pa w ∧
    (d.discard = false → implemented d.tr = true → t.readReg .A d.tr = w) ∧
    SameRegs s t (if d.discard then [] else [d.tr]) ∧
    (if d.set then StoresWord s t d.ctl d.pa 0xFFFFFFFF#32 else SameMemory s t)
  store : d.isLoad = false → SameRegs s t [] ∧ StoresWord s t d.ctl d.pa d.data
  chc : t.chc = if s.frozen then s.chc else putBit s.chc chcCV false
  sps : if d.isLoad = true ∧ d.discard = false ∧ d.tr = 1#8 then t.sps = .settled none else t.sps = s.sps

theorem clearCv_chc (s : State) : s.clearCv.chc = if s.frozen then s.chc else putBit s.chc chcCV false := by
  unfold State.clearCv
  split <;> rfl

theorem complete_ok {s : State} {d : Access} (h : s.answered (d.isLoad && d.set) = true) : Completed s (s.complete d) d := by
  have hf : s.answer d = .ready := (answer_iff s d).1.mpr h
  have he : s.complete d = ((s.endAccess d).transfer d).clearCv := by rw [State.complete, hf, if_neg (by decide)]
  have hfr : ((s.endAccess d).transfer d).frozen = s.frozen := State.frozen_congr (by simp) (by simp)
  rw [he]
  refine ⟨by simp [State.endAccess], ?_, ?_, ?_, ?_⟩
  · intro hl
    refine ⟨(s.endAccess d).busRead d, ?_, ?_, ?_, ?_⟩
    · have := busRead_brings (s.endAccess d) d
      exact this
    · intro hd hi
      rw [State.readReg_congr (s := (s.endAccess d).transfer d) (by simp) (by simp) _ hi, State.transfer, if_pos hl, hd,
        if_neg (by decide), State.readReg_storeReg _ _ _ _ _ _ hi, if_pos rfl]
    · intro a ha hn
      rw [State.readReg_congr (s := (s.endAccess d).transfer d) (by simp) (by simp) _ ha, State.transfer, if_pos hl]
      cases hd : d.discard with
      | true =>
        rw [if_pos rfl]
        refine State.readReg_congr ?_ ?_ _ ha <;> split <;> simp [State.endAccess]
      | false =>
        rw [hd, if_neg (by decide)] at hn
        have hne : a ≠ d.tr := by simpa using hn
        rw [if_neg (by decide), State.readReg_storeReg _ _ _ _ _ _ ha, if_neg hne]
        refine State.readReg_congr ?_ ?_ _ ha <;> split <;> simp [State.endAccess]
    · have hmem : ∀ a, Memory.read ((s.endAccess d).transfer d).clearCv.idm a =
          Memory.read (if d.set then (s.endAccess d).busWrite d 0xFFFFFFFF#32 else s.endAccess d).idm a ∧
          Memory.read ((s.endAccess d).transfer d).clearCv.rom a = Memory.read s.rom a := by
        intro a
        refine ⟨?_, by simp [State.endAccess]⟩
        simp only [State.clearCv_idm, State.transfer, hl, if_true]
        split <;> simp
      cases hset : d.set with
      | true =>
        rw [if_pos rfl]
        intro a
        have := hmem a
        rw [hset, if_pos rfl] at this
        rw [this.1, this.2]
        exact ⟨(busWrite_stores (s.endAccess d) d _ a).1, rfl⟩
      | false =>
        rw [if_neg (by decide)]
        intro a
        have := hmem a
        rw [hset, if_neg (by decide)] at this
        exact this
  · intro hl
    have ht : (s.endAccess d).transfer d = (s.endAccess d).busWrite d d.data := by
      rw [State.transfer, hl, if_neg (by decide)]
    rw [ht]
    constructor
    · intro a ha _
      exact State.readReg_congr (by simp [State.endAccess]) (by simp [State.endAccess]) _ ha
    · intro a
      rw [State.clearCv_idm, State.clearCv_rom]
      exact busWrite_stores (s.endAccess d) d d.data a
  · rw [clearCv_chc, hfr]
    simp [State.endAccess]
  · simp only [State.clearCv_sps, State.transfer]
    have hw : (if d.set then (s.endAccess d).busWrite d 0xFFFFFFFF#32 else s.endAccess d).sps = s.sps := by
      split <;> simp [State.endAccess]
    cases hl : d.isLoad with
    | false =>
      rw [if_neg (by simp), if_neg (by decide)]
      simp [State.endAccess]
    | true =>
      rw [if_pos (show true = true from rfl)]
      cases hd : d.discard with
      | true =>
        rw [if_neg (by simp), if_pos rfl, hw]
      | false =>
        rw [if_neg (show ¬false = true by decide), State.storeReg_sps]
        by_cases h1 : d.tr = 1#8
        · rw [if_pos h1, if_pos ⟨rfl, rfl, h1⟩]
          rfl
        · rw [if_neg h1, if_neg (by simp [h1]), hw]

/-- An access answered with `*DERR` (20 R147, R165). -/
theorem complete_err {s : State} {d : Access} (h : s.refusedBySystem (d.isLoad && d.set) = true) :
    s.complete d = (s.endAccess d).failAccess d := by
  rw [State.complete, (answer_iff s d).2.mpr h, if_pos rfl]

/-- What is stored, and what a load brings, depend on the control field, the memories and the parameters of the system alone. -/
theorem access_congr {s t : State} (h1 : t.sys = s.sys) (h2 : t.idm = s.idm) (h3 : t.rom = s.rom) (ctl : BitVec 8)
    (pa w : Word) : (t.Brings ctl pa w ↔ s.Brings ctl pa w) ∧ ∀ u, (StoresWord t u ctl pa w ↔ StoresWord s u ctl pa w) := by
  unfold State.Brings StoresWord State.bytesAfter State.movesByte State.leftWord State.romAccess State.narrowAccess
  rw [h1, h2, h3]
  exact ⟨Iff.rfl, fun _ => Iff.rfl⟩

end Sys2Proof.Machine
end

