-- ==== Sys2Proof/Laws/Fields.lean ====
section
/-! SUPPORT. Fields of an instruction word (30 R201). -/

namespace Sys2Proof

theorem opField_word (o a b c : BitVec 8) : opField (word o a b c) = o := by
  apply BitVec.eq_of_getLsbD_eq
  intro i hi
  have h : ¬ 24 + i < 8 ∧ ¬ 24 + i - 8 < 8 ∧ ¬ 24 + i - 8 - 8 < 8 := by omega
  simp only [opField, word, BitVec.getLsbD_extractLsb', BitVec.getLsbD_append, h, if_false]
  simp [hi, show 24 + i - 8 - 8 - 8 = i by omega]

theorem field2_word (o a b c : BitVec 8) : field2 (word o a b c) = a := by
  apply BitVec.eq_of_getLsbD_eq
  intro i hi
  have h : ¬ 16 + i < 8 ∧ ¬ 16 + i - 8 < 8 ∧ 16 + i - 8 - 8 < 8 := by omega
  simp only [field2, word, BitVec.getLsbD_extractLsb', BitVec.getLsbD_append, h, if_false, if_true]
  simp [hi, show 16 + i - 8 - 8 = i by omega]

theorem field1_word (o a b c : BitVec 8) : field1 (word o a b c) = b := by
  apply BitVec.eq_of_getLsbD_eq
  intro i hi
  have h : ¬ 8 + i < 8 ∧ 8 + i - 8 < 8 := by omega
  simp only [field1, word, BitVec.getLsbD_extractLsb', BitVec.getLsbD_append, h, if_false, if_true]
  simp [hi, show 8 + i - 8 = i by omega]

theorem field0_word (o a b c : BitVec 8) : field0 (word o a b c) = c := by
  apply BitVec.eq_of_getLsbD_eq
  intro i hi
  have h : 0 + i < 8 := by omega
  simp only [field0, word, BitVec.getLsbD_extractLsb', BitVec.getLsbD_append, h, if_true]
  simp [hi]

/-- A word is decoded through its four fields. -/
theorem decode_word (o a b c : BitVec 8) : decode (word o a b c) = decodeFields o a b c := by
  rw [decode, opField_word, field2_word, field1_word, field0_word]

/-- The two halves of a 16-bit constant make it up (30 R206). -/
theorem hi_append_lo (i16 : BitVec 16) : hi i16 ++ lo i16 = i16 := by
  apply BitVec.eq_of_getLsbD_eq
  intro i hi16
  simp only [hi, lo, BitVec.getLsbD_append, BitVec.getLsbD_extractLsb']
  split_ifs with h
  · simp [h]
  · rw [show 8 + (i - 8) = i by omega]
    simp; omega

end Sys2Proof
end

