-- ==== Sys2Proof/Laws/Multiple.lean ====
section
/-! SUPPORT. What a completed multiple sequence does (44 R386, 20 R160). -/

namespace Sys2Proof.Machine

/-- The fields that a sequence may change. -/
def SeqFrame (s t : State) : Prop :=
  t = { s with gpr := t.gpr, gr1 := t.gr1, sps := t.sps, cps := t.cps, cha := t.cha, chd := t.chd, chc := t.chc,
               alu := t.alu, tlb := t.tlb, lru := t.lru, idm := t.idm, oldWords := t.oldWords, inflight := t.inflight,
               derr := t.derr, mlByMove := t.mlByMove, clock := t.clock, env := t.env }

theorem SeqFrame.refl (s : State) : SeqFrame s s := rfl

theorem SeqFrame.trans {s t u : State} (h1 : SeqFrame s t) (h2 : SeqFrame t u) : SeqFrame s u :=
  Eq.trans h2
    (congrArg
      (fun v : State =>
        { v with gpr := u.gpr, gr1 := u.gr1, sps := u.sps, cps := u.cps, cha := u.cha, chd := u.chd, chc := u.chc,
                 alu := u.alu, tlb := u.tlb, lru := u.lru, idm := u.idm, oldWords := u.oldWords, inflight := u.inflight,
                 derr := u.derr, mlByMove := u.mlByMove, clock := u.clock, env := u.env })
      h1)

theorem seqFrame_touched {s t : State} (h : Touched s t) : SeqFrame s t := by
  have e1 : t.gpr = s.gpr := by rw [h]
  have e2 : t.gr1 = s.gr1 := by rw [h]
  have e3 : t.sps = s.sps := by rw [h]
  have e4 : t.idm = s.idm := by rw [h]
  have e5 : t.oldWords = s.oldWords := by rw [h]
  have e6 : t.inflight = s.inflight := by rw [h]
  have e7 : t.derr = s.derr := by rw [h]
  have e8 : t.clock = s.clock := by rw [h]
  have e9 : t.env = s.env := by rw [h]
  unfold SeqFrame
  rw [e1, e2, e3, e4, e5, e6, e7, e8, e9]
  exact h

theorem seqFrame_storeReg (s : State) (sh : Bool) (a : RegNum) (v : Word) : SeqFrame s (s.storeReg sh a v) := by
  unfold SeqFrame State.storeReg
  split <;> [rfl; (split <;> rfl)]

theorem seqFrame_busWrite (s : State) (d : Access) (v : Word) : SeqFrame s (s.busWrite d v) := by
  unfold SeqFrame State.busWrite
  split <;> rfl

theorem seqFrame_transfer (s : State) (d : Access) : SeqFrame s (s.transfer d) := by
  have h : SeqFrame s (if d.set then s.busWrite d 0xFFFFFFFF#32 else s) := by
    split
    · exact seqFrame_busWrite s d _
    · exact .refl s
  unfold State.transfer
  by_cases h1 : d.isLoad = true
  · rw [if_pos h1]
    by_cases h2 : d.discard = true
    · simp only [if_pos h2]
      exact h
    · simp only [if_neg h2]
      exact h.trans (seqFrame_storeReg _ _ _ _)
  · rw [if_neg h1]
    exact seqFrame_busWrite s d _

theorem seqFrame_complete (s : State) (d : Access) : SeqFrame s (s.complete d) := by
  have h1 : SeqFrame s (s.endAccess d) := rfl
  unfold State.complete
  split
  · refine h1.trans ?_
    unfold SeqFrame State.failAccess
    split <;> rfl
  · refine (h1.trans (seqFrame_transfer _ d)).trans ?_
    unfold SeqFrame State.clearCv
    split <;> rfl

theorem answersAfter_nil (d : Access) : answersAfter d [] = [] := rfl

theorem putBit_ca (c : Word) (b : Bool) (i : Nat) (h : i ≠ 15) : (putBit c cpsCA b).getLsbD i = c.getLsbD i := by
  rw [getLsbD_putBit _ _ _ _ (by decide)]
  exact if_neg h

/-- One transfer of a sequence that raises no trap and that the system answers. -/
structure OneTransfer (s t : State) (d : Access) (cr : BitVec 8) (pa : Word) (tl : Nat → Word) (w : Word) : Prop where
  frame : SeqFrame s t
  inflight : t.inflight = none
  env : t.env = s.env
  derr : t.derr = s.derr
  lru : t.lru = s.lru
  cps : t.cps = if d.ctl.getLsbD 7 && d.ctl.getLsbD 5 then putBit s.cps cpsCA !d.isLoad else s.cps
  cha : t.cha = d.addr
  chd : d.isLoad = false → t.chd = d.data
  chc : t.chc = putBit (channelControl d true cr) chcCV false
  alu : BytePointerIs s t d.ctl d.addr
  tlb : t.TlbIs tl
  load : d.isLoad = true → s.Brings d.ctl pa w ∧ (implemented d.tr = true → t.readReg .A d.tr = w) ∧
    SameRegs s t [d.tr] ∧ SameMemory s t
  store : d.isLoad = false → SameRegs s t [] ∧ StoresWord s t d.ctl pa d.data
  sps : if d.isLoad = true ∧ d.tr = 1#8 then t.sps = .settled none else t.sps = s.sps
  untranslated : s.translated d.ctl = false → tl = s.tlbReg → t.tlb = s.tlb

theorem transfer_one {s : State} {d : Access} {cr : BitVec 8} {pa : Word} {tlb : Nat → Word} (hu : d.user = s.asUser d.ctl)
    (hg : s.Goes d.ctl d.want d.addr pa tlb) (hans : s.env.answers = []) (hf : s.frozen = false) (hset : d.set = false)
    (hdis : d.discard = false) :
    ∃ d1 s1 w, s.issue d true cr = .ok d1 s1 ∧ s1.answer d1 = .ready ∧
      OneTransfer s (s1.complete d1) d cr pa tlb w := by
  obtain ⟨pgm, s1, e1, e2, e3, e4, e5⟩ := issue_goes (ml := true) (cr := cr) hu hg
  have ht := e2.touched
  have henv : s1.env = s.env := by rw [ht]
  have hf1 : s1.frozen = false := by
    rw [← hf, State.frozen, State.frozen, State.fz, State.fz, e5, show s1.testing = s.testing by rw [ht]]
    split
    · rw [putBit_ca _ _ _ (by decide)]
    · rfl
  have ha : ∀ b, s1.answered b = true := by
    intro b
    rw [State.answered, henv, hans]
    simp
  refine ⟨{ d with pa := pa, pgm := pgm }, s1, ?_⟩
  have hc := complete_ok (d := { d with pa := pa, pgm := pgm }) (ha (d.isLoad && d.set))
  have hfail : s1.answer { d with pa := pa, pgm := pgm } = .ready := (answer_iff _ _).1.mpr (ha _)
  generalize hd1 : ({ d with pa := pa, pgm := pgm } : Access) = d1 at e1 hc hfail
  have f1 : d1.ctl = d.ctl := by rw [← hd1]
  have f2 : d1.isLoad = d.isLoad := by rw [← hd1]
  have f3 : d1.set = false := by rw [← hd1]; exact hset
  have f4 : d1.tr = d.tr := by rw [← hd1]
  have f5 : d1.data = d.data := by rw [← hd1]
  have f6 : d1.discard = false := by rw [← hd1]; exact hdis
  have f7 : d1.pa = pa := by rw [← hd1]
  have hregs : ∀ a, implemented a = true → s1.readReg .A a = s.readReg .A a := fun a hi =>
    State.readReg_congr (by rw [ht]) (by rw [ht]) _ hi
  have hidm : s1.idm = s.idm := by rw [ht]
  have hrom : s1.rom = s.rom := by rw [ht]
  have hcong := access_congr (s := s) (t := s1) (by rw [ht]) hidm hrom
  have hsps : s1.sps = s.sps := by rw [ht]
  obtain ⟨w, hw⟩ : ∃ w, d.isLoad = true → s.Brings d.ctl pa w ∧
      (implemented d.tr = true → (s1.complete d1).readReg .A d.tr = w) ∧ SameRegs s (s1.complete d1) [d.tr] ∧
      SameMemory s (s1.complete d1) := by
    cases hl : d.isLoad with
    | false => exact ⟨0#32, fun h => absurd h (by decide)⟩
    | true =>
      obtain ⟨w, w1, w2, w3, w4⟩ := hc.load (by rw [f2, hl])
      rw [f1, f7] at w1
      rw [f6, f4] at w2
      rw [f6, f4, if_neg (by decide)] at w3
      rw [f3, if_neg (by decide)] at w4
      refine ⟨w, fun _ => ⟨(hcong d.ctl pa w).1.mp w1, fun hi => w2 rfl hi, ?_, ?_⟩⟩
      · intro a hi hn
        rw [w3 a hi hn, hregs a hi]
      · intro a
        have := w4 a
        rwa [hidm, hrom] at this
  refine ⟨w, e1, hfail, ?_⟩
  constructor
  · exact (seqFrame_touched ht).trans (seqFrame_complete s1 d1)
  · exact hc.inflight
  · rw [State.complete_env, henv, hans, answersAfter_nil, ← hans]
  · have : (s1.complete d1).derr = s1.derr := by
      rw [State.complete, hfail, if_neg (by decide)]
      simp [State.endAccess]
    rw [this, ht]
  · rw [State.complete_lru, e4]
  · rw [State.complete_cps, e5]
  · rw [State.complete_cha, e2.channel.cha, hf, if_neg (by decide)]
  · intro hl
    rw [State.complete_chd]
    have := e2.channel.chd
    rw [hf, if_neg (by decide)] at this
    exact this hl
  · rw [hc.chc, hf1, if_neg (by decide), e2.channel.chc, hf, if_neg (by decide), ← channelControl_true]
  · intro i
    rw [State.complete_alu]
    exact e2.alu i
  · intro k hk
    rw [← e3 k hk, State.tlbReg, State.tlbReg, State.complete_tlb]
  · exact hw
  · intro hl
    obtain ⟨w1, w2⟩ := hc.store (by rw [f2, hl])
    rw [f1, f7, f5] at w2
    refine ⟨?_, (hcong _ _ _).2 _ |>.mp w2⟩
    intro a hi hn
    rw [w1 a hi hn, hregs a hi]
  · have := hc.sps
    rw [f2, f4, f6, hsps] at this
    simpa using this
  · intro _ htlb
    rw [State.complete_tlb]
    apply Vector.ext
    intro k hk
    have := e3 k hk
    rw [htlb, State.tlbReg, State.tlbReg, Vector.getElem?_eq_getElem hk, Vector.getElem?_eq_getElem hk] at this
    simpa using this

theorem seqReg_next (tr : RegNum) (k : Nat) : seqReg (nextReg tr) k = seqReg tr (k + 1) := by
  have h1 : nextReg tr = seqReg tr 1 := by
    unfold nextReg seqReg seqReg
    simp only [← BitVec.toNat_inj, Bool.or_eq_true, decide_eq_true_eq]
    rfl
  induction k with
  | zero => exact h1
  | succ n ih =>
    rw [seqReg, ih]
    rfl

theorem seqAddr_next (addr : Word) (k : Nat) : seqAddr (addr + 4#32) k = seqAddr addr (k + 1) := by
  apply BitVec.eq_of_toNat_eq
  unfold seqAddr
  simp only [BitVec.toNat_add, BitVec.toNat_ofNat]
  omega

/-- The TLB after an access that goes out differs in Usage bits alone. -/
theorem sameTlb_of_goes {s t : State} {ctl : BitVec 8} {want : Want} {addr pa : Word} {tlb : Nat → Word}
    (hg : s.Goes ctl want addr pa tlb) (h : t.TlbIs tlb) : SameTlbButUsage s t := by
  intro k i hk
  by_cases hlt : k < 128
  · rw [h k hlt]
    obtain ⟨_, _, hg⟩ := hg
    split at hg
    · obtain ⟨_, set, _, _, _, rfl⟩ := hg
      unfold State.usedTlb
      split
      · next h1 =>
        have hodd : i ≠ 1 := by omega
        have e : ∀ j, (2#32).getLsbD j = decide (j = 1) := by
          intro j
          by_cases hj : j < 32
          · interval_cases j <;> rfl
          · rw [BitVec.getLsbD_of_ge _ _ (by omega)]
            simp; omega
        have e' : (0xFFFFFFFD#32) = ~~~(2#32) := by decide
        split
        · rw [BitVec.getLsbD_or, e]
          simp [hodd]
        · rw [e', BitVec.getLsbD_and, BitVec.getLsbD_not, e]
          by_cases hi : i < 32
          · simp [hodd, hi]
          · rw [BitVec.getLsbD_of_ge _ _ (by omega)]
            rfl
      · rfl
    · rw [hg.2]
  · rw [State.tlbReg, State.tlbReg, Vector.getElem?_eq_none (by omega), Vector.getElem?_eq_none (by omega)]

theorem high_bits (x y : Word) (n : Nat) (hn : 2 ≤ n) (h : ∀ i, i ≠ 1 → x.getLsbD i = y.getLsbD i) :
    x.toNat / 2 ^ n = y.toNat / 2 ^ n := by
  rw [← shiftRight_eq_iff]
  apply BitVec.eq_of_getLsbD_eq
  intro i _
  rw [BitVec.getLsbD_ushiftRight, BitVec.getLsbD_ushiftRight]
  exact h _ (by omega)

/-- What a transfer leaves does not disturb where a later one goes. -/
theorem goes_congr {s t : State} {ctl : BitVec 8} {want : Want} {addr pa : Word} {tlb : Nat → Word}
    (hcps : ∀ i, i ≠ 15 → t.cps.getLsbD i = s.cps.getLsbD i) (hcfg : t.cfg = s.cfg) (hmmu : t.mmu = s.mmu)
    (ht : SameTlbButUsage s t) (hg : s.Goes ctl want addr pa tlb) : ∃ tlb', t.Goes ctl want addr pa tlb' := by
  have hps : t.ps = s.ps := by rw [State.ps, State.ps, hmmu]
  have hline : t.lineOf addr = s.lineOf addr := by rw [State.lineOf, State.lineOf, hps]
  have he0 : ∀ k, t.entry0 addr k = s.entry0 addr k := by
    intro k
    apply BitVec.eq_of_getLsbD_eq
    intro i _
    unfold State.entry0
    rw [hline]
    exact ht _ i (.inl (by omega))
  have hm : ∀ k, t.EntryMatches addr k ↔ s.EntryMatches addr k := by
    intro k
    rw [State.EntryMatches, State.EntryMatches, he0, hps, hmmu]
  have hphys : ∀ k, t.physical addr k = s.physical addr k := by
    intro k
    unfold State.physical
    rw [hps, high_bits (t.entry1 addr k) (s.entry1 addr k) _ (by omega)]
    intro i hi
    unfold State.entry1
    rw [hline]
    exact ht _ i (.inr hi)
  have htr : t.translated ctl = s.translated ctl := by rw [State.translated, State.translated, hcps 6 (by decide)]
  have hus : t.asUser ctl = s.asUser ctl := by rw [State.asUser, State.asUser, hcps 4 (by decide)]
  obtain ⟨h1, h2, h3⟩ := hg
  unfold State.Goes
  rw [htr, hus, hmmu]
  have hmis : t.misaligned ctl addr = false := by
    rw [← h1, State.misaligned, State.misaligned, hcps 11 (by decide)]
  split at h3
  · next hx =>
    obtain ⟨ha, set, ⟨hs, hhit, hno⟩, hp, hpa, _⟩ := h3
    exact ⟨t.usedTlb addr set, hmis, by rw [hcfg]; exact h2, by
      rw [if_pos hx]
      exact ⟨ha, set, ⟨hs, (hm _).mpr hhit, fun hc => hno ((hm _).mp hc)⟩, by rw [he0]; exact hp, by rw [hphys]; exact hpa,
        rfl⟩⟩
  · next hx =>
    exact ⟨t.tlbReg, hmis, by rw [hcfg]; exact h2, by rw [if_neg hx]; exact ⟨h3.1, rfl⟩⟩

/-- Where an access goes determines the TLB after it. -/
theorem goes_tlb {s : State} {ctl : BitVec 8} {want : Want} {addr pa pa' : Word} {tlb tlb' : Nat → Word}
    (h : s.Goes ctl want addr pa tlb) (h' : s.Goes ctl want addr pa' tlb') : tlb = tlb' := by
  obtain ⟨-, -, h⟩ := h
  obtain ⟨-, -, h'⟩ := h'
  split at h
  · next hx =>
    rw [if_pos hx] at h'
    obtain ⟨-, e, ⟨he, hm, hn⟩, -, -, rfl⟩ := h
    obtain ⟨-, f, ⟨hf, hm', hn'⟩, -, -, rfl⟩ := h'
    obtain rfl : e = f := by
      by_contra hne
      exact hn (by rwa [show 1 - e = f by omega])
    rfl
  · next hx =>
    rw [if_neg hx] at h'
    rw [h.2, h'.2]

theorem isProtected_congr {s t : State} (h1 : t.cps.getLsbD 4 = s.cps.getLsbD 4) (h2 : t.rbp = s.rbp)
    (h3 : t.testing = s.testing) (a : RegNum) : t.isProtected a = s.isProtected a := by
  unfold State.isProtected State.supervisor cpsSM
  rw [h1, h2, h3]

theorem intrEnabled_congr {s t : State} (h : ∀ i, i ≠ 15 → t.cps.getLsbD i = s.cps.getLsbD i) (j : Nat) :
    t.intrEnabled j = s.intrEnabled j := by
  have h2 : t.cps.extractLsb' cpsIM 2 = s.cps.extractLsb' cpsIM 2 := by
    apply BitVec.eq_of_getLsbD_eq
    intro i hi
    rw [BitVec.getLsbD_extractLsb', BitVec.getLsbD_extractLsb', h]
    unfold cpsIM
    omega
  unfold State.intrEnabled State.da cpsDA cpsDI
  rw [h 0 (by decide), h 1 (by decide), h2]

/-- The events of 60 R549 look at the status, the pins, the Timer and a pending `*DERR`. -/
theorem asyncEvent_congr {s t : State} (h : ∀ i, i ≠ 15 → t.cps.getLsbD i = s.cps.getLsbD i) (hd : t.derr = s.derr)
    (hp : t.pins = s.pins) (hr : t.tmr = s.tmr) (htf : t.chc.getLsbD 10 = false)
    (hs : s.chc.getLsbD 10 = false) : t.asyncEvent = s.asyncEvent := by
  unfold State.asyncEvent State.da cpsDA chcTF cpsTP
  rw [hd, hp, hr, htf, hs, h 0 (by decide), h 12 (by decide), intrEnabled_congr h, intrEnabled_congr h, intrEnabled_congr h,
    intrEnabled_congr h]
  simp only [Bool.false_and, Bool.false_eq_true, if_false]

/-- Nothing happens between two accesses of an undisturbed sequence. -/
theorem between_quiet {s : State} (h : s.Calm) :
    ∃ c, s.betweenAccesses = { s with clock := c } := by
  obtain ⟨h1, h2, -, hw, -⟩ := h
  have hp : s.nextPins = s.pins := by rw [State.nextPins, h1]; rfl
  have henv : ∀ e : Env, e.events = [] → e.cycles = [] → { e with events := e.events.drop 1, cycles := e.cycles.drop 1 } = e := by
    rintro ⟨ev, la, cy, de, fe⟩ rfl rfl
    rfl
  have henv2 : ∀ e : Env, e.cycles = [] → { e with cycles := e.cycles.drop 1 } = e := by
    rintro ⟨ev, la, cy, de, fe⟩ rfl
    rfl
  unfold State.betweenAccesses
  simp only
  split
  · refine ⟨s.clock, ?_⟩
    have := henv2 s.env h2
    simp only [h2, State.timer, List.headD_nil, timerCycles] at *
    rw [this]
  · refine ⟨s.clock + 1, ?_⟩
    unfold State.samplePins
    have := henv s.env h1 h2
    simp only [hp, h2, h1, State.timer, List.headD_nil, timerCycles, hw, Bool.false_or, Bool.and_not_self, Bool.false_and] at *
    rw [this]

/-- What a sequence of `n + 1` transfers that nothing disturbs makes of the machine (20 R160, 44 R386). -/
structure SeqDone (s t : State) (d : Access) (n : Nat) (pa w : Nat → Word) : Prop where
  frame : SeqFrame s t
  inflight : t.inflight = none
  lru : t.lru = s.lru
  cps : t.cps = if d.ctl.getLsbD 7 && d.ctl.getLsbD 5 then putBit s.cps cpsCA !d.isLoad else s.cps
  cha : t.cha = seqAddr d.addr n
  chd : d.isLoad = false → t.chd = w n
  chc : ∃ cr : BitVec 8, t.chc = d.ctl ++ cr ++ BitVec.ofBool d.isLoad ++ 0#5 ++ seqReg d.tr n ++ 0#2
  alu : BytePointerIs s t d.ctl d.addr
  tlb : SameTlbButUsage s t
  untranslated : s.translated d.ctl = false → t.tlb = s.tlb
  load : d.isLoad = true → (∀ k ≤ n, s.Brings d.ctl (pa k) (w k)) ∧ LoadsAll s t d.tr n w ∧ SameMemory s t
  store : d.isLoad = false → w 0 = d.data ∧
    (∀ k ≤ n, 1 ≤ k → implemented (seqReg d.tr k) = true → w k = s.readReg .A (seqReg d.tr k)) ∧ SameRegs s t [] ∧
    StoresAll s t d.ctl pa n w
  shadow : (d.isLoad = false ∨ ∀ k ≤ n, seqReg d.tr k ≠ 1#8) → t.sps.now = s.sps.now

theorem chc_of_last (d : Access) (cr : BitVec 8) (x : BitVec 8) (hset : d.set = false) (hla : d.la = false) :
    ∃ cr' : BitVec 8, putField (putBit (putBit (channelControl d true cr) chcCV false) chcML false) chcCR x =
      d.ctl ++ cr' ++ BitVec.ofBool d.isLoad ++ 0#5 ++ d.tr ++ 0#2 := by
  refine ⟨x, ?_⟩
  apply BitVec.eq_of_getLsbD_eq
  intro i hi
  rw [getLsbD_putField _ _ _ (by decide), getLsbD_putBit _ _ _ _ (by decide), getLsbD_putBit _ _ _ _ (by decide)]
  unfold channelControl chcCV chcML chcCR bitOf
  rw [hset, hla]
  simp only [BitVec.getLsbD_append]
  interval_cases i <;> simp

theorem SameTlbButUsage.trans {s t u : State} (h1 : SameTlbButUsage s t) (h2 : SameTlbButUsage t u) : SameTlbButUsage s u :=
  fun k i h => (h2 k i h).trans (h1 k i h)

/-- The end of a sequence, the channel registers not being frozen. -/
theorem endMultiple_unfrozen {t : State} (h : t.frozen = false) : t.endMultiple =
    { t with chc := putField (putBit t.chc chcML false) chcCR ((t.free .crAfter).extractLsb' 0 8) } := by
  rw [State.endMultiple, h, if_neg (by decide)]

/-- The parts of the status that a transfer leaves. -/
theorem OneTransfer.frozen {s t : State} {d : Access} {cr : BitVec 8} {pa : Word} {tl : Nat → Word} {w : Word}
    (h : OneTransfer s t d cr pa tl w) : t.frozen = s.frozen := by
  rw [State.frozen, State.frozen, State.fz, State.fz, h.cps, show t.testing = s.testing by rw [h.frame]]
  split
  · rw [putBit_ca _ _ _ (by decide)]
  · rfl

theorem OneTransfer.tf {s t : State} {d : Access} {cr : BitVec 8} {pa : Word} {tl : Nat → Word} {w : Word}
    (h : OneTransfer s t d cr pa tl w) : t.chc.getLsbD 10 = false := by
  rw [h.chc, getLsbD_putBit _ _ _ _ (by decide)]
  unfold channelControl chcCV bitOf
  simp only [BitVec.getLsbD_append]
  simp

theorem OneTransfer.status {s t : State} {d : Access} {cr : BitVec 8} {pa : Word} {tl : Nat → Word} {w : Word}
    (h : OneTransfer s t d cr pa tl w) : ∀ i, i ≠ 15 → t.cps.getLsbD i = s.cps.getLsbD i := by
  intro i hi
  rw [h.cps]
  split
  · exact putBit_ca _ _ _ hi
  · rfl

/-- The Stack Pointer shadow after one transfer (10 R34). -/
theorem OneTransfer.shadow {s t : State} {d : Access} {cr : BitVec 8} {pa : Word} {tl : Nat → Word} {w : Word}
    (h : OneTransfer s t d cr pa tl w) (hx : d.isLoad = false ∨ d.tr ≠ 1#8) : t.sps.now = s.sps.now := by
  have hs := h.sps
  rw [if_neg (fun e => hx.elim (fun hl => by rw [hl] at e; cases e.1) (fun hr => hr e.2))] at hs
  rw [hs]

/-- A load into Global Register 1 leaves the shadow not valid (10 R34). -/
theorem OneTransfer.noShadow {s t : State} {d : Access} {cr : BitVec 8} {pa : Word} {tl : Nat → Word} {w : Word}
    (h : OneTransfer s t d cr pa tl w) (hl : d.isLoad = true) (e : d.tr = 1#8) : t.sps.now = none := by
  have hs := h.sps
  rw [if_pos ⟨hl, e⟩] at hs
  rw [hs]
  rfl

theorem seqDone_last {s t : State} {d : Access} {cr : BitVec 8} {pa : Word} {tlb : Nat → Word} {w : Word} {want : Want}
    (hset : d.set = false) (hla : d.la = false) (hfz : s.frozen = false) (hg : s.Goes d.ctl want d.addr pa tlb)
    (h : OneTransfer s t d cr pa tlb w) :
    SeqDone s t.endMultiple d 0 (fun _ => pa) (fun _ => if d.isLoad then w else d.data) := by
  rw [endMultiple_unfrozen (h.frozen.trans hfz)]
  generalize he : ({ t with chc := putField (putBit t.chc chcML false) chcCR ((t.free .crAfter).extractLsb' 0 8) } : State) = e
  have hf : SeqFrame s e := h.frame.trans (by rw [← he]; rfl)
  have hreg : ∀ a, implemented a = true → e.readReg .A a = t.readReg .A a := fun a hi =>
    State.readReg_congr (by rw [← he]) (by rw [← he]) _ hi
  have hidm : e.idm = t.idm := by rw [← he]
  subst he
  refine ⟨hf, h.inflight, h.lru, h.cps, ?_, ?_, ?_, h.alu, sameTlb_of_goes hg h.tlb, ?_, ?_, ?_, ?_⟩
  · rw [show seqAddr d.addr 0 = d.addr by simp [seqAddr]]
    exact h.cha
  · intro hl
    simp only [hl, Bool.false_eq_true, if_false]
    exact h.chd hl
  · simp only [h.chc]
    exact chc_of_last d cr _ hset hla
  · intro hu
    refine h.untranslated hu ?_
    have := hg.2.2
    rw [hu, if_neg (by decide)] at this
    exact this.2
  · intro hl
    obtain ⟨h1, h2, h3, h4⟩ := h.load hl
    refine ⟨fun k _ => by rw [hl]; exact h1, ⟨?_, ?_⟩, h4⟩
    · intro a hi hn
      rw [hreg a hi, h3 a hi (by simpa [seqReg] using hn)]
    · intro k hk _ hi
      obtain rfl : k = 0 := by omega
      rw [hreg _ hi, hl]
      exact h2 hi
  · intro hl
    obtain ⟨h1, h2⟩ := h.store hl
    refine ⟨by rw [hl]; rfl, fun k h0 h1 => by omega, ?_, ?_⟩
    · intro a hi hn
      rw [hreg a hi, h1 a hi hn]
    · intro a
      rw [hl]
      exact ⟨(h2 a).2, (h2 a).1⟩
  · intro hx
    have := h.sps
    rw [if_neg] at this
    · exact congrArg Delayed.now this
    · rintro ⟨h1, h2⟩
      rcases hx with hx | hx
      · rw [hx] at h1
        cases h1
      · exact hx 0 (by omega) h2

/-- The words of a sequence, the first one apart. -/
def consWord (w0 : Word) (w : Nat → Word) : Nat → Word
  | 0 => w0
  | k + 1 => w k

theorem low_bits (a : Word) (i : Nat) (hi : i < 2) : (a + 4#32).getLsbD i = a.getLsbD i := by
  rw [BitVec.getLsbD, BitVec.getLsbD, Nat.testBit_eq_decide_div_mod_eq, Nat.testBit_eq_decide_div_mod_eq,
    decide_eq_decide, BitVec.toNat_add]
  interval_cases i <;> simp <;> omega

theorem readWord_congr {m m' : Memory} (h : ∀ a, Memory.read m a = Memory.read m' a) {w : IAddr} :
    Memory.readWord m w = Memory.readWord m' w := by simp only [Memory.readWord, h]

theorem seq_load_step {s t t' u : State} {ctl : BitVec 8} {tr : RegNum} {n : Nat} {pa w : Nat → Word} {w0 : Word}
    (hr : ∀ a, implemented a = true → t'.readReg .A a = t.readReg .A a) (hi1 : t'.idm = t.idm) (hi2 : t'.rom = t.rom)
    (hi3 : t'.sys = s.sys) (h : s.Brings ctl (pa 0) w0 ∧ (implemented tr = true → t.readReg .A tr = w0) ∧ SameRegs s t [tr] ∧ SameMemory s t)
    (hu : (∀ k ≤ n, t'.Brings ctl (pa (k + 1)) (w k)) ∧ LoadsAll t' u (nextReg tr) n w ∧ SameMemory t' u) :
    (∀ k ≤ n + 1, s.Brings ctl (pa k) (consWord w0 w k)) ∧ LoadsAll s u tr (n + 1) (consWord w0 w) ∧ SameMemory s u := by
  obtain ⟨b1, b2, b3, b4⟩ := h
  obtain ⟨c1, ⟨c2, c3⟩, c4⟩ := hu
  have hmem : ∀ ctl p v, t'.Brings ctl p v → s.Brings ctl p v := by
    intro ctl p v hb h7 h6
    have hb := hb h7 h6
    unfold State.romAccess State.narrowAccess at *
    rw [hi1, hi2, hi3] at hb
    have e : ∀ b : Bool, Memory.readWord (if b then t.rom else t.idm) (p.extractLsb' 2 30) =
        Memory.readWord (if b then s.rom else s.idm) (p.extractLsb' 2 30) := by
      intro b
      cases b
      · exact readWord_congr fun a => (b4 a).1
      · exact readWord_congr fun a => (b4 a).2
    simp only [e] at hb
    exact hb
  refine ⟨?_, ⟨?_, ?_⟩, ?_⟩
  · intro k hk
    cases k with
    | zero =>
      rw [consWord]
      exact b1
    | succ j => exact hmem _ _ _ (c1 j (by omega))
  · intro a hi hn
    simp only [List.mem_map, List.mem_range, not_exists, not_and] at hn
    rw [c2 a hi, hr a hi, b3 a hi]
    · simp only [List.mem_singleton]
      exact fun e => hn 0 (by omega) (by rw [e]; rfl)
    · simp only [List.mem_map, List.mem_range, not_exists, not_and]
      intro k hk e
      exact hn (k + 1) (by omega) (by rw [← seqReg_next]; exact e)
  · intro k hk hlast hi
    cases k with
    | zero =>
      rw [consWord]
      rw [show seqReg tr 0 = tr from rfl] at hlast hi ⊢
      rw [c2 tr hi, hr _ hi, b2 hi]
      simp only [List.mem_map, List.mem_range, not_exists, not_and]
      intro j hj e
      exact hlast (j + 1) (by omega) (by omega) (by rw [← seqReg_next]; exact e)
    | succ j =>
      rw [consWord, ← seqReg_next]
      refine c3 j (by omega) ?_ (by rw [seqReg_next]; exact hi)
      intro i h1 h2 e
      refine hlast (i + 1) (by omega) (by omega) ?_
      rw [← seqReg_next, ← seqReg_next]
      exact e
  · intro a
    obtain ⟨m1, m2⟩ := c4 a
    rw [hi1] at m1
    rw [hi2] at m2
    obtain ⟨n1, n2⟩ := b4 a
    exact ⟨m1.trans n1, m2.trans n2⟩

/-- The bytes that the rest of a sequence leaves, told from the state before its first store. -/
theorem bytes_shift {s t : State} {ctl : BitVec 8} {pa w : Nat → Word} {w0 : Word} (hs : t.sys = s.sys)
    (h : ∀ a, Memory.read t.idm a = s.bytesAfter ctl (pa 0) w0 (Memory.read s.idm) a) (n : Nat) :
    t.bytesAfterAll ctl (fun k => pa (k + 1)) w n = s.bytesAfterAll ctl pa (consWord w0 w) (n + 1) := by
  induction n with
  | zero =>
    funext a
    exact h a
  | succ k ih =>
    rw [State.bytesAfterAll, ih, State.bytesAfterAll]
    funext a
    unfold State.bytesAfter State.movesByte State.leftWord State.romAccess State.narrowAccess
    rw [hs]
    rfl

theorem seq_store_step {s t t' u : State} {ctl : BitVec 8} {tr : RegNum} {n : Nat} {pa w : Nat → Word} {data0 data : Word}
    (hr : ∀ a, implemented a = true → t'.readReg .A a = t.readReg .A a) (hi1 : t'.idm = t.idm) (hi2 : t'.rom = t.rom)
    (hi3 : t'.sys = s.sys) (hdata : implemented (nextReg tr) = true → data = t.readReg .A (nextReg tr))
    (h : SameRegs s t [] ∧ StoresWord s t ctl (pa 0) data0)
    (hu : w 0 = data ∧ (∀ k ≤ n, 1 ≤ k → implemented (seqReg (nextReg tr) k) = true →
        w k = t'.readReg .A (seqReg (nextReg tr) k)) ∧ SameRegs t' u [] ∧ StoresAll t' u ctl (fun k => pa (k + 1)) n w) :
    consWord data0 w 0 = data0 ∧ (∀ k ≤ n + 1, 1 ≤ k → implemented (seqReg tr k) = true →
        consWord data0 w k = s.readReg .A (seqReg tr k)) ∧ SameRegs s u [] ∧ StoresAll s u ctl pa (n + 1) (consWord data0 w) := by
  obtain ⟨b1, b2⟩ := h
  obtain ⟨c0, c1, c2, c3⟩ := hu
  refine ⟨rfl, ?_, ?_, ?_⟩
  · intro k hk h1 hi
    obtain ⟨j, rfl⟩ : ∃ j, k = j + 1 := ⟨k - 1, by omega⟩
    rw [consWord]
    have hz : (seqReg tr (j + 1)) ∉ ([] : List RegNum) := by simp
    rw [← b1 _ hi hz]
    cases j with
    | zero =>
      rw [c0]
      rw [← seqReg_next] at hi ⊢
      exact hdata hi
    | succ m =>
      rw [c1 (m + 1) (by omega) (by omega) (by rw [seqReg_next]; exact hi), seqReg_next]
      exact hr _ hi
  · intro a hi hn
    rw [c2 a hi hn, hr a hi, b1 a hi hn]
  · intro a
    obtain ⟨r1, r2⟩ := c3 a
    obtain ⟨q1, q2⟩ := b2 a
    refine ⟨r1.trans (by rw [hi2]; exact q2), r2.trans ?_⟩
    exact congrFun (bytes_shift hi3 (by rw [hi1]; exact fun a => (b2 a).1) (n + 1)) a

theorem seqDone_step {s t u : State} {d : Access} {cr : BitVec 8} {n : Nat} {pa : Nat → Word} {tlb : Nat → Word} {w0 : Word}
    {w : Nat → Word} {want : Want} {c : Nat} {data : Word}
    (hg : s.Goes d.ctl want d.addr (pa 0) tlb) (h : OneTransfer s t d cr (pa 0) tlb w0)
    (hdata : d.isLoad = false → implemented (nextReg d.tr) = true → data = t.readReg .A (nextReg d.tr))
    (hu : SeqDone { t with clock := c } u { d with addr := d.addr + 4#32, tr := nextReg d.tr, data := data } n
      (fun k => pa (k + 1)) w) :
    SeqDone s u d (n + 1) pa (consWord (if d.isLoad then w0 else d.data) w) := by
  have hcps := h.status
  have hfr := h.frozen
  have e1 : seqReg d.tr (n + 1) = seqReg (nextReg d.tr) n := (seqReg_next _ _).symm
  have hidm : ({ t with clock := c } : State).idm = t.idm := rfl
  have hreg : ∀ a, implemented a = true → ({ t with clock := c } : State).readReg .A a = t.readReg .A a := fun a hi =>
    State.readReg_congr (s := t) (t := { t with clock := c }) rfl rfl _ hi
  constructor
  · exact h.frame.trans (SeqFrame.trans (t := { t with clock := c }) rfl hu.frame)
  · exact hu.inflight
  · rw [hu.lru]
    exact h.lru
  · rw [hu.cps]
    simp only
    rw [h.cps]
    split
    · apply BitVec.eq_of_getLsbD_eq
      intro i _
      rw [getLsbD_putBit _ _ _ _ (by decide), getLsbD_putBit _ _ _ _ (by decide)]
      split <;> rfl
    · rfl
  · rw [hu.cha]
    exact seqAddr_next _ _
  · intro hl
    exact hu.chd hl
  · rw [e1]
    exact hu.chc
  · intro i
    rw [hu.alu i]
    have hff : ({ t with clock := c } : State).frozen = s.frozen := hfr
    rw [hff]
    have ha := h.alu i
    simp only at *
    split
    · next hx =>
      exact low_bits d.addr _ (by omega)
    · next hx =>
      rw [ha, if_neg hx]
  · exact (sameTlb_of_goes hg h.tlb).trans (SameTlbButUsage.trans (fun _ _ _ => rfl) hu.tlb)
  · intro hx
    have h1 : t.tlb = s.tlb := by
      refine h.untranslated hx ?_
      have := hg.2.2
      rw [hx, if_neg (by decide)] at this
      exact this.2
    rw [← h1]
    refine hu.untranslated ?_
    rw [← hx, State.translated, State.translated]
    simp only
    rw [hcps 6 (by decide)]
  · intro hl
    rw [hl, if_pos rfl]
    exact seq_load_step hreg rfl rfl (by show t.sys = s.sys; rw [h.frame]) (h.load hl) (hu.load hl)
  · intro hl
    rw [hl, if_neg (by decide)]
    exact seq_store_step hreg rfl rfl (by show t.sys = s.sys; rw [h.frame]) (hdata hl) (h.store hl) (hu.store hl)
  · intro hx
    rw [hu.shadow]
    · have := h.sps
      rw [if_neg] at this
      · exact congrArg Delayed.now this
      · rintro ⟨h1, h2⟩
        rcases hx with hx | hx
        · rw [hx] at h1
          cases h1
        · exact hx 0 (by omega) h2
    · rcases hx with hx | hx
      · exact .inl hx
      · refine .inr fun k hk => ?_
        rw [seqReg_next]
        exact hx _ (by omega)

theorem seqDone_zero {s t : State} {d : Access} {pa : Nat → Word} {w : Word}
    (h : SeqDone s t d 0 (fun _ => pa 0) (fun _ => w)) : SeqDone s t d 0 pa (fun _ => w) := by
  have e : ∀ k, k ≤ 0 → k = 0 := fun k hk => by omega
  refine { h with load := fun hl => ?_, store := fun hl => ?_ }
  · obtain ⟨h1, h2, h3⟩ := h.load hl
    refine ⟨fun k hk => ?_, h2, h3⟩
    obtain rfl := e k hk
    exact h1 0 hk
  · exact h.store hl

/-- A sequence of `n + 1` transfers none of which traps or fails, and which nothing interrupts, is carried out (44 R386). -/
theorem runMultiple_done (interruptible : Bool) (n : Nat) : ∀ (s : State) (d : Access) (pa : Nat → Word),
    d.user = s.asUser d.ctl → d.set = false → d.discard = false → d.la = false → s.frozen = false →
    s.Calm → (interruptible = true → s.Undisturbed) →
    (∀ k ≤ n, ∃ tlb, s.Goes d.ctl d.want (seqAddr d.addr k) (pa k) tlb) →
    (∀ k ≤ n, 1 ≤ k → s.isProtected (seqReg d.tr k) = false) →
    ∃ t w, s.runMultiple n d interruptible = .done t ∧ SeqDone s t d n pa w := by
  induction n with
  | zero =>
    intro s d pa hu hset hdis hla hf hcalm _ hg _
    have hans := hcalm.answers
    obtain ⟨tlb, hg0⟩ := hg 0 (by omega)
    have ha : seqAddr d.addr 0 = d.addr := by simp [seqAddr]
    rw [ha] at hg0
    obtain ⟨d1, s1, w, h1, h2, h3⟩ := transfer_one (cr := BitVec.ofNat 8 0) hu hg0 hans hf hset hdis
    refine ⟨(s1.complete d1).endMultiple, _, ?_, seqDone_zero (seqDone_last hset hla hf hg0 h3)⟩
    rw [State.runMultiple, h1]
    simp only [h2]
  | succ n ih =>
    intro s d pa hu hset hdis hla hf hcalm hq hg hp
    have hans := hcalm.answers
    obtain ⟨tlb, hg0⟩ := hg 0 (by omega)
    have ha : seqAddr d.addr 0 = d.addr := by simp [seqAddr]
    rw [ha] at hg0
    obtain ⟨d1, s1, w0, h1, h2, h3⟩ := transfer_one (cr := BitVec.ofNat 8 (n + 1)) hu hg0 hans hf hset hdis
    have hcps := h3.status
    generalize ht : s1.complete d1 = t at h3 hcps
    have hfr := h3.frame
    have htest : t.testing = s.testing := by rw [hfr]
    have hcfg : t.cfg = s.cfg := by rw [hfr]
    have hmmu : t.mmu = s.mmu := by rw [hfr]
    have hrbp : t.rbp = s.rbp := by rw [hfr]
    have hpins : t.pins = s.pins := by rw [hfr]
    have htmr : t.tmr = s.tmr := by rw [hfr]
    have hwarn : t.warnPending = s.warnPending := by rw [hfr]
    have hfz : t.frozen = false := h3.frozen.trans hf
    have tcalm : ∀ c, State.Calm { t with clock := c } := fun c =>
      { events := by rw [← hcalm.events, ← h3.env]
        cycles := by rw [← hcalm.cycles, ← h3.env]
        answers := by rw [← hcalm.answers, ← h3.env]
        warn := by rw [← hcalm.warn, ← hwarn]
        reset := by rw [← hcalm.reset, ← hpins] }
    have hprot : t.isProtected (nextReg d.tr) = false := by
      rw [isProtected_congr (hcps 4 (by decide)) hrbp htest]
      have := hp 1 (by omega) (by omega)
      rwa [← seqReg_next] at this
    have htlb := sameTlb_of_goes hg0 h3.tlb
    have htf := h3.tf
    -- the rest of the sequence, from any clock
    have rest : ∀ c, ∃ u w, State.runMultiple n (t.nextAccess d) interruptible { t with clock := c } = .done u ∧
        SeqDone { t with clock := c } u (t.nextAccess d) n (fun k => pa (k + 1)) w := by
      intro c
      refine ih { t with clock := c } (t.nextAccess d) _ ?_ hset hdis hla hfz (tcalm c) ?_ ?_ ?_
      · show d.user = State.asUser _ d.ctl
        rw [hu, State.asUser, State.asUser]
        simp only
        rw [hcps 4 (by decide)]
      · intro hi
        refine ⟨tcalm c, ?_⟩
        rw [← (hq hi).async]
        exact asyncEvent_congr (s := { s with chc := 0#32 }) (t := { { t with clock := c } with chc := 0#32 }) hcps h3.derr
          hpins htmr (by simp) (by simp)
      · intro k hk
        obtain ⟨tlb', hg'⟩ := hg (k + 1) (by omega)
        rw [← seqAddr_next] at hg'
        exact goes_congr (t := { t with clock := c }) hcps hcfg hmmu htlb hg'
      · intro k hk h1
        rw [isProtected_congr (s := s) (t := { t with clock := c }) (hcps 4 (by decide)) hrbp htest]
        show s.isProtected (seqReg (nextReg d.tr) k) = false
        rw [seqReg_next]
        exact hp (k + 1) (by omega) (by omega)
    have data : d.isLoad = false → implemented (nextReg d.tr) = true →
        (t.nextAccess d).data = t.readReg .A (nextReg d.tr) := by
      intro hl _
      show (if d.isLoad then d.data else t.readReg .A (nextReg d.tr)) = _
      rw [hl, if_neg (by decide)]
    have hprot' : t.isProtected (t.nextAccess d).tr = false := hprot
    have hreset : t.nextPins.reset = false := by
      rw [State.nextPins, (tcalm t.clock).events]
      exact (tcalm t.clock).reset
    obtain ⟨c, hb⟩ := between_quiet (tcalm t.clock)
    replace hb : t.betweenAccesses = { t with clock := c } := hb
    obtain ⟨u, w, r1, r2⟩ := rest c
    refine ⟨u, _, ?_, seqDone_step hg0 h3 data r2⟩
    have hev : (if interruptible then ({ t with clock := c } : State).asyncEvent else none) = none := by
      split
      · next hi =>
        rw [← (hq hi).async]
        exact asyncEvent_congr (s := { s with chc := 0#32 }) (t := { t with clock := c }) hcps h3.derr hpins htmr htf (by simp)
      · rfl
    have hw' : ({ t with clock := c } : State).warnPending = false := (tcalm c).warn
    rw [State.runMultiple, h1]
    generalize ({ t with clock := c } : State) = s3 at hb r1 hev hw'
    simp only [h2, ht, Bool.false_eq_true, if_false, hprot', hreset, hb, hw', hev]
    exact r1

/-- A sequence in the gap after the access `d`, `k + 1` transfers being still to come (44 R386, 60 R554). -/
def State.sequenceGap (s : State) (k : Nat) (d : Access) (interruptible : Bool) : MultiRun :=
  let d2 := s.nextAccess d
  if s.isProtected d2.tr then .prot s
  else if s.nextPins.reset then .reset s
  else
    let s3 := s.betweenAccesses
    if s3.warnPending then .warn (s3.record d2 true (BitVec.ofNat 8 k))
    else
      match (if interruptible then s3.asyncEvent else none) with
      | some (prio, vn) => .event prio vn (s3.record d2 true (BitVec.ofNat 8 k))
      | none => State.runMultiple k d2 interruptible s3

/-- A transfer that is made, and is not the last one, is followed by a gap. -/
theorem runMultiple_gap {s s1 : State} {d d1 : Access} {k : Nat} {b : Bool}
    (h1 : s.issue d true (BitVec.ofNat 8 (k + 1)) = .ok d1 s1) (h2 : s1.answer d1 = .ready) :
    s.runMultiple (k + 1) d b = (s1.complete d1).sequenceGap k d b := by
  rw [State.runMultiple, h1]
  simp only [h2]
  rfl

/-- The environment after `k` gaps of a sequence. -/
def State.envAfterGaps (s : State) (k : Nat) : Env :=
  { s.env with events := s.env.events.drop k, cycles := s.env.cycles.drop k }

/-- Nothing happens in a gap that nothing cuts. -/
theorem between_uncut {s : State} {k : Nat} (h : s.Uncut (k + 1)) :
    s.nextPins = s.pins ∧ ∃ c, s.betweenAccesses = { s with clock := c, env := s.envAfterGaps 1 } := by
  obtain ⟨h1, h2, h3⟩ := h
  obtain ⟨hw, -, -⟩ := h3 (by omega)
  have hp : s.nextPins = s.pins := by
    unfold State.nextPins
    cases he : s.env.events with
    | nil => rfl
    | cons e es =>
      rw [he] at h1
      exact h1 e (by simp)
  have hc : s.env.cycles.headD 0 = 0 := by
    cases he : s.env.cycles with
    | nil => rfl
    | cons e es =>
      rw [he] at h2
      exact h2 e (by simp)
  refine ⟨hp, s.clock + 1, ?_⟩
  unfold State.betweenAccesses
  simp only [hp, bne_self_eq_false, Bool.false_and, Bool.false_eq_true, if_false]
  unfold State.samplePins State.timer State.envAfterGaps
  simp only [hp, hw, hc, timerCycles, Bool.false_or, Bool.and_not_self, Bool.false_and]

/-- What `k + 1` transfers of a sequence make of the machine, none of them the last (20 R160, 44 R386). -/
structure SeqPart (s t : State) (d : Access) (k : Nat) (pa w : Nat → Word) : Prop where
  frame : SeqFrame s t
  shadow : (d.isLoad = false ∨ ∀ j ≤ k, seqReg d.tr j ≠ 1#8) → t.sps.now = s.sps.now
  noShadow : d.isLoad = true → (∃ j ≤ k, seqReg d.tr j = 1#8) → t.sps.now = none
  inflight : t.inflight = none
  env : t.env = s.envAfterGaps k
  derr : t.derr = s.derr
  lru : t.lru = s.lru
  cps : t.cps = if d.ctl.getLsbD 7 && d.ctl.getLsbD 5 then putBit s.cps cpsCA !d.isLoad else s.cps
  tf : t.chc.getLsbD 10 = false
  alu : BytePointerIs s t d.ctl d.addr
  tlb : SameTlbButUsage s t
  load : d.isLoad = true → (∀ j ≤ k, s.Brings d.ctl (pa j) (w j)) ∧ LoadsAll s t d.tr k w ∧ SameMemory s t
  store : d.isLoad = false → w 0 = d.data ∧
    (∀ j ≤ k, 1 ≤ j → implemented (seqReg d.tr j) = true → w j = s.readReg .A (seqReg d.tr j)) ∧ SameRegs s t [] ∧
    StoresAll s t d.ctl pa k w

theorem seqPart_first {s t : State} {d : Access} {cr : BitVec 8} {pa : Nat → Word} {tlb : Nat → Word} {w : Word}
    {want : Want} (hg : s.Goes d.ctl want d.addr (pa 0) tlb) (h : OneTransfer s t d cr (pa 0) tlb w) :
    SeqPart s t d 0 pa (fun _ => if d.isLoad then w else d.data) := by
  refine ⟨h.frame, fun hx => h.shadow (hx.imp id fun hx => hx 0 (by omega)), fun hl hx => ?_, h.inflight, h.env, h.derr, h.lru, h.cps, h.tf, h.alu, sameTlb_of_goes hg h.tlb,
    ?_, ?_⟩
  · obtain ⟨j, hj, e⟩ := hx
    obtain rfl : j = 0 := by omega
    exact h.noShadow hl e
  · intro hl
    obtain ⟨h1, h2, h3, h4⟩ := h.load hl
    refine ⟨fun k hk => ?_, ⟨?_, ?_⟩, h4⟩
    · obtain rfl : k = 0 := by omega
      rw [hl]
      exact h1
    · intro a hi hn
      exact h3 a hi (by simpa [seqReg] using hn)
    · intro k hk _ hi
      obtain rfl : k = 0 := by omega
      rw [hl]
      exact h2 hi
  · intro hl
    obtain ⟨h1, h2⟩ := h.store hl
    refine ⟨by rw [hl]; rfl, fun k h0 h1 => by omega, h1, ?_⟩
    intro a
    rw [hl]
    exact ⟨(h2 a).2, (h2 a).1⟩

theorem seqPart_step {s t u : State} {d : Access} {cr : BitVec 8} {n : Nat} {pa : Nat → Word} {tlb : Nat → Word} {w0 : Word}
    {w : Nat → Word} {want : Want} {c : Nat} {data : Word}
    (hg : s.Goes d.ctl want d.addr (pa 0) tlb) (h : OneTransfer s t d cr (pa 0) tlb w0)
    (hdata : d.isLoad = false → implemented (nextReg d.tr) = true → data = t.readReg .A (nextReg d.tr))
    (hu : SeqPart { t with clock := c, env := t.envAfterGaps 1 } u
      { d with addr := d.addr + 4#32, tr := nextReg d.tr, data := data } n (fun k => pa (k + 1)) w) :
    SeqPart s u d (n + 1) pa (consWord (if d.isLoad then w0 else d.data) w) := by
  have hreg : ∀ a, implemented a = true →
      ({ t with clock := c, env := t.envAfterGaps 1 } : State).readReg .A a = t.readReg .A a := fun a hi =>
    State.readReg_congr (s := t) (t := { t with clock := c, env := t.envAfterGaps 1 }) rfl rfl _ hi
  constructor
  · exact h.frame.trans (SeqFrame.trans (t := { t with clock := c, env := t.envAfterGaps 1 }) rfl hu.frame)
  · intro hx
    refine (hu.shadow ?_).trans (h.shadow (hx.imp id fun hx => hx 0 (by omega)))
    exact hx.imp id fun hx j hj => by
      show seqReg (nextReg d.tr) j ≠ 1#8
      rw [seqReg_next]
      exact hx (j + 1) (by omega)
  · intro hl hx
    by_cases hr : ∃ j ≤ n, seqReg (nextReg d.tr) j = 1#8
    · exact hu.noShadow hl hr
    · refine (hu.shadow (.inr fun j hj e => hr ⟨j, hj, e⟩)).trans ?_
      obtain ⟨j, hj, e⟩ := hx
      cases j with
      | zero => exact h.noShadow hl e
      | succ m => exact absurd ⟨m, by omega, by rw [seqReg_next]; exact e⟩ hr
  · exact hu.inflight
  · rw [hu.env]
    unfold State.envAfterGaps
    simp only [h.env, List.drop_drop, Nat.add_comm]
  · rw [hu.derr]
    exact h.derr
  · rw [hu.lru]
    exact h.lru
  · rw [hu.cps]
    simp only
    rw [h.cps]
    split
    · apply BitVec.eq_of_getLsbD_eq
      intro i _
      rw [getLsbD_putBit _ _ _ _ (by decide), getLsbD_putBit _ _ _ _ (by decide)]
      split <;> rfl
    · rfl
  · exact hu.tf
  · intro i
    rw [hu.alu i]
    have hff : ({ t with clock := c, env := t.envAfterGaps 1 } : State).frozen = s.frozen := h.frozen
    rw [hff]
    have ha := h.alu i
    simp only at *
    split
    · next hx =>
      exact low_bits d.addr _ (by omega)
    · next hx =>
      rw [ha, if_neg hx]
  · exact (sameTlb_of_goes hg h.tlb).trans (SameTlbButUsage.trans (fun _ _ _ => rfl) hu.tlb)
  · intro hl
    rw [hl, if_pos rfl]
    exact seq_load_step hreg rfl rfl (by show t.sys = s.sys; rw [h.frame]) (h.load hl) (hu.load hl)
  · intro hl
    rw [hl, if_neg (by decide)]
    exact seq_store_step hreg rfl rfl (by show t.sys = s.sys; rw [h.frame]) (hdata hl) (h.store hl) (hu.store hl)

/-- A sequence that nothing cuts in its first `k` gaps, and whose first `k + 1` transfers do not trap, comes to the gap after
them (44 R386). -/
theorem runMultiple_prefix (b : Bool) (k : Nat) : ∀ (n : Nat) (s : State) (d : Access) (pa : Nat → Word), k < n →
    d.user = s.asUser d.ctl → d.set = false → d.discard = false → s.frozen = false → s.env.answers = [] → s.Uncut k →
    (∀ j ≤ k, ∃ tlb, s.Goes d.ctl d.want (seqAddr d.addr j) (pa j) tlb) →
    (∀ j ≤ k, 1 ≤ j → s.isProtected (seqReg d.tr j) = false) →
    ∃ t w data, s.runMultiple n d b =
        t.sequenceGap (n - 1 - k) { d with addr := seqAddr d.addr k, tr := seqReg d.tr k, data := data } b ∧
      SeqPart s t d k pa w ∧ (k = 0 → ∀ tlb, s.Goes d.ctl d.want d.addr (pa 0) tlb → t.TlbIs tlb) := by
  induction k with
  | zero =>
    intro n s d pa hn hu hset hdis hf hans _ hg _
    obtain ⟨m, rfl⟩ : ∃ m, n = m + 1 := ⟨n - 1, by omega⟩
    obtain ⟨tlb, hg0⟩ := hg 0 (by omega)
    have ha : seqAddr d.addr 0 = d.addr := by simp [seqAddr]
    rw [ha] at hg0
    obtain ⟨d1, s1, w, h1, h2, h3⟩ := transfer_one (cr := BitVec.ofNat 8 (m + 1)) hu hg0 hans hf hset hdis
    refine ⟨s1.complete d1, _, d.data, ?_, seqPart_first hg0 h3, ?_⟩
    · rw [runMultiple_gap h1 h2, ha]
      rfl
    · intro _ tlb' hg'
      rw [goes_tlb hg' hg0]
      exact h3.tlb
  | succ k ih =>
    intro n s d pa hn hu hset hdis hf hans hcut hg hp
    obtain ⟨m, rfl⟩ : ∃ m, n = m + 1 := ⟨n - 1, by omega⟩
    obtain ⟨tlb, hg0⟩ := hg 0 (by omega)
    have ha : seqAddr d.addr 0 = d.addr := by simp [seqAddr]
    rw [ha] at hg0
    obtain ⟨d1, s1, w0, h1, h2, h3⟩ := transfer_one (cr := BitVec.ofNat 8 (m + 1)) hu hg0 hans hf hset hdis
    rw [runMultiple_gap h1 h2]
    generalize s1.complete d1 = t at h3
    have hfr := h3.frame
    have hcps := h3.status
    have htest : t.testing = s.testing := by rw [hfr]
    have hcfg : t.cfg = s.cfg := by rw [hfr]
    have hmmu : t.mmu = s.mmu := by rw [hfr]
    have hrbp : t.rbp = s.rbp := by rw [hfr]
    have hpins : t.pins = s.pins := by rw [hfr]
    have htmr : t.tmr = s.tmr := by rw [hfr]
    have hwarn : t.warnPending = s.warnPending := by rw [hfr]
    obtain ⟨c1, c2, c3⟩ := hcut
    obtain ⟨q1, q2, q3⟩ := c3 (by omega)
    have hcut : t.Uncut (k + 1) := by
      refine ⟨by rw [h3.env, hpins]; exact c1, by rw [h3.env]; exact c2, fun _ => ⟨hwarn.trans q1, by rw [hpins]; exact q2, ?_⟩⟩
      rw [← q3]
      exact asyncEvent_congr (s := { s with chc := 0#32 }) (t := { t with chc := 0#32 }) hcps h3.derr hpins htmr (by simp)
        (by simp)
    obtain ⟨hnp, c, hb⟩ := between_uncut hcut
    have hprot : t.isProtected (t.nextAccess d).tr = false := by
      rw [isProtected_congr (hcps 4 (by decide)) hrbp htest]
      have := hp 1 (by omega) (by omega)
      rwa [← seqReg_next] at this
    have hreset : t.nextPins.reset = false := by rw [hnp, hpins]; exact q2
    have htlb := sameTlb_of_goes hg0 h3.tlb
    have hev : (if b then ({ t with clock := c, env := t.envAfterGaps 1 } : State).asyncEvent else none) = none := by
      split
      · rw [← q3]
        exact asyncEvent_congr (s := { s with chc := 0#32 }) (t := { t with clock := c, env := t.envAfterGaps 1 }) hcps h3.derr
          hpins htmr h3.tf (by simp)
      · rfl
    have hgap : t.sequenceGap m d b =
        State.runMultiple m (t.nextAccess d) b { t with clock := c, env := t.envAfterGaps 1 } := by
      unfold State.sequenceGap
      simp only [hprot, hreset, hb, hev, Bool.false_eq_true, if_false]
      rw [if_neg]
      rw [hwarn, q1]
      decide
    rw [hgap]
    have hcut' : State.Uncut { t with clock := c, env := t.envAfterGaps 1 } k := by
      obtain ⟨d1, d2, d3⟩ := hcut
      refine ⟨fun e he => d1 e ?_, fun e he => d2 e ?_, fun hk => ?_⟩
      · have he : e ∈ (t.env.events.drop 1).take k := he
        rw [List.take_drop, Nat.add_comm] at he
        exact List.mem_of_mem_drop he
      · have he : e ∈ (t.env.cycles.drop 1).take k := he
        rw [List.take_drop, Nat.add_comm] at he
        exact List.mem_of_mem_drop he
      · exact d3 (by omega)
    obtain ⟨u, w, data, r1, r2, -⟩ := ih m { t with clock := c, env := t.envAfterGaps 1 } (t.nextAccess d)
      (fun j => pa (j + 1)) (by omega)
      (by
        show d.user = State.asUser _ d.ctl
        rw [hu, State.asUser, State.asUser]
        simp only
        rw [hcps 4 (by decide)])
      hset hdis (h3.frozen.trans hf) (by show t.env.answers = []; rw [h3.env]; exact hans) hcut'
      (fun j hj => by
        obtain ⟨tlb', hg'⟩ := hg (j + 1) (by omega)
        rw [← seqAddr_next] at hg'
        exact goes_congr (t := { t with clock := c, env := t.envAfterGaps 1 }) hcps hcfg hmmu htlb hg')
      (fun j hj h1 => by
        rw [isProtected_congr (s := s) (t := { t with clock := c, env := t.envAfterGaps 1 }) (hcps 4 (by decide)) hrbp htest]
        show s.isProtected (seqReg (nextReg d.tr) j) = false
        rw [seqReg_next]
        exact hp (j + 1) (by omega) (by omega))
    have e1 : (t.nextAccess d).addr = d.addr + 4#32 := rfl
    have e2 : (t.nextAccess d).tr = nextReg d.tr := rfl
    rw [e1, e2, seqAddr_next, seqReg_next] at r1
    refine ⟨u, _, data, ?_, seqPart_step hg0 h3 ?_ r2, fun h => by omega⟩
    · rw [r1, show m + 1 - 1 - (k + 1) = m - 1 - k by omega]
      rfl
    · intro hl _
      show (if d.isLoad then d.data else t.readReg .A (nextReg d.tr)) = _
      rw [hl, if_neg (by decide)]

/-- A gap that nothing cuts, after `k + 1` transfers of a sequence, is followed by the next transfer. -/
theorem sequenceGap_uncut {s t : State} {d : Access} {k : Nat} {pa w : Nat → Word} (h : SeqPart s t d k pa w)
    (hc : s.Uncut (k + 1)) (hp : s.isProtected (seqReg d.tr (k + 1)) = false) (m : Nat) (data : Word) (b : Bool) :
    ∃ c, t.sequenceGap m { d with addr := seqAddr d.addr k, tr := seqReg d.tr k, data := data } b =
      State.runMultiple m
        { d with
          addr := seqAddr d.addr (k + 1), tr := seqReg d.tr (k + 1)
          data := if d.isLoad then data else t.readReg .A (seqReg d.tr (k + 1)) } b
        { t with clock := c, env := t.envAfterGaps 1 } := by
  have hfr := h.frame
  have hcps : ∀ i, i ≠ 15 → t.cps.getLsbD i = s.cps.getLsbD i := by
    intro i hi
    rw [h.cps]
    split
    · rw [putBit_ca _ _ _ hi]
    · rfl
  have hpins : t.pins = s.pins := by rw [hfr]
  have hwarn : t.warnPending = s.warnPending := by rw [hfr]
  obtain ⟨q1, q2, q3⟩ := hc.calm (by omega)
  have hcut : t.Uncut 1 := by
    refine ⟨fun e he => ?_, fun e he => ?_, fun _ => ⟨hwarn.trans q1, by rw [hpins]; exact q2, ?_⟩⟩
    · rw [h.env] at he
      have he : e ∈ (s.env.events.drop k).take 1 := he
      rw [List.take_drop] at he
      rw [hpins]
      exact hc.events e (List.mem_of_mem_drop he)
    · rw [h.env] at he
      have he : e ∈ (s.env.cycles.drop k).take 1 := he
      rw [List.take_drop] at he
      exact hc.cycles e (List.mem_of_mem_drop he)
    · rw [← q3]
      exact asyncEvent_congr (s := { s with chc := 0#32 }) (t := { t with chc := 0#32 }) hcps h.derr hpins (by rw [hfr])
        (by simp) (by simp)
  obtain ⟨hnp, c, hb⟩ := between_uncut (k := 0) hcut
  have hnext : seqReg d.tr (k + 1) = nextReg (seqReg d.tr k) := by
    have := seqReg_next (seqReg d.tr k) 0
    rw [seqReg] at this
    rw [this]
    rfl
  have hprot : t.isProtected (nextReg (seqReg d.tr k)) = false := by
    rw [isProtected_congr (hcps 4 (by decide)) (by rw [hfr]) (by rw [hfr]), ← hnext]
    exact hp
  have hreset : t.nextPins.reset = false := by rw [hnp, hpins]; exact q2
  have hev : (if b then ({ t with clock := c, env := t.envAfterGaps 1 } : State).asyncEvent else none) = none := by
    split
    · rw [← q3]
      exact asyncEvent_congr (s := { s with chc := 0#32 }) (t := { t with clock := c, env := t.envAfterGaps 1 }) hcps h.derr
        hpins (by rw [hfr]) h.tf (by simp)
    · rfl
  refine ⟨c, ?_⟩
  have hadd : seqAddr d.addr k + 4#32 = seqAddr d.addr (k + 1) := by
    rw [seqAddr, seqAddr]
    apply BitVec.eq_of_toNat_eq
    simp only [BitVec.toNat_add, BitVec.toNat_ofNat]
    omega
  unfold State.sequenceGap State.nextAccess
  simp only [hprot, hreset, hb, hev, Bool.false_eq_true, if_false, hadd, hnext]
  rw [if_neg]
  rw [hwarn, q1]
  decide

/-- A sequence that nothing cuts in its first `k` gaps, and whose first `k` transfers do not trap, comes to its transfer `k`
(44 R386). -/
theorem runMultiple_reach (b : Bool) (k n : Nat) (s : State) (d : Access) (pa : Nat → Word) (hk : k ≤ n)
    (hu : d.user = s.asUser d.ctl) (hset : d.set = false) (hdis : d.discard = false) (hf : s.frozen = false)
    (hans : s.env.answers = []) (hc : s.Uncut k) (hg : ∀ j < k, ∃ tlb, s.Goes d.ctl d.want (seqAddr d.addr j) (pa j) tlb)
    (hp : ∀ j ≤ k, 1 ≤ j → s.isProtected (seqReg d.tr j) = false) :
    (k = 0 ∧ s.runMultiple n d b = s.runMultiple (n - k) d b) ∨
      ∃ t w data c, 0 < k ∧ SeqPart s t d (k - 1) pa w ∧
        s.runMultiple n d b =
          State.runMultiple (n - k)
            { d with
              addr := seqAddr d.addr k, tr := seqReg d.tr k, data := if d.isLoad then data else t.readReg .A (seqReg d.tr k) } b
            { t with clock := c, env := t.envAfterGaps 1 } := by
  cases k with
  | zero => exact .inl ⟨rfl, rfl⟩
  | succ j =>
    have hc' : s.Uncut j :=
      ⟨fun e he => hc.events e (List.take_subset_take_left _ (by omega) he),
        fun e he => hc.cycles e (List.take_subset_take_left _ (by omega) he), fun _ => hc.calm (by omega)⟩
    obtain ⟨t, w, data, h1, h2, -⟩ := runMultiple_prefix b j n s d pa (by omega) hu hset hdis hf hans hc'
      (fun i hi => hg i (by omega)) (fun i hi h1 => hp i (by omega) h1)
    obtain ⟨c, h3⟩ := sequenceGap_uncut h2 hc (hp (j + 1) (by omega) (by omega)) (n - 1 - j) data b
    refine .inr ⟨t, w, data, c, by omega, h2, ?_⟩
    rw [h1, h3, show n - (j + 1) = n - 1 - j by omega]

/-- Completing the access in flight leaves the status. -/
theorem drain_same (s : State) : s.drain.testing = s.testing ∧ s.drain.cps = s.cps ∧ s.drain.mmu = s.mmu ∧ s.drain.rbp = s.rbp ∧
   s.drain.inflight = none := by
  unfold State.drain
  cases hi : s.inflight with
  | none => exact ⟨rfl, rfl, rfl, rfl, hi⟩
  | some d => exact ⟨by simp, by simp, by simp, by simp, by simp⟩

/-- A multiple sequence that may begin is run (44 R386). -/
theorem mult_start {s : State} {ctl : BitVec 8} {ra : RegNum} {rb : Src2} (isLoad : Bool) (h : s.MaySequence ctl ra rb) :
    s.loadStoreMultiple isLoad ctl ra rb =
      (s.drain.runMultiple s.drain.countRemaining.toNat (s.drain.descriptor isLoad false false ctl (s.absReg .A ra)
        (s.drain.srcValue (s.resolve rb)) (if isLoad then 0#32 else s.drain.readReg .A (s.absReg .A ra))) true).result State.retire := by
  obtain ⟨⟨h1, h2, h3, h4, h5⟩, h6, h7, h8⟩ := h
  have hz : s.fz = false := h7
  have hf : s.accessForbidden ctl (s.absReg .A ra) (s.resolve rb) = false := by
    unfold State.accessForbidden ctlCE ctlPA
    rw [h2, h3]
    rcases h1 with h | h | h <;> simp [h, -BitVec.getLsbD_eq_getElem]
  have hm : s.multipleByMove = false := by
    unfold State.multipleByMove chcML
    rcases h4 with h | h | h <;> simp [h, -BitVec.getLsbD_eq_getElem]
  unfold State.loadStoreMultiple
  simp only [h6, hz, hf, h8, hm, Bool.false_eq_true, if_false]
  unfold State.finishAccess
  rw [h5]

theorem count_eq (s : State) : s.countRemaining.toNat = s.chc.toNat / 2 ^ 16 % 2 ^ 8 := by
  unfold State.countRemaining chcCR
  rw [BitVec.extractLsb'_toNat, Nat.shiftRight_eq_div_pow]

/-- What is left once the instruction of a completed sequence has ended. -/
theorem seq_result {s t : State} {d : Access} {n : Nat} {pa w : Nat → Word} (h : SeqDone s t d n pa w) (last : Word)
    (hl : d.isLoad = false → w n = last) :
    SequenceEnds s { t.retire with afterMultiple := true } d.ctl d.isLoad d.tr d.addr n last ∧
      StatusAfterAccess s { t.retire with afterMultiple := true } d.ctl d.isLoad ∧
      PcAdvances s { t.retire with afterMultiple := true } := by
  have hf := h.frame
  refine ⟨?_, ?_, ?_⟩
  · constructor
    · simpa using h.cha
    · intro hx
      rw [← hl hx]
      simpa using h.chd hx
    · simpa using h.chc
    · intro i
      simpa [-BitVec.getLsbD_eq_getElem] using h.alu i
    · have := h.lru
      constructor <;> simp [this] <;> rw [hf]
    · refine ⟨?_, ?_, ?_⟩ <;> simp <;> rw [hf]
    · simp; rw [hf]
    · simp; rw [hf]
    · intro k i hk
      have := h.tlb k i hk
      simpa [State.tlbReg] using this
    · intro hx
      simpa using h.untranslated hx
    · simpa using h.inflight
    · intro hx
      simpa using h.shadow hx
  · intro i
    have hc := h.cps
    have : ({ t.retire with afterMultiple := true } : State).cps = t.traceCopy.cps := by simp
    rw [this, State.traceCopy_cps, hc]
    unfold cpsTP cpsTE
    by_cases h7 : d.ctl.getLsbD 7 = true <;> by_cases h5 : d.ctl.getLsbD 5 = true <;>
      (simp only [h7, h5, Bool.and_true, Bool.and_false, Bool.false_eq_true, if_true, if_false, and_false, and_true]
       try
         rw [getLsbD_putBit _ _ _ _ (by decide), getLsbD_putBit _ _ _ _ (by decide)]
         unfold cpsCA
         split_ifs <;> simp_all)
  · have := retire_pcAdvances (s := s) (u := t) (by rw [hf]) (by rw [hf]) (by rw [hf]) (by rw [hf])
    exact this

end Sys2Proof.Machine
end

