-- ==== Sys2Proof/Laws/Legal.lean ====
section
/-! SUPPORT. What every shared operation keeps of a legal state. -/

namespace Sys2Proof.Machine

/-- The part of `State.Legal` about memory, the reserved bits of registers and the times of hidden copies. -/
structure Reserved (s : State) : Prop where
  idm : Memory.wf s.idm = true
  rom : Memory.wf s.rom = true
  vab : s.vab &&& 0x0000FFFF#32 = 0#32
  ops : s.ops &&& 0xFFFF0000#32 = 0#32
  cps : s.cps &&& 0xFFFF4000#32 = 0#32
  cfg : s.cfg &&& 0xFFFFFFE0#32 = 0#32
  chc : s.chc &&& 0x00000800#32 = 0#32
  rbp : s.rbp &&& 0xFFFF0000#32 = 0#32
  tmc : s.tmc &&& 0xFF000000#32 = 0#32
  tmr : s.tmr &&& 0xF8000000#32 = 0#32
  pc0 : s.pc0 &&& 0x00000003#32 = 0#32
  pc1 : s.pc1 &&& 0x00000003#32 = 0#32
  pc2 : s.pc2 &&& 0x00000003#32 = 0#32
  mmuNow : s.mmu.now &&& 0xFFFFFC00#32 = 0#32
  mmuOld : s.mmu.old &&& 0xFFFFFC00#32 = 0#32
  lru : s.lru &&& 0xFFFFFF81#32 = 0#32
  alu : s.alu &&& 0xFFFFF000#32 = 0#32
  tlb : ∀ n : BitVec 7, s.readTlb n &&& ~~~tlbMask n = 0#32
  oldWords : ∀ o ∈ s.oldWords, o.time ≤ s.clock
  oldMaps : ∀ m ∈ s.oldMaps, m.time ≤ s.clock

theorem State.Legal.reserved {s : State} (h : s.Legal) : Reserved s :=
  ⟨h.idm, h.rom, h.vab, h.ops, h.cps, h.cfg, h.chc, h.rbp, h.tmc, h.tmr, h.pc0, h.pc1, h.pc2, h.mmuNow, h.mmuOld, h.lru, h.alu,
    h.tlb, h.oldWords, h.oldMaps⟩

/-- A bit outside a mask of reserved bits may be replaced. -/
theorem putBit_mask {w m : Word} {i : Nat} (hi : i < 32) (h : w &&& m = 0#32) (hm : m.getLsbD i = false) (b : Bool) :
    putBit w i b &&& m = 0#32 := by
  apply BitVec.eq_of_getLsbD_eq
  intro j hj
  have hj0 : (w &&& m).getLsbD j = false := by rw [h]; simp
  rw [BitVec.getLsbD_and] at hj0 ⊢
  rw [getLsbD_putBit _ _ _ _ hi]
  by_cases hji : j = i
  · subst hji
    rw [hm]
    simp
  · rw [if_neg hji, hj0]
    simp

/-- Bits cleared by one mask and asked to be 0 by another. -/
theorem and_mask {w a m : Word} (h : a &&& m = 0#32) : w &&& a &&& m = 0#32 := by
  rw [BitVec.and_assoc, h]
  simp

theorem and_mask' {w a m : Word} (h : w &&& m = 0#32) : w &&& a &&& m = 0#32 := by
  rw [BitVec.and_comm w a]
  exact and_mask h

theorem or_mask {a b m : Word} (ha : a &&& m = 0#32) (hb : b &&& m = 0#32) : (a ||| b) &&& m = 0#32 := by
  apply BitVec.eq_of_getLsbD_eq
  intro i _
  have h1 : (a &&& m).getLsbD i = false := by rw [ha]; simp
  have h2 : (b &&& m).getLsbD i = false := by rw [hb]; simp
  rw [BitVec.getLsbD_and] at h1 h2
  rw [BitVec.getLsbD_and, BitVec.getLsbD_or, Bool.and_or_distrib_right, h1, h2]
  simp

theorem putField_mask {w m : Word} {i n : Nat} {v : BitVec n} (hin : i + n ≤ 32) (h : w &&& m = 0#32)
    (hm : ∀ k, i ≤ k → k < i + n → m.getLsbD k = false) : putField w i v &&& m = 0#32 := by
  apply BitVec.eq_of_getLsbD_eq
  intro j hj
  have hj0 : (w &&& m).getLsbD j = false := by rw [h]; simp
  rw [BitVec.getLsbD_and] at hj0 ⊢
  rw [getLsbD_putField _ _ _ hin]
  split
  · next hh => rw [hm j hh.1 hh.2]; simp
  · rw [hj0]; simp

/-- Nothing that `Reserved` looks at differs. -/
theorem Reserved.congr {s t : State} (h : Reserved s) (idm : t.idm = s.idm) (rom : t.rom = s.rom) (vab : t.vab = s.vab)
    (ops : t.ops = s.ops) (cps : t.cps = s.cps) (cfg : t.cfg = s.cfg) (chc : t.chc = s.chc) (rbp : t.rbp = s.rbp)
    (tmc : t.tmc = s.tmc) (tmr : t.tmr = s.tmr) (pc0 : t.pc0 = s.pc0) (pc1 : t.pc1 = s.pc1) (pc2 : t.pc2 = s.pc2)
    (mmu : t.mmu.now = s.mmu.now ∧ t.mmu.old = s.mmu.old) (lru : t.lru = s.lru) (alu : t.alu = s.alu)
    (tlb : t.tlb = s.tlb) (past : t.oldWords = s.oldWords ∧ t.oldMaps = s.oldMaps ∧ t.clock = s.clock) : Reserved t := by
  obtain ⟨h1, h2, h3, h4, h5, h6, h7, h8, h9, h10, h11, h12, h13, h14, h15, h16, h17, h18, h19, h20⟩ := h
  obtain ⟨p1, p2, p3⟩ := past
  constructor
  all_goals first
    | (rw [p1, p3]; exact h19) | (rw [p2, p3]; exact h20)
    | (rw [idm]; assumption) | (rw [rom]; assumption) | (rw [vab]; assumption) | (rw [ops]; assumption)
    | (rw [cps]; assumption) | (rw [cfg]; assumption) | (rw [chc]; assumption) | (rw [rbp]; assumption)
    | (rw [tmc]; assumption) | (rw [tmr]; assumption) | (rw [pc0]; assumption) | (rw [pc1]; assumption)
    | (rw [pc2]; assumption) | (rw [mmu.1]; assumption) | (rw [mmu.2]; assumption) | (rw [lru]; assumption)
    | (rw [alu]; assumption) | skip
  intro n
  have := h18 n
  unfold State.readTlb at this ⊢
  rw [tlb]
  exact this


/-- `Reserved` through operations on a state. -/
theorem Reserved.storeReg {s : State} (h : Reserved s) (sh : Bool) (a : RegNum) (v : Word) : Reserved (s.storeReg sh a v) := by
  unfold State.storeReg
  split <;> [skip; split] <;> exact h.congr rfl rfl rfl rfl rfl rfl rfl rfl rfl rfl rfl rfl rfl ⟨rfl, rfl⟩ rfl rfl rfl ⟨rfl, rfl, rfl⟩

theorem Reserved.noteOverwrite {s : State} (h : Reserved s) (a : RegNum) : Reserved (s.noteOverwrite a) := by
  unfold State.noteOverwrite
  split
  · exact h
  · split
    · cases hf : s.frozen
      · exact { h with chc := putBit_mask (by decide) h.chc (by decide) true }
      · exact { h with }
    · exact h

theorem Reserved.writeReg {s : State} (h : Reserved s) (sh : Bool) (a : RegNum) (v : Word) : Reserved (s.writeReg sh a v) :=
  (h.noteOverwrite a).storeReg sh a v

theorem Reserved.withAlu {s : State} (h : Reserved s) {w : Word} (hw : w &&& 0xFFFFF000#32 = 0#32) :
    Reserved { s with alu := w } := { h with alu := hw }

theorem withVNZC_mask {w : Word} (h : w &&& 0xFFFFF000#32 = 0#32) (v n z c : Bool) :
    withVNZC w v n z c &&& 0xFFFFF000#32 = 0#32 :=
  putBit_mask (by decide)
    (putBit_mask (by decide) (putBit_mask (by decide) (putBit_mask (by decide) h (by decide) v) (by decide) n) (by decide) z)
    (by decide) c

theorem Reserved.setVNZC {s : State} (h : Reserved s) (sum : Sum) (w : Word) : Reserved (s.setVNZC sum w) := by
  unfold State.setVNZC
  split
  · exact h
  · exact h.withAlu (withVNZC_mask h.alu _ _ _ _)

theorem Reserved.setNZ {s : State} (h : Reserved s) (w : Word) : Reserved (s.setNZ w) := by
  unfold State.setNZ
  split
  · exact h
  · exact h.withAlu (putBit_mask (by decide) (putBit_mask (by decide) h.alu (by decide) _) (by decide) _)

theorem Reserved.setDivideFlag {s : State} (h : Reserved s) (b : Bool) : Reserved (s.setDivideFlag b) := by
  unfold State.setDivideFlag
  split
  · exact h
  · exact h.withAlu (putBit_mask (by decide) h.alu (by decide) _)

theorem bp_mask {w : Word} (h : w &&& 0xFFFFF000#32 = 0#32) (v : BitVec 2) : putField w aluBP v &&& 0xFFFFF000#32 = 0#32 :=
  putField_mask (by decide) h (by
    intro k h1 h2
    have : k = 5 ∨ k = 6 := by simp only [aluBP] at h1 h2; omega
    rcases this with rfl | rfl <;> decide)

theorem fc_mask {w : Word} (h : w &&& 0xFFFFF000#32 = 0#32) (v : BitVec 5) : putField w aluFC v &&& 0xFFFFF000#32 = 0#32 :=
  putField_mask (by decide) h (by
    intro k h1 h2
    simp only [aluFC] at h1 h2
    interval_cases k <;> decide)

theorem cr_mask {w : Word} (h : w &&& 0x00000800#32 = 0#32) (v : BitVec 8) : putField w chcCR v &&& 0x00000800#32 = 0#32 :=
  putField_mask (by decide) h (by
    intro k h1 h2
    simp only [chcCR] at h1 h2
    interval_cases k <;> decide)

theorem Reserved.setBytePointer {s : State} (h : Reserved s) (v : BitVec 2) : Reserved (s.setBytePointer v) := by
  unfold State.setBytePointer
  split
  · exact h
  · exact h.withAlu (bp_mask h.alu _)

theorem Reserved.setBp {s : State} (h : Reserved s) (d : Access) : Reserved (s.setBp d) := by
  unfold State.setBp
  split
  · exact h.setBytePointer _
  · exact h

theorem Reserved.setPointers {s : State} (h : Reserved s) (a b c : RegNum) : Reserved (s.setPointers a b c) := { h with }

theorem channelControl_mask (d : Access) (ml : Bool) (cr : BitVec 8) : channelControl d ml cr &&& 0x00000800#32 = 0#32 := by
  apply BitVec.eq_of_getLsbD_eq
  intro i hi
  rw [BitVec.getLsbD_and]
  by_cases h : i = 11
  · subst h
    simp only [channelControl, BitVec.getLsbD_append]
    simp
  · have : (0x00000800#32 : Word).getLsbD i = false := by
      interval_cases i <;> first | decide | exact absurd rfl h
    rw [this]
    simp

theorem Reserved.record {s : State} (h : Reserved s) (d : Access) (ml : Bool) (cr : BitVec 8) : Reserved (s.record d ml cr) := by
  unfold State.record
  split
  · exact h
  · exact { h with chc := channelControl_mask d ml cr }

theorem Reserved.coprocessorActive {s : State} (h : Reserved s) (d : Access) : Reserved (s.coprocessorActive d) := by
  unfold State.coprocessorActive
  split
  · exact { h with cps := putBit_mask (by decide) h.cps (by decide) _ }
  · exact h


theorem Reserved.setTlb {s : State} (h : Reserved s) (m : BitVec 7) {v : Word} (hv : v &&& ~~~tlbMask m = 0#32) :
    Reserved { s with tlb := s.tlb.setIfInBounds m.toNat v } := by
  refine { h with tlb := ?_ }
  intro n
  have hn := h.tlb n
  unfold State.readTlb at hn ⊢
  simp only [Vector.getElem?_setIfInBounds]
  by_cases hmn : m.toNat = n.toNat
  · have : m = n := BitVec.eq_of_toNat_eq hmn
    subst this
    rw [if_pos rfl, if_pos m.isLt]
    exact hv
  · rw [if_neg hmn]
    exact hn

theorem tlbIndex_odd (set1 : Bool) (line : BitVec 5) : (tlbIndex set1 line true).getLsbD 0 = true := by
  simp only [tlbIndex, BitVec.getLsbD_append]
  rfl

theorem usage_mask (s : State) (h : Reserved s) (m : BitVec 7) (hm : m.getLsbD 0 = true) (b : Bool) :
    putBit (s.readTlb m) tlbU b &&& ~~~tlbMask m = 0#32 := by
  refine putBit_mask (by decide) (h.tlb m) ?_ b
  rw [tlbMask, hm]
  decide

theorem Reserved.touchLine {s : State} (h : Reserved s) (line : BitVec 5) (set1 : Bool) : Reserved (s.touchLine line set1) :=
  (h.setTlb (tlbIndex false line true) (usage_mask s h _ (tlbIndex_odd _ _) _)).setTlb (tlbIndex true line true)
    (usage_mask s h _ (tlbIndex_odd _ _) _)

/-- The state a translation gives, whatever its result. -/
def Translated.state (x : Translated) : State :=
  match x with
  | .ok _ _ s => s
  | .miss s => s
  | .prot s => s

theorem Reserved.translate {s : State} (h : Reserved s) (va : Word) (want : Want) (user : Bool) :
    Reserved (s.translate va want user).state := by
  unfold State.translate
  simp only
  split
  · refine { h with lru := ?_ }
    show 0#25 ++ bitOf _ ++ tlbLine _ _ ++ 0#1 &&& 0xFFFFFF81#32 = 0#32
    apply BitVec.eq_of_getLsbD_eq
    intro i hi
    rw [BitVec.getLsbD_and]
    by_cases hm : (0xFFFFFF81#32 : Word).getLsbD i = true
    · have : i = 0 ∨ 7 ≤ i := by
        by_contra hc
        have h1 : 1 ≤ i := by omega
        have h2 : i < 7 := by omega
        interval_cases i <;> revert hm <;> decide
      rw [hm]
      rcases this with rfl | h7
      · simp only [BitVec.getLsbD_append]
        rfl
      · simp only [BitVec.getLsbD_append]
        simp [show ¬i = 0 by omega, show ¬i - 1 < 5 by omega, show ¬i - 1 - 5 < 1 by omega]
    · rw [Bool.not_eq_true] at hm
      rw [hm]
      simp
  · split
    · exact h.touchLine _ _
    · exact { h.touchLine _ _ with lru := and_mask (by decide) }

/-- The clock moves on. -/
theorem Reserved.tick {s : State} (h : Reserved s) : Reserved { s with clock := s.clock + 1 } :=
  { h with
    oldWords := fun o ho => Nat.le_succ_of_le (h.oldWords o ho)
    oldMaps := fun m hm => Nat.le_succ_of_le (h.oldMaps m hm) }

theorem Reserved.writeIdm {s : State} (h : Reserved s) (a : IAddr) (v : Word) : Reserved (s.writeIdm a v) := by
  refine { h with idm := Memory.wf_writeWord h.idm a v, oldWords := ?_ }
  unfold State.writeIdm
  simp only
  split
  · exact h.oldWords
  · intro o ho
    rcases List.mem_cons.mp ho with rfl | ho
    · exact Nat.le_refl _
    · exact h.oldWords o ho

theorem Reserved.busWrite {s : State} (h : Reserved s) (d : Access) (v : Word) : Reserved (s.busWrite d v) := by
  unfold State.busWrite
  split
  · exact h.writeIdm _ _
  · exact h
  · exact h
  · exact h

theorem Reserved.transfer {s : State} (h : Reserved s) (d : Access) : Reserved (s.transfer d) := by
  unfold State.transfer
  split
  · simp only
    split <;> split <;> first | exact h | exact h.busWrite _ _ | exact h.storeReg _ _ _ | exact (h.busWrite _ _).storeReg _ _ _
  · exact h.busWrite _ _

theorem Reserved.withChc {s : State} (h : Reserved s) {w : Word} (hw : w &&& 0x00000800#32 = 0#32) :
    Reserved { s with chc := w } := { h with chc := hw }

theorem Reserved.clearCv {s : State} (h : Reserved s) : Reserved s.clearCv := by
  unfold State.clearCv
  split
  · exact h
  · exact h.withChc (putBit_mask (by decide) h.chc (by decide) _)

theorem Reserved.failAccess {s : State} (h : Reserved s) (d : Access) : Reserved (s.failAccess d) := by
  unfold State.failAccess
  split
  · exact { h with }
  · exact h.withChc (putBit_mask (by decide) h.chc (by decide) _)

theorem Reserved.endAccess {s : State} (h : Reserved s) (d : Access) : Reserved (s.endAccess d) := { h.tick with }

theorem Reserved.complete {s : State} (h : Reserved s) (d : Access) : Reserved (s.complete d) := by
  unfold State.complete
  split
  · exact (h.endAccess d).failAccess d
  · exact ((h.endAccess d).transfer d).clearCv

theorem Reserved.drain {s : State} (h : Reserved s) : Reserved s.drain := by
  unfold State.drain
  split
  · exact h
  · exact h.complete _

theorem Reserved.settle {s : State} (h : Reserved s) : Reserved s.settle := by
  unfold State.settle
  split
  · exact h
  · exact h.drain

theorem Reserved.hold {s : State} (h : Reserved s) : Reserved s.hold := { h with }

theorem Reserved.abandon {s : State} (h : Reserved s) : Reserved s.abandon := by
  unfold State.abandon
  split
  · exact h
  · exact { h with }

theorem Reserved.startAccess {s : State} (h : Reserved s) (d : Access) : Reserved (s.startAccess d) := by
  unfold State.startAccess
  split
  · exact Reserved.settle { h with }
  · exact { h with }

theorem Reserved.accessTick {s : State} (h : Reserved s) : Reserved s.accessTick := by
  unfold State.accessTick
  split
  · exact h
  · split
    · exact h.settle
    · exact { h with }

/-- The state an issue gives, whatever its result. -/
def Issued.state (x : Issued) : State :=
  match x with
  | .ok _ s => s
  | .trap _ s => s

theorem Reserved.issueAligned {s : State} (h : Reserved s) (d : Access) : Reserved (s.issueAligned d).state := by
  unfold State.issueAligned
  split <;> exact h

theorem Reserved.issue {s : State} (h : Reserved s) (d : Access) (ml : Bool) (cr : BitVec 8) :
    Reserved (s.issue d ml cr).state := by
  have h1 := (h.record d ml cr).setBp d
  unfold State.issue
  simp only
  split
  · split
    · exact h1.coprocessorActive d
    · exact h1
  · split
    · have h2 := h1.translate d.addr d.want d.user
      generalize ((s.record d ml cr).setBp d).translate d.addr d.want d.user = x at h2
      cases x with
      | miss s2 => exact h2
      | prot s2 => exact h2
      | ok pa pgm s2 => exact Reserved.issueAligned h2 _
    · exact h1.issueAligned _


theorem Reserved.withCps {s : State} (h : Reserved s) {w : Word} (hw : w &&& 0xFFFF4000#32 = 0#32) :
    Reserved { s with cps := w } := { h with cps := hw }

theorem Reserved.traceCopy {s : State} (h : Reserved s) : Reserved s.traceCopy :=
  h.withCps (putBit_mask (by decide) h.cps (by decide) _)

theorem Reserved.traceKeep {s : State} (h : Reserved s) : Reserved s.traceKeep :=
  h.withCps (putBit_mask (by decide) h.cps (by decide) _)

theorem Reserved.advanceTo {s : State} (h : Reserved s) (x : IAddr) (turn : Option Nat) :
    Reserved (s.advanceTo x turn) := by
  unfold State.advanceTo
  split
  · exact h
  · exact { h with }

theorem Reserved.ageEffects {s : State} (h : Reserved s) : Reserved s.ageEffects := { h with }

theorem Reserved.settleEffects {s : State} (h : Reserved s) : Reserved s.settleEffects := { h with }

theorem Reserved.advance {s : State} (h : Reserved s) : Reserved s.advance := { h.ageEffects.advanceTo _ _ with }

theorem Reserved.retire {s : State} (h : Reserved s) : Reserved s.retire := h.traceCopy.advance

theorem Reserved.turnHere {s : State} (h : Reserved s) : Reserved s.turnHere := { h with }

theorem Reserved.windowTarget {s : State} (h : Reserved s) : Reserved s.windowTarget := by
  unfold State.windowTarget
  split
  · exact { h with }
  · exact h

theorem Reserved.pendingInvalidate {s : State} (h : Reserved s) : Reserved s.pendingInvalidate := by
  unfold State.pendingInvalidate
  split
  · exact { h with }
  · exact h

theorem Reserved.endStream {s : State} (h : Reserved s) : Reserved s.endStream := { h with }

theorem Reserved.branchTo {s : State} (h : Reserved s) (x : IAddr) : Reserved (s.branchTo x) :=
  { (h.traceCopy.windowTarget.pendingInvalidate.endStream.ageEffects.advanceTo x _) with }

theorem byteAddr_mask (a : IAddr) : byteAddr a &&& 0x00000003#32 = 0#32 := by
  apply BitVec.eq_of_getLsbD_eq
  intro i hi
  rw [BitVec.getLsbD_and, byteAddr]
  by_cases h : i < 2
  · simp only [BitVec.getLsbD_append]
    simp [h]
  · have : (0x00000003#32 : Word).getLsbD i = false := by
      interval_cases i <;> first | exact absurd (by decide) h | decide
    rw [this]
    simp

theorem Reserved.capturePcs {s : State} (h : Reserved s) : Reserved s.capturePcs := by
  refine { h with pc0 := ?_, pc1 := ?_, pc2 := ?_ }
  · show s.pc0View &&& _ = _
    unfold State.pc0View
    split
    · exact h.pc0
    · exact byteAddr_mask _
  · show s.pc1View &&& _ = _
    unfold State.pc1View
    split
    · exact h.pc1
    · exact byteAddr_mask _
  · show s.pc2View &&& _ = _
    unfold State.pc2View
    split
    · exact h.pc2
    · exact byteAddr_mask _

/-- Bit `IP` cleared, and the bits above 15 already 0. -/
theorem ip_mask {c : Word} (hc : c &&& 0xFFFF0000#32 = 0#32) : putBit c cpsIP false &&& 0xFFFF4000#32 = 0#32 := by
  apply BitVec.eq_of_getLsbD_eq
  intro i hi
  have h0 : (c &&& 0xFFFF0000#32).getLsbD i = false := by rw [hc]; simp
  rw [BitVec.getLsbD_and] at h0 ⊢
  rw [getLsbD_putBit _ _ _ _ (by decide)]
  by_cases h : i = cpsIP
  · rw [if_pos h]
    simp
  · rw [if_neg h]
    have hm : (0xFFFF4000#32 : Word).getLsbD i = (0xFFFF0000#32 : Word).getLsbD i := by
      have h14 : i ≠ 14 := h
      interval_cases i <;> first | decide | exact absurd rfl h14
    rw [hm, h0]
    simp

theorem high_mask {c : Word} (h : c &&& 0xFFFF4000#32 = 0#32) : c &&& 0xFFFF0000#32 = 0#32 := by
  have : (0xFFFF0000#32 : Word) = 0xFFFF4000#32 &&& 0xFFFF0000#32 := by decide
  rw [this, ← BitVec.and_assoc, h]
  simp

theorem Reserved.rememberMap {s : State} (h : Reserved s) : Reserved s.rememberMap := by
  refine { h with oldMaps := ?_ }
  intro m hm
  rcases List.mem_cons.mp hm with rfl | hm
  · exact Nat.le_refl _
  · exact h.oldMaps m hm

theorem Reserved.setCps {s : State} (h : Reserved s) {c : Word} (hc : c &&& 0xFFFF0000#32 = 0#32) : Reserved (s.setCps c) := by
  unfold State.setCps
  simp only
  split
  · exact h.withCps (ip_mask hc)
  · exact h.rememberMap.withCps (ip_mask hc)

theorem cpsView_mask {s : State} (h : Reserved s) : s.cpsView &&& 0xFFFF0000#32 = 0#32 :=
  putBit_mask (by decide) (high_mask h.cps) (by decide) _

theorem Reserved.saveStatus {s : State} (h : Reserved s) : Reserved s.saveStatus := by
  refine { h.capturePcs.rememberMap with ops := cpsView_mask h, cps := ip_mask ?_ }
  exact or_mask (or_mask (and_mask' (high_mask h.cps)) (and_mask (by decide))) (by decide)

theorem Reserved.enterHandler {s : State} (h : Reserved s) (x : IAddr) (re : Bool) : Reserved (s.enterHandler x re) :=
  { h.settleEffects.turnHere with cps := putBit_mask (by decide) h.cps (by decide) _ }

/-- A result, if it is a next state, has a property. -/
def Result.All (P : State → Prop) (r : Result) : Prop := ∀ t, r = .next t → P t

theorem Result.all_next {P : State → Prop} {t : State} (h : P t) : Result.All P (.next t) := fun _ e => by cases e; exact h

theorem Result.all_fault {P : State → Prop} {f : Fault} : Result.All P (.fault f) := fun _ e => by cases e

theorem Result.all_refused {P : State → Prop} {x : Refusal} : Result.All P (.refused x) := fun _ e => by cases e

theorem Reserved.takeWarn {s : State} (h : Reserved s) : Reserved s.takeWarn := by
  have h1 : Reserved { s.capturePcs.abandon with ops := s.cpsView, derr := none } :=
    { h.capturePcs.abandon with ops := cpsView_mask h }
  exact { (h1.setCps (c := s.resetCps) (or_mask (and_mask (by decide)) (by decide))).settleEffects.turnHere with }

theorem timerCycles_mask (n : Nat) : ∀ tmc tmr : Word, tmc &&& 0xFF000000#32 = 0#32 → tmr &&& 0xF8000000#32 = 0#32 →
    (timerCycles n tmc tmr).1 &&& 0xFF000000#32 = 0#32 ∧ (timerCycles n tmc tmr).2 &&& 0xF8000000#32 = 0#32 := by
  induction n with
  | zero => exact fun _ _ h1 h2 => ⟨h1, h2⟩
  | succ k ih =>
    intro tmc tmr h1 h2
    refine ih _ _ ?_ ?_
    · unfold timerCycle
      split
      · exact and_mask (by decide)
      · next hz =>
        have hlt : tmc.toNat < 2 ^ 24 := by
          by_contra hc
          have := congrArg BitVec.toNat h1
          have hb := tmc.isLt
          rw [BitVec.toNat_and] at this
          have hx : tmc.toNat / 2 ^ 24 = 0 := by
            have h3 : (tmc >>> 24) = 0#32 := by
              apply BitVec.eq_of_getLsbD_eq
              intro i hi
              have h0 : (tmc &&& 0xFF000000#32).getLsbD (24 + i) = false := by rw [h1]; simp
              rw [BitVec.getLsbD_and] at h0
              rw [BitVec.getLsbD_ushiftRight]
              by_cases hi8 : i < 8
              · have : (0xFF000000#32 : Word).getLsbD (24 + i) = true := by interval_cases i <;> decide
                rw [this] at h0
                simpa using h0
              · simpa using BitVec.getLsbD_of_ge tmc (24 + i) (by omega)
            have := congrArg BitVec.toNat h3
            simpa [BitVec.toNat_ushiftRight, Nat.shiftRight_eq_div_pow] using this
          omega
        have hpos : 0 < tmc.toNat := by
          rcases Nat.eq_zero_or_pos tmc.toNat with h | h
          · exact absurd (BitVec.eq_of_toNat_eq h) hz
          · exact h
        have hsub : (tmc - 1#32).toNat < 2 ^ 24 := by
          rw [BitVec.toNat_sub]
          simp only [BitVec.toNat_ofNat]
          omega
        apply BitVec.eq_of_getLsbD_eq
        intro i hi
        show (tmc - 1#32 &&& 0xFF000000#32).getLsbD i = _
        rw [BitVec.getLsbD_and]
        by_cases h24 : i < 24
        · have : (0xFF000000#32 : Word).getLsbD i = false := by interval_cases i <;> decide
          rw [this]
          simp
        · have : (tmc - 1#32).getLsbD i = false := by
            rw [BitVec.getLsbD]
            exact Nat.testBit_lt_two_pow (Nat.lt_of_lt_of_le hsub (Nat.pow_le_pow_right (by decide) (by omega)))
          rw [this]
          simp
    · unfold timerCycle
      split
      · exact putBit_mask (by decide) (putBit_mask (by decide) h2 (by decide) _) (by decide) _
      · exact h2

theorem Reserved.timer {s : State} (h : Reserved s) (n : Nat) : Reserved (s.timer n) :=
  { h with tmc := (timerCycles_mask n _ _ h.tmc h.tmr).1, tmr := (timerCycles_mask n _ _ h.tmc h.tmr).2 }

theorem Reserved.stepCycles {s : State} (h : Reserved s) : Reserved s.stepCycles := { h.timer _ with }

theorem Reserved.samplePins {s : State} (h : Reserved s) : Reserved s.samplePins := { h.tick with }

theorem Reserved.writePc {s : State} (h : Reserved s) (n : Nat) {v : Word} (hv : v &&& 0x00000003#32 = 0#32) :
    Reserved (s.writePc n v) := by
  unfold State.writePc
  split
  · split
    · exact { h with pc0 := hv }
    · exact { h with pc1 := hv }
    · exact { h with pc2 := hv }
  · split
    · split <;> exact { h with }
    · exact h

theorem Reserved.writeSpecial {s : State} (h : Reserved s) (n : BitVec 8) (v : Word) : Reserved (s.writeSpecial n v) := by
  unfold State.writeSpecial
  split
  · exact { h with vab := and_mask (by decide) }
  · exact { h with ops := and_mask (by decide) }
  · simp only
    split
    · exact h.capturePcs.setCps (and_mask (by decide))
    · exact h.setCps (and_mask (by decide))
  · exact { h with cfg := and_mask (by decide) }
  · exact { h with }
  · exact { h with }
  · exact { h with chc := and_mask (by decide) }
  · exact { h with rbp := and_mask (by decide) }
  · exact { h with tmc := and_mask (by decide) }
  · exact { h with tmr := and_mask (by decide) }
  · exact h.writePc 0 (and_mask (by decide))
  · exact h.writePc 1 (and_mask (by decide))
  · exact h.writePc 2 (and_mask (by decide))
  · simp only
    split
    · exact { h with mmuNow := and_mask (by decide), mmuOld := h.mmuNow }
    · exact { h.rememberMap with mmuNow := and_mask (by decide), mmuOld := h.mmuNow }
  · exact { h with lru := and_mask (by decide) }
  · exact { h with }
  · exact { h with }
  · exact { h with }
  · exact { h with }
  · exact h.withAlu (and_mask (by decide))
  · exact h.withAlu (bp_mask h.alu _)
  · exact h.withAlu (fc_mask h.alu _)
  · exact h.withChc (cr_mask h.chc _)
  · exact h

theorem Reserved.writeTlb {s : State} (h : Reserved s) (n : BitVec 7) (v : Word) : Reserved (s.writeTlb n v) := by
  have hv : v &&& tlbMask n &&& ~~~tlbMask n = 0#32 := and_mask (by simp)
  unfold State.writeTlb
  simp only
  split
  · exact h.setTlb n hv
  · have h1 : Reserved s.rememberMap := h.rememberMap
    exact h1.setTlb n hv

/-- Every delayed effect lasts at most `n` instructions more. -/
structure Ages (n : Nat) (s : State) : Prop where
  sps : s.sps.age ≤ n
  mmu : s.mmu.age ≤ n
  ipa : s.ipa.age ≤ n
  ipb : s.ipb.age ≤ n
  ipc : s.ipc.age ≤ n
  psTarget : s.psTarget ≤ n + 1

/-- `t` comes from `s` within one instruction: reserved bits are 0, delayed effects are bounded, the mode is the same, unless
the processor waits without end. -/
structure Kept (n : Nat) (s t : State) : Prop where
  reserved : Reserved t
  ages : Ages n t
  testing : t.testing = s.testing
  mode : t.mode = s.mode ∨ t.mode = .held
  irValid : t.irValid = s.irValid

/-- `t` is at the end of an instruction that began in `s`. -/
structure Ends (s t : State) : Prop where
  reserved : Reserved t
  ages : Ages 1 t
  testing : t.testing = s.testing
  mode : ((t.mode = s.mode ∨ t.mode = .held) ∧ t.irValid = s.irValid) ∨ t.irValid = false

theorem State.Legal.kept {s : State} (h : s.Legal) : Kept 1 s s :=
  ⟨h.reserved, ⟨h.spsAge, h.mmuAge, h.ipaAge, h.ipbAge, h.ipcAge, h.psTarget⟩, rfl, .inl rfl, rfl⟩

theorem Kept.ends {s t : State} (h : Kept 1 s t) : Ends s t := ⟨h.reserved, h.ages, h.testing, .inl ⟨h.mode, h.irValid⟩⟩

theorem Ages.mono {s : State} (h : Ages 1 s) : Ages 2 s :=
  ⟨Nat.le_succ_of_le h.sps, Nat.le_succ_of_le h.mmu, Nat.le_succ_of_le h.ipa, Nat.le_succ_of_le h.ipb, Nat.le_succ_of_le h.ipc,
    Nat.le_succ_of_le h.psTarget⟩

theorem Kept.mono {s t : State} (h : Kept 1 s t) : Kept 2 s t := { h with ages := h.ages.mono }

/-- An operation that leaves the delayed effects and the mode alone. -/
theorem Kept.of {n : Nat} {s t u : State} (h : Kept n s t) (hr : Reserved u)
    (e : u.sps = t.sps ∧ u.mmu = t.mmu ∧ u.ipa = t.ipa ∧ u.ipb = t.ipb ∧ u.ipc = t.ipc ∧ u.psTarget = t.psTarget)
    (c : u.testing = t.testing ∧ u.mode = t.mode ∧ u.irValid = t.irValid) : Kept n s u := by
  obtain ⟨e1, e2, e3, e4, e5, e6⟩ := e
  refine ⟨hr, ⟨?_, ?_, ?_, ?_, ?_, ?_⟩, c.1.trans h.testing, by rw [c.2.1]; exact h.mode, c.2.2.trans h.irValid⟩
  · rw [e1]; exact h.ages.sps
  · rw [e2]; exact h.ages.mmu
  · rw [e3]; exact h.ages.ipa
  · rw [e4]; exact h.ages.ipb
  · rw [e5]; exact h.ages.ipc
  · rw [e6]; exact h.ages.psTarget

/-- The same, but for a completed load into the Stack Pointer, which makes its shadow not valid. -/
theorem Kept.of_settled {n : Nat} {s t u : State} (h : Kept n s t) (hr : Reserved u)
    (e : (u.sps = t.sps ∨ u.sps = .settled none) ∧ u.mmu = t.mmu ∧ u.ipa = t.ipa ∧ u.ipb = t.ipb ∧ u.ipc = t.ipc ∧
      u.psTarget = t.psTarget)
    (c : u.testing = t.testing ∧ u.mode = t.mode ∧ u.irValid = t.irValid) : Kept n s u := by
  obtain ⟨e1, e2, e3, e4, e5, e6⟩ := e
  refine ⟨hr, ⟨?_, ?_, ?_, ?_, ?_, ?_⟩, c.1.trans h.testing, by rw [c.2.1]; exact h.mode, c.2.2.trans h.irValid⟩
  · rcases e1 with e | e
    · rw [e]; exact h.ages.sps
    · rw [e]; exact Nat.zero_le _
  · rw [e2]; exact h.ages.mmu
  · rw [e3]; exact h.ages.ipa
  · rw [e4]; exact h.ages.ipb
  · rw [e5]; exact h.ages.ipc
  · rw [e6]; exact h.ages.psTarget

theorem storeReg_settled (s : State) (a : RegNum) (v : Word) :
    (s.storeReg false a v).sps = s.sps ∨ (s.storeReg false a v).sps = .settled none := by
  rw [State.storeReg_sps]
  split
  · exact .inr rfl
  · exact .inl rfl

theorem transfer_settled (s : State) (d : Access) :
    (s.transfer d).sps = s.sps ∨ (s.transfer d).sps = .settled none := by
  have hb : ∀ v, (s.busWrite d v).sps = s.sps := fun v => by simp
  unfold State.transfer
  cases d.isLoad
  · exact .inl (hb _)
  · cases d.set <;> cases d.discard
    · exact storeReg_settled s d.tr (s.busRead d)
    · exact .inl rfl
    · have := storeReg_settled (s.busWrite d 0xFFFFFFFF#32) d.tr (s.busRead d)
      rw [hb] at this
      exact this
    · exact .inl (hb _)

theorem complete_settled (s : State) (d : Access) :
    (s.complete d).sps = s.sps ∨ (s.complete d).sps = .settled none := by
  unfold State.complete
  split
  · exact .inl (by simp)
  · have := transfer_settled (s.endAccess d) d
    simpa using this

theorem Kept.complete {n : Nat} {s t : State} (h : Kept n s t) (d : Access) : Kept n s (t.complete d) :=
  h.of_settled (h.reserved.complete d) ⟨complete_settled t d, by simp, by simp, by simp, by simp, by simp⟩
    ⟨by simp, by simp, by simp⟩

theorem Kept.drain {n : Nat} {s t : State} (h : Kept n s t) : Kept n s t.drain := by
  unfold State.drain
  split
  · exact h
  · exact h.complete _

theorem Kept.settle {n : Nat} {s t : State} (h : Kept n s t) : Kept n s t.settle := by
  unfold State.settle
  split
  · exact h
  · exact h.drain

/-- The processor waits without end. -/
theorem Kept.hold {n : Nat} {s t : State} (h : Kept n s t) : Kept n s t.hold :=
  ⟨h.reserved.hold, ⟨h.ages.sps, h.ages.mmu, h.ages.ipa, h.ages.ipb, h.ages.ipc, h.ages.psTarget⟩, h.testing, .inr rfl,
    h.irValid⟩

theorem Kept.startAccess {n : Nat} {s t : State} (h : Kept n s t) (d : Access) : Kept n s (t.startAccess d) := by
  unfold State.startAccess
  split
  · exact Kept.settle (h.of { h.reserved with } ⟨rfl, rfl, rfl, rfl, rfl, rfl⟩ ⟨rfl, rfl, rfl⟩)
  · exact h.of { h.reserved with } ⟨rfl, rfl, rfl, rfl, rfl, rfl⟩ ⟨rfl, rfl, rfl⟩

theorem Kept.accessTick {n : Nat} {s t : State} (h : Kept n s t) : Kept n s t.accessTick := by
  unfold State.accessTick
  split
  · exact h
  · split
    · exact h.settle
    · exact h.of { h.reserved with } ⟨rfl, rfl, rfl, rfl, rfl, rfl⟩ ⟨rfl, rfl, rfl⟩

theorem Kept.touched {n : Nat} {s t u : State} (h : Kept n s t) (hr : Reserved u) (e : Touched t u) : Kept n s u := by
  unfold Touched at e
  refine h.of hr ⟨?_, ?_, ?_, ?_, ?_, ?_⟩ ⟨?_, ?_, ?_⟩ <;> rw [e]

theorem touched_translate (s : State) (va : Word) (want : Want) (user : Bool) : Touched s (s.translate va want user).state := by
  unfold State.translate
  simp only
  split
  · rfl
  · split <;> rfl

theorem touched_coprocessor (s : State) (d : Access) : Touched s (s.coprocessorActive d) := by
  unfold State.coprocessorActive
  split <;> rfl

theorem touched_aligned (s : State) (d : Access) : Touched s (s.issueAligned d).state := by
  unfold State.issueAligned
  split <;> rfl

theorem touched_issue (s : State) (d : Access) (ml : Bool) (cr : BitVec 8) : Touched s (s.issue d ml cr).state := by
  have h1 := (touched_record s d ml cr).trans (touched_setBp (s.record d ml cr) d)
  unfold State.issue
  simp only
  split
  · split
    · exact h1.trans (touched_coprocessor _ d)
    · exact h1
  · split
    · have h2 := touched_translate ((s.record d ml cr).setBp d) d.addr d.want d.user
      generalize ((s.record d ml cr).setBp d).translate d.addr d.want d.user = x at h2
      cases x with
      | miss s2 => exact h1.trans h2
      | prot s2 => exact h1.trans h2
      | ok pa pgm s2 => exact h1.trans (Touched.trans h2 (touched_aligned s2 _))
    · exact h1.trans (touched_aligned _ _)

theorem Kept.issue {n : Nat} {s t : State} (h : Kept n s t) (d : Access) (ml : Bool) (cr : BitVec 8) :
    Kept n s (t.issue d ml cr).state :=
  h.touched (h.reserved.issue d ml cr) (touched_issue t d ml cr)

theorem Kept.writeReg {s t : State} (h : Kept 1 s t) (sh : Bool) (a : RegNum) (v : Word) : Kept 2 s (t.writeReg sh a v) := by
  have h2 := h.mono
  refine ⟨h.reserved.writeReg sh a v, ⟨?_, ?_, ?_, ?_, ?_, ?_⟩, ?_, ?_, ?_⟩
  · rw [State.writeReg_sps]
    split
    · split
      · exact Nat.le_refl 2
      · exact Nat.zero_le 2
    · exact h2.ages.sps
  · simpa using h2.ages.mmu
  · simpa using h2.ages.ipa
  · simpa using h2.ages.ipb
  · simpa using h2.ages.ipc
  · simpa using h2.ages.psTarget
  · simpa using h.testing
  · simpa using h.mode
  · simpa using h.irValid

theorem Kept.aged {s t : State} (h : Kept 2 s t) (x : IAddr) (turn : Option Nat) :
    Kept 1 s { t.ageEffects.advanceTo x turn with afterMultiple := false } := by
  refine ⟨{ h.reserved.ageEffects.advanceTo x turn with }, ⟨?_, ?_, ?_, ?_, ?_, ?_⟩, ?_, ?_, ?_⟩
  · have e : (t.ageEffects.advanceTo x turn).sps.age = t.sps.age - 1 := by
      unfold State.advanceTo
      split <;> rfl
    have := h.ages.sps
    show (t.ageEffects.advanceTo x turn).sps.age ≤ 1
    omega
  · have e : (t.ageEffects.advanceTo x turn).mmu.age = t.mmu.age - 1 := by
      unfold State.advanceTo
      split <;> rfl
    have := h.ages.mmu
    show (t.ageEffects.advanceTo x turn).mmu.age ≤ 1
    omega
  · have e : (t.ageEffects.advanceTo x turn).ipa.age = t.ipa.age - 1 := by
      unfold State.advanceTo
      split <;> rfl
    have := h.ages.ipa
    show (t.ageEffects.advanceTo x turn).ipa.age ≤ 1
    omega
  · have e : (t.ageEffects.advanceTo x turn).ipb.age = t.ipb.age - 1 := by
      unfold State.advanceTo
      split <;> rfl
    have := h.ages.ipb
    show (t.ageEffects.advanceTo x turn).ipb.age ≤ 1
    omega
  · have e : (t.ageEffects.advanceTo x turn).ipc.age = t.ipc.age - 1 := by
      unfold State.advanceTo
      split <;> rfl
    have := h.ages.ipc
    show (t.ageEffects.advanceTo x turn).ipc.age ≤ 1
    omega
  · have e : (t.ageEffects.advanceTo x turn).psTarget = t.psTarget - 1 := by
      unfold State.advanceTo
      split <;> rfl
    have := h.ages.psTarget
    show (t.ageEffects.advanceTo x turn).psTarget ≤ 2
    omega
  · simpa using h.testing
  · simpa using h.mode
  · simpa using h.irValid

theorem Kept.advance {s t : State} (h : Kept 2 s t) : Kept 1 s t.advance := h.aged _ _

theorem Kept.retire {s t : State} (h : Kept 2 s t) : Kept 1 s t.retire :=
  Kept.advance (h.of h.reserved.traceCopy ⟨rfl, rfl, rfl, rfl, rfl, rfl⟩ ⟨rfl, rfl, rfl⟩)

theorem Kept.windowTarget {s t : State} (h : Kept 2 s t) : Kept 2 s t.windowTarget := by
  unfold State.windowTarget
  split
  · exact ⟨{ h.reserved with }, ⟨h.ages.sps, h.ages.mmu, h.ages.ipa, h.ages.ipb, h.ages.ipc,
      Nat.le_refl 3⟩, h.testing, h.mode, h.irValid⟩
  · exact h

theorem Kept.branchTo {s t : State} (h : Kept 2 s t) (x : IAddr) : Kept 1 s (t.branchTo x) := by
  have h1 : Kept 2 s t.traceCopy := h.of h.reserved.traceCopy ⟨rfl, rfl, rfl, rfl, rfl, rfl⟩ ⟨rfl, rfl, rfl⟩
  have h2 := h1.windowTarget
  have h3 : Kept 2 s t.traceCopy.windowTarget.pendingInvalidate.endStream :=
    h2.of h2.reserved.pendingInvalidate.endStream
      ⟨by simp, by simp, by simp, by simp, by simp, by simp⟩ ⟨by simp, by simp, by simp⟩
  exact h3.aged x _


theorem settled_ages (s : State) : Ages 1 s.settleEffects :=
  ⟨Nat.zero_le _, Nat.zero_le _, Nat.zero_le _, Nat.zero_le _, Nat.zero_le _, Nat.zero_le _⟩

theorem Kept.enterHandler {n : Nat} {s t : State} (h : Kept n s t) (x : IAddr) (re : Bool) : Kept 1 s (t.enterHandler x re) :=
  ⟨h.reserved.enterHandler x re, ⟨Nat.zero_le _, Nat.zero_le _, Nat.zero_le _, Nat.zero_le _, Nat.zero_le _, Nat.zero_le _⟩,
    h.testing, h.mode, h.irValid⟩

theorem Kept.saveStatus {n : Nat} {s t : State} (h : Kept n s t) : Kept n s t.saveStatus :=
  h.of h.reserved.saveStatus ⟨by simp, by simp, by simp, by simp, by simp, by simp⟩ ⟨by simp, by simp, by simp⟩

theorem Kept.enterTrap {s t : State} (h : Kept 1 s t) (vn : Byte) : Result.All (Kept 1 s) (t.enterTrap vn) := by
  unfold State.enterTrap
  split
  · have h1 : Kept 1 s ({ t.saveStatus with env := { t.env with answers := t.env.answers.drop 1 } } : State) :=
      h.saveStatus.of { h.reserved.saveStatus with } ⟨rfl, rfl, rfl, rfl, rfl, rfl⟩ ⟨rfl, rfl, rfl⟩
    simp only
    split
    · exact Result.all_next (h1.enterHandler _ _)
    · exact Result.all_fault
    · exact Result.all_next (Kept.hold h1)
  · exact Result.all_next (h.saveStatus.enterHandler _ _)

theorem Kept.noDerr {n : Nat} {s t : State} (h : Kept n s t) : Kept n s { t with derr := none } :=
  h.of { h.reserved with } ⟨rfl, rfl, rfl, rfl, rfl, rfl⟩ ⟨rfl, rfl, rfl⟩

theorem Kept.takeTrap {s t : State} (h : Kept 1 s t) (prio : Nat) (vn : Byte) :
    Result.All (Kept 1 s) (t.takeTrap prio vn) := by
  unfold State.takeTrap
  split
  · exact h.drain.enterTrap _
  · split
    · exact h.drain.noDerr.enterTrap _
    · exact h.drain.enterTrap _
  · exact Result.all_next h.hold

theorem Result.All.imp {P Q : State → Prop} {r : Result} (h : Result.All P r) (hi : ∀ t, P t → Q t) : Result.All Q r :=
  fun t e => hi t (h t e)

theorem Kept.raiseCurr {s t : State} (h : Kept 1 s t) (vn : Byte) : Result.All (Kept 1 s) (t.raiseCurr vn) := by
  unfold State.raiseCurr
  split
  · exact Result.all_refused
  · exact h.takeTrap _ _

theorem Kept.protectionViolation {s t : State} (h : Kept 1 s t) : Result.All (Kept 1 s) t.protectionViolation :=
  h.raiseCurr _

theorem Kept.raiseNext {s t : State} (h : Kept 1 s t) (vn : Byte) : Result.All (Kept 1 s) (t.raiseNext vn) := by
  unfold State.raiseNext
  split
  · exact Result.all_next h
  · exact h.takeTrap _ _

theorem Kept.rangeResult {s t : State} (h : Kept 1 s t) (b : Bool) : Result.All (Kept 1 s) (t.rangeResult b) := by
  unfold State.rangeResult
  split
  · exact h.raiseNext _
  · exact Result.all_next h

theorem Kept.raiseAccess {s t : State} (h : Kept 1 s t) (vn : Byte) : Result.All (Kept 1 s) (t.raiseAccess vn) := by
  unfold State.raiseAccess
  split
  · exact Result.all_refused
  · split
    · exact Result.all_next h
    · exact h.takeTrap _ _

theorem Kept.takeAsync {s t : State} (h : Kept 1 s t) (prio : Nat) (vn : Byte) :
    Result.All (Kept 1 s) (t.takeAsync prio vn) := by
  unfold State.takeAsync
  split
  · exact h.noDerr.takeTrap _ _
  · exact h.takeTrap _ _

theorem Kept.takeWarn {n : Nat} {s t : State} (h : Kept n s t) : Ends s t.takeWarn :=
  ⟨h.reserved.takeWarn, ⟨Nat.zero_le _, Nat.zero_le _, Nat.zero_le _, Nat.zero_le _, Nat.zero_le _, Nat.zero_le _⟩,
    by
      refine Eq.trans ?_ h.testing
      simp [State.takeWarn],
    .inr rfl⟩

/-- What may follow an access in flight. -/
theorem Kept.finishAccess {P : State → Prop} {s t : State} (h : Kept 1 s t) {k : State → Result}
    (ht : ∀ u, Kept 1 s u → P u) (hk : ∀ u, Kept 1 s u → Result.All P (k u)) : Result.All P (t.finishAccess k) := by
  unfold State.finishAccess
  split
  · exact hk _ h.drain
  · exact (h.drain.noDerr.enterTrap _).imp ht
  · exact Result.all_next (ht _ h.hold)

theorem Kept.awaitRegs {P : State → Prop} {s t : State} (h : Kept 1 s t) {regs : List RegNum} {k : State → Result}
    (ht : ∀ u, Kept 1 s u → P u) (hk : ∀ u, Kept 1 s u → Result.All P (k u)) : Result.All P (t.awaitRegs regs k) := by
  unfold State.awaitRegs
  split
  · exact h.finishAccess ht hk
  · exact hk t h

/-- Every operand form: whatever the operands, the instruction runs in a state that comes from `s`. -/
theorem Kept.binary {s t : State} (h : Kept 1 s t) {rc ra : RegNum} {rb : Src2} {k : RegNum → Word → Word → State → Result}
    (hk : ∀ c a b u, Kept 1 s u → Result.All (Kept 1 s) (k c a b u)) : Result.All (Kept 1 s) (t.binary rc ra rb k) := by
  unfold State.binary
  simp only
  split
  · exact h.protectionViolation
  · exact h.awaitRegs (fun _ hu => hu) fun u hu => hk _ _ _ u hu

theorem Kept.unaryA {s t : State} (h : Kept 1 s t) {rc ra : RegNum} {k : RegNum → Word → State → Result}
    (hk : ∀ c a u, Kept 1 s u → Result.All (Kept 1 s) (k c a u)) : Result.All (Kept 1 s) (t.unaryA rc ra k) := by
  unfold State.unaryA
  simp only
  split
  · exact h.protectionViolation
  · exact h.awaitRegs (fun _ hu => hu) fun u hu => hk _ _ u hu

theorem Kept.unaryB {s t : State} (h : Kept 1 s t) {rc : RegNum} {rb : Src2} {k : RegNum → Word → State → Result}
    (hk : ∀ c b u, Kept 1 s u → Result.All (Kept 1 s) (k c b u)) : Result.All (Kept 1 s) (t.unaryB rc rb k) := by
  unfold State.unaryB
  simp only
  split
  · exact h.protectionViolation
  · exact h.awaitRegs (fun _ hu => hu) fun u hu => hk _ _ u hu

theorem Kept.sources {s t : State} (h : Kept 1 s t) {ra : RegNum} {rb : Src2} {k : Word → Word → State → Result}
    (hk : ∀ a b u, Kept 1 s u → Result.All (Kept 1 s) (k a b u)) : Result.All (Kept 1 s) (t.sources ra rb k) := by
  unfold State.sources
  simp only
  split
  · exact h.protectionViolation
  · exact h.awaitRegs (fun _ hu => hu) fun u hu => hk _ _ u hu

theorem Kept.readA {s t : State} (h : Kept 1 s t) {ra : RegNum} {k : RegNum → Word → State → Result}
    (hk : ∀ a v u, Kept 1 s u → Result.All (Kept 1 s) (k a v u)) : Result.All (Kept 1 s) (t.readA ra k) := by
  unfold State.readA
  simp only
  split
  · exact h.protectionViolation
  · exact h.awaitRegs (fun _ hu => hu) fun u hu => hk _ _ u hu

theorem Kept.readB {s t : State} (h : Kept 1 s t) {rb : RegNum} {k : Word → State → Result}
    (hk : ∀ v u, Kept 1 s u → Result.All (Kept 1 s) (k v u)) : Result.All (Kept 1 s) (t.readB rb k) := by
  unfold State.readB
  simp only
  split
  · exact h.protectionViolation
  · exact h.awaitRegs (fun _ hu => hu) fun u hu => hk _ u hu

theorem Kept.destA {s t : State} (h : Kept 1 s t) {ra : RegNum} {k : RegNum → State → Result}
    (hk : ∀ a, Result.All (Kept 1 s) (k a t)) : Result.All (Kept 1 s) (t.destA ra k) := by
  unfold State.destA
  simp only
  split
  · exact h.protectionViolation
  · exact hk _

theorem Kept.arithResult {s t : State} (h : Kept 1 s t) (c : RegNum) (sum : Sum) (w : Word) :
    Kept 1 s (t.arithResult c sum w) := by
  have h1 : Kept 1 s (t.setVNZC sum w) :=
    h.of (h.reserved.setVNZC sum w) ⟨by simp, by simp, by simp, by simp, by simp, by simp⟩ ⟨by simp, by simp, by simp⟩
  exact (h1.writeReg true c w).retire

theorem Kept.plainResult {s t : State} (h : Kept 1 s t) (c : RegNum) (w : Word) : Kept 1 s (t.plainResult c w) :=
  (h.writeReg false c w).retire

theorem Kept.loadStore {s t : State} (h : Kept 1 s t) (isLoad set la : Bool) (ctl : BitVec 8) (ra : RegNum) (rb : Src2) :
    Result.All (Kept 1 s) (t.loadStore isLoad set la ctl ra rb) := by
  unfold State.loadStore
  simp only
  split
  · exact h.protectionViolation
  · split
    · exact Result.all_refused
    · refine h.finishAccess (fun _ hu => hu) fun u hu => ?_
      have hi := hu.issue (u.descriptor isLoad set la ctl (t.absReg .A ra) (u.srcValue (t.resolve rb))
        (if isLoad then 0#32 else u.readReg .A (t.absReg .A ra))) false u.countRemaining
      generalize u.issue _ _ _ = x at hi
      cases x with
      | ok d1 s2 => exact Result.all_next (hi.startAccess d1).mono.retire
      | trap vn s2 => exact (Kept.retire hi.mono).raiseAccess vn

/-- The state a multiple sequence gives, whatever its end. -/
def MultiRun.state (x : MultiRun) : State :=
  match x with
  | .done s => s
  | .event _ _ s => s
  | warn s => s
  | .reset s => s
  | .held s => s
  | .trap _ s => s
  | .failed s => s
  | .prot s => s

theorem Kept.record {n : Nat} {s t : State} (h : Kept n s t) (d : Access) (ml : Bool) (cr : BitVec 8) :
    Kept n s (t.record d ml cr) := h.touched (h.reserved.record d ml cr) (touched_record t d ml cr)

theorem Kept.samplePins {n : Nat} {s t : State} (h : Kept n s t) : Kept n s t.samplePins :=
  h.of h.reserved.samplePins ⟨rfl, rfl, rfl, rfl, rfl, rfl⟩ ⟨rfl, rfl, rfl⟩

theorem Kept.betweenAccesses {n : Nat} {s t : State} (h : Kept n s t) : Kept n s t.betweenAccesses := by
  unfold State.betweenAccesses
  simp only
  have key : ∀ u, Kept n s u → Kept n s
      ({ u.timer (u.env.cycles.headD 0) with env := { u.env with cycles := u.env.cycles.drop 1 } } : State) := by
    intro u hu
    have hr := hu.reserved.timer (u.env.cycles.headD 0)
    exact hu.of { hr with } ⟨rfl, rfl, rfl, rfl, rfl, rfl⟩ ⟨rfl, rfl, rfl⟩
  split
  · exact key t h
  · exact key _ h.samplePins

theorem Kept.fly {n : Nat} {s t : State} (h : Kept n s t) (d : Access) : Kept n s { t with inflight := some d } :=
  h.of { h.reserved with } ⟨rfl, rfl, rfl, rfl, rfl, rfl⟩ ⟨rfl, rfl, rfl⟩

theorem Kept.endMultiple {n : Nat} {s t : State} (h : Kept n s t) : Kept n s t.endMultiple := by
  unfold State.endMultiple
  split
  · exact h
  exact h.of (h.reserved.withChc (cr_mask (putBit_mask (by decide) h.reserved.chc (by decide) _) _)) ⟨rfl, rfl, rfl, rfl, rfl, rfl⟩
    ⟨rfl, rfl, rfl⟩

theorem Kept.runMultiple {s : State} (interruptible : Bool) (n : Nat) : ∀ (t : State) (d : Access), Kept 1 s t →
    Kept 1 s (t.runMultiple n d interruptible).state := by
  induction n with
  | zero =>
    intro t d h
    have hi := h.issue d true (BitVec.ofNat 8 0)
    unfold State.runMultiple
    generalize t.issue _ _ _ = x at hi
    cases x with
    | trap vn s1 => exact hi
    | ok d1 s1 =>
      simp only
      split
      · exact Kept.complete hi d1
      · exact Kept.fly hi d1
      · exact (Kept.complete hi d1).endMultiple
  | succ k ih =>
    intro t d h
    have hi := h.issue d true (BitVec.ofNat 8 (k + 1))
    unfold State.runMultiple
    generalize t.issue _ _ _ = x at hi
    cases x with
    | trap vn s1 => exact hi
    | ok d1 s1 =>
      have hc := Kept.complete hi d1
      simp only
      split
      · exact hc
      · exact Kept.fly hi d1
      · split
        · exact hc
        · split
          · exact hc
          · split
            · exact hc.betweenAccesses.record _ _ _
            · split
              · exact hc.betweenAccesses.record _ _ _
              · exact ih _ _ hc.betweenAccesses

theorem Kept.undefinedChannel {n : Nat} {s t : State} (h : Kept n s t) : Kept n s t.undefinedChannel := by
  refine h.of { h.reserved with chc := ?_ } ⟨rfl, rfl, rfl, rfl, rfl, rfl⟩ ⟨rfl, rfl, rfl⟩
  exact or_mask (and_mask' h.reserved.chc) (and_mask (by decide))

theorem Kept.result {s : State} {x : MultiRun} (h : Kept 1 s x.state) {adv : State → State}
    (ha : ∀ u, Kept 1 s u → Kept 1 s (adv u)) : Result.All (Ends s) (x.result adv) := by
  cases x with
  | done u =>
    have := ha u h
    exact Result.all_next (Kept.ends (this.of { this.reserved with } ⟨rfl, rfl, rfl, rfl, rfl, rfl⟩ ⟨rfl, rfl, rfl⟩))
  | event prio vn u => exact ((ha u h).takeAsync prio vn).imp fun _ hv => hv.ends
  | warn u => exact Result.all_next (ha u h).takeWarn
  | reset u => exact Result.all_next (ha u h).ends
  | held u => exact Result.all_next (ha u h).hold.ends
  | trap vn u => exact ((ha u h).raiseAccess vn).imp fun _ hv => hv.ends
  | failed u => exact Result.all_next (ha u h).ends
  | prot u => exact (Kept.undefinedChannel h).protectionViolation.imp fun _ hv => hv.ends

theorem Kept.loadStoreMultiple {s t : State} (h : Kept 1 s t) (isLoad : Bool) (ctl : BitVec 8) (ra : RegNum) (rb : Src2) :
    Result.All (Ends s) (t.loadStoreMultiple isLoad ctl ra rb) := by
  unfold State.loadStoreMultiple
  simp only
  split
  · exact h.protectionViolation.imp fun _ hv => hv.ends
  · split
    · exact Result.all_refused
    · split
      · exact Result.all_refused
      · split
        · exact Result.all_refused
        · split
          · exact Result.all_refused
          · refine h.finishAccess (fun _ hu => hu.ends) fun u hu => ?_
            exact Kept.result (Kept.runMultiple true _ u _ hu) fun v hv => hv.mono.retire

/-- The state an instruction fetch gives, whatever its result. -/
def Fetched.state (x : Fetched) : State :=
  match x with
  | .word _ s => s
  | .trap _ s => s
  | .held s => s

/-- The state in which the place of an instruction has been found. -/
def Source.state (x : Source) : State :=
  match x with
  | .ok _ _ s => s
  | .trap _ s => s

theorem Kept.translate {n : Nat} {s t : State} (h : Kept n s t) (va : Word) (want : Want) (user : Bool) :
    Kept n s (t.translate va want user).state :=
  h.touched (h.reserved.translate va want user) (touched_translate t va want user)

theorem Kept.fetchSource {n : Nat} {s t : State} (h : Kept n s t) (b : Bool) : Kept n s (t.fetchSource b).state := by
  unfold State.fetchSource
  split
  · exact h
  · split
    · have h1 := h.translate (byteAddr t.pc) .fetch (!t.cps.getLsbD cpsSM)
      generalize t.translate (byteAddr t.pc) .fetch (!t.cps.getLsbD cpsSM) = x at h1
      cases x with
      | ok pa pgm u => exact h1
      | miss u => exact h1
      | prot u => exact h1
    · exact h

theorem Kept.turned {n : Nat} {s t : State} (h : Kept n s t) : Kept n s t.turned := by
  unfold State.turned
  simp only
  split <;> exact h.of { h.reserved with } ⟨rfl, rfl, rfl, rfl, rfl, rfl⟩ ⟨rfl, rfl, rfl⟩

theorem Kept.rememberWindow {n : Nat} {s t : State} (h : Kept n s t) (b : Bool) : Kept n s (t.rememberWindow b) := by
  unfold State.rememberWindow
  split
  · exact h.of
      { h.reserved with
        oldMaps := fun m hm => by
          rcases List.mem_cons.mp hm with rfl | hm
          · exact Nat.min_le_left _ _
          · exact h.reserved.oldMaps m hm }
      ⟨rfl, rfl, rfl, rfl, rfl, rfl⟩ ⟨rfl, rfl, rfl⟩
  · exact h

theorem Kept.fetch {n : Nat} {s t : State} (h : Kept n s t) : Kept n s t.fetch.state := by
  have h0 : Kept n s ({ t with env := { t.env with fetches := t.env.fetches.drop 1 } } : State).discardPrefetch := by
    unfold State.discardPrefetch
    split <;> exact h.of { h.reserved with } ⟨rfl, rfl, rfl, rfl, rfl, rfl⟩ ⟨rfl, rfl, rfl⟩
  have h1 := h0.fetchSource t.fetchChoice.oldStream
  unfold State.fetch
  simp only
  generalize State.fetchSource _ t.fetchChoice.oldStream = x at h1
  cases x with
  | trap vn u => exact h1
  | ok rom pa u =>
    simp only
    split
    · exact Kept.turned h1
    · exact h1
    · have h2 := (Kept.rememberWindow h1 t.fetchChoice.oldStream).turned
      exact h2.of { h2.reserved with } ⟨rfl, rfl, rfl, rfl, rfl, rfl⟩ ⟨rfl, rfl, rfl⟩

theorem Kept.tick {n : Nat} {s t : State} (h : Kept n s t) : Kept n s { t with clock := t.clock + 1 } :=
  h.of h.reserved.tick ⟨rfl, rfl, rfl, rfl, rfl, rfl⟩ ⟨rfl, rfl, rfl⟩

theorem Kept.invalidate {n : Nat} {s t : State} (h : Kept n s t) (b : Bool) :
    Kept n s (if b then t.invalidateCache else t) := by
  split
  · exact h.of { h.reserved with } ⟨rfl, rfl, rfl, rfl, rfl, rfl⟩ ⟨rfl, rfl, rfl⟩
  · exact h

theorem Kept.goOnAt {n : Nat} {s t : State} (h : Kept n s t) (x y : IAddr) (b : Bool) : Kept n s (t.goOnAt x y b) := by
  have h := h.invalidate b
  unfold State.goOnAt
  exact h.of { h.reserved with } ⟨rfl, rfl, rfl, rfl, rfl, rfl⟩ ⟨rfl, rfl, rfl⟩

theorem Kept.settleEffects {n : Nat} {s t : State} (h : Kept n s t) : Kept 1 s t.settleEffects :=
  ⟨{ h.reserved with }, ⟨Nat.zero_le _, Nat.zero_le _, Nat.zero_le _, Nat.zero_le _, Nat.zero_le _, Nat.zero_le _⟩,
    h.testing, h.mode, h.irValid⟩

theorem Kept.resumeAt {n : Nat} {s t : State} (h : Kept n s t) (x y : IAddr) (b : Bool) :
    Kept 1 s (t.resumeAt x y b) := (h.goOnAt x y b).settleEffects

theorem Kept.restoreStatus {n : Nat} {s t : State} (h : Kept n s t) : Kept n s t.restoreStatus := by
  unfold State.restoreStatus
  split
  · exact h.of (h.reserved.capturePcs.setCps h.reserved.ops) ⟨by simp, by simp, by simp, by simp, by simp, by simp⟩
      ⟨by simp, by simp, by simp⟩
  · exact h.of (h.reserved.setCps h.reserved.ops) ⟨by simp, by simp, by simp, by simp, by simp, by simp⟩
      ⟨by simp, by simp, by simp⟩

theorem Kept.afterReturn {s t u : State} (h : Kept 1 s t) (hu : Kept 1 s u) (vn : Byte) :
    Result.All (Ends s) (t.afterReturn vn u) := by
  have he : Kept 1 s { t with env := u.env } := h.of { h.reserved with } ⟨rfl, rfl, rfl, rfl, rfl, rfl⟩ ⟨rfl, rfl, rfl⟩
  unfold State.afterReturn
  split
  · exact (he.takeAsync _ _).imp fun _ hv => hv.ends
  · split
    · exact Result.all_next he.ends
    · exact (Kept.raiseCurr hu vn).imp fun _ hv => hv.ends

theorem Kept.resumeMultiple {s t : State} (h : Kept 1 s t) (d : Access) : Result.All (Ends s) (t.resumeMultiple d) := by
  have hf := h.settleEffects.fetch
  unfold State.resumeMultiple
  generalize t.settleEffects.fetch = x at hf
  cases x with
  | trap vn u => exact h.settleEffects.afterReturn hf vn
  | held u => exact Result.all_next (Kept.hold hf).ends
  | word w u => exact Kept.result (Kept.runMultiple false _ _ _ h) fun _ hv => hv.settleEffects

theorem Kept.restart {s t : State} (h : Kept 1 s t) (x y : IAddr) (b : Bool) : Result.All (Ends s) (t.restart x y b) := by
  unfold State.restart
  split
  · split
    · exact ((h.of { h.reserved with } ⟨rfl, rfl, rfl, rfl, rfl, rfl⟩ ⟨rfl, rfl, rfl⟩ :
        Kept 1 s { t with mlByMove := false }).goOnAt x y b).resumeMultiple _
    · have hi := h.issue t.channelAccess false t.countRemaining
      generalize t.issue _ _ _ = z at hi
      cases z with
      | ok d s1 => exact Result.all_next ((Kept.startAccess hi d).resumeAt x y b).ends
      | trap vn s1 => exact ((Kept.resumeAt hi x y b).raiseAccess vn).imp fun _ hv => hv.ends
  · exact Result.all_next (h.resumeAt x y b).ends

theorem Kept.interruptReturn {s t : State} (h : Kept 1 s t) (b : Bool) : Result.All (Ends s) (t.interruptReturn b) := by
  unfold State.interruptReturn
  split
  · exact Result.all_refused
  · split
    · exact h.protectionViolation.imp fun _ hv => hv.ends
    · refine h.finishAccess (fun _ hu => hu.ends) fun u hu => ?_
      exact hu.restoreStatus.restart _ _ b


/-- A state in which a mode has been entered and no loaded instruction is left. -/
theorem Kept.entered {s t : State} (h : Kept 1 s t) (m : Mode) : Ends s { t with mode := m, irValid := false } :=
  ⟨{ h.reserved with }, ⟨h.ages.sps, h.ages.mmu, h.ages.ipa, h.ages.ipb, h.ages.ipc, h.ages.psTarget⟩, h.testing, .inr rfl⟩

theorem Kept.haltAt {s t : State} (h : Kept 1 s t) (m : Mode) : Result.All (Ends s) (t.haltAt m) := by
  have hf := h.tick.fetch
  unfold State.haltAt
  generalize State.fetch _ = x at hf
  cases x with
  | word w u => exact Result.all_next (h.entered m)
  | held u => exact Result.all_next (Kept.hold hf).ends
  | trap vn u =>
    simp only
    split
    · exact Result.all_next (h.entered m)
    · have hk : Kept 1 { s with irValid := false, mode := m } { u with mode := m, irValid := false } :=
        ⟨{ hf.reserved with }, ⟨hf.ages.sps, hf.ages.mmu, hf.ages.ipa, hf.ages.ipb, hf.ages.ipc, hf.ages.psTarget⟩, hf.testing,
          .inl rfl, rfl⟩
      exact (hk.takeTrap 14 vn).imp fun _ hv => ⟨hv.reserved, hv.ages, hv.testing, .inr hv.irValid⟩

theorem reset_idm {s : State} (h : Reserved s) : Memory.wf s.abandonedStore = true := by
  unfold State.abandonedStore
  split
  · exact h.idm
  · split
    · split
      · exact (h.busWrite _ _).idm
      · split
        · exact (h.busWrite _ _).idm
        · exact h.idm
    · exact h.idm

theorem Reserved.enterReset {s : State} (h : Reserved s) : Reserved s.enterReset := by
  have hm : ∀ (k : Nat) (a m : Word), a &&& m = 0#32 → s.undefinedReg k &&& a &&& m = 0#32 := fun _ _ _ h => and_mask h
  have ht : ∀ n : BitVec 7,
      (Vector.ofFn fun i : Fin 128 =>
            s.undefinedReg (213 + i.val) &&& tlbMask (BitVec.ofNat 7 i.val))[n.toNat]?.getD 0#32 &&& ~~~tlbMask n = 0#32 := by
    intro n
    simp only [Vector.getElem?_ofFn, n.isLt, dite_true, Option.getD_some, BitVec.ofNat_toNat, BitVec.setWidth_eq]
    exact and_mask (by simp)
  exact
    { idm := reset_idm h
      rom := by
        have e : s.enterReset.rom = s.rom := by simp only [State.enterReset]
        rw [e]
        exact h.rom
      vab := hm 194 0xFFFF0000#32 0x0000FFFF#32 (by decide)
      ops := hm 195 0x0000FFFF#32 0xFFFF0000#32 (by decide)
      cps := or_mask (and_mask (by decide)) (by decide)
      cfg := or_mask (hm 196 0x0000001E#32 0xFFFFFFE0#32 (by decide)) (by decide)
      chc := hm 199 0xFFFFF7FE#32 0x00000800#32 (by decide)
      rbp := hm 200 0x0000FFFF#32 0xFFFF0000#32 (by decide)
      tmc := hm 201 0x00FFFFFF#32 0xFF000000#32 (by decide)
      tmr := hm 202 0x07FFFFFF#32 0xF8000000#32 (by decide)
      pc0 := hm 203 0xFFFFFFFC#32 3#32 (by decide)
      pc1 := hm 204 0xFFFFFFFC#32 3#32 (by decide)
      pc2 := hm 205 0xFFFFFFFC#32 3#32 (by decide)
      mmuNow := hm 206 0x000003FF#32 0xFFFFFC00#32 (by decide)
      mmuOld := hm 206 0x000003FF#32 0xFFFFFC00#32 (by decide)
      lru := hm 207 0x0000007E#32 0xFFFFFF81#32 (by decide)
      alu := hm 212 0x00000FFF#32 0xFFFFF000#32 (by decide)
      tlb := ht
      oldWords := fun _ hm => absurd hm List.not_mem_nil
      oldMaps := fun _ hm => absurd hm List.not_mem_nil }


theorem Kept.multiplyStep {s t : State} (h : Kept 1 s t) (c : RegNum) (sum : Sum) (b : Bool) :
    Kept 1 s (t.multiplyStep c sum b) :=
 by
  have h1 : ∀ q, Kept 1 s ({ t with q := q } : State) := fun q =>
    h.of { h.reserved with } ⟨rfl, rfl, rfl, rfl, rfl, rfl⟩ ⟨rfl, rfl, rfl⟩
  unfold State.multiplyStep
  exact (h1 _).arithResult c sum _

theorem Kept.quotient {s t : State} (h : Kept 1 s t) (q : Word) (b : Bool) :
    Kept 1 s (({ t with q := q } : State).setDivideFlag b) := by
  have h1 : Kept 1 s ({ t with q := q } : State) :=
    h.of { h.reserved with } ⟨rfl, rfl, rfl, rfl, rfl, rfl⟩ ⟨rfl, rfl, rfl⟩
  exact h1.of (h1.reserved.setDivideFlag b) ⟨by simp, by simp, by simp, by simp, by simp, by simp⟩
    ⟨by simp, by simp, by simp⟩

theorem Kept.setPointers {s t : State} (h : Kept 1 s t) (a b c : RegNum) :
    Kept 1 s (t.setPointers a b c).retire :=
  Kept.retire
    ⟨h.reserved.setPointers a b c,
      ⟨h.mono.ages.sps, h.mono.ages.mmu, Nat.le_refl 2, Nat.le_refl 2, Nat.le_refl 2, h.mono.ages.psTarget⟩, h.testing,
      h.mode, h.irValid⟩

theorem Kept.emulated3 {s t : State} (h : Kept 1 s t) (vn : Byte) (rc ra rb : RegNum) :
    Result.All (Kept 1 s) (t.emulated3 vn rc ra rb) := by
  unfold State.emulated3
  simp only
  split
  · exact h.protectionViolation
  · exact (Kept.setPointers h _ _ _).raiseNext _

theorem Kept.emulated2 {s t : State} (h : Kept 1 s t) (vn : Byte) (rc ra : RegNum) :
    Result.All (Kept 1 s) (t.emulated2 vn rc ra) := by
  unfold State.emulated2
  simp only
  split
  · exact h.protectionViolation
  · exact (Kept.setPointers h _ _ _).raiseNext _

theorem Kept.assert {s t : State} (h : Kept 1 s t) (vn : BitVec 8) (ra : RegNum) (rb : Src2) (rel : Word → Word → Bool) :
    Result.All (Kept 1 s) (t.assert vn ra rb rel) := by
  unfold State.assert
  refine h.sources fun a b u hu => ?_
  split
  · exact Result.all_next hu.mono.retire
  · split
    · exact hu.protectionViolation
    · exact hu.mono.retire.raiseNext _

theorem Kept.logical {s t : State} (h : Kept 1 s t) (rc ra : RegNum) (rb : Src2) (f : Word → Word → Word) :
    Result.All (Kept 1 s) (t.logical rc ra rb f) := by
  refine h.binary fun c a b u hu => Result.all_next ?_
  have h1 : Kept 1 s (u.setNZ (f a b)) :=
    hu.of (hu.reserved.setNZ _) ⟨by simp, by simp, by simp, by simp, by simp, by simp⟩ ⟨by simp, by simp, by simp⟩
  exact (h1.writeReg _ _ _).retire

theorem Kept.branchIf {s t : State} (h : Kept 2 s t) (b : Bool) (x : IAddr) : Kept 1 s (t.branchIf b x) := by
  cases b
  · exact h.retire
  · exact h.branchTo x

theorem Kept.writePc {s t : State} (h : Kept 2 s t) (n : Nat) {v : Word} (hv : v &&& 0x00000003#32 = 0#32) :
    Kept 2 s (t.writePc n v) := by
  have hr := h.reserved.writePc n hv
  unfold State.writePc at hr ⊢
  split
  · split <;> exact h.of (by simp_all) ⟨rfl, rfl, rfl, rfl, rfl, rfl⟩ ⟨rfl, rfl, rfl⟩
  · split
    · split <;> exact h.of (by simp_all) ⟨rfl, rfl, rfl, rfl, rfl, rfl⟩ ⟨rfl, rfl, rfl⟩
    · exact h

theorem Kept.writeSpecial {s t : State} (h : Kept 1 s t) (n : BitVec 8) (v : Word) : Kept 2 s (t.writeSpecial n v) := by
  have hr := h.reserved.writeSpecial n v
  have h2 := h.mono
  have hset : ∀ c, (c &&& 0xFFFF0000#32 = 0#32) → ∀ u, Kept 2 s u → Kept 2 s (u.setCps c) :=
    fun c hc u hu => hu.of (hu.reserved.setCps hc) ⟨by simp, by simp, by simp, by simp, by simp, by simp⟩
      ⟨by simp, by simp, by simp⟩
  unfold State.writeSpecial at hr ⊢
  split
  case h_3 =>
    simp only
    split
    · exact hset _ (and_mask (by decide)) _
        (h2.of h2.reserved.capturePcs ⟨rfl, rfl, rfl, rfl, rfl, rfl⟩ ⟨rfl, rfl, rfl⟩)
    · exact hset _ (and_mask (by decide)) _ h2
  case h_11 => exact Kept.writePc h2 _ (and_mask (by decide))
  case h_12 => exact Kept.writePc h2 _ (and_mask (by decide))
  case h_13 => exact Kept.writePc h2 _ (and_mask (by decide))
  case h_14 =>
    rename_i hn
    rw [hn] at hr
    simp only at hr ⊢
    have a := h2.ages
    split
    · rename_i hh
      rw [if_pos hh] at hr
      exact ⟨hr, ⟨a.sps, Nat.le_refl 2, a.ipa, a.ipb, a.ipc, a.psTarget⟩, h.testing, h.mode, h.irValid⟩
    · rename_i hh
      rw [if_neg hh] at hr
      exact ⟨hr, ⟨a.sps, Nat.le_refl 2, a.ipa, a.ipb, a.ipc, a.psTarget⟩, h.testing, h.mode, h.irValid⟩
  case h_16 =>
    exact ⟨{ h.reserved with }, ⟨h2.ages.sps, h2.ages.mmu, h2.ages.ipa, h2.ages.ipb, Nat.le_refl 2, h2.ages.psTarget⟩,
      h.testing, h.mode, h.irValid⟩
  case h_17 =>
    exact ⟨{ h.reserved with }, ⟨h2.ages.sps, h2.ages.mmu, Nat.le_refl 2, h2.ages.ipb, h2.ages.ipc, h2.ages.psTarget⟩,
      h.testing, h.mode, h.irValid⟩
  case h_18 =>
    exact ⟨{ h.reserved with }, ⟨h2.ages.sps, h2.ages.mmu, h2.ages.ipa, Nat.le_refl 2, h2.ages.ipc, h2.ages.psTarget⟩,
      h.testing, h.mode, h.irValid⟩
  case h_24 => exact h2
  all_goals
    rename_i hn
    rw [hn] at hr
    exact h2.of hr ⟨rfl, rfl, rfl, rfl, rfl, rfl⟩ ⟨rfl, rfl, rfl⟩

theorem Kept.moveResult {s t : State} (h : Kept 1 s t) (n : BitVec 8) (v : Word) : Kept 1 s (t.moveResult n v) := by
  have h2 := Kept.writeSpecial h n v
  unfold State.moveResult
  split
  · exact Kept.advance (h2.of h2.reserved.traceKeep ⟨rfl, rfl, rfl, rfl, rfl, rfl⟩ ⟨rfl, rfl, rfl⟩)
  · exact h2.retire

theorem Kept.writeTlb {s t : State} (h : Kept 1 s t) (n : BitVec 7) (v : Word) :
    Kept 1 s (t.writeTlb n v) :=
  h.of (h.reserved.writeTlb n v) ⟨by simp, by simp, by simp, by simp, by simp, by simp⟩
    ⟨by simp, by simp, by simp⟩

end Sys2Proof.Machine
end

