-- ==== Sys2Proof/Laws/PerInstr.lean ====
section
/-! SUPPORT. Per instruction: what its encoding decodes to, one lemma for each constructor. -/

namespace Sys2Proof.Laws.RoundTrip

/-- The word of an instruction decodes to that instruction. -/
def Statement (i : Instr) : Prop := decode (encode i) = .ok i

/-- The fields of the word decode to the instruction. -/
theorem of_fields {i : Instr} {o a b c : BitVec 8} (he : encode i = word o a b c)
    (hd : decodeFields o a b c = .ok i) : Statement i := by rw [Statement, he, decode_word, hd]

/-- A decoded 16-bit constant is the encoded one (30 R206). -/
theorem ok_i16 (f : BitVec 16 → Instr) (i16 : BitVec 16) :
    (Except.ok (f (hi i16 ++ lo i16)) : Except DecodeError Instr) = .ok (f i16) := by rw [hi_append_lo]


theorem add (rc ra : RegNum) (rb : Src2) : Statement (.add rc ra rb) := by
  cases rb
  · exact of_fields (o := 0x14#8) rfl rfl
  · exact of_fields (o := 0x15#8) rfl rfl

theorem adds (rc ra : RegNum) (rb : Src2) : Statement (.adds rc ra rb) := by
  cases rb
  · exact of_fields (o := 0x10#8) rfl rfl
  · exact of_fields (o := 0x11#8) rfl rfl

theorem addu (rc ra : RegNum) (rb : Src2) : Statement (.addu rc ra rb) := by
  cases rb
  · exact of_fields (o := 0x12#8) rfl rfl
  · exact of_fields (o := 0x13#8) rfl rfl

theorem addc (rc ra : RegNum) (rb : Src2) : Statement (.addc rc ra rb) := by
  cases rb
  · exact of_fields (o := 0x1C#8) rfl rfl
  · exact of_fields (o := 0x1D#8) rfl rfl

theorem addcs (rc ra : RegNum) (rb : Src2) : Statement (.addcs rc ra rb) := by
  cases rb
  · exact of_fields (o := 0x18#8) rfl rfl
  · exact of_fields (o := 0x19#8) rfl rfl

theorem addcu (rc ra : RegNum) (rb : Src2) : Statement (.addcu rc ra rb) := by
  cases rb
  · exact of_fields (o := 0x1A#8) rfl rfl
  · exact of_fields (o := 0x1B#8) rfl rfl

theorem sub (rc ra : RegNum) (rb : Src2) : Statement (.sub rc ra rb) := by
  cases rb
  · exact of_fields (o := 0x24#8) rfl rfl
  · exact of_fields (o := 0x25#8) rfl rfl

theorem subs (rc ra : RegNum) (rb : Src2) : Statement (.subs rc ra rb) := by
  cases rb
  · exact of_fields (o := 0x20#8) rfl rfl
  · exact of_fields (o := 0x21#8) rfl rfl

theorem subu (rc ra : RegNum) (rb : Src2) : Statement (.subu rc ra rb) := by
  cases rb
  · exact of_fields (o := 0x22#8) rfl rfl
  · exact of_fields (o := 0x23#8) rfl rfl

theorem subc (rc ra : RegNum) (rb : Src2) : Statement (.subc rc ra rb) := by
  cases rb
  · exact of_fields (o := 0x2C#8) rfl rfl
  · exact of_fields (o := 0x2D#8) rfl rfl

theorem subcs (rc ra : RegNum) (rb : Src2) : Statement (.subcs rc ra rb) := by
  cases rb
  · exact of_fields (o := 0x28#8) rfl rfl
  · exact of_fields (o := 0x29#8) rfl rfl

theorem subcu (rc ra : RegNum) (rb : Src2) : Statement (.subcu rc ra rb) := by
  cases rb
  · exact of_fields (o := 0x2A#8) rfl rfl
  · exact of_fields (o := 0x2B#8) rfl rfl

theorem subr (rc ra : RegNum) (rb : Src2) : Statement (.subr rc ra rb) := by
  cases rb
  · exact of_fields (o := 0x34#8) rfl rfl
  · exact of_fields (o := 0x35#8) rfl rfl

theorem subrs (rc ra : RegNum) (rb : Src2) : Statement (.subrs rc ra rb) := by
  cases rb
  · exact of_fields (o := 0x30#8) rfl rfl
  · exact of_fields (o := 0x31#8) rfl rfl

theorem subru (rc ra : RegNum) (rb : Src2) : Statement (.subru rc ra rb) := by
  cases rb
  · exact of_fields (o := 0x32#8) rfl rfl
  · exact of_fields (o := 0x33#8) rfl rfl

theorem subrc (rc ra : RegNum) (rb : Src2) : Statement (.subrc rc ra rb) := by
  cases rb
  · exact of_fields (o := 0x3C#8) rfl rfl
  · exact of_fields (o := 0x3D#8) rfl rfl

theorem subrcs (rc ra : RegNum) (rb : Src2) : Statement (.subrcs rc ra rb) := by
  cases rb
  · exact of_fields (o := 0x38#8) rfl rfl
  · exact of_fields (o := 0x39#8) rfl rfl

theorem subrcu (rc ra : RegNum) (rb : Src2) : Statement (.subrcu rc ra rb) := by
  cases rb
  · exact of_fields (o := 0x3A#8) rfl rfl
  · exact of_fields (o := 0x3B#8) rfl rfl

theorem mul (rc ra : RegNum) (rb : Src2) : Statement (.mul rc ra rb) := by
  cases rb
  · exact of_fields (o := 0x64#8) rfl rfl
  · exact of_fields (o := 0x65#8) rfl rfl

theorem mull (rc ra : RegNum) (rb : Src2) : Statement (.mull rc ra rb) := by
  cases rb
  · exact of_fields (o := 0x66#8) rfl rfl
  · exact of_fields (o := 0x67#8) rfl rfl

theorem multiply (rc ra rb : RegNum) : Statement (.multiply rc ra rb) := of_fields (o := 0xE0#8) rfl rfl

theorem divide (rc ra rb : RegNum) : Statement (.divide rc ra rb) := of_fields (o := 0xE1#8) rfl rfl

theorem mulu (rc ra : RegNum) (rb : Src2) : Statement (.mulu rc ra rb) := by
  cases rb
  · exact of_fields (o := 0x74#8) rfl rfl
  · exact of_fields (o := 0x75#8) rfl rfl

theorem div0 (rc : RegNum) (rb : Src2) : Statement (.div0 rc rb) := by
  cases rb
  · exact of_fields (o := 0x68#8) rfl rfl
  · exact of_fields (o := 0x69#8) rfl rfl

theorem div (rc ra : RegNum) (rb : Src2) : Statement (.div rc ra rb) := by
  cases rb
  · exact of_fields (o := 0x6A#8) rfl rfl
  · exact of_fields (o := 0x6B#8) rfl rfl

theorem divl (rc ra : RegNum) (rb : Src2) : Statement (.divl rc ra rb) := by
  cases rb
  · exact of_fields (o := 0x6C#8) rfl rfl
  · exact of_fields (o := 0x6D#8) rfl rfl

theorem divrem (rc ra : RegNum) (rb : Src2) : Statement (.divrem rc ra rb) := by
  cases rb
  · exact of_fields (o := 0x6E#8) rfl rfl
  · exact of_fields (o := 0x6F#8) rfl rfl

theorem cpeq (rc ra : RegNum) (rb : Src2) : Statement (.cpeq rc ra rb) := by
  cases rb
  · exact of_fields (o := 0x60#8) rfl rfl
  · exact of_fields (o := 0x61#8) rfl rfl

theorem cpneq (rc ra : RegNum) (rb : Src2) : Statement (.cpneq rc ra rb) := by
  cases rb
  · exact of_fields (o := 0x62#8) rfl rfl
  · exact of_fields (o := 0x63#8) rfl rfl

theorem cplt (rc ra : RegNum) (rb : Src2) : Statement (.cplt rc ra rb) := by
  cases rb
  · exact of_fields (o := 0x40#8) rfl rfl
  · exact of_fields (o := 0x41#8) rfl rfl

theorem cpltu (rc ra : RegNum) (rb : Src2) : Statement (.cpltu rc ra rb) := by
  cases rb
  · exact of_fields (o := 0x42#8) rfl rfl
  · exact of_fields (o := 0x43#8) rfl rfl

theorem cple (rc ra : RegNum) (rb : Src2) : Statement (.cple rc ra rb) := by
  cases rb
  · exact of_fields (o := 0x44#8) rfl rfl
  · exact of_fields (o := 0x45#8) rfl rfl

theorem cpleu (rc ra : RegNum) (rb : Src2) : Statement (.cpleu rc ra rb) := by
  cases rb
  · exact of_fields (o := 0x46#8) rfl rfl
  · exact of_fields (o := 0x47#8) rfl rfl

theorem cpgt (rc ra : RegNum) (rb : Src2) : Statement (.cpgt rc ra rb) := by
  cases rb
  · exact of_fields (o := 0x48#8) rfl rfl
  · exact of_fields (o := 0x49#8) rfl rfl

theorem cpgtu (rc ra : RegNum) (rb : Src2) : Statement (.cpgtu rc ra rb) := by
  cases rb
  · exact of_fields (o := 0x4A#8) rfl rfl
  · exact of_fields (o := 0x4B#8) rfl rfl

theorem cpge (rc ra : RegNum) (rb : Src2) : Statement (.cpge rc ra rb) := by
  cases rb
  · exact of_fields (o := 0x4C#8) rfl rfl
  · exact of_fields (o := 0x4D#8) rfl rfl

theorem cpgeu (rc ra : RegNum) (rb : Src2) : Statement (.cpgeu rc ra rb) := by
  cases rb
  · exact of_fields (o := 0x4E#8) rfl rfl
  · exact of_fields (o := 0x4F#8) rfl rfl

theorem cpbyte (rc ra : RegNum) (rb : Src2) : Statement (.cpbyte rc ra rb) := by
  cases rb
  · exact of_fields (o := 0x2E#8) rfl rfl
  · exact of_fields (o := 0x2F#8) rfl rfl

theorem aseq (vn : BitVec 8) (ra : RegNum) (rb : Src2) : Statement (.aseq vn ra rb) := by
  cases rb
  · exact of_fields (o := 0x70#8) rfl rfl
  · exact of_fields (o := 0x71#8) rfl rfl

theorem asneq (vn : BitVec 8) (ra : RegNum) (rb : Src2) : Statement (.asneq vn ra rb) := by
  cases rb
  · exact of_fields (o := 0x72#8) rfl rfl
  · exact of_fields (o := 0x73#8) rfl rfl

theorem aslt (vn : BitVec 8) (ra : RegNum) (rb : Src2) : Statement (.aslt vn ra rb) := by
  cases rb
  · exact of_fields (o := 0x50#8) rfl rfl
  · exact of_fields (o := 0x51#8) rfl rfl

theorem asltu (vn : BitVec 8) (ra : RegNum) (rb : Src2) : Statement (.asltu vn ra rb) := by
  cases rb
  · exact of_fields (o := 0x52#8) rfl rfl
  · exact of_fields (o := 0x53#8) rfl rfl

theorem asle (vn : BitVec 8) (ra : RegNum) (rb : Src2) : Statement (.asle vn ra rb) := by
  cases rb
  · exact of_fields (o := 0x54#8) rfl rfl
  · exact of_fields (o := 0x55#8) rfl rfl

theorem asleu (vn : BitVec 8) (ra : RegNum) (rb : Src2) : Statement (.asleu vn ra rb) := by
  cases rb
  · exact of_fields (o := 0x56#8) rfl rfl
  · exact of_fields (o := 0x57#8) rfl rfl

theorem asgt (vn : BitVec 8) (ra : RegNum) (rb : Src2) : Statement (.asgt vn ra rb) := by
  cases rb
  · exact of_fields (o := 0x58#8) rfl rfl
  · exact of_fields (o := 0x59#8) rfl rfl

theorem asgtu (vn : BitVec 8) (ra : RegNum) (rb : Src2) : Statement (.asgtu vn ra rb) := by
  cases rb
  · exact of_fields (o := 0x5A#8) rfl rfl
  · exact of_fields (o := 0x5B#8) rfl rfl

theorem asge (vn : BitVec 8) (ra : RegNum) (rb : Src2) : Statement (.asge vn ra rb) := by
  cases rb
  · exact of_fields (o := 0x5C#8) rfl rfl
  · exact of_fields (o := 0x5D#8) rfl rfl

theorem asgeu (vn : BitVec 8) (ra : RegNum) (rb : Src2) : Statement (.asgeu vn ra rb) := by
  cases rb
  · exact of_fields (o := 0x5E#8) rfl rfl
  · exact of_fields (o := 0x5F#8) rfl rfl

theorem and (rc ra : RegNum) (rb : Src2) : Statement (.and rc ra rb) := by
  cases rb
  · exact of_fields (o := 0x90#8) rfl rfl
  · exact of_fields (o := 0x91#8) rfl rfl

theorem andn (rc ra : RegNum) (rb : Src2) : Statement (.andn rc ra rb) := by
  cases rb
  · exact of_fields (o := 0x9C#8) rfl rfl
  · exact of_fields (o := 0x9D#8) rfl rfl

theorem nand (rc ra : RegNum) (rb : Src2) : Statement (.nand rc ra rb) := by
  cases rb
  · exact of_fields (o := 0x9A#8) rfl rfl
  · exact of_fields (o := 0x9B#8) rfl rfl

theorem or (rc ra : RegNum) (rb : Src2) : Statement (.or rc ra rb) := by
  cases rb
  · exact of_fields (o := 0x92#8) rfl rfl
  · exact of_fields (o := 0x93#8) rfl rfl

theorem nor (rc ra : RegNum) (rb : Src2) : Statement (.nor rc ra rb) := by
  cases rb
  · exact of_fields (o := 0x98#8) rfl rfl
  · exact of_fields (o := 0x99#8) rfl rfl

theorem xor (rc ra : RegNum) (rb : Src2) : Statement (.xor rc ra rb) := by
  cases rb
  · exact of_fields (o := 0x94#8) rfl rfl
  · exact of_fields (o := 0x95#8) rfl rfl

theorem xnor (rc ra : RegNum) (rb : Src2) : Statement (.xnor rc ra rb) := by
  cases rb
  · exact of_fields (o := 0x96#8) rfl rfl
  · exact of_fields (o := 0x97#8) rfl rfl

theorem sll (rc ra : RegNum) (rb : Src2) : Statement (.sll rc ra rb) := by
  cases rb
  · exact of_fields (o := 0x80#8) rfl rfl
  · exact of_fields (o := 0x81#8) rfl rfl

theorem srl (rc ra : RegNum) (rb : Src2) : Statement (.srl rc ra rb) := by
  cases rb
  · exact of_fields (o := 0x82#8) rfl rfl
  · exact of_fields (o := 0x83#8) rfl rfl

theorem sra (rc ra : RegNum) (rb : Src2) : Statement (.sra rc ra rb) := by
  cases rb
  · exact of_fields (o := 0x86#8) rfl rfl
  · exact of_fields (o := 0x87#8) rfl rfl

theorem extract (rc ra : RegNum) (rb : Src2) : Statement (.extract rc ra rb) := by
  cases rb
  · exact of_fields (o := 0x7A#8) rfl rfl
  · exact of_fields (o := 0x7B#8) rfl rfl

theorem load (ctl : BitVec 8) (ra : RegNum) (rb : Src2) : Statement (.load ctl ra rb) := by
  cases rb
  · exact of_fields (o := 0x16#8) rfl rfl
  · exact of_fields (o := 0x17#8) rfl rfl

theorem loadl (ctl : BitVec 8) (ra : RegNum) (rb : Src2) : Statement (.loadl ctl ra rb) := by
  cases rb
  · exact of_fields (o := 0x06#8) rfl rfl
  · exact of_fields (o := 0x07#8) rfl rfl

theorem loadset (ctl : BitVec 8) (ra : RegNum) (rb : Src2) : Statement (.loadset ctl ra rb) := by
  cases rb
  · exact of_fields (o := 0x26#8) rfl rfl
  · exact of_fields (o := 0x27#8) rfl rfl

theorem store (ctl : BitVec 8) (ra : RegNum) (rb : Src2) : Statement (.store ctl ra rb) := by
  cases rb
  · exact of_fields (o := 0x1E#8) rfl rfl
  · exact of_fields (o := 0x1F#8) rfl rfl

theorem storel (ctl : BitVec 8) (ra : RegNum) (rb : Src2) : Statement (.storel ctl ra rb) := by
  cases rb
  · exact of_fields (o := 0x0E#8) rfl rfl
  · exact of_fields (o := 0x0F#8) rfl rfl

theorem loadm (ctl : BitVec 8) (ra : RegNum) (rb : Src2) : Statement (.loadm ctl ra rb) := by
  cases rb
  · exact of_fields (o := 0x36#8) rfl rfl
  · exact of_fields (o := 0x37#8) rfl rfl

theorem storem (ctl : BitVec 8) (ra : RegNum) (rb : Src2) : Statement (.storem ctl ra rb) := by
  cases rb
  · exact of_fields (o := 0x3E#8) rfl rfl
  · exact of_fields (o := 0x3F#8) rfl rfl

theorem exbyte (rc ra : RegNum) (rb : Src2) : Statement (.exbyte rc ra rb) := by
  cases rb
  · exact of_fields (o := 0x0A#8) rfl rfl
  · exact of_fields (o := 0x0B#8) rfl rfl

theorem exhw (rc ra : RegNum) (rb : Src2) : Statement (.exhw rc ra rb) := by
  cases rb
  · exact of_fields (o := 0x7C#8) rfl rfl
  · exact of_fields (o := 0x7D#8) rfl rfl

theorem exhws (rc ra : RegNum) : Statement (.exhws rc ra) := of_fields (o := 0x7E#8) rfl rfl

theorem inbyte (rc ra : RegNum) (rb : Src2) : Statement (.inbyte rc ra rb) := by
  cases rb
  · exact of_fields (o := 0x0C#8) rfl rfl
  · exact of_fields (o := 0x0D#8) rfl rfl

theorem inhw (rc ra : RegNum) (rb : Src2) : Statement (.inhw rc ra rb) := by
  cases rb
  · exact of_fields (o := 0x78#8) rfl rfl
  · exact of_fields (o := 0x79#8) rfl rfl

theorem mfsr (rc : RegNum) (sa : BitVec 8) : Statement (.mfsr rc sa) := of_fields (o := 0xC6#8) rfl rfl

theorem mtsr (sa : BitVec 8) (rb : RegNum) : Statement (.mtsr sa rb) := of_fields (o := 0xCE#8) rfl rfl

theorem mtsrim (sa : BitVec 8) (i16 : BitVec 16) : Statement (.mtsrim sa i16) :=
  of_fields (o := 0x04#8) rfl (ok_i16 (fun x => Instr.mtsrim sa x) i16)

theorem mftlb (rc ra : RegNum) : Statement (.mftlb rc ra) := of_fields (o := 0xB6#8) rfl rfl

theorem mttlb (ra rb : RegNum) : Statement (.mttlb ra rb) := of_fields (o := 0xBE#8) rfl rfl

theorem const (ra : RegNum) (i16 : BitVec 16) : Statement (.const ra i16) :=
  of_fields (o := 0x03#8) rfl (ok_i16 (fun x => Instr.const ra x) i16)

theorem consth (ra : RegNum) (i16 : BitVec 16) : Statement (.consth ra i16) :=
  of_fields (o := 0x02#8) rfl (ok_i16 (fun x => Instr.consth ra x) i16)

theorem constn (ra : RegNum) (i16 : BitVec 16) : Statement (.constn ra i16) :=
  of_fields (o := 0x01#8) rfl (ok_i16 (fun x => Instr.constn ra x) i16)

theorem fadd (rc ra rb : RegNum) : Statement (.fadd rc ra rb) := of_fields (o := 0xF0#8) rfl rfl

theorem dadd (rc ra rb : RegNum) : Statement (.dadd rc ra rb) := of_fields (o := 0xF1#8) rfl rfl

theorem fsub (rc ra rb : RegNum) : Statement (.fsub rc ra rb) := of_fields (o := 0xF2#8) rfl rfl

theorem dsub (rc ra rb : RegNum) : Statement (.dsub rc ra rb) := of_fields (o := 0xF3#8) rfl rfl

theorem fmul (rc ra rb : RegNum) : Statement (.fmul rc ra rb) := of_fields (o := 0xF4#8) rfl rfl

theorem dmul (rc ra rb : RegNum) : Statement (.dmul rc ra rb) := of_fields (o := 0xF5#8) rfl rfl

theorem fdiv (rc ra rb : RegNum) : Statement (.fdiv rc ra rb) := of_fields (o := 0xF6#8) rfl rfl

theorem ddiv (rc ra rb : RegNum) : Statement (.ddiv rc ra rb) := of_fields (o := 0xF7#8) rfl rfl

theorem feq (rc ra rb : RegNum) : Statement (.feq rc ra rb) := of_fields (o := 0xEA#8) rfl rfl

theorem deq (rc ra rb : RegNum) : Statement (.deq rc ra rb) := of_fields (o := 0xEB#8) rfl rfl

theorem flt (rc ra rb : RegNum) : Statement (.flt rc ra rb) := of_fields (o := 0xEE#8) rfl rfl

theorem dlt (rc ra rb : RegNum) : Statement (.dlt rc ra rb) := of_fields (o := 0xEF#8) rfl rfl

theorem fgt (rc ra rb : RegNum) : Statement (.fgt rc ra rb) := of_fields (o := 0xEC#8) rfl rfl

theorem dgt (rc ra rb : RegNum) : Statement (.dgt rc ra rb) := of_fields (o := 0xED#8) rfl rfl

theorem cvintf (rc ra : RegNum) : Statement (.cvintf rc ra) := of_fields (o := 0xE4#8) rfl rfl

theorem cvintd (rc ra : RegNum) : Statement (.cvintd rc ra) := of_fields (o := 0xE5#8) rfl rfl

theorem cvfint (rc ra : RegNum) : Statement (.cvfint rc ra) := of_fields (o := 0xE6#8) rfl rfl

theorem cvdint (rc ra : RegNum) : Statement (.cvdint rc ra) := of_fields (o := 0xE7#8) rfl rfl

theorem cvfd (rc ra : RegNum) : Statement (.cvfd rc ra) := of_fields (o := 0xE8#8) rfl rfl

theorem cvdf (rc ra : RegNum) : Statement (.cvdf rc ra) := of_fields (o := 0xE9#8) rfl rfl

theorem jmp (a : Bool) (i16 : BitVec 16) : Statement (.jmp a i16) := by
  cases a
  · exact of_fields (o := 0xA0#8) rfl (ok_i16 (fun x => Instr.jmp false x) i16)
  · exact of_fields (o := 0xA1#8) rfl (ok_i16 (fun x => Instr.jmp true x) i16)

theorem jmpi (rb : RegNum) : Statement (.jmpi rb) := of_fields (o := 0xC0#8) rfl rfl

theorem jmpt (a : Bool) (ra : RegNum) (i16 : BitVec 16) : Statement (.jmpt a ra i16) := by
  cases a
  · exact of_fields (o := 0xAC#8) rfl (ok_i16 (fun x => Instr.jmpt false ra x) i16)
  · exact of_fields (o := 0xAD#8) rfl (ok_i16 (fun x => Instr.jmpt true ra x) i16)

theorem jmpf (a : Bool) (ra : RegNum) (i16 : BitVec 16) : Statement (.jmpf a ra i16) := by
  cases a
  · exact of_fields (o := 0xA4#8) rfl (ok_i16 (fun x => Instr.jmpf false ra x) i16)
  · exact of_fields (o := 0xA5#8) rfl (ok_i16 (fun x => Instr.jmpf true ra x) i16)

theorem jmpti (ra rb : RegNum) : Statement (.jmpti ra rb) := of_fields (o := 0xCC#8) rfl rfl

theorem jmpfi (ra rb : RegNum) : Statement (.jmpfi ra rb) := of_fields (o := 0xC4#8) rfl rfl

theorem jmpfdec (a : Bool) (ra : RegNum) (i16 : BitVec 16) : Statement (.jmpfdec a ra i16) := by
  cases a
  · exact of_fields (o := 0xB4#8) rfl (ok_i16 (fun x => Instr.jmpfdec false ra x) i16)
  · exact of_fields (o := 0xB5#8) rfl (ok_i16 (fun x => Instr.jmpfdec true ra x) i16)

theorem call (a : Bool) (ra : RegNum) (i16 : BitVec 16) : Statement (.call a ra i16) := by
  cases a
  · exact of_fields (o := 0xA8#8) rfl (ok_i16 (fun x => Instr.call false ra x) i16)
  · exact of_fields (o := 0xA9#8) rfl (ok_i16 (fun x => Instr.call true ra x) i16)

theorem calli (ra rb : RegNum) : Statement (.calli ra rb) := of_fields (o := 0xC8#8) rfl rfl

theorem clz (rc : RegNum) (rb : Src2) : Statement (.clz rc rb) := by
  cases rb
  · exact of_fields (o := 0x08#8) rfl rfl
  · exact of_fields (o := 0x09#8) rfl rfl

theorem setip (rc ra rb : RegNum) : Statement (.setip rc ra rb) := of_fields (o := 0x9E#8) rfl rfl

theorem emulate (vn : BitVec 8) (ra rb : RegNum) : Statement (.emulate vn ra rb) := of_fields (o := 0xF8#8) rfl rfl

theorem inv : Statement .inv := of_fields (o := 0x9F#8) rfl rfl

theorem iret : Statement .iret := of_fields (o := 0x88#8) rfl rfl

theorem iretinv : Statement .iretinv := of_fields (o := 0x8C#8) rfl rfl

theorem halt : Statement .halt := of_fields (o := 0x89#8) rfl rfl

end Sys2Proof.Laws.RoundTrip
end

