-- ==== Sys2Proof/Laws/Results.lean ====
section
/-! SUPPORT. How the shared endings of the register-writing classes leave the machine: destination, flags, `Q`, frame. -/

namespace Sys2Proof.Machine

/-- An instruction that writes one register and no status (41 R290, 43 R350). -/
theorem plainResult_ends (s : State) (c : RegNum) (w : Word) :
    WritesReg s (s.plainResult c w) c w ∧ (s.plainResult c w).alu = s.alu ∧ (s.plainResult c w).q = s.q ∧
      PcAdvances s (s.plainResult c w) :=
  ⟨writesReg_retire s false c w s.alu s.q, by simp [State.plainResult], by simp [State.plainResult],
    retire_pcAdvances (by simp) (by simp) (by simp) (by simp)⟩

/-- The two Booleans (41 R290). -/
theorem boolWord_spec {b : Bool} {P : Prop} (h : b = true ↔ P) :
    (P → boolWord b = 0x80000000#32) ∧ (¬P → boolWord b = 0#32) := by cases b <;> simp_all [boolWord]

/-- Waiting for operands leaves DA alone. -/
theorem da_atRead (s : State) (ra : RegNum) (rb : Src2) : (s.atRead ra rb).da = s.da := by
  simp only [State.atRead, State.afterWait, State.da]
  split <;> simp

theorem supervisor_atRead (s : State) (ra : RegNum) (rb : Src2) : (s.atRead ra rb).supervisor = s.supervisor := by
  simp only [State.atRead, State.afterWait, State.supervisor]
  split <;> simp

theorem da_retire (s : State) : s.retire.da = s.da := by
  simp only [State.da, State.retire_cps, State.traceCopy_cps]
  simp [cpsDA, cpsTP]

theorem da_arithResult (s : State) (c : RegNum) (sum : Sum) (w : Word) : (s.arithResult c sum w).da = s.da := by
  rw [State.arithResult, da_retire]
  simp [State.da]

/-- N and Z of the Logical class (42 R330). -/
theorem setNZ_flags (s : State) (w : Word) : FlagsNZ s (s.setNZ w) (decide (w.toInt < 0)) (decide (w.toNat = 0)) := by
  intro i
  have h1 : w.getLsbD 31 = decide (w.toInt < 0) := by
    rw [getLsbD_top w rfl, BitVec.toInt_eq_toNat_cond]
    have := w.isLt
    by_cases c : 2 ^ 31 ≤ w.toNat
    · rw [decide_eq_true c, decide_eq_true]
      split_ifs <;> omega
    · rw [decide_eq_false c, decide_eq_false]
      split_ifs <;> omega
  have h2 : (w == 0#32) = decide (w.toNat = 0) := by
    rw [Bool.eq_iff_iff]
    simp [← BitVec.toNat_inj]
  simp only [State.setNZ, h1, h2]
  cases h : s.frozen
  · simp only [Bool.false_eq_true, if_false]
    rw [getLsbD_putBit _ _ _ _ (by decide), getLsbD_putBit _ _ _ _ (by decide)]
    by_cases h8 : i = 8
    · simp [h8, aluZ]
    · by_cases h9 : i = 9 <;> simp [h8, h9, aluZ, aluN]
  · simp

/-- How an instruction of the Logical class ends (42 R330). -/
theorem logical_ends (s : State) (c : RegNum) (w : Word) :
    let t := ((s.setNZ w).writeReg true c w).retire
    WritesReg s t c w ∧ FlagsNZ s t (decide (w.toInt < 0)) (decide (w.toNat = 0)) ∧ t.q = s.q ∧ PcAdvances s t := by
  refine ⟨?_, ?_, by simp, retire_pcAdvances (by simp) (by simp) (by simp) (by simp)⟩
  · rw [State.setNZ_eq]
    exact writesReg_retire _ _ _ _ _ _
  · intro i
    simpa using setNZ_flags s w i

theorem toNat_append32 (x y : Word) : (x ++ y : BitVec 64).toNat = x.toNat * 2 ^ 32 + y.toNat := by
  rw [BitVec.toNat_append, Nat.shiftLeft_eq, Nat.mul_comm, ← Nat.two_pow_add_eq_or_of_lt y.isLt]

/-- A step of a multiply or divide writes a register, `Q` and flags; the frame does not depend on which. -/
theorem step_writes (s : State) (al qq : Word) (c : RegNum) (sum : Sum) (w : Word) :
    WritesReg s (({ s with alu := al, q := qq } : State).arithResult c sum w) c w := by
  rw [State.arithResult, State.setVNZC_eq]
  exact writesReg_retire s true c w _ _

theorem step_q (s : State) (al qq : Word) (c : RegNum) (sum : Sum) (w : Word) :
    (({ s with alu := al, q := qq } : State).arithResult c sum w).q = qq := by simp [State.arithResult]

theorem step_pc (s : State) (al qq : Word) (c : RegNum) (sum : Sum) (w : Word) :
    PcAdvances s (({ s with alu := al, q := qq } : State).arithResult c sum w) :=
  retire_pcAdvances (by simp) (by simp) (by simp) (by simp)

theorem step_flags (s : State) (qq : Word) (c : RegNum) (sum : Sum) (w : Word) :
    FlagsVNZC s (({ s with q := qq } : State).arithResult c sum w) sum.v (sum.r.getLsbD 31) (w == 0#32) sum.cout := by
  intro i
  have := setVNZC_flags ({ s with q := qq } : State) sum w i
  simpa [State.arithResult, State.frozen, State.fz] using this

theorem setDivideFlag_eq (s : State) (df : Bool) :
    s.setDivideFlag df = { s with alu := (s.setDivideFlag df).alu, q := s.q } := by
  unfold State.setDivideFlag
  split <;> rfl

theorem divide_flags (s : State) (qq : Word) (df : Bool) (c : RegNum) (sum : Sum) (w : Word) :
    FlagsDVNZC s ((({ s with q := qq } : State).setDivideFlag df).arithResult c sum w) df sum.v (sum.r.getLsbD 31) (w == 0#32)
      sum.cout := by
  intro i
  have := setVNZC_flags (({ s with q := qq } : State).setDivideFlag df) sum w i
  have hf : (({ s with q := qq } : State).setDivideFlag df).frozen = s.frozen := State.frozen_congr (by simp) (by simp)
  have hf2 : (({ s with q := qq } : State)).frozen = s.frozen := rfl
  simp only [State.arithResult, State.retire_alu, State.writeReg_alu, this, hf]
  simp only [State.setDivideFlag]
  cases hh : s.frozen
  · simp only [hf2, hh, Bool.false_eq_true, if_false, getLsbD_putBit _ _ _ _ (show aluDF < 32 by decide)]
    simp only [aluDF]
    by_cases h7 : i = 7
    · simp [h7]
    · by_cases h8 : i = 8
      · simp [h8]
      · by_cases h9 : i = 9
        · simp [h9]
        · by_cases h10 : i = 10
          · simp [h10]
          · simp only [h7, h8, h9, h10, if_false]
            rfl
  · simp [hf2, hh]

/-- How a divide step ends: `Q` takes the quotient bit from the right, DF is that bit (40 R266). -/
theorem divideStep_ends (s : State) (df : Bool) (c : RegNum) (sum : Sum) (w : Word) :
    let t := (s.divideStep df).arithResult c sum w
    WritesReg s t c w ∧ t.q = BitVec.ofNat 32 (2 * s.q.toNat + df.toNat) ∧
      FlagsDVNZC s t df sum.v (sum.r.getLsbD 31) (w == 0#32) sum.cout ∧ PcAdvances s t := by
  intro t
  have hq : (s.q.extractLsb' 0 31 ++ bitOf df : BitVec 32) = BitVec.ofNat 32 (2 * s.q.toNat + df.toNat) := by
    apply BitVec.eq_of_toNat_eq
    rw [BitVec.toNat_append, Nat.shiftLeft_eq, Nat.mul_comm, ← Nat.two_pow_add_eq_or_of_lt (bitOf df).isLt]
    have hd : df.toNat ≤ 1 := by cases df <;> simp
    have hx := s.q.isLt
    simp only [BitVec.extractLsb'_toNat, BitVec.toNat_ofNat, bitOf_toNat, Nat.shiftRight_eq_div_pow]
    omega
  have ht : t = (({ s with q := BitVec.ofNat 32 (2 * s.q.toNat + df.toNat) } : State).setDivideFlag df).arithResult c sum w := by
    simp only [t, State.divideStep, hq]
  have ht2 := ht
  rw [setDivideFlag_eq] at ht2
  refine ⟨?_, ?_, ?_, ?_⟩
  · rw [ht2]
    exact step_writes _ _ _ _ _ _
  · rw [ht2]
    exact step_q _ _ _ _ _ _
  · rw [ht]
    exact divide_flags _ _ _ _ _ _
  · rw [ht2]
    exact step_pc _ _ _ _ _ _

/-- A word shifted left by one, the top bit of another coming in (40 R265, R266). -/
theorem shiftLeft_in (r q : Word) :
    (r.extractLsb' 0 31 ++ q.extractLsb' 31 1 : BitVec 32) = BitVec.ofNat 32 (2 * r.toNat + q.toNat / 2 ^ 31) := by
  apply BitVec.eq_of_toNat_eq
  rw [BitVec.toNat_append, Nat.shiftLeft_eq, Nat.mul_comm, ← Nat.two_pow_add_eq_or_of_lt (q.extractLsb' 31 1).isLt]
  have := q.isLt
  simp only [BitVec.extractLsb'_toNat, BitVec.toNat_ofNat, Nat.shiftRight_eq_div_pow]
  omega

/-- The add of a divide step: a difference if DF is 1, else a sum (40 R266). -/
theorem divideAdd_eq (s : State) (a b : Word) :
    let e := if s.divideFlag then exactDifference a b true else exactSum a b false
    (s.divideAdd a b).r = e.word ∧ (s.divideAdd a b).cout = e.carry ∧ (s.divideAdd a b).v = e.overflows := by
  intro e
  have hn := exactSum_not a b true
  simp only [State.divideAdd, e]
  split
  · exact ⟨(add3_r _ _ _).trans hn.1, (add3_cout _ _ _).trans hn.2.1, (add3_v _ _ _).trans hn.2.2.1⟩
  · exact ⟨add3_r _ _ _, add3_cout _ _ _, add3_v _ _ _⟩

/-- The return address of a call as a number (47 R478). -/
theorem returnAddress_eq (s : State) : s.returnAddress = BitVec.ofNat 32 (4 * (s.pc.toNat + 2)) := by
  unfold State.returnAddress byteAddr
  apply BitVec.eq_of_toNat_eq
  have := s.pc.isLt
  simp only [BitVec.toNat_append, BitVec.toNat_add, BitVec.toNat_ofNat, Nat.zero_mod, Nat.or_zero, Nat.shiftLeft_eq]
  omega

end Sys2Proof.Machine
end

