-- ==== Sys2Proof/Laws/Special.lean ====
section
/-! SUPPORT. Reading special-purpose registers, the masks of their writes, and the count of leading zeros. -/

namespace Sys2Proof.Machine

theorem drain_inflight (s : State) : s.drain.inflight = none := by
  unfold State.drain
  cases h : s.inflight with
  | none => exact h
  | some d => simp

/-- With nothing in flight every operand can be had at once. -/
theorem ready_none {s : State} (h : s.inflight = none) (r : List RegNum) : s.ready r = true ∧ s.afterWait r = s := by
  have hw : s.waitsFor r = false := by rw [State.waitsFor, h]
  simp [State.ready, State.afterWait, hw]

theorem drain_supervisor (s : State) : s.drain.supervisor = s.supervisor := by simp [State.supervisor]

theorem afterWait_pc (s : State) (r : List RegNum) : (s.afterWait r).pc = s.pc := by
  unfold State.afterWait
  split <;> simp

/-- Bits of a word under a mask of its low bits. -/
theorem getLsbD_low16 (v : Word) (i : Nat) : (v &&& 0x0000FFFF#32).getLsbD i = (decide (i < 16) && v.getLsbD i) := by
  by_cases hi : i < 32
  · rw [BitVec.getLsbD_and]
    interval_cases i <;> simp
  · have h1 : ∀ w : Word, w.getLsbD i = false := fun w => BitVec.getLsbD_of_ge w i (by omega)
    simp only [h1]
    simp

theorem getLsbD_low12 (v : Word) (i : Nat) : (v &&& 0x00000FFF#32).getLsbD i = (decide (i < 12) && v.getLsbD i) := by
  by_cases hi : i < 32
  · rw [BitVec.getLsbD_and]
    interval_cases i <;> simp
  · have h1 : ∀ w : Word, w.getLsbD i = false := fun w => BitVec.getLsbD_of_ge w i (by omega)
    simp only [h1]
    simp

/-- Bits of a word with bit 11 cleared. -/
theorem getLsbD_not11 (v : Word) (i : Nat) : (v &&& 0xFFFFF7FF#32).getLsbD i = (decide (i ≠ 11) && v.getLsbD i) := by
  by_cases hi : i < 32
  · rw [BitVec.getLsbD_and]
    interval_cases i <;> simp
  · have h1 : ∀ w : Word, w.getLsbD i = false := fun w => BitVec.getLsbD_of_ge w i (by omega)
    simp only [h1]
    simp

/-- An indirect pointer as it is read: its number times 4 (10 R74). -/
theorem pointerWord (p : RegNum) : (0#22 ++ p ++ 0#2 : Word) = BitVec.ofNat 32 (4 * p.toNat) := by
  apply BitVec.eq_of_toNat_eq
  have := p.isLt
  simp only [BitVec.toNat_append, BitVec.toNat_ofNat, Nat.zero_mod, Nat.zero_mul, Nat.zero_or, Nat.or_zero, Nat.shiftLeft_eq]
  omega

/-- A field as an alias register shows it (10 R78). -/
theorem fieldWord (w : Word) (i n : Nat) : (w.extractLsb' i n).setWidth 32 = BitVec.ofNat 32 (w.toNat / 2 ^ i % 2 ^ n) := by
  apply BitVec.eq_of_toNat_eq
  simp only [BitVec.toNat_setWidth, BitVec.extractLsb'_toNat, BitVec.toNat_ofNat, Nat.shiftRight_eq_div_pow]

/-- When `*INTRj` is enabled (10 R46, 60 R549). -/
theorem intrEnabled_iff (s : State) (j : Nat) : s.intrEnabled j = true ↔
    (s.cps.getLsbD 0 = false ∧ s.cps.getLsbD 1 = false ∧ j ≤ s.cps.toNat / 4 % 4) := by
  simp only [State.intrEnabled, State.da, cpsDA, cpsDI, cpsIM, BitVec.extractLsb'_toNat, Nat.shiftRight_eq_div_pow,
    Bool.and_eq_true, Bool.not_eq_true', decide_eq_true_eq, and_assoc]

/-- `IP` is 1 when an interrupt is asserted and not enabled (10 R46). -/
theorem interruptPending_iff (s : State) : s.interruptPending = true ↔ ∃ j < 4, s.pins.intr.getLsbD j = true ∧
    ¬(s.cps.getLsbD 0 = false ∧ s.cps.getLsbD 1 = false ∧ j ≤ s.cps.toNat / 4 % 4) := by
  simp only [← intrEnabled_iff]
  unfold State.interruptPending
  constructor
  · intro h
    simp only [Bool.or_eq_true, Bool.and_eq_true, Bool.not_eq_true'] at h
    rcases h with ((⟨h1, h2⟩ | ⟨h1, h2⟩) | ⟨h1, h2⟩) | ⟨h1, h2⟩
    · exact ⟨0, by decide, h1, by rw [h2]; decide⟩
    · exact ⟨1, by decide, h1, by rw [h2]; decide⟩
    · exact ⟨2, by decide, h1, by rw [h2]; decide⟩
    · exact ⟨3, by decide, h1, by rw [h2]; decide⟩
  · rintro ⟨j, hj, h1, h2⟩
    interval_cases j <;> simp only [h1] <;> simp [Bool.eq_false_iff.mpr h2]

/-- What a read of each special-purpose register gives (10 R40). -/
theorem readSpecial_reads (s : State) (n : BitVec 8) : s.SpecialReads n.toNat (s.readSpecial n) := by
  unfold State.SpecialReads State.readSpecial
  split <;> rename_i h <;> simp only [h]
  · constructor
    · intro i hi
      rw [State.cpsView, getLsbD_putBit _ _ _ _ (by decide)]
      simp [cpsIP, hi]
    · rw [State.cpsView, getLsbD_putBit _ _ _ _ (by decide)]
      simp only [cpsIP, if_true]
      exact interruptPending_iff s
  · rfl
  · rfl
  · rfl
  · exact pointerWord _
  · exact pointerWord _
  · exact pointerWord _
  · exact fieldWord _ _ _
  · rw [fieldWord]
    simp [aluFC]
  · exact fieldWord _ _ _

/-- A protected special-purpose register is one below 128 (10 R41). -/
theorem specialForbidden_eq {s : State} {sa : BitVec 8} (h : s.supervisor = true ∨ 128 ≤ sa.toNat) :
    s.specialForbidden sa = false := by
  unfold State.specialForbidden
  rcases h with h | h
  · rw [h]
    rfl
  · have h7 : sa.getLsbD 7 = true := by
      rw [BitVec.getLsbD, Nat.testBit_eq_decide_div_mod_eq]
      have := sa.isLt
      simp
      omega
    rw [h7]
    simp

/-- The bits above the count of leading zeros are 0, and the one below them is 1 (48 R501). -/
theorem leadingZeros_bits (w : Word) (n : Nat) :
    leadingZeros w n ≤ n ∧ (∀ i < leadingZeros w n, w.getLsbD (n - 1 - i) = false) ∧
      (leadingZeros w n < n → w.getLsbD (n - 1 - leadingZeros w n) = true) := by
  induction n with
  | zero => simp [leadingZeros]
  | succ k ih =>
    unfold leadingZeros
    cases h : w.getLsbD k with
    | true => simp [h]
    | false =>
      simp only [Bool.false_eq_true, if_false]
      refine ⟨by omega, ?_, ?_⟩
      · intro i hi
        rcases i with _ | i
        · simpa using h
        · rw [show k + 1 - 1 - (i + 1) = k - 1 - i by omega]
          exact ih.2.1 i (by omega)
      · intro hlt
        rw [show k + 1 - 1 - (1 + leadingZeros w k) = k - 1 - leadingZeros w k by omega]
        exact ih.2.2 (by omega)

/-- The register that a local register-number and a Stack Pointer shadow name (10 R36). -/
theorem localNumber (n : RegNum) (v : BitVec 7) (h : 128 ≤ n.toNat) :
    (1#1 ++ (n.extractLsb' 0 7 + v) : BitVec 8).toNat = 128 + (n.toNat - 128 + v.toNat) % 128 := by
  have hn := n.isLt
  have hv := v.isLt
  have hlt : (n.extractLsb' 0 7 + v).toNat < 128 := (n.extractLsb' 0 7 + v).isLt
  rw [BitVec.toNat_append, ← Nat.shiftLeft_add_eq_or_of_lt hlt]
  simp only [BitVec.toNat_add, BitVec.extractLsb'_toNat, Nat.shiftRight_zero, Nat.shiftLeft_eq]
  show 1 * 2 ^ 7 + _ = _
  omega

end Sys2Proof.Machine
end

