-- ==== Sys2Proof/Laws/Single.lean ====
section
/-! SUPPORT. What a single load or store does when its access may go out: completed at once, or left in flight. -/

namespace Sys2Proof.Machine

/-- Neither a protection check nor ML stops the access (20 R149). -/
theorem mayAccess_allowed {s : State} {ctl : BitVec 8} {ra : RegNum} {rb : Src2} (h : s.MayAccess ctl ra rb) :
    s.accessForbidden ctl (s.absReg .A ra) (s.resolve rb) = false ∧ s.multipleByMove = false := by
  obtain ⟨h1, h2, h3, h4, _⟩ := h
  constructor
  · unfold State.accessForbidden
    rw [h2, h3]
    rcases h1 with h1 | h1 | h1
    · rw [h1]; rfl
    · rw [show ctl.getLsbD ctlCE = true from h1]; simp
    · rw [show ctl.getLsbD ctlPA = false from h1]; simp
  · unfold State.multipleByMove
    rcases h4 with h4 | h4 | h4
    · rw [h4]; rfl
    · rw [show s.chc.getLsbD chcML = false from h4]; simp
    · rw [h4]; simp

/-- A load or store begins by completing the access in flight (20 R148, R149). -/
theorem loadStore_run {s : State} {ctl : BitVec 8} {ra : RegNum} {rb : Src2} (h : s.MayAccess ctl ra rb)
    (isLoad set la : Bool) :
    s.loadStore isLoad set la ctl ra rb =
      match
        s.drain.issue
          (s.drain.descriptor isLoad set la ctl (s.absReg .A ra) (s.drain.srcValue (s.resolve rb))
            (if isLoad then 0#32 else s.drain.readReg .A (s.absReg .A ra)))
          false s.drain.countRemaining with
      | .ok d1 s2 => .next (s2.startAccess d1).retire
      | .trap vn s2 => s2.retire.raiseAccess vn := by
  unfold State.loadStore
  simp only [(mayAccess_allowed h).1, (mayAccess_allowed h).2, State.finishAccess, h.2.2.2.2]
  rfl

/-- The system answers at once (92 D10). -/
theorem startAccess_now {u : State} {d : Access} (h : u.env.latency.headD 0 = 0)
    (ha : u.answered (d.isLoad && d.set) = true) :
    u.startAccess d =
      ({ u with env := { u.env with latency := u.env.latency.drop 1 } } : State).complete { d with left := 0 } := by
  unfold State.startAccess
  rw [h]
  simp only
  have hs : State.settlement
      { u with inflight := some { d with left := 0 }, env := { u.env with latency := u.env.latency.drop 1 } } = .ends :=
    settlement_ends rfl ha
  rw [State.settle, hs, if_neg (by decide)]
  rfl

/-- What a load or store leaves beside registers, memory and the TLB, from what its issue left. -/
theorem accessEnds_of {s1 s2 u : State} {d : Access} {cr : BitVec 8} (hi : Issue s1 s2 d false cr) (hcr : cr = s1.chc.extractLsb' 16 8)
    (hlru : s2.lru = s1.lru)
    (hcps : s2.cps = if d.ctl.getLsbD 7 && d.ctl.getLsbD 5 then putBit s1.cps cpsCA !d.isLoad else s1.cps)
    (cv : Bool) (hchc : u.chc = if s1.frozen then s2.chc else putBit s2.chc chcCV cv)
    (h : u.cha = s2.cha ∧ u.chd = s2.chd ∧ u.alu = s2.alu ∧ u.cps = s2.cps ∧ u.ipa = s2.ipa ∧ u.ipb = s2.ipb ∧
      u.ipc = s2.ipc ∧ u.q = s2.q ∧ u.mode = s2.mode ∧ u.pc = s2.pc ∧ u.npc = s2.npc ∧ u.ppc = s2.ppc ∧ u.testing = s2.testing)
    (hsp : u.vab = s2.vab ∧ u.ops = s2.ops ∧ u.cfg = s2.cfg ∧ u.rbp = s2.rbp ∧ u.tmc = s2.tmc ∧ u.tmr = s2.tmr ∧
      u.pc0 = s2.pc0 ∧ u.pc1 = s2.pc1 ∧ u.pc2 = s2.pc2 ∧ u.mmu = s2.mmu ∧ u.lru = s2.lru) :
    AccessEnds s1 u.retire d.ctl d.isLoad d.set d.la d.tr d.addr d.data cv := by
  obtain ⟨h1, h2, h3, h4, h5, h6, h7, h8, h9, h10, h11, h12, h13⟩ := h
  obtain ⟨g1, g2, g3, g4, g5, g6, g7, g8, g9, g10, g11⟩ := hsp
  have ht := hi.touched
  subst hcr
  constructor
  · constructor
    · rw [State.retire_cha, h1]; exact hi.channel.cha
    · rw [State.retire_chd, h2]; exact hi.channel.chd
    · rw [State.retire_chc, hchc]
      have := hi.channel.chc
      cases hf : s1.frozen with
      | true => rw [hf] at this; exact this
      | false =>
        rw [hf] at this
        rw [if_neg (by decide)] at this ⊢
        rw [this, if_neg (by decide), ← channelControl_true, channelControl_cv]
  · intro i
    rw [State.retire_alu, h3]; exact hi.alu i
  · intro i
    rw [State.retire_cps, State.traceCopy_cps, h4, hcps]
    unfold cpsTP cpsTE
    by_cases h12 : i = 12
    · rw [if_pos h12, if_pos h12]
      split
      · rw [getLsbD_putBit _ _ _ _ (by decide)]; rfl
      · rfl
    · rw [if_neg h12, if_neg h12]
      cases a : d.ctl.getLsbD 7 <;> cases b : d.ctl.getLsbD 5
      · simp
      · simp
      · simp
      · simp only [Bool.and_true, if_true, and_true]
        rw [getLsbD_putBit _ _ _ _ (by decide)]; rfl
  · constructor
    · rw [State.retire_vab, g1, ht]
    · rw [State.retire_ops, g2, ht]
    · rw [State.retire_cfg, g3, ht]
    · rw [State.retire_rbp, g4, ht]
    · rw [State.retire_tmc, g5, ht]
    · rw [State.retire_tmr, g6, ht]
    · rw [State.retire_pc0, g7, ht]
    · rw [State.retire_pc1, g8, ht]
    · rw [State.retire_pc2, g9, ht]
    · have : u.retire.mmu = u.mmu.older := by simp
      rw [this, g10, ht]; rfl
    · rw [State.retire_lru, g11, hlru]
  · have e1 : u.retire.ipa = u.ipa.older := by simp
    have e2 : u.retire.ipb = u.ipb.older := by simp
    have e3 : u.retire.ipc = u.ipc.older := by simp
    refine ⟨?_, ?_, ?_⟩
    · rw [e1, h5, ht]; rfl
    · rw [e2, h6, ht]; rfl
    · rw [e3, h7, ht]; rfl
  · rw [State.retire_q, h8, ht]
  · rw [State.retire_mode, h9, ht]
  · exact retire_pcAdvances (by rw [h10, ht]) (by rw [h11, ht]) (by rw [h12, ht]) (by rw [h13, ht])

theorem touched_answered {s t : State} (h : Touched s t) (b : Bool) : t.answered b = s.answered b := by rw [h]; rfl

theorem issue_frozen {s t : State} {d : Access} {ml : Bool} {cr : BitVec 8} (h : Issue s t d ml cr)
    (hc : t.cps = if d.ctl.getLsbD 7 && d.ctl.getLsbD 5 then putBit s.cps cpsCA !d.isLoad else s.cps) :
    t.frozen = s.frozen := by
  have ht : t.testing = s.testing := by rw [h.touched]
  have hf : t.cps.getLsbD 10 = s.cps.getLsbD 10 := by
    rw [hc]; split
    · rw [getLsbD_putBit _ _ _ _ (by decide)]; rfl
    · rfl
  rw [State.frozen, State.frozen, State.fz, State.fz, ht]
  rw [show cpsFZ = 10 from rfl, hf]

/-- A load or store that is answered at once (44 R371, 20 R147, R149). -/
theorem loadStore_now {s : State} {ctl : BitVec 8} {ra : RegNum} {rb : Src2} (h : s.MayAccess ctl ra rb)
    (isLoad set la : Bool) (pa : Word) (tlb : Nat → Word)
    (hset : set = true → isLoad = true) :
    let s1 := s.drain
    let tr := s.absReg .A ra
    let addr := s1.srcValue (s.resolve rb)
    let data := if isLoad then 0#32 else s1.readReg .A tr
    s1.Goes ctl (if isLoad then (if set then .loadset else .load) else .store) addr pa tlb → s1.answered set = true →
      s1.env.latency.headD 0 = 0 →
      ∃ u, s.loadStore isLoad set la ctl ra rb = .next u.retire ∧
        AccessEnds s1 u.retire ctl isLoad set la tr addr data false ∧ u.inflight = none ∧ u.TlbIs tlb ∧
        (isLoad = true → ∃ w, s1.Brings ctl pa w ∧ (implemented tr = true → u.readReg .A tr = w) ∧ SameRegs s1 u [tr] ∧
          (tr = 1#8 → u.sps.now = none) ∧ (tr ≠ 1#8 → u.sps = s1.sps) ∧
          (if set then StoresWord s1 u ctl pa 0xFFFFFFFF#32 else SameMemory s1 u)) ∧
        (isLoad = false → SameRegs s1 u [] ∧ u.sps = s1.sps ∧ StoresWord s1 u ctl pa data) := by
  intro s1 tr addr data hg ha hl
  have hrun := loadStore_run h isLoad set la
  generalize hd : s.drain.descriptor isLoad set la ctl (s.absReg .A ra) (s.drain.srcValue (s.resolve rb))
    (if isLoad then 0#32 else s.drain.readReg .A (s.absReg .A ra)) = d at hrun
  have d1 : d.ctl = ctl := by rw [← hd]; rfl
  have d2 : d.isLoad = isLoad := by rw [← hd]; rfl
  have d3 : d.set = set := by rw [← hd]; rfl
  have d4 : d.la = la := by rw [← hd]; rfl
  have d5 : d.tr = tr := by rw [← hd]; rfl
  have d6 : d.addr = addr := by rw [← hd]; rfl
  have d7 : d.data = data := by rw [← hd]; rfl
  have d8 : d.discard = false := by rw [← hd]; rfl
  have d9 : d.user = s1.asUser d.ctl := by rw [← hd]; rfl
  have d10 : d.want = if isLoad then (if set then .loadset else .load) else .store := by rw [Access.want, d2, d3]
  obtain ⟨pgm, s2, e1, e2, e3, e4, e5⟩ :=
    issue_goes (ml := false) (cr := s1.countRemaining) d9 (by rw [d1, d6, d10]; exact hg)
  rw [e1] at hrun
  dsimp only at hrun
  have hl2 : s2.env.latency.headD 0 = 0 := by rw [e2.touched]; exact hl
  have ha2 : s2.answered (d.isLoad && d.set) = true := by
    rw [touched_answered e2.touched, d2, d3]
    cases isLoad with
    | true => exact ha
    | false =>
      cases set with
      | true => exact absurd (hset rfl) (by decide)
      | false => exact ha
  rw [startAccess_now (d := { d with pa := pa, pgm := pgm }) hl2 ha2] at hrun
  generalize hv : ({ s2 with env := { s2.env with latency := s2.env.latency.drop 1 } } : State) = v at hrun
  generalize hdd : ({ d with pa := pa, pgm := pgm, left := 0 } : Access) = dd at hrun
  have f1 : dd.ctl = ctl := by rw [← hdd]; exact d1
  have f2 : dd.isLoad = isLoad := by rw [← hdd]; exact d2
  have f3 : dd.set = set := by rw [← hdd]; exact d3
  have f5 : dd.tr = tr := by rw [← hdd]; exact d5
  have f7 : dd.data = data := by rw [← hdd]; exact d7
  have f8 : dd.discard = false := by rw [← hdd]; exact d8
  have f9 : dd.pa = pa := by rw [← hdd]
  have hav : v.answered (dd.isLoad && dd.set) = true := by
    rw [← hv, ← hdd]
    exact ha2
  have hc := complete_ok hav
  have ht := e2.touched
  have hvi : v.idm = s1.idm := by rw [← hv, ht]
  have hvr : v.rom = s1.rom := by rw [← hv, ht]
  have hcong := access_congr (s := s1) (t := v) (by rw [← hv, ht]) hvi hvr
  have hvg : v.gpr = s1.gpr := by rw [← hv, ht]
  have hv1 : v.gr1 = s1.gr1 := by rw [← hv, ht]
  have hvs : v.sps = s1.sps := by rw [← hv, ht]
  have hvf : v.frozen = s1.frozen := by rw [← issue_frozen e2 e5, ← hv]; rfl
  have hregs : ∀ a, implemented a = true → v.readReg .A a = s1.readReg .A a :=
    fun a ha => State.readReg_congr hvg hv1 _ ha
  refine ⟨v.complete dd, hrun, ?_, hc.inflight, ?_, ?_, ?_⟩
  · have := accessEnds_of e2 rfl e4 e5 (u := v.complete dd) false (by rw [hc.chc, hvf, ← hv])
      (by rw [← hv]; simp)
      (by rw [← hv]; simp)
    rw [d1, d2, d3, d4, d5, d6, d7] at this
    exact this
  · intro k hk
    rw [← e3 k hk]
    unfold State.tlbReg
    rw [State.complete_tlb, ← hv]
  · intro hload
    obtain ⟨w, w1, w2, w3, w4⟩ := hc.load (by rw [f2]; exact hload)
    rw [f1, f9] at w1
    rw [f8, f5] at w2
    rw [f8, f5, if_neg (by decide)] at w3
    rw [f3, f1, f9] at w4
    have hsps := hc.sps
    rw [f2, f8, f5, hload] at hsps
    refine ⟨w, (hcong ctl pa w).1.mp w1, ?_, ?_, ?_, ?_, ?_⟩
    · intro hi; exact w2 rfl hi
    · intro a ha hn; rw [w3 a ha hn, hregs a ha]
    · intro h1; rw [if_pos ⟨rfl, rfl, h1⟩] at hsps; rw [hsps]; rfl
    · intro h1; rw [if_neg (by simp [h1]), hvs] at hsps; exact hsps
    · cases set with
      | true => rw [if_pos rfl] at w4 ⊢; exact ((hcong _ _ _).2 _).mp w4
      | false => rw [if_neg (by decide)] at w4 ⊢; intro a; have := w4 a; rwa [hvi, hvr] at this
  · intro hload
    obtain ⟨w1, w2⟩ := hc.store (by rw [f2]; exact hload)
    have hsps := hc.sps
    rw [f2, hload, if_neg (by simp)] at hsps
    rw [f1, f9, f7] at w2
    refine ⟨?_, ?_, ?_⟩
    · intro a ha hn; rw [w1 a ha hn, hregs a ha]
    · rw [hsps, hvs]
    · exact ((hcong _ _ _).2 _).mp w2

theorem retire_regs {s1 u : State} {e : List RegNum} (h : SameRegs s1 u e) : SameRegs s1 u.retire e := by
  intro a ha hn
  rw [State.readReg_congr (s := u) (by simp) (by simp) _ ha, h a ha hn]

/-- The system answers after some instructions (92 D10). -/
theorem startAccess_late {u : State} {d : Access} {n : Nat} (h : u.env.latency.headD 0 = n + 1) :
    u.startAccess d =
      { u with inflight := some { d with left := n + 1 }, env := { u.env with latency := u.env.latency.drop 1 } } := by
  unfold State.startAccess
  rw [h]

/-- A load or store that stays in flight (20 R144, 92 D10). -/
theorem loadStore_late {s : State} {ctl : BitVec 8} {ra : RegNum} {rb : Src2} (h : s.MayAccess ctl ra rb)
    (isLoad set la : Bool) (pa : Word) (tlb : Nat → Word) :
    let s1 := s.drain
    let tr := s.absReg .A ra
    let addr := s1.srcValue (s.resolve rb)
    let data := if isLoad then 0#32 else s1.readReg .A tr
    s1.Goes ctl (if isLoad then (if set then .loadset else .load) else .store) addr pa tlb →
      ∀ n, s1.env.latency.headD 0 = n + 1 →
        ∃ t d, s.loadStore isLoad set la ctl ra rb = .next t ∧ t.inflight = some d ∧ d.isLoad = isLoad ∧ d.set = set ∧
          d.ctl = ctl ∧ d.tr = tr ∧ d.pa = pa ∧ d.data = data ∧ d.discard = false ∧ d.left = n + 1 ∧ SameRegs s1 t [] ∧
          t.sps.now = s1.sps.now ∧ SameMemory s1 t ∧ t.TlbIs tlb ∧
          AccessEnds s1 t ctl isLoad set la tr addr data true := by
  intro s1 tr addr data hg n hl
  have hrun := loadStore_run h isLoad set la
  generalize hd : s.drain.descriptor isLoad set la ctl (s.absReg .A ra) (s.drain.srcValue (s.resolve rb))
    (if isLoad then 0#32 else s.drain.readReg .A (s.absReg .A ra)) = d at hrun
  have d1 : d.ctl = ctl := by rw [← hd]; rfl
  have d2 : d.isLoad = isLoad := by rw [← hd]; rfl
  have d3 : d.set = set := by rw [← hd]; rfl
  have d4 : d.la = la := by rw [← hd]; rfl
  have d5 : d.tr = tr := by rw [← hd]; rfl
  have d6 : d.addr = addr := by rw [← hd]; rfl
  have d7 : d.data = data := by rw [← hd]; rfl
  have d8 : d.discard = false := by rw [← hd]; rfl
  have d9 : d.user = s1.asUser d.ctl := by rw [← hd]; rfl
  have d10 : d.want = if isLoad then (if set then .loadset else .load) else .store := by rw [Access.want, d2, d3]
  obtain ⟨pgm, s2, e1, e2, e3, e4, e5⟩ :=
    issue_goes (ml := false) (cr := s1.countRemaining) d9 (by rw [d1, d6, d10]; exact hg)
  rw [e1] at hrun
  dsimp only at hrun
  have hl2 : s2.env.latency.headD 0 = n + 1 := by rw [e2.touched]; exact hl
  rw [startAccess_late hl2] at hrun
  have ht := e2.touched
  have hfr := issue_frozen e2 e5
  refine ⟨_, { d with pa := pa, pgm := pgm, left := n + 1 }, hrun, by rw [State.retire_inflight], d2, d3, d1, d5, rfl, d7, d8,
    rfl, ?_, ?_, ?_, ?_, ?_⟩
  · refine retire_regs ?_
    intro a ha _
    exact State.readReg_congr (by show s2.gpr = _; rw [ht]) (by show s2.gr1 = _; rw [ht]) _ ha
  · rw [State.retire_sps]
    show s2.sps.now = _
    rw [ht]
  · intro a
    rw [State.retire_idm, State.retire_rom]
    show Memory.read s2.idm a = _ ∧ Memory.read s2.rom a = _
    rw [ht]; exact ⟨rfl, rfl⟩
  · intro k hk
    rw [← e3 k hk]
    unfold State.tlbReg
    rw [State.retire_tlb]
  · have key : ∀ u : State, u = { s2 with inflight := u.inflight, env := u.env } →
        AccessEnds s1 u.retire d.ctl d.isLoad d.set d.la d.tr d.addr d.data true := by
      intro u hu
      refine accessEnds_of e2 rfl e4 e5 true ?_ (by rw [hu]; simp) (by rw [hu]; simp)
      rw [hu]
      cases hf : s1.frozen with
      | true => rfl
      | false =>
        have := e2.channel.chc
        rw [hf, if_neg (by decide), ← channelControl_true] at this
        rw [if_neg (by decide)]
        show s2.chc = _
        rw [this, channelControl_cv, ← channelControl_true]
    rw [← d1, ← d2, ← d3, ← d4, ← d5, ← d6, ← d7]
    exact key _ rfl

end Sys2Proof.Machine
end

