-- ==== Sys2Proof/Laws/Step.lean ====
section
/-! SUPPORT. The instruction boundary: what is sampled, which event comes first, and what a return restores. -/

namespace Sys2Proof.Machine

/-- The boundary with neither `*RESET` nor `*WARN`: the mode decides (60 R612 to R615). -/
theorem boundary_mode {s : State} (hr : s.nextPins.reset = false) (hw : s.warnPending = false)
    (hw2 : s.nextPins.warn = true → s.pins.warn = true) :
    s.boundary =
      if cntlJump s.pins.cntl s.nextPins.cntl && s.mode != .reset && s.mode != .starting then .ended (.fault .cntlTransition)
      else s.samplePins.modeStep s.pins.cntl := by
  have hp : s.samplePins.warnPending = false := by
    show ((s.warnPending || (s.nextPins.warn && !s.pins.warn)) && !s.nextPins.reset) = false
    rw [hr, hw]
    cases hn : s.nextPins.warn with
    | false => rfl
    | true => rw [hw2 hn]; rfl
  unfold State.boundary
  show (if s.nextPins.reset = true then _ else _) = _
  rw [hr, if_neg (by decide), hp, if_neg (by decide)]
  rfl

/-- What the taking of `*WARN` keeps, and where it goes (60 R580). -/
theorem takeWarn_kept (s : State) :
    s.takeWarn.gpr = s.gpr ∧ s.takeWarn.gr1 = s.gr1 ∧ s.takeWarn.idm = s.idm ∧ s.takeWarn.rom = s.rom ∧
      s.takeWarn.cha = s.cha ∧ s.takeWarn.chd = s.chd ∧ s.takeWarn.chc = s.chc ∧ s.takeWarn.mode = .starting ∧
      s.takeWarn.pc = 4#30 ∧ s.takeWarn.npc = 5#30 ∧ s.takeWarn.pc1 = s.pc1View := by
  have habs : ∃ e, s.capturePcs.abandon = { s.capturePcs with inflight := none, env := e } := by
    unfold State.abandon
    cases h : s.capturePcs.inflight with
    | none =>
      refine ⟨s.capturePcs.env, ?_⟩
      generalize s.capturePcs = u at h
      cases u
      simp only at h
      subst h
      rfl
    | some d => exact ⟨_, rfl⟩
  obtain ⟨e, he⟩ := habs
  unfold State.takeWarn
  simp only [he]
  refine ⟨?_, ?_, ?_, ?_, ?_, ?_, ?_, ?_, ?_, ?_, ?_⟩ <;>
    first
    | rfl
    | simp [State.turnHere, State.settleEffects, State.capturePcs]

/-- A boundary at which nothing is asked for: execution goes on (60 R545). -/
theorem quiet_boundary {s : State} (h : s.Quiet) : s.boundary = .run s.samplePins := by
  obtain ⟨h1, h2, ⟨h3, h3'⟩, ⟨h4, h4'⟩, h5⟩ := h
  have hj : cntlJump s.pins.cntl s.nextPins.cntl = false := by
    rw [h4]
    revert h4'
    cases s.pins.cntl <;> intro h <;> first | rfl | exact absurd rfl h
  rw [boundary_mode h2 h3 h3', hj]
  simp only [Bool.false_and, Bool.false_eq_true, if_false]
  unfold State.modeStep
  rw [show s.samplePins.mode = .executing from h1, show s.samplePins.pins.cntl = .normal from h4]

/-- A step at a quiet boundary (60 R545). -/
theorem step_quiet {s : State} (h : s.Quiet) : step s =
    match s.samplePins.prepare with
    | .ended r => r
    | .instr w s2 => runWord w s2 := by
  unfold step
  rw [quiet_boundary h]
  have hm : (s.samplePins.mode == Mode.step) = false := by
    rw [show s.samplePins.mode = .executing from h.mode]; rfl
  simp only [hm]
  cases s.samplePins.prepare <;> rfl

/-- What follows a quiet boundary (60 R545). -/
theorem prepare_eq (s : State) : s.samplePins.prepare =
  match s.atBoundary.asyncEvent with
  | some (prio, vn) => .ended (s.atBoundary.takeAsync prio vn)
  | none =>
    if s.atBoundary.cps.getLsbD cpsWM then .ended (.next s.atBoundary)
    else if s.atBoundary.irValid then .instr s.atBoundary.ir { s.atBoundary with testing := true }
    else
      match s.atBoundary.fetch with
      | .trap vn s2 => .ended (s2.raiseCurr vn)
      | .held s2 => .ended (.next s2.hold)
      | .word w s2 => .instr w s2 := rfl

/-- The state at a boundary with nothing in flight. -/
theorem atBoundary_quiet (s : State) (hi : s.inflight = none) : s.atBoundary =
    { s with
      clock := s.clock + 1
      pins := s.nextPins
      warnPending := (s.warnPending || (s.nextPins.warn && !s.pins.warn)) && !s.nextPins.reset
      tmc := s.atBoundary.tmc
      tmr := s.atBoundary.tmr
      env := s.atBoundary.env } := by
  unfold State.atBoundary State.accessTick
  have : s.samplePins.stepCycles.inflight = none := hi
  simp only [this]
  rfl

/-- What a boundary of the access in flight leaves alone. -/
theorem accessTick_same (s : State) : s.accessTick.irValid = s.irValid ∧ s.accessTick.pc = s.pc ∧ s.accessTick.npc = s.npc ∧
    s.accessTick.ppc = s.ppc ∧ s.accessTick.mode = s.mode ∧ s.accessTick.cps = s.cps ∧
    s.accessTick.env.fetches = s.env.fetches ∧ s.accessTick.pins = s.pins ∧ s.accessTick.tmc = s.tmc ∧
    s.accessTick.tmr = s.tmr ∧ s.accessTick.testing = s.testing := by
  unfold State.accessTick
  split
  · exact ⟨rfl, rfl, rfl, rfl, rfl, rfl, rfl, rfl, rfl, rfl, rfl⟩
  · split
    · unfold State.settle State.drain
      split
      · simp
      · split
        · simp
        · simp
    · exact ⟨rfl, rfl, rfl, rfl, rfl, rfl, rfl, rfl, rfl, rfl, rfl⟩

/-- What a boundary leaves alone, and the Timer after it (60 R605). -/
theorem atBoundary_same (s : State) : s.atBoundary.irValid = s.irValid ∧ s.atBoundary.pc = s.pc ∧ s.atBoundary.npc = s.npc ∧
    s.atBoundary.ppc = s.ppc ∧ s.atBoundary.mode = s.mode ∧ s.atBoundary.cps = s.cps ∧
    s.atBoundary.env.fetches = s.env.fetches ∧ s.atBoundary.pins = s.nextPins ∧
    (s.atBoundary.tmc, s.atBoundary.tmr) = timerCycles (1 + s.env.cycles.headD 0) s.tmc s.tmr := by
  obtain ⟨a, b, c, d, e, f, g, h, i, j, k⟩ := accessTick_same s.samplePins.stepCycles
  unfold State.atBoundary
  exact ⟨a, b, c, d, e, f, g, h, by rw [i, j]; rfl⟩

/-- An interrupt is asserted and enabled. -/
theorem interrupt_iff (s : State) (i : Nat) : (s.pins.intr.getLsbD i && s.intrEnabled i) = true ↔
    (s.cps.getLsbD 0 = false ∧ s.cps.getLsbD 1 = false ∧ i ≤ s.cps.toNat / 4 % 4 ∧ s.pins.intr.getLsbD i = true) := by
  rw [Bool.and_eq_true, intrEnabled_iff]
  tauto

/-- The event that is taken is the pending one of the highest priority (60 R532). -/
theorem asyncEvent_cases (s : State) :
    (s.asyncEvent = none ∧ ∀ p, ¬s.Pending p) ∨
      ∃ p, 4 ≤ p ∧ p ≤ 12 ∧ s.asyncEvent = some (p, s.eventVector p) ∧ s.Pending p ∧ ∀ q, 4 ≤ q → q < p → ¬s.Pending q := by
  cases hd : s.derr with
  | some v =>
    refine .inr ⟨4, by omega, by omega, ?_, .inl (by rw [hd]; simp), fun q h1 h2 => by omega⟩
    unfold State.asyncEvent
    simp [State.eventVector, hd]
  | none =>
    have h4 : s.Pending 4 ↔ (s.chc.getLsbD chcTF && !s.fz) = true := by
      simp only [State.Pending, hd, State.fz, chcTF, cpsFZ]
      simp [-BitVec.getLsbD_eq_getElem]
    have v4 : s.eventVector 4 = if s.chc.getLsbD chcCE then 4#8 else 7#8 := by
      simp only [State.eventVector, hd]
      rfl
    have h7 : s.Pending 7 ↔ (s.pins.intr.getLsbD 0 && s.intrEnabled 0) = true := (interrupt_iff s 0).symm
    have h8 : s.Pending 8 ↔ (s.pins.intr.getLsbD 1 && s.intrEnabled 1) = true := (interrupt_iff s 1).symm
    have h9 : s.Pending 9 ↔ (s.pins.intr.getLsbD 2 && s.intrEnabled 2) = true := (interrupt_iff s 2).symm
    have h10 : s.Pending 10 ↔ (s.pins.intr.getLsbD 3 && s.intrEnabled 3) = true := (interrupt_iff s 3).symm
    have hall : ∀ p, s.Pending p → 4 ≤ p ∧ p ≤ 12 := by
      intro p hp
      unfold State.Pending at hp
      split at hp <;> first | omega | exact hp.elim
    unfold State.asyncEvent
    rw [hd]
    simp only
    split
    · next n4 => exact .inr ⟨4, by omega, by omega, by rw [v4], h4.mpr n4, fun q h1 h2 => by omega⟩
    · next n4 =>
      have g4 : ¬s.Pending 4 := fun h => n4 (h4.mp h)
      split
      · next h0 =>
        have h0 : s.cps.getLsbD 0 = true := h0
        refine .inl ⟨rfl, fun p hp => ?_⟩
        obtain ⟨a, b⟩ := hall p hp
        have hx : p = 4 ∨ s.cps.getLsbD 0 = false := by
          interval_cases p
          · exact .inl rfl
          all_goals exact .inr hp.1
        rcases hx with rfl | hx
        · exact g4 hp
        · rw [h0] at hx
          cases hx
      · next h0 =>
        have h0 : s.cps.getLsbD 0 = false := by
          have h1 : ¬s.cps.getLsbD 0 = true := h0
          simpa [-BitVec.getLsbD_eq_getElem] using h1
        have h5 : s.Pending 5 ↔ s.pins.trap0 = true := ⟨fun h => h.2, fun h => ⟨h0, h⟩⟩
        have h6 : s.Pending 6 ↔ s.pins.trap1 = true := ⟨fun h => h.2, fun h => ⟨h0, h⟩⟩
        have h11 : s.Pending 11 ↔ (s.tmr.getLsbD tmrIE && s.tmr.getLsbD tmrIN) = true := by
          rw [Bool.and_eq_true]
          exact ⟨fun h => h.2, fun h => ⟨h0, h⟩⟩
        have h12 : s.Pending 12 ↔ s.cps.getLsbD cpsTP = true := ⟨fun h => h.2, fun h => ⟨h0, h⟩⟩
        have last : ∀ p, 4 ≤ p → p ≤ 12 → s.Pending p → (∀ q, 4 ≤ q → q < p → ¬s.Pending q) →
            (some (p, s.eventVector p) = none ∧ ∀ p, ¬s.Pending p) ∨
              ∃ p', 4 ≤ p' ∧ p' ≤ 12 ∧ some (p, s.eventVector p) = some (p', s.eventVector p') ∧ s.Pending p' ∧
                ∀ q, 4 ≤ q → q < p' → ¬s.Pending q := fun p h1 h2 h3 h4 => .inr ⟨p, h1, h2, rfl, h3, h4⟩
        by_cases g5 : s.Pending 5
        · rw [if_pos (h5.mp g5)]
          exact last 5 (by omega) (by omega) g5 fun q a b => by interval_cases q; exact g4
        rw [if_neg (mt h5.mpr g5)]
        by_cases g6 : s.Pending 6
        · rw [if_pos (h6.mp g6)]
          exact last 6 (by omega) (by omega) g6 fun q a b => by interval_cases q <;> assumption
        rw [if_neg (mt h6.mpr g6)]
        by_cases g7 : s.Pending 7
        · rw [if_pos (h7.mp g7)]
          exact last 7 (by omega) (by omega) g7 fun q a b => by interval_cases q <;> assumption
        rw [if_neg (mt h7.mpr g7)]
        by_cases g8 : s.Pending 8
        · rw [if_pos (h8.mp g8)]
          exact last 8 (by omega) (by omega) g8 fun q a b => by interval_cases q <;> assumption
        rw [if_neg (mt h8.mpr g8)]
        by_cases g9 : s.Pending 9
        · rw [if_pos (h9.mp g9)]
          exact last 9 (by omega) (by omega) g9 fun q a b => by interval_cases q <;> assumption
        rw [if_neg (mt h9.mpr g9)]
        by_cases g10 : s.Pending 10
        · rw [if_pos (h10.mp g10)]
          exact last 10 (by omega) (by omega) g10 fun q a b => by interval_cases q <;> assumption
        rw [if_neg (mt h10.mpr g10)]
        by_cases g11 : s.Pending 11
        · rw [if_pos (h11.mp g11)]
          exact last 11 (by omega) (by omega) g11 fun q a b => by interval_cases q <;> assumption
        rw [if_neg (mt h11.mpr g11)]
        by_cases g12 : s.Pending 12
        · rw [if_pos (h12.mp g12)]
          exact last 12 (by omega) (by omega) g12 fun q a b => by interval_cases q <;> assumption
        rw [if_neg (mt h12.mpr g12)]
        refine .inl ⟨rfl, fun p hp => ?_⟩
        obtain ⟨a, b⟩ := hall p hp
        interval_cases p <;> contradiction

/-- An exception held outside the channel registers does not matter to a completion. -/
theorem transfer_derr (u : State) (d : Access) :
    ({ u with derr := none } : State).transfer d = { u.transfer d with derr := none } := by
  have hb : ∀ (u : State) v, ({ u with derr := none } : State).busWrite d v = { u.busWrite d v with derr := none } := by
    intro u v
    unfold State.busWrite
    have : ({ u with derr := none } : State).accessSpace d.ctl = u.accessSpace d.ctl := rfl
    rw [this]
    cases u.accessSpace d.ctl <;> rfl
  have hs : ∀ (u : State) b a v, ({ u with derr := none } : State).storeReg b a v = { u.storeReg b a v with derr := none } := by
    intro u b a v
    unfold State.storeReg
    split
    · rfl
    · split <;> rfl
  have hr : ({ u with derr := none } : State).busRead d = u.busRead d := rfl
  unfold State.transfer
  cases d.isLoad
  · exact hb u _
  · simp only [if_true, hr]
    cases d.set
    · cases d.discard
      · exact hs u _ _ _
      · rfl
    · simp only [if_true, hb]
      cases d.discard
      · exact hs _ _ _ _
      · rfl

theorem clearCv_derr (u : State) : ({ u with derr := none } : State).clearCv = { u.clearCv with derr := none } := by
  unfold State.clearCv
  have : ({ u with derr := none } : State).frozen = u.frozen := rfl
  rw [this]
  split <;> rfl

theorem drain_derr {u : State} (h : u.settlement = .ends) :
    ∃ x, ({ u with derr := none } : State).drain = { u.drain with derr := x } := by
  refine ⟨none, ?_⟩
  have hcase : u.inflight = none ∨ ∃ d, u.inflight = some d := by cases u.inflight <;> simp
  rcases hcase with hi | ⟨d, hi⟩
  · unfold State.drain
    simp only [hi]
  · have hf : u.answer d = .ready := by
      rw [State.settlement, hi] at h
      simp only at h
      cases ha : u.answer d <;> rw [ha] at h <;> first | rfl | cases h
    have e1 : ({ u with derr := none } : State).drain = ({ u with derr := none } : State).complete d := by
      unfold State.drain
      simp only [hi]
    have e2 : u.drain = u.complete d := by
      unfold State.drain
      simp only [hi]
    have e3 : ({ u with derr := none } : State).complete d = ((({ u with derr := none } : State).endAccess d).transfer d).clearCv := by
      have hf' : ({ u with derr := none } : State).answer d = .ready := hf
      unfold State.complete
      rw [hf']
      rfl
    have e4 : u.complete d = ((u.endAccess d).transfer d).clearCv := by
      unfold State.complete
      rw [hf]
      rfl
    have e5 : ((({ u with derr := none } : State).endAccess d).transfer d).clearCv = { u.drain with derr := none } := by
      rw [e2, e4]
      exact (congrArg State.clearCv (transfer_derr (u.endAccess d) d)).trans (clearCv_derr _)
    exact e1.trans (e3.trans e5)

theorem pending_none {s : State} (h : ∀ p, 4 ≤ p → p ≤ 12 → ¬s.Pending p) : s.asyncEvent = none := by
  rcases asyncEvent_cases s with h1 | ⟨p, h1, h2, h3, h4, h5⟩
  · exact h1.1
  · exact absurd h4 (h p h1 h2)

theorem pending_some {s : State} {p : Nat} (h1 : 4 ≤ p) (h : s.Pending p)
    (hm : ∀ q, 4 ≤ q → q < p → ¬s.Pending q) :
    s.asyncEvent = some (p, s.eventVector p) := by
  rcases asyncEvent_cases s with ⟨_, h3⟩ | ⟨q, a, b, c, d, e⟩
  · exact absurd h (h3 p)
  · rcases Nat.lt_trichotomy p q with hpq | rfl | hpq
    · exact absurd h (e p h1 hpq)
    · exact c
    · exact absurd d (hm q a hpq)

/-- What the restored status and the capture of the program counters leave (60 R571). -/
theorem restoreStatus_eq (s : State) : ∃ m, s.restoreStatus =
    { State.underOps s with
      pc0 := if s.cps.getLsbD 10 = false ∧ s.ops.getLsbD 10 = true then s.npc ++ 0#2 else s.pc0
      pc1 := if s.cps.getLsbD 10 = false ∧ s.ops.getLsbD 10 = true then s.pc ++ 0#2 else s.pc1
      pc2 := if s.cps.getLsbD 10 = false ∧ s.ops.getLsbD 10 = true then s.ppc ++ 0#2 else s.pc2
      oldMaps := m } := by
  have hc : ∀ u : State, u.ops = s.ops → ∃ m, u.setCps s.ops = { u with cps := s.ops &&& 0xFFFFBFFF#32, oldMaps := m } := by
    intro u _
    unfold State.setCps
    split
    · exact ⟨u.oldMaps, rfl⟩
    · exact ⟨_, rfl⟩
  unfold State.restoreStatus State.fz cpsFZ
  by_cases h : s.cps.getLsbD 10 = false ∧ s.ops.getLsbD 10 = true
  · rw [if_pos h, if_pos h, if_pos h, h.1, h.2, if_pos (by rfl)]
    obtain ⟨m, hm⟩ := hc s.capturePcs rfl
    refine ⟨m, ?_⟩
    rw [hm]
    unfold State.capturePcs State.pc0View State.pc1View State.pc2View State.fz cpsFZ byteAddr State.underOps
    rw [h.1]
    rfl
  · rw [if_neg h, if_neg h, if_neg h, if_neg]
    · obtain ⟨m, hm⟩ := hc s rfl
      exact ⟨m, hm⟩
    · intro hx
      apply h
      revert hx
      cases s.cps.getLsbD 10 <;> cases s.ops.getLsbD 10 <;> simp

/-- `CHC` as the next transfer of a sequence records it (44 R386). -/
theorem channelControl_next (ctl cr : BitVec 8) (l : Bool) (tr : RegNum) (d : Access) (h1 : d.ctl = ctl)
    (h2 : d.isLoad = l) (h3 : d.set = false) (h4 : d.la = false) (h5 : d.tr = tr) :
    channelControl d true cr = ctl ++ cr ++ BitVec.ofBool l ++ 1#1 ++ 0#4 ++ tr ++ 1#2 := by
  unfold channelControl bitOf
  rw [h1, h2, h3, h4, h5]
  apply BitVec.eq_of_getLsbD_eq
  intro i hi
  simp only [BitVec.getLsbD_append]
  interval_cases i <;> simp

/-- What is due before a fetch changes what hidden copies are told by alone (20 R171, R173). -/
theorem discardPrefetch_eq (s : State) : s.discardPrefetch =
    { s with lastNonseq := s.discardPrefetch.lastNonseq, block := s.discardPrefetch.block } := by
  unfold State.discardPrefetch
  split <;> rfl

/-- The source of a fetch that raises no trap (20 R141). -/
theorem fetchSource_at {s : State} {rom : Bool} {pa : IAddr} {tlb : Nat → Word} (hat : s.FetchesAt rom pa tlb) (e : Env)
    (l : Nat) (b : Block) :
    ∃ tl, ({ s with tlb := tl } : State).TlbIs tlb ∧
      ({ s with env := e, lastNonseq := l, block := b } : State).fetchSource false =
        .ok rom pa { s with env := e, lastNonseq := l, block := b, tlb := tl } := by
  unfold State.FetchesAt at hat
  simp only at hat
  unfold State.fetchSource
  simp only [Bool.false_eq_true, if_false]
  split at hat
  · next hx =>
    obtain ⟨ha, hp, rfl, set, hhit, hperm, hpa, htl⟩ := hat
    obtain ⟨pgm, tl, lru, ht1, _, ht2⟩ := State.translate_hit (s := { s with env := e, lastNonseq := l, block := b })
      (va := s.pc ++ 0#2) (want := .fetch) (user := !s.cps.getLsbD 4) ha (fun _ => hp) hhit
    rw [show permits (({ s with env := e, lastNonseq := l, block := b } : State).entry0 (s.pc ++ 0#2) set) .fetch
      (!s.cps.getLsbD 4) = true from hperm, if_pos rfl] at ht2
    have hcond : (!s.cps.getLsbD cpsPI && !s.cps.getLsbD cpsRE) = true := by
      rw [show s.cps.getLsbD cpsPI = false from hx.1, show s.cps.getLsbD cpsRE = false from hx.2]; rfl
    refine ⟨tl, ?_, ?_⟩
    · rw [htl]; exact ht1
    · rw [if_pos hcond]
      have ht2' : ({ s with env := e, lastNonseq := l, block := b } : State).translate (byteAddr s.pc) .fetch
        (!s.cps.getLsbD cpsSM) = _ := ht2
      rw [ht2', hpa]; rfl
  · next hx =>
    obtain ⟨hr, hpa, htl⟩ := hat
    have hcond : ¬(!s.cps.getLsbD cpsPI && !s.cps.getLsbD cpsRE) = true := by
      intro hc
      apply hx
      simp only [Bool.and_eq_true, Bool.not_eq_true'] at hc
      exact hc
    refine ⟨s.tlb, ?_, ?_⟩
    · rw [htl]; exact fun _ _ => rfl
    · rw [if_neg hcond, hr, hpa]; rfl

/-- Outside the window of a page size a fetch leaves the older mappings (20 R177). -/
theorem rememberWindow_at {s : State} {rom : Bool} {pa : IAddr} {tlb : Nat → Word} (hat : s.FetchesAt rom pa tlb)
    (l : Nat) (b : Block) (tl : Vector Word 128) (o : Bool) :
    ({ s with lastNonseq := l, block := b, tlb := tl } : State).rememberWindow o =
      { s with lastNonseq := l, block := b, tlb := tl } := by
  unfold State.FetchesAt at hat
  unfold State.rememberWindow State.fetchesInWindow
  simp only at hat ⊢
  rw [if_neg]
  split at hat
  · obtain ⟨ha, hp, -⟩ := hat
    simp [ha, hp]
  · next hx =>
    intro h
    simp only [Bool.and_eq_true, Bool.not_eq_true'] at h
    exact hx h.1.1

/-- A fetch for which the system chooses nothing (20 R141): the word of memory, and what is left. -/
theorem fetch_word {s : State} {rom : Bool} {pa : IAddr} {tlb : Nat → Word} (hat : s.FetchesAt rom pa tlb)
    (hf : s.env.fetches = []) :
    ∃ t, s.fetch = .word (Memory.readWord (if rom then s.rom else s.idm) pa) t ∧ Fetches s t tlb := by
  have hc : s.fetchChoice = { answer := .ready, oldStream := false, copy := 0 } := by rw [State.fetchChoice, hf]; rfl
  have he : ({ s with env := { s.env with fetches := s.env.fetches.drop 1 } } : State) = s := by
    have : ∀ e : Env, e.fetches = [] → { e with fetches := e.fetches.drop 1 } = e := by
      intro e h
      cases e
      simp only at h
      subst h
      rfl
    rw [this _ hf]
  unfold State.fetch
  simp only [hc, he]
  have hturn : s.discardPrefetch.lastNonseq = s.discardPrefetch.lastNonseq ∧
      s.discardPrefetch.block.left = if s.turn = none then s.block.left else if s.cdInForce then 0 else 4 := by
    refine ⟨rfl, ?_⟩
    unfold State.discardPrefetch
    cases s.turn <;> rfl
  rw [discardPrefetch_eq]
  obtain ⟨tl, h1, h2⟩ := fetchSource_at hat s.env s.discardPrefetch.lastNonseq s.discardPrefetch.block
  have h2' : ({ s with lastNonseq := s.discardPrefetch.lastNonseq, block := s.discardPrefetch.block } : State).fetchSource
    false = _ := h2
  rw [h2']
  simp only
  have hw := rememberWindow_at hat s.discardPrefetch.lastNonseq s.discardPrefetch.block tl false
  replace hw : ({ s with lastNonseq := s.discardPrefetch.lastNonseq, block := s.discardPrefetch.block, tlb := tl } :
    State).rememberWindow false = _ := hw
  refine ⟨_, rfl, ?_⟩
  rw [hw]
  cases ht : s.turn with
  | none =>
    rw [ht, if_pos rfl] at hturn
    constructor
    · simp [State.turned, ht]
    · simp only [State.turned, ht]; exact h1
    · simp [State.turned, ht]
    · simp [State.turned, ht, hturn.2]
  | some x =>
    rw [ht, if_neg (by simp)] at hturn
    constructor
    · simp [State.turned, ht]
    · simp only [State.turned, ht]; exact h1
    · simp [State.turned, ht, cfgCD]
    · simp [State.turned, ht, hturn.2]

/-- A fetch that is not served by an older prefetch stream traps on a miss, on a refusal by the permissions, and on `*IERR`
(20 R141), and leaves but the TLB, `LRU` and the records of fetches. -/
theorem fetch_traps {x : State} (hs : x.stream = none) (hage : x.mmu.age ≠ 1) (hps : x.psTarget ≠ 1) :
    let va : Word := x.pc ++ 0#2
    let translated := x.cps.getLsbD 5 = false ∧ x.cps.getLsbD 8 = false
    (translated → x.TlbMiss va →
      ∃ t : State, x.fetch = .trap (if x.cps.getLsbD 4 then 10#8 else 8#8) t ∧ RecommendsFor x va t.lru ∧
        t = { x with
          lru := t.lru, env := { x.env with fetches := x.env.fetches.drop 1 }, lastNonseq := t.lastNonseq, block := t.block }) ∧
    (∀ e, translated → x.TlbHit va e → permits (x.entry0 va e) .fetch (!x.cps.getLsbD 4) = false →
      ∃ t : State, x.fetch = .trap 12#8 t ∧ t.lru &&& 0xFFFFFF81#32 = 0#32 ∧ t.TlbIs (x.usedTlb va e) ∧
        t = { x with
          tlb := t.tlb, lru := t.lru, env := { x.env with fetches := x.env.fetches.drop 1 }, lastNonseq := t.lastNonseq, block := t.block }) ∧
    ∀ rom pa tlb, x.FetchesAt rom pa tlb → x.fetchChoice.answer = .error →
      ∃ t : State, x.fetch = .trap 6#8 t ∧ t.TlbIs tlb ∧
        t = { x with
          tlb := t.tlb, env := { x.env with fetches := x.env.fetches.drop 1 }, lastNonseq := t.lastNonseq, block := t.block,
          turn := t.turn, cdInForce := t.cdInForce } := by
  intro va translated
  have hfetch : ∃ ln bl, x.fetch =
      match
        ({ x with env := { x.env with fetches := x.env.fetches.drop 1 }, lastNonseq := ln, block := bl } : State).fetchSource false with
      | .trap vn u => .trap vn u
      | .ok rom pa u => match x.fetchChoice.answer with
        | .error => .trap 6#8 u.turned
        | .never => .held u
        | .ready => x.fetch := by
    unfold State.fetch
    have hd : ∃ ln bl, ({ x with env := { x.env with fetches := x.env.fetches.drop 1 } } : State).discardPrefetch =
        { x with env := { x.env with fetches := x.env.fetches.drop 1 }, lastNonseq := ln, block := bl } := by
      unfold State.discardPrefetch
      split
      · exact ⟨x.lastNonseq, x.block, rfl⟩
      · exact ⟨_, _, rfl⟩
    obtain ⟨ln, bl, hd⟩ := hd
    refine ⟨ln, bl, ?_⟩
    simp only [hd]
    have hsrc : ∀ b,
        ({ x with env := { x.env with fetches := x.env.fetches.drop 1 }, lastNonseq := ln, block := bl } : State).fetchSource b =
          ({ x with env := { x.env with fetches := x.env.fetches.drop 1 }, lastNonseq := ln, block := bl } : State).fetchSource false := by
      intro b
      unfold State.fetchSource State.streamServes
      simp only [hs]
      cases b <;> rfl
    rw [hsrc]
    generalize ({ x with env := { x.env with fetches := x.env.fetches.drop 1 }, lastNonseq := ln, block := bl } : State).fetchSource false = y
    cases y with
    | trap => rfl
    | ok => cases x.fetchChoice.answer <;> rfl
  obtain ⟨ln, bl, hfetch⟩ := hfetch
  generalize hs2 : ({ x with env := { x.env with fetches := x.env.fetches.drop 1 }, lastNonseq := ln, block := bl } : State) = s2 at hfetch
  have src : s2.fetchSource false = if !x.cps.getLsbD cpsPI && !x.cps.getLsbD cpsRE then
      match s2.translate va .fetch (!x.cps.getLsbD cpsSM) with
      | .miss s' => .trap (if x.cps.getLsbD cpsSM then 10#8 else 8#8) s'
      | .prot s' => .trap 12#8 s'
      | .ok pa _ s' => .ok false (wordAddr pa) s'
    else .ok (x.cps.getLsbD cpsRE) x.pc s2 := by
    rw [← hs2]; rfl
  have hage2 : s2.mmu.age ≠ 1 := by rw [← hs2]; exact hage
  have hps2 : s2.psTarget ≠ 1 := by rw [← hs2]; exact hps
  have hcond : translated → (!x.cps.getLsbD cpsPI && !x.cps.getLsbD cpsRE) = true := by
    rintro ⟨h5, h8⟩
    rw [show x.cps.getLsbD cpsPI = false from h5, show x.cps.getLsbD cpsRE = false from h8]; rfl
  refine ⟨?_, ?_, ?_⟩
  · intro hc hm
    have hm2 : s2.TlbMiss va := by rw [← hs2]; exact hm
    obtain ⟨lru, h1, h2, h3, h4⟩ := State.translate_miss (want := .fetch) (user := !x.cps.getLsbD cpsSM) hage2
      (fun _ => hps2) hm2
    rw [hcond hc, if_pos rfl, h4] at src
    rw [src] at hfetch
    refine ⟨_, hfetch, ?_, ?_⟩
    · rw [← hs2] at h1 h3; exact ⟨h1, h2, h3⟩
    · rw [← hs2]
  · intro e hc hh hperm
    have hh2 : s2.TlbHit va e := by rw [← hs2]; exact hh
    obtain ⟨pgm, tl, lru, h1, h2, h3⟩ := State.translate_hit (want := .fetch) (user := !x.cps.getLsbD cpsSM) hage2
      (fun _ => hps2) hh2
    rw [show permits (s2.entry0 va e) .fetch (!x.cps.getLsbD cpsSM) = false from by rw [← hs2]; exact hperm,
      if_neg (by decide)] at h3
    rw [hcond hc, if_pos rfl, h3] at src
    rw [src] at hfetch
    refine ⟨_, hfetch, h2, ?_, by rw [← hs2]⟩
    rw [← hs2] at h1
    exact h1
  · intro rom pa tlb hat herr
    unfold State.FetchesAt at hat
    simp only at hat
    rw [herr] at hfetch
    have turned : ∀ u : State, ∃ b tu c, u.turned = { u with block := b, turn := tu, cdInForce := c } := by
      intro u
      unfold State.turned
      split
      · exact ⟨_, u.turn, u.cdInForce, rfl⟩
      · exact ⟨_, _, _, rfl⟩
    split at hat
    · next hx =>
      obtain ⟨ha, hp, rfl, set, hhit, hperm, hpa, htl⟩ := hat
      have hh2 : s2.TlbHit va set := by rw [← hs2]; exact hhit
      obtain ⟨pgm, tl, lru, h1, h2, h3⟩ := State.translate_hit (want := .fetch) (user := !x.cps.getLsbD cpsSM) hage2
        (fun _ => hps2) hh2
      rw [show permits (s2.entry0 va set) .fetch (!x.cps.getLsbD cpsSM) = true from by rw [← hs2]; exact hperm,
        if_pos rfl] at h3
      rw [hcond hx, if_pos rfl, h3] at src
      rw [src] at hfetch
      obtain ⟨b, tu, c, ht⟩ := turned { s2 with tlb := tl }
      refine ⟨_, hfetch, ?_, ?_⟩
      · rw [ht, htl]
        rw [← hs2] at h1
        exact h1
      · rw [ht, ← hs2]
    · next hx =>
      obtain ⟨hr, hpa, htl⟩ := hat
      have hcond : ¬(!x.cps.getLsbD cpsPI && !x.cps.getLsbD cpsRE) = true := by
        intro hc
        apply hx
        simp only [Bool.and_eq_true, Bool.not_eq_true'] at hc
        exact hc
      rw [if_neg hcond] at src
      rw [src] at hfetch
      obtain ⟨b, tu, c, ht⟩ := turned s2
      refine ⟨_, hfetch, ?_, ?_⟩
      · rw [ht, htl, ← hs2]; exact fun _ _ => rfl
      · rw [ht, ← hs2]

/-- What follows a trap of the fetch of a return that has a multiple sequence to go on with (60 R545, R546, R574). -/
theorem afterReturn_cases (s s1 : State) (vn : Byte) :
    (∃ p, 4 ≤ p ∧ p ≤ 12 ∧ s.Pending p ∧ (∀ q, 4 ≤ q → q < p → ¬s.Pending q) ∧
      s.afterReturn vn s1 = ({ s with env := s1.env } : State).takeAsync p (s.eventVector p)) ∨
    ((∀ p, ¬s.Pending p) ∧ s.cps.getLsbD 7 = true ∧ s.afterReturn vn s1 = .next { s with env := s1.env }) ∨
    ((∀ p, ¬s.Pending p) ∧ s.cps.getLsbD 7 = false ∧ s.afterReturn vn s1 = s1.raiseCurr vn) := by
  unfold State.afterReturn
  rcases asyncEvent_cases s with ⟨h1, h2⟩ | ⟨p, h1, h2, h3, h4, h5⟩
  · rw [h1]
    cases hw : s.cps.getLsbD 7 with
    | true => exact .inr (.inl ⟨h2, rfl, if_pos hw⟩)
    | false => exact .inr (.inr ⟨h2, rfl, if_neg (by rw [show s.cps.getLsbD cpsWM = false from hw]; decide)⟩)
  · rw [h3]
    exact .inl ⟨p, h1, h2, h4, h5, rfl⟩

end Sys2Proof.Machine
end

