-- ==== Sys2Proof/Tests/Slice0.lean ====
section
/-! SUPPORT. Tests of this model, each expected result taken from the spec: ill-formed terms, words decoded, single steps of
the derived vectors (96, whose start state is 95 section 0), and for each statement with hypotheses a case that meets them. -/

set_option maxRecDepth 100000

namespace Sys2Proof.Tests
open Sys2Proof.Machine

/-! The one check of `WellFormed`, on each instruction it is for: the control field of a memory access sets no bit that 30 R208
reserves. -/


theorem test_load_illformed :
    (Instr.load 0x90#8 0x40#8 (.reg 0x41#8)).wellFormed = false ∧
    (Instr.load 0xEF#8 0x40#8 (.imm 1#8)).wellFormed = true := by
  decide

theorem test_loadl_illformed :
    (Instr.loadl 0x90#8 0x40#8 (.reg 0x41#8)).wellFormed = false ∧
    (Instr.loadl 0xEF#8 0x40#8 (.imm 1#8)).wellFormed = true := by
  decide

theorem test_loadset_illformed :
    (Instr.loadset 0x90#8 0x40#8 (.reg 0x41#8)).wellFormed = false ∧
    (Instr.loadset 0xEF#8 0x40#8 (.imm 1#8)).wellFormed = true := by
  decide

theorem test_store_illformed :
    (Instr.store 0x90#8 0x40#8 (.reg 0x41#8)).wellFormed = false ∧
    (Instr.store 0xEF#8 0x40#8 (.imm 1#8)).wellFormed = true := by
  decide

theorem test_storel_illformed :
    (Instr.storel 0x90#8 0x40#8 (.reg 0x41#8)).wellFormed = false ∧
    (Instr.storel 0xEF#8 0x40#8 (.imm 1#8)).wellFormed = true := by
  decide

theorem test_loadm_illformed :
    (Instr.loadm 0x90#8 0x40#8 (.reg 0x41#8)).wellFormed = false ∧
    (Instr.loadm 0xEF#8 0x40#8 (.imm 1#8)).wellFormed = true := by
  decide

theorem test_storem_illformed :
    (Instr.storem 0x90#8 0x40#8 (.reg 0x41#8)).wellFormed = false ∧
    (Instr.storem 0xEF#8 0x40#8 (.imm 1#8)).wellFormed = true := by
  decide

theorem test_add_wellFormed : (Instr.add 0#8 0xFF#8 (.imm 0xFF#8)).wellFormed = true := by decide

/-! Words written out from the opcode table and the formats of 30 R210 to R212: the operation, then the fields, of which RC, VN
or CE//CNTL is 91, RA or SA 42, RB or I 83 and a 16-bit constant 9183; both forms of each instruction; a reserved field is
not looked at (30 R205). -/

theorem test_decode_constant :
    decode 0x01914283#32 = .ok (.constn 0x42#8 0x9183#16) ∧
    decode 0x02914283#32 = .ok (.consth 0x42#8 0x9183#16) ∧
    decode 0x03914283#32 = .ok (.const 0x42#8 0x9183#16) := by
  decide

theorem test_decode_move :
    decode 0x04914283#32 = .ok (.mtsrim 0x42#8 0x9183#16) ∧
    decode 0xB6914283#32 = .ok (.mftlb 0x91#8 0x42#8) ∧
    decode 0xBE914283#32 = .ok (.mttlb 0x42#8 0x83#8) ∧
    decode 0xC6914283#32 = .ok (.mfsr 0x91#8 0x42#8) ∧
    decode 0xCE914283#32 = .ok (.mtsr 0x42#8 0x83#8) := by
  decide

theorem test_decode_load_store :
    decode 0x06914283#32 = .ok (.loadl 0x91#8 0x42#8 (.reg 0x83#8)) ∧
    decode 0x07914283#32 = .ok (.loadl 0x91#8 0x42#8 (.imm 0x83#8)) ∧
    decode 0x0E914283#32 = .ok (.storel 0x91#8 0x42#8 (.reg 0x83#8)) ∧
    decode 0x0F914283#32 = .ok (.storel 0x91#8 0x42#8 (.imm 0x83#8)) ∧
    decode 0x16914283#32 = .ok (.load 0x91#8 0x42#8 (.reg 0x83#8)) ∧
    decode 0x17914283#32 = .ok (.load 0x91#8 0x42#8 (.imm 0x83#8)) ∧
    decode 0x1E914283#32 = .ok (.store 0x91#8 0x42#8 (.reg 0x83#8)) ∧
    decode 0x1F914283#32 = .ok (.store 0x91#8 0x42#8 (.imm 0x83#8)) ∧
    decode 0x26914283#32 = .ok (.loadset 0x91#8 0x42#8 (.reg 0x83#8)) ∧
    decode 0x27914283#32 = .ok (.loadset 0x91#8 0x42#8 (.imm 0x83#8)) ∧
    decode 0x36914283#32 = .ok (.loadm 0x91#8 0x42#8 (.reg 0x83#8)) ∧
    decode 0x37914283#32 = .ok (.loadm 0x91#8 0x42#8 (.imm 0x83#8)) ∧
    decode 0x3E914283#32 = .ok (.storem 0x91#8 0x42#8 (.reg 0x83#8)) ∧
    decode 0x3F914283#32 = .ok (.storem 0x91#8 0x42#8 (.imm 0x83#8)) := by
  decide

theorem test_decode_miscellaneous :
    decode 0x08914283#32 = .ok (.clz 0x91#8 (.reg 0x83#8)) ∧
    decode 0x09914283#32 = .ok (.clz 0x91#8 (.imm 0x83#8)) ∧
    decode 0x88914283#32 = .ok .iret ∧
    decode 0x89914283#32 = .ok .halt ∧
    decode 0x8C914283#32 = .ok .iretinv ∧
    decode 0x9E914283#32 = .ok (.setip 0x91#8 0x42#8 0x83#8) ∧
    decode 0x9F914283#32 = .ok .inv ∧
    decode 0xF8914283#32 = .ok (.emulate 0x91#8 0x42#8 0x83#8) := by
  decide

theorem test_decode_byte :
    decode 0x0A914283#32 = .ok (.exbyte 0x91#8 0x42#8 (.reg 0x83#8)) ∧
    decode 0x0B914283#32 = .ok (.exbyte 0x91#8 0x42#8 (.imm 0x83#8)) ∧
    decode 0x0C914283#32 = .ok (.inbyte 0x91#8 0x42#8 (.reg 0x83#8)) ∧
    decode 0x0D914283#32 = .ok (.inbyte 0x91#8 0x42#8 (.imm 0x83#8)) ∧
    decode 0x78914283#32 = .ok (.inhw 0x91#8 0x42#8 (.reg 0x83#8)) ∧
    decode 0x79914283#32 = .ok (.inhw 0x91#8 0x42#8 (.imm 0x83#8)) ∧
    decode 0x7C914283#32 = .ok (.exhw 0x91#8 0x42#8 (.reg 0x83#8)) ∧
    decode 0x7D914283#32 = .ok (.exhw 0x91#8 0x42#8 (.imm 0x83#8)) ∧
    decode 0x7E914283#32 = .ok (.exhws 0x91#8 0x42#8) := by
  decide

theorem test_decode_add :
    decode 0x10914283#32 = .ok (.adds 0x91#8 0x42#8 (.reg 0x83#8)) ∧
    decode 0x11914283#32 = .ok (.adds 0x91#8 0x42#8 (.imm 0x83#8)) ∧
    decode 0x12914283#32 = .ok (.addu 0x91#8 0x42#8 (.reg 0x83#8)) ∧
    decode 0x13914283#32 = .ok (.addu 0x91#8 0x42#8 (.imm 0x83#8)) ∧
    decode 0x14914283#32 = .ok (.add 0x91#8 0x42#8 (.reg 0x83#8)) ∧
    decode 0x15914283#32 = .ok (.add 0x91#8 0x42#8 (.imm 0x83#8)) ∧
    decode 0x18914283#32 = .ok (.addcs 0x91#8 0x42#8 (.reg 0x83#8)) ∧
    decode 0x19914283#32 = .ok (.addcs 0x91#8 0x42#8 (.imm 0x83#8)) ∧
    decode 0x1A914283#32 = .ok (.addcu 0x91#8 0x42#8 (.reg 0x83#8)) ∧
    decode 0x1B914283#32 = .ok (.addcu 0x91#8 0x42#8 (.imm 0x83#8)) ∧
    decode 0x1C914283#32 = .ok (.addc 0x91#8 0x42#8 (.reg 0x83#8)) ∧
    decode 0x1D914283#32 = .ok (.addc 0x91#8 0x42#8 (.imm 0x83#8)) := by
  decide

theorem test_decode_subtract :
    decode 0x20914283#32 = .ok (.subs 0x91#8 0x42#8 (.reg 0x83#8)) ∧
    decode 0x21914283#32 = .ok (.subs 0x91#8 0x42#8 (.imm 0x83#8)) ∧
    decode 0x22914283#32 = .ok (.subu 0x91#8 0x42#8 (.reg 0x83#8)) ∧
    decode 0x23914283#32 = .ok (.subu 0x91#8 0x42#8 (.imm 0x83#8)) ∧
    decode 0x24914283#32 = .ok (.sub 0x91#8 0x42#8 (.reg 0x83#8)) ∧
    decode 0x25914283#32 = .ok (.sub 0x91#8 0x42#8 (.imm 0x83#8)) ∧
    decode 0x28914283#32 = .ok (.subcs 0x91#8 0x42#8 (.reg 0x83#8)) ∧
    decode 0x29914283#32 = .ok (.subcs 0x91#8 0x42#8 (.imm 0x83#8)) ∧
    decode 0x2A914283#32 = .ok (.subcu 0x91#8 0x42#8 (.reg 0x83#8)) ∧
    decode 0x2B914283#32 = .ok (.subcu 0x91#8 0x42#8 (.imm 0x83#8)) ∧
    decode 0x2C914283#32 = .ok (.subc 0x91#8 0x42#8 (.reg 0x83#8)) ∧
    decode 0x2D914283#32 = .ok (.subc 0x91#8 0x42#8 (.imm 0x83#8)) := by
  decide

theorem test_decode_compare :
    decode 0x2E914283#32 = .ok (.cpbyte 0x91#8 0x42#8 (.reg 0x83#8)) ∧
    decode 0x2F914283#32 = .ok (.cpbyte 0x91#8 0x42#8 (.imm 0x83#8)) ∧
    decode 0x40914283#32 = .ok (.cplt 0x91#8 0x42#8 (.reg 0x83#8)) ∧
    decode 0x41914283#32 = .ok (.cplt 0x91#8 0x42#8 (.imm 0x83#8)) ∧
    decode 0x42914283#32 = .ok (.cpltu 0x91#8 0x42#8 (.reg 0x83#8)) ∧
    decode 0x43914283#32 = .ok (.cpltu 0x91#8 0x42#8 (.imm 0x83#8)) ∧
    decode 0x44914283#32 = .ok (.cple 0x91#8 0x42#8 (.reg 0x83#8)) ∧
    decode 0x45914283#32 = .ok (.cple 0x91#8 0x42#8 (.imm 0x83#8)) ∧
    decode 0x46914283#32 = .ok (.cpleu 0x91#8 0x42#8 (.reg 0x83#8)) ∧
    decode 0x47914283#32 = .ok (.cpleu 0x91#8 0x42#8 (.imm 0x83#8)) ∧
    decode 0x48914283#32 = .ok (.cpgt 0x91#8 0x42#8 (.reg 0x83#8)) ∧
    decode 0x49914283#32 = .ok (.cpgt 0x91#8 0x42#8 (.imm 0x83#8)) ∧
    decode 0x4A914283#32 = .ok (.cpgtu 0x91#8 0x42#8 (.reg 0x83#8)) ∧
    decode 0x4B914283#32 = .ok (.cpgtu 0x91#8 0x42#8 (.imm 0x83#8)) ∧
    decode 0x4C914283#32 = .ok (.cpge 0x91#8 0x42#8 (.reg 0x83#8)) ∧
    decode 0x4D914283#32 = .ok (.cpge 0x91#8 0x42#8 (.imm 0x83#8)) ∧
    decode 0x4E914283#32 = .ok (.cpgeu 0x91#8 0x42#8 (.reg 0x83#8)) ∧
    decode 0x4F914283#32 = .ok (.cpgeu 0x91#8 0x42#8 (.imm 0x83#8)) ∧
    decode 0x60914283#32 = .ok (.cpeq 0x91#8 0x42#8 (.reg 0x83#8)) ∧
    decode 0x61914283#32 = .ok (.cpeq 0x91#8 0x42#8 (.imm 0x83#8)) ∧
    decode 0x62914283#32 = .ok (.cpneq 0x91#8 0x42#8 (.reg 0x83#8)) ∧
    decode 0x63914283#32 = .ok (.cpneq 0x91#8 0x42#8 (.imm 0x83#8)) := by
  decide

theorem test_decode_subtract_reverse :
    decode 0x30914283#32 = .ok (.subrs 0x91#8 0x42#8 (.reg 0x83#8)) ∧
    decode 0x31914283#32 = .ok (.subrs 0x91#8 0x42#8 (.imm 0x83#8)) ∧
    decode 0x32914283#32 = .ok (.subru 0x91#8 0x42#8 (.reg 0x83#8)) ∧
    decode 0x33914283#32 = .ok (.subru 0x91#8 0x42#8 (.imm 0x83#8)) ∧
    decode 0x34914283#32 = .ok (.subr 0x91#8 0x42#8 (.reg 0x83#8)) ∧
    decode 0x35914283#32 = .ok (.subr 0x91#8 0x42#8 (.imm 0x83#8)) ∧
    decode 0x38914283#32 = .ok (.subrcs 0x91#8 0x42#8 (.reg 0x83#8)) ∧
    decode 0x39914283#32 = .ok (.subrcs 0x91#8 0x42#8 (.imm 0x83#8)) ∧
    decode 0x3A914283#32 = .ok (.subrcu 0x91#8 0x42#8 (.reg 0x83#8)) ∧
    decode 0x3B914283#32 = .ok (.subrcu 0x91#8 0x42#8 (.imm 0x83#8)) ∧
    decode 0x3C914283#32 = .ok (.subrc 0x91#8 0x42#8 (.reg 0x83#8)) ∧
    decode 0x3D914283#32 = .ok (.subrc 0x91#8 0x42#8 (.imm 0x83#8)) := by
  decide

theorem test_decode_assert :
    decode 0x50914283#32 = .ok (.aslt 0x91#8 0x42#8 (.reg 0x83#8)) ∧
    decode 0x51914283#32 = .ok (.aslt 0x91#8 0x42#8 (.imm 0x83#8)) ∧
    decode 0x52914283#32 = .ok (.asltu 0x91#8 0x42#8 (.reg 0x83#8)) ∧
    decode 0x53914283#32 = .ok (.asltu 0x91#8 0x42#8 (.imm 0x83#8)) ∧
    decode 0x54914283#32 = .ok (.asle 0x91#8 0x42#8 (.reg 0x83#8)) ∧
    decode 0x55914283#32 = .ok (.asle 0x91#8 0x42#8 (.imm 0x83#8)) ∧
    decode 0x56914283#32 = .ok (.asleu 0x91#8 0x42#8 (.reg 0x83#8)) ∧
    decode 0x57914283#32 = .ok (.asleu 0x91#8 0x42#8 (.imm 0x83#8)) ∧
    decode 0x58914283#32 = .ok (.asgt 0x91#8 0x42#8 (.reg 0x83#8)) ∧
    decode 0x59914283#32 = .ok (.asgt 0x91#8 0x42#8 (.imm 0x83#8)) ∧
    decode 0x5A914283#32 = .ok (.asgtu 0x91#8 0x42#8 (.reg 0x83#8)) ∧
    decode 0x5B914283#32 = .ok (.asgtu 0x91#8 0x42#8 (.imm 0x83#8)) ∧
    decode 0x5C914283#32 = .ok (.asge 0x91#8 0x42#8 (.reg 0x83#8)) ∧
    decode 0x5D914283#32 = .ok (.asge 0x91#8 0x42#8 (.imm 0x83#8)) ∧
    decode 0x5E914283#32 = .ok (.asgeu 0x91#8 0x42#8 (.reg 0x83#8)) ∧
    decode 0x5F914283#32 = .ok (.asgeu 0x91#8 0x42#8 (.imm 0x83#8)) ∧
    decode 0x70914283#32 = .ok (.aseq 0x91#8 0x42#8 (.reg 0x83#8)) ∧
    decode 0x71914283#32 = .ok (.aseq 0x91#8 0x42#8 (.imm 0x83#8)) ∧
    decode 0x72914283#32 = .ok (.asneq 0x91#8 0x42#8 (.reg 0x83#8)) ∧
    decode 0x73914283#32 = .ok (.asneq 0x91#8 0x42#8 (.imm 0x83#8)) := by
  decide

theorem test_decode_multiply_divide :
    decode 0x64914283#32 = .ok (.mul 0x91#8 0x42#8 (.reg 0x83#8)) ∧
    decode 0x65914283#32 = .ok (.mul 0x91#8 0x42#8 (.imm 0x83#8)) ∧
    decode 0x66914283#32 = .ok (.mull 0x91#8 0x42#8 (.reg 0x83#8)) ∧
    decode 0x67914283#32 = .ok (.mull 0x91#8 0x42#8 (.imm 0x83#8)) ∧
    decode 0x68914283#32 = .ok (.div0 0x91#8 (.reg 0x83#8)) ∧
    decode 0x69914283#32 = .ok (.div0 0x91#8 (.imm 0x83#8)) ∧
    decode 0x6A914283#32 = .ok (.div 0x91#8 0x42#8 (.reg 0x83#8)) ∧
    decode 0x6B914283#32 = .ok (.div 0x91#8 0x42#8 (.imm 0x83#8)) ∧
    decode 0x6C914283#32 = .ok (.divl 0x91#8 0x42#8 (.reg 0x83#8)) ∧
    decode 0x6D914283#32 = .ok (.divl 0x91#8 0x42#8 (.imm 0x83#8)) ∧
    decode 0x6E914283#32 = .ok (.divrem 0x91#8 0x42#8 (.reg 0x83#8)) ∧
    decode 0x6F914283#32 = .ok (.divrem 0x91#8 0x42#8 (.imm 0x83#8)) ∧
    decode 0x74914283#32 = .ok (.mulu 0x91#8 0x42#8 (.reg 0x83#8)) ∧
    decode 0x75914283#32 = .ok (.mulu 0x91#8 0x42#8 (.imm 0x83#8)) ∧
    decode 0xE0914283#32 = .ok (.multiply 0x91#8 0x42#8 0x83#8) ∧
    decode 0xE1914283#32 = .ok (.divide 0x91#8 0x42#8 0x83#8) := by
  decide

theorem test_decode_shift :
    decode 0x7A914283#32 = .ok (.extract 0x91#8 0x42#8 (.reg 0x83#8)) ∧
    decode 0x7B914283#32 = .ok (.extract 0x91#8 0x42#8 (.imm 0x83#8)) ∧
    decode 0x80914283#32 = .ok (.sll 0x91#8 0x42#8 (.reg 0x83#8)) ∧
    decode 0x81914283#32 = .ok (.sll 0x91#8 0x42#8 (.imm 0x83#8)) ∧
    decode 0x82914283#32 = .ok (.srl 0x91#8 0x42#8 (.reg 0x83#8)) ∧
    decode 0x83914283#32 = .ok (.srl 0x91#8 0x42#8 (.imm 0x83#8)) ∧
    decode 0x86914283#32 = .ok (.sra 0x91#8 0x42#8 (.reg 0x83#8)) ∧
    decode 0x87914283#32 = .ok (.sra 0x91#8 0x42#8 (.imm 0x83#8)) := by
  decide

theorem test_decode_logical :
    decode 0x90914283#32 = .ok (.and 0x91#8 0x42#8 (.reg 0x83#8)) ∧
    decode 0x91914283#32 = .ok (.and 0x91#8 0x42#8 (.imm 0x83#8)) ∧
    decode 0x92914283#32 = .ok (.or 0x91#8 0x42#8 (.reg 0x83#8)) ∧
    decode 0x93914283#32 = .ok (.or 0x91#8 0x42#8 (.imm 0x83#8)) ∧
    decode 0x94914283#32 = .ok (.xor 0x91#8 0x42#8 (.reg 0x83#8)) ∧
    decode 0x95914283#32 = .ok (.xor 0x91#8 0x42#8 (.imm 0x83#8)) ∧
    decode 0x96914283#32 = .ok (.xnor 0x91#8 0x42#8 (.reg 0x83#8)) ∧
    decode 0x97914283#32 = .ok (.xnor 0x91#8 0x42#8 (.imm 0x83#8)) ∧
    decode 0x98914283#32 = .ok (.nor 0x91#8 0x42#8 (.reg 0x83#8)) ∧
    decode 0x99914283#32 = .ok (.nor 0x91#8 0x42#8 (.imm 0x83#8)) ∧
    decode 0x9A914283#32 = .ok (.nand 0x91#8 0x42#8 (.reg 0x83#8)) ∧
    decode 0x9B914283#32 = .ok (.nand 0x91#8 0x42#8 (.imm 0x83#8)) ∧
    decode 0x9C914283#32 = .ok (.andn 0x91#8 0x42#8 (.reg 0x83#8)) ∧
    decode 0x9D914283#32 = .ok (.andn 0x91#8 0x42#8 (.imm 0x83#8)) := by
  decide

theorem test_decode_branch :
    decode 0xA0914283#32 = .ok (.jmp false 0x9183#16) ∧
    decode 0xA1914283#32 = .ok (.jmp true 0x9183#16) ∧
    decode 0xA4914283#32 = .ok (.jmpf false 0x42#8 0x9183#16) ∧
    decode 0xA5914283#32 = .ok (.jmpf true 0x42#8 0x9183#16) ∧
    decode 0xA8914283#32 = .ok (.call false 0x42#8 0x9183#16) ∧
    decode 0xA9914283#32 = .ok (.call true 0x42#8 0x9183#16) ∧
    decode 0xAC914283#32 = .ok (.jmpt false 0x42#8 0x9183#16) ∧
    decode 0xAD914283#32 = .ok (.jmpt true 0x42#8 0x9183#16) ∧
    decode 0xB4914283#32 = .ok (.jmpfdec false 0x42#8 0x9183#16) ∧
    decode 0xB5914283#32 = .ok (.jmpfdec true 0x42#8 0x9183#16) ∧
    decode 0xC0914283#32 = .ok (.jmpi 0x83#8) ∧
    decode 0xC4914283#32 = .ok (.jmpfi 0x42#8 0x83#8) ∧
    decode 0xC8914283#32 = .ok (.calli 0x42#8 0x83#8) ∧
    decode 0xCC914283#32 = .ok (.jmpti 0x42#8 0x83#8) := by
  decide

theorem test_decode_conversion :
    decode 0xE4914283#32 = .ok (.cvintf 0x91#8 0x42#8) ∧
    decode 0xE5914283#32 = .ok (.cvintd 0x91#8 0x42#8) ∧
    decode 0xE6914283#32 = .ok (.cvfint 0x91#8 0x42#8) ∧
    decode 0xE7914283#32 = .ok (.cvdint 0x91#8 0x42#8) ∧
    decode 0xE8914283#32 = .ok (.cvfd 0x91#8 0x42#8) ∧
    decode 0xE9914283#32 = .ok (.cvdf 0x91#8 0x42#8) := by
  decide

theorem test_decode_floating_point :
    decode 0xEA914283#32 = .ok (.feq 0x91#8 0x42#8 0x83#8) ∧
    decode 0xEB914283#32 = .ok (.deq 0x91#8 0x42#8 0x83#8) ∧
    decode 0xEC914283#32 = .ok (.fgt 0x91#8 0x42#8 0x83#8) ∧
    decode 0xED914283#32 = .ok (.dgt 0x91#8 0x42#8 0x83#8) ∧
    decode 0xEE914283#32 = .ok (.flt 0x91#8 0x42#8 0x83#8) ∧
    decode 0xEF914283#32 = .ok (.dlt 0x91#8 0x42#8 0x83#8) ∧
    decode 0xF0914283#32 = .ok (.fadd 0x91#8 0x42#8 0x83#8) ∧
    decode 0xF1914283#32 = .ok (.dadd 0x91#8 0x42#8 0x83#8) ∧
    decode 0xF2914283#32 = .ok (.fsub 0x91#8 0x42#8 0x83#8) ∧
    decode 0xF3914283#32 = .ok (.dsub 0x91#8 0x42#8 0x83#8) ∧
    decode 0xF4914283#32 = .ok (.fmul 0x91#8 0x42#8 0x83#8) ∧
    decode 0xF5914283#32 = .ok (.dmul 0x91#8 0x42#8 0x83#8) ∧
    decode 0xF6914283#32 = .ok (.fdiv 0x91#8 0x42#8 0x83#8) ∧
    decode 0xF7914283#32 = .ok (.ddiv 0x91#8 0x42#8 0x83#8) := by
  decide

theorem test_decode_unassigned :
    decode 0x84404142#32 = .error (.illegalOpcode 0x84#8) ∧ decode 0xFF000000#32 = .error (.illegalOpcode 0xFF#8) ∧
    decodeTableWord 32 0x14914283 = some (.add 0x91#8 0x42#8 (.reg 0x83#8)) ∧ decodeBytes [0x14#8, 0#8] = .error .truncated := by
  decide

/-! Single steps. -/

/-- The start state of 95, section 0: `pc` 0x1000, vector area at 0x10000, Stack Pointer 0. -/
def start (cps : Word) : State :=
  { State.reset with
    cps := cps, cfg := 0#32, vab := 0x10000#32, pc := 0x400#30, npc := 0x401#30, ppc := 0x3FF#30
    sps := .settled (some 0#7) }

/-- `CPS` of a Supervisor row. -/
def supervisor : Word := 0x70#32

/-- `CPS` of a User row. -/
def user : Word := 0x60#32

/-- What a test sets or looks at. -/
inductive Slot where
  | reg (n : Nat)
  | special (n : Nat)
  | flag (bit : Nat)
  | tlb (n : Nat)
  | mem (byteAddress : Nat)
  | pc
  | npc
  | halted

def State.put (s : State) (p : Slot × Nat) : State :=
  let v := BitVec.ofNat 32 p.2
  match p.1 with
  | .reg n => if n = 1 then { s with gr1 := v, sps := .settled (some (v.extractLsb' 2 7)) } else s.storeReg true (BitVec.ofNat 8 n) v
  | .special n => s.writeSpecial (BitVec.ofNat 8 n) v
  | .flag n => { s with alu := putBit s.alu n (p.2 == 1) }
  | .tlb n => { s with tlb := s.tlb.setIfInBounds n v }
  | .mem a => { s with idm := Memory.writeWord s.idm (BitVec.ofNat 30 (a / 4)) v }
  | _ => s

def State.look (s : State) (slot : Slot) : Nat :=
  match slot with
  | .reg n => (s.readReg .A (BitVec.ofNat 8 n)).toNat
  | .special n => (s.readSpecial (BitVec.ofNat 8 n)).toNat
  | .flag n => (s.alu.getLsbD n).toNat
  | .tlb n => (s.tlbReg n).toNat
  | .mem a => (Memory.readWord s.idm (BitVec.ofNat 30 (a / 4))).toNat
  | .pc => 4 * s.pc.toNat
  | .npc => 4 * s.npc.toNat
  | .halted => if s.mode = .halt then 1 else 0

/-- The start state with some values set long ago. -/
def begin (cps : Word) (before : List (Slot × Nat)) : State :=
  let s := before.foldl State.put (start cps)
  { s with ipa := s.ipa.settle, ipb := s.ipb.settle, ipc := s.ipc.settle, mmu := s.mmu.settle, mlByMove := false }

/-- One step with the word `w` at 0x1000 leaves these values. -/
def runs (cps : Word) (before : List (Slot × Nat)) (w : Nat) (after : List (Slot × Nat)) : Bool :=
  match step ((begin cps before).withFetchWord 32 w) with
  | .next t => after.all fun p => State.look t p.1 == p.2
  | _ => false

/-! Rows of 96, sections 2.1 to 2.9, as they stand there; the flags are bits 11 to 7 of `ALU`. -/

theorem test_add_1 : runs supervisor [(.reg 65, 0x7FFFFFFF), (.reg 66, 1)] 0x14404142
    [(.reg 64, 0x80000000), (.flag 10, 1), (.flag 9, 1), (.flag 8, 0), (.flag 7, 0), (.pc, 0x1004)] = true := by decide

theorem test_add_2 : runs supervisor [(.reg 65, 0xFFFFFF01)] 0x154041FF
    [(.reg 64, 0), (.flag 10, 0), (.flag 9, 0), (.flag 8, 1), (.flag 7, 1), (.pc, 0x1004)] = true := by decide

theorem test_adds_1 : runs supervisor [(.reg 65, 0x7FFFFFFF)] 0x11404101
    [(.reg 64, 0x80000000), (.flag 10, 1), (.flag 9, 1), (.flag 8, 0), (.flag 7, 0), (.pc, 0x10200)] = true := by decide

theorem test_adds_2 : runs supervisor [(.reg 65, 0x80000000), (.reg 66, 0x80000000)] 0x10404142
    [(.reg 64, 0), (.flag 10, 1), (.flag 9, 0), (.flag 8, 1), (.flag 7, 1), (.pc, 0x10200)] = true := by decide

theorem test_addu_1 : runs supervisor [(.reg 65, 0xFFFFFFFF)] 0x13404101
    [(.reg 64, 0), (.flag 10, 0), (.flag 9, 0), (.flag 8, 1), (.flag 7, 1), (.pc, 0x10200)] = true := by decide

theorem test_addu_2 : runs supervisor [(.reg 65, 0x7FFFFFFF)] 0x13404101
    [(.reg 64, 0x80000000), (.flag 10, 1), (.flag 9, 1), (.flag 8, 0), (.flag 7, 0), (.pc, 0x1004)] = true := by decide

theorem test_addc_1 : runs supervisor [(.reg 77, 5), (.reg 65, 7), (.flag 7, 1)] 0x1C584D41
    [(.reg 88, 0xD), (.flag 10, 0), (.flag 9, 0), (.flag 8, 0), (.flag 7, 0), (.pc, 0x1004)] = true := by decide

theorem test_addc_2 : runs supervisor [(.reg 77, 0xFFFFFFFF), (.reg 65, 0), (.flag 7, 0)] 0x1C584D41
    [(.reg 88, 0xFFFFFFFF), (.flag 10, 0), (.flag 9, 1), (.flag 8, 0), (.flag 7, 0), (.pc, 0x1004)] = true := by decide

theorem test_addcs_1 : runs supervisor [(.reg 78, 0x7FFFFFFF), (.reg 66, 0), (.flag 7, 1)] 0x18594E42
    [(.reg 89, 0x80000000), (.flag 10, 1), (.flag 9, 1), (.flag 8, 0), (.flag 7, 0), (.pc, 0x10200)] = true := by decide

theorem test_addcs_2 : runs supervisor [(.reg 78, 0x7FFFFFFF), (.reg 66, 0), (.flag 7, 0)] 0x18594E42
    [(.reg 89, 0x7FFFFFFF), (.flag 10, 0), (.flag 9, 0), (.flag 8, 0), (.flag 7, 0), (.pc, 0x1004)] = true := by decide

theorem test_addcu_1 : runs supervisor [(.reg 65, 0xFFFFFFFF), (.flag 7, 1)] 0x1B404100
    [(.reg 64, 0), (.flag 10, 0), (.flag 9, 0), (.flag 8, 1), (.flag 7, 1), (.pc, 0x10200)] = true := by decide

theorem test_addcu_2 : runs supervisor [(.reg 65, 0xFFFFFFFF), (.flag 7, 0)] 0x1B404100
    [(.reg 64, 0xFFFFFFFF), (.flag 10, 0), (.flag 9, 1), (.flag 8, 0), (.flag 7, 0), (.pc, 0x1004)] = true := by decide

theorem test_sub_1 : runs supervisor [(.reg 65, 5), (.reg 66, 7)] 0x24404142
    [(.reg 64, 0xFFFFFFFE), (.flag 10, 0), (.flag 9, 1), (.flag 8, 0), (.flag 7, 0), (.pc, 0x1004)] = true := by decide

theorem test_sub_2 : runs supervisor [(.reg 65, 0x80000000)] 0x25404101
    [(.reg 64, 0x7FFFFFFF), (.flag 10, 1), (.flag 9, 0), (.flag 8, 0), (.flag 7, 1), (.pc, 0x1004)] = true := by decide

theorem test_subs_1 : runs supervisor [(.reg 65, 0x80000000)] 0x21404101
    [(.reg 64, 0x7FFFFFFF), (.flag 10, 1), (.flag 9, 0), (.flag 8, 0), (.flag 7, 1), (.pc, 0x10200)] = true := by decide

theorem test_subs_2 : runs supervisor [(.reg 65, 0)] 0x21404101
    [(.reg 64, 0xFFFFFFFF), (.flag 10, 0), (.flag 9, 1), (.flag 8, 0), (.flag 7, 0), (.pc, 0x1004)] = true := by decide

theorem test_subu_1 : runs supervisor [(.reg 65, 5)] 0x23404107
    [(.reg 64, 0xFFFFFFFE), (.flag 10, 0), (.flag 9, 1), (.flag 8, 0), (.flag 7, 0), (.pc, 0x10200)] = true := by decide

theorem test_subu_2 : runs supervisor [(.reg 65, 5)] 0x23404105
    [(.reg 64, 0), (.flag 10, 0), (.flag 9, 0), (.flag 8, 1), (.flag 7, 1), (.pc, 0x1004)] = true := by decide

theorem test_subc_1 : runs supervisor [(.reg 65, 5), (.flag 7, 0)] 0x2D404105
    [(.reg 64, 0xFFFFFFFF), (.flag 10, 0), (.flag 9, 1), (.flag 8, 0), (.flag 7, 0), (.pc, 0x1004)] = true := by decide

theorem test_subc_2 : runs supervisor [(.reg 65, 5), (.flag 7, 1)] 0x2D404105
    [(.reg 64, 0), (.flag 10, 0), (.flag 9, 0), (.flag 8, 1), (.flag 7, 1), (.pc, 0x1004)] = true := by decide

theorem test_subcs_1 : runs supervisor [(.reg 65, 0x80000000), (.flag 7, 0)] 0x29404100
    [(.reg 64, 0x7FFFFFFF), (.flag 10, 1), (.flag 9, 0), (.flag 8, 0), (.flag 7, 1), (.pc, 0x10200)] = true := by decide

theorem test_subcs_2 : runs supervisor [(.reg 65, 0x80000000), (.flag 7, 1)] 0x29404100
    [(.reg 64, 0x80000000), (.flag 10, 0), (.flag 9, 1), (.flag 8, 0), (.flag 7, 1), (.pc, 0x1004)] = true := by decide

theorem test_subcu_1 : runs supervisor [(.reg 65, 0), (.flag 7, 0)] 0x2B404100
    [(.reg 64, 0xFFFFFFFF), (.flag 10, 0), (.flag 9, 1), (.flag 8, 0), (.flag 7, 0), (.pc, 0x10200)] = true := by decide

theorem test_subcu_2 : runs supervisor [(.reg 65, 0), (.flag 7, 1)] 0x2B404100
    [(.reg 64, 0), (.flag 10, 0), (.flag 9, 0), (.flag 8, 1), (.flag 7, 1), (.pc, 0x1004)] = true := by decide

theorem test_subr_1 : runs supervisor [(.reg 70, 1)] 0x35464600
    [(.reg 70, 0xFFFFFFFF), (.flag 10, 0), (.flag 9, 1), (.flag 8, 0), (.flag 7, 0), (.pc, 0x1004)] = true := by decide

theorem test_subr_2 : runs supervisor [(.reg 65, 3), (.reg 66, 0xA)] 0x34404142
    [(.reg 64, 7), (.flag 10, 0), (.flag 9, 0), (.flag 8, 0), (.flag 7, 1), (.pc, 0x1004)] = true := by decide

theorem test_subrs_1 : runs supervisor [(.reg 65, 1), (.reg 66, 0x80000000)] 0x30404142
    [(.reg 64, 0x7FFFFFFF), (.flag 10, 1), (.flag 9, 0), (.flag 8, 0), (.flag 7, 1), (.pc, 0x10200)] = true := by decide

theorem test_subrs_2 : runs supervisor [(.reg 65, 0x80000000)] 0x31404100
    [(.reg 64, 0x80000000), (.flag 10, 1), (.flag 9, 1), (.flag 8, 0), (.flag 7, 0), (.pc, 0x10200)] = true := by decide

theorem test_subru_1 : runs supervisor [(.reg 65, 1)] 0x33404100
    [(.reg 64, 0xFFFFFFFF), (.flag 10, 0), (.flag 9, 1), (.flag 8, 0), (.flag 7, 0), (.pc, 0x10200)] = true := by decide

theorem test_subru_2 : runs supervisor [(.reg 65, 4)] 0x33404109
    [(.reg 64, 5), (.flag 10, 0), (.flag 9, 0), (.flag 8, 0), (.flag 7, 1), (.pc, 0x1004)] = true := by decide

theorem test_subrc_1 : runs supervisor [(.reg 71, 0), (.flag 7, 1)] 0x3D474700
    [(.reg 71, 0), (.flag 10, 0), (.flag 9, 0), (.flag 8, 1), (.flag 7, 1), (.pc, 0x1004)] = true := by decide

theorem test_subrc_2 : runs supervisor [(.reg 71, 0), (.flag 7, 0)] 0x3D474700
    [(.reg 71, 0xFFFFFFFF), (.flag 10, 0), (.flag 9, 1), (.flag 8, 0), (.flag 7, 0), (.pc, 0x1004)] = true := by decide

theorem test_subrcs_1 : runs supervisor [(.reg 65, 0x80000000), (.flag 7, 1)] 0x39404100
    [(.reg 64, 0x80000000), (.flag 10, 1), (.flag 9, 1), (.flag 8, 0), (.flag 7, 0), (.pc, 0x10200)] = true := by decide

theorem test_subrcs_2 : runs supervisor [(.reg 65, 0x80000000), (.flag 7, 0)] 0x39404100
    [(.reg 64, 0x7FFFFFFF), (.flag 10, 0), (.flag 9, 0), (.flag 8, 0), (.flag 7, 0), (.pc, 0x1004)] = true := by decide

theorem test_subrcu_1 : runs supervisor [(.reg 65, 5), (.flag 7, 0)] 0x3B404105
    [(.reg 64, 0xFFFFFFFF), (.flag 10, 0), (.flag 9, 1), (.flag 8, 0), (.flag 7, 0), (.pc, 0x10200)] = true := by decide

theorem test_subrcu_2 : runs supervisor [(.reg 65, 5), (.flag 7, 1)] 0x3B404105
    [(.reg 64, 0), (.flag 10, 0), (.flag 9, 0), (.flag 8, 1), (.flag 7, 1), (.pc, 0x1004)] = true := by decide

theorem test_mul_1 : runs supervisor [(.reg 71, 7), (.special 131, 3)] 0x65484700
    [(.reg 72, 3), (.special 131, 0x80000001), (.flag 10, 0), (.flag 9, 0), (.flag 8, 0), (.flag 7, 0), (.pc, 0x1004)] = true := by decide

theorem test_mul_2 : runs supervisor [(.reg 71, 0x80000000), (.reg 72, 0x80000000), (.special 131, 1)] 0x64484748
    [(.reg 72, 0x80000000), (.special 131, 0), (.flag 10, 1), (.flag 9, 0), (.flag 8, 0), (.flag 7, 1), (.pc, 0x1004)] = true := by decide

theorem test_mull_1 : runs supervisor [(.reg 71, 7), (.reg 72, 3), (.special 131, 1)] 0x66484748
    [(.reg 72, 0xFFFFFFFE), (.special 131, 0), (.flag 10, 0), (.flag 9, 1), (.flag 8, 0), (.flag 7, 0), (.pc, 0x1004)] = true := by decide

theorem test_mull_2 : runs supervisor [(.reg 71, 0x80000000), (.reg 72, 0), (.special 131, 1)] 0x66484748
    [(.reg 72, 0x40000000), (.special 131, 0), (.flag 10, 1), (.flag 9, 1), (.flag 8, 0), (.flag 7, 0), (.pc, 0x1004)] = true := by decide

theorem test_mulu_1 : runs supervisor [(.reg 71, 0xFFFFFFFF), (.reg 72, 0xFFFFFFFF), (.special 131, 1)] 0x74484748
    [(.reg 72, 0xFFFFFFFF), (.special 131, 0), (.flag 10, 0), (.flag 9, 1), (.flag 8, 0), (.flag 7, 1), (.pc, 0x1004)] = true := by decide

theorem test_mulu_2 : runs supervisor [(.reg 71, 0x80000001), (.special 131, 0xFFFFFFFF)] 0x75484700
    [(.reg 72, 0x40000000), (.special 131, 0xFFFFFFFF), (.flag 10, 0), (.flag 9, 1), (.flag 8, 0), (.flag 7, 0), (.pc, 0x1004)] = true := by decide

theorem test_div0_1 : runs supervisor [(.reg 71, 0), (.special 131, 0xE)] 0x68490047
    [(.reg 73, 0), (.special 131, 0x1C), (.flag 11, 1), (.flag 10, 0), (.flag 9, 0), (.flag 8, 1), (.flag 7, 0), (.pc, 0x1004)] = true := by decide

theorem test_div0_2 : runs supervisor [(.reg 71, 0x80000000), (.special 131, 0)] 0x68490047
    [(.reg 73, 0), (.special 131, 0), (.flag 11, 1), (.flag 10, 0), (.flag 9, 1), (.flag 8, 1), (.flag 7, 0), (.pc, 0x1004)] = true := by decide

theorem test_div_1 : runs supervisor [(.reg 73, 0), (.reg 72, 3), (.special 131, 0x1C), (.flag 11, 1)] 0x6A494948
    [(.reg 73, 0xFFFFFFFA), (.special 131, 0x38), (.flag 11, 0), (.flag 10, 0), (.flag 9, 1), (.flag 8, 0), (.flag 7, 0), (.pc, 0x1004)] = true := by decide

theorem test_div_2 : runs supervisor [(.reg 73, 0xFFFFFFFE), (.reg 72, 3), (.special 131, 0), (.flag 11, 0), (.flag 9, 1)] 0x6A494948
    [(.reg 73, 2), (.special 131, 1), (.flag 11, 1), (.flag 10, 0), (.flag 9, 0), (.flag 8, 0), (.flag 7, 1), (.pc, 0x1004)] = true := by decide

theorem test_divl_1 : runs supervisor [(.reg 73, 5), (.reg 72, 3), (.special 131, 2), (.flag 11, 1)] 0x6C494948
    [(.reg 73, 2), (.special 131, 5), (.flag 11, 1), (.flag 10, 0), (.flag 9, 0), (.flag 8, 0), (.flag 7, 1), (.pc, 0x1004)] = true := by decide

theorem test_divl_2 : runs supervisor [(.reg 73, 2), (.reg 72, 3), (.special 131, 2), (.flag 11, 1)] 0x6C494948
    [(.reg 73, 0xFFFFFFFF), (.special 131, 4), (.flag 11, 0), (.flag 10, 0), (.flag 9, 1), (.flag 8, 0), (.flag 7, 0), (.pc, 0x1004)] = true := by decide

theorem test_divrem_1 : runs supervisor [(.reg 73, 2), (.reg 72, 3), (.flag 11, 1)] 0x6E494948
    [(.reg 73, 2), (.special 131, 0), (.flag 11, 1), (.flag 10, 0), (.flag 9, 0), (.flag 8, 0), (.flag 7, 0), (.pc, 0x1004)] = true := by decide

theorem test_divrem_2 : runs supervisor [(.reg 73, 0xFFFFFFFF), (.reg 72, 3), (.flag 11, 0)] 0x6E494948
    [(.reg 73, 2), (.special 131, 0), (.flag 11, 0), (.flag 10, 0), (.flag 9, 0), (.flag 8, 0), (.flag 7, 1), (.pc, 0x1004)] = true := by decide

theorem test_divide_1 : runs supervisor [] 0xE1404142
    [(.special 129, 0x104), (.special 130, 0x108), (.special 128, 0x100), (.special 10, 0x1008), (.special 11, 0x1004), (.special 12, 0x1000), (.pc, 0x12100)] = true := by decide

theorem test_cpeq_1 : runs supervisor [(.reg 65, 0x80000000), (.reg 66, 0x7FFFFFFF)] 0x60404142
    [(.reg 64, 0), (.pc, 0x1004)] = true := by decide

theorem test_cpeq_2 : runs supervisor [(.reg 65, 0)] 0x61404100
    [(.reg 64, 0x80000000), (.pc, 0x1004)] = true := by decide

theorem test_cpneq_1 : runs supervisor [(.reg 65, 0x80000000), (.reg 66, 0x7FFFFFFF)] 0x62404142
    [(.reg 64, 0x80000000), (.pc, 0x1004)] = true := by decide

theorem test_cpneq_2 : runs supervisor [(.reg 65, 0x12345678), (.reg 66, 0x12345678)] 0x62404142
    [(.reg 64, 0), (.pc, 0x1004)] = true := by decide

theorem test_cplt_1 : runs supervisor [(.reg 65, 0x80000000), (.reg 66, 0x7FFFFFFF)] 0x40404142
    [(.reg 64, 0x80000000), (.pc, 0x1004)] = true := by decide

theorem test_cplt_2 : runs supervisor [(.reg 65, 0xFFFFFFFF)] 0x414041FF
    [(.reg 64, 0x80000000), (.pc, 0x1004)] = true := by decide

theorem test_cpltu_1 : runs supervisor [(.reg 65, 0x80000000), (.reg 66, 0x7FFFFFFF)] 0x42404142
    [(.reg 64, 0), (.pc, 0x1004)] = true := by decide

theorem test_cpltu_2 : runs supervisor [(.reg 65, 0xFFFFFFFF)] 0x434041FF
    [(.reg 64, 0), (.pc, 0x1004)] = true := by decide

theorem test_cple_1 : runs supervisor [(.reg 65, 0x80000000), (.reg 66, 0x7FFFFFFF)] 0x44404142
    [(.reg 64, 0x80000000), (.pc, 0x1004)] = true := by decide

theorem test_cple_2 : runs supervisor [(.reg 65, 0x12345678), (.reg 66, 0x12345678)] 0x44404142
    [(.reg 64, 0x80000000), (.pc, 0x1004)] = true := by decide

theorem test_cpleu_1 : runs supervisor [(.reg 65, 0x80000000), (.reg 66, 0x7FFFFFFF)] 0x46404142
    [(.reg 64, 0), (.pc, 0x1004)] = true := by decide

theorem test_cpleu_2 : runs supervisor [(.reg 65, 0x12345678), (.reg 66, 0x12345678)] 0x46404142
    [(.reg 64, 0x80000000), (.pc, 0x1004)] = true := by decide

theorem test_cpgt_1 : runs supervisor [(.reg 65, 0x80000000), (.reg 66, 0x7FFFFFFF)] 0x48404142
    [(.reg 64, 0), (.pc, 0x1004)] = true := by decide

theorem test_cpgt_2 : runs supervisor [(.reg 65, 0x12345678), (.reg 66, 0x12345678)] 0x48404142
    [(.reg 64, 0), (.pc, 0x1004)] = true := by decide

theorem test_cpgtu_1 : runs supervisor [(.reg 65, 0x80000000), (.reg 66, 0x7FFFFFFF)] 0x4A404142
    [(.reg 64, 0x80000000), (.pc, 0x1004)] = true := by decide

theorem test_cpgtu_2 : runs supervisor [(.reg 65, 0x12345678), (.reg 66, 0x12345678)] 0x4A404142
    [(.reg 64, 0), (.pc, 0x1004)] = true := by decide

theorem test_cpge_1 : runs supervisor [(.reg 65, 0x80000000), (.reg 66, 0x7FFFFFFF)] 0x4C404142
    [(.reg 64, 0), (.pc, 0x1004)] = true := by decide

theorem test_cpge_2 : runs supervisor [(.reg 64, 1)] 0x4D404000
    [(.reg 64, 0x80000000), (.pc, 0x1004)] = true := by decide

theorem test_cpgeu_1 : runs supervisor [(.reg 65, 0x80000000), (.reg 66, 0x7FFFFFFF)] 0x4E404142
    [(.reg 64, 0x80000000), (.pc, 0x1004)] = true := by decide

theorem test_cpgeu_2 : runs supervisor [(.reg 65, 0x12345678), (.reg 66, 0x12345678)] 0x4E404142
    [(.reg 64, 0x80000000), (.pc, 0x1004)] = true := by decide

theorem test_cpbyte_1 : runs supervisor [(.reg 65, 0x41424300), (.reg 66, 0)] 0x2E404142
    [(.reg 64, 0x80000000), (.pc, 0x1004)] = true := by decide

theorem test_cpbyte_2 : runs supervisor [(.reg 65, 0x11223344)] 0x2F404144
    [(.reg 64, 0x80000000), (.pc, 0x1004)] = true := by decide

theorem test_aseq_1 : runs supervisor [(.reg 65, 1)] 0x71404100
    [(.special 10, 0x1008), (.special 11, 0x1004), (.special 12, 0x1000), (.pc, 0x14000)] = true := by decide

theorem test_asneq_1 : runs supervisor [] 0x72450101
    [(.special 10, 0x1008), (.special 11, 0x1004), (.special 12, 0x1000), (.pc, 0x14500)] = true := by decide

theorem test_asneq_2 : runs supervisor [] 0x72400101
    [(.special 10, 0x1008), (.special 11, 0x1004), (.special 12, 0x1000), (.pc, 0x14000)] = true := by decide

theorem test_aslt_1 : runs supervisor [(.reg 65, 0x80000000), (.reg 66, 0x7FFFFFFF)] 0x50464142
    [(.special 10, 0x1008), (.special 11, 0x1004), (.special 12, 0x1000), (.pc, 0x1004)] = true := by decide

theorem test_asltu_1 : runs supervisor [(.reg 65, 0x80000000), (.reg 66, 0x7FFFFFFF)] 0x52464142
    [(.special 10, 0x1008), (.special 11, 0x1004), (.special 12, 0x1000), (.pc, 0x14600)] = true := by decide

theorem test_asle_1 : runs supervisor [(.reg 65, 0x12345678), (.reg 66, 0x12345678)] 0x54474142
    [(.special 10, 0x1008), (.special 11, 0x1004), (.special 12, 0x1000), (.pc, 0x1004)] = true := by decide

theorem test_asleu_1 : runs supervisor [(.reg 65, 0x80000000), (.reg 66, 0x7FFFFFFF)] 0x56474142
    [(.special 10, 0x1008), (.special 11, 0x1004), (.special 12, 0x1000), (.pc, 0x14700)] = true := by decide

theorem test_asgt_1 : runs supervisor [(.reg 65, 0x80000000), (.reg 66, 0x7FFFFFFF)] 0x58484142
    [(.special 10, 0x1008), (.special 11, 0x1004), (.special 12, 0x1000), (.pc, 0x14800)] = true := by decide

theorem test_asgtu_1 : runs supervisor [(.reg 65, 0x80000000), (.reg 66, 0x7FFFFFFF)] 0x5A484142
    [(.special 10, 0x1008), (.special 11, 0x1004), (.special 12, 0x1000), (.pc, 0x1004)] = true := by decide

theorem test_asge_1 : runs supervisor [(.reg 65, 0x80000000), (.reg 66, 0x7FFFFFFF)] 0x5C494142
    [(.special 10, 0x1008), (.special 11, 0x1004), (.special 12, 0x1000), (.pc, 0x14900)] = true := by decide

theorem test_asgeu_1 : runs supervisor [(.reg 65, 0x80000000), (.reg 66, 0x7FFFFFFF)] 0x5E494142
    [(.special 10, 0x1008), (.special 11, 0x1004), (.special 12, 0x1000), (.pc, 0x1004)] = true := by decide

theorem test_asgeu_2 : runs supervisor [(.reg 65, 0x12345678), (.reg 66, 0x12345678)] 0x5E494142
    [(.special 10, 0x1008), (.special 11, 0x1004), (.special 12, 0x1000), (.pc, 0x1004)] = true := by decide

theorem test_and_1 : runs supervisor [(.reg 65, 0xF0F0F0F0), (.reg 66, 0x8000FFFF), (.special 132, 0x480)] 0x90404142
    [(.reg 64, 0x8000F0F0), (.flag 10, 1), (.flag 9, 1), (.flag 8, 0), (.flag 7, 1), (.pc, 0x1004)] = true := by decide

theorem test_and_2 : runs supervisor [(.reg 65, 0x12345670), (.special 132, 0x480)] 0x9140410F
    [(.reg 64, 0), (.flag 10, 1), (.flag 9, 0), (.flag 8, 1), (.flag 7, 1), (.pc, 0x1004)] = true := by decide

theorem test_andn_1 : runs supervisor [(.reg 65, 0xF0F0F0F0), (.reg 66, 0x8000FFFF), (.special 132, 0x480)] 0x9C404142
    [(.reg 64, 0x70F00000), (.flag 10, 1), (.flag 9, 0), (.flag 8, 0), (.flag 7, 1), (.pc, 0x1004)] = true := by decide

theorem test_andn_2 : runs supervisor [(.reg 65, 0x80001237), (.special 132, 0x480)] 0x9D404103
    [(.reg 64, 0x80001234), (.flag 10, 1), (.flag 9, 1), (.flag 8, 0), (.flag 7, 1), (.pc, 0x1004)] = true := by decide

theorem test_nand_1 : runs supervisor [(.reg 65, 0xF0F0F0F0), (.reg 66, 0x8000FFFF), (.special 132, 0x480)] 0x9A404142
    [(.reg 64, 0x7FFF0F0F), (.flag 10, 1), (.flag 9, 0), (.flag 8, 0), (.flag 7, 1), (.pc, 0x1004)] = true := by decide

theorem test_nand_2 : runs supervisor [(.reg 65, 0xA5), (.special 132, 0x480)] 0x9B4041FF
    [(.reg 64, 0xFFFFFF5A), (.flag 10, 1), (.flag 9, 1), (.flag 8, 0), (.flag 7, 1), (.pc, 0x1004)] = true := by decide

theorem test_or_1 : runs supervisor [(.reg 65, 0xF0F0F0F0), (.reg 66, 0x8000FFFF), (.special 132, 0x480)] 0x92404142
    [(.reg 64, 0xF0F0FFFF), (.flag 10, 1), (.flag 9, 1), (.flag 8, 0), (.flag 7, 1), (.pc, 0x1004)] = true := by decide

theorem test_or_2 : runs supervisor [(.reg 65, 0), (.special 132, 0x480)] 0x93404100
    [(.reg 64, 0), (.flag 10, 1), (.flag 9, 0), (.flag 8, 1), (.flag 7, 1), (.pc, 0x1004)] = true := by decide

theorem test_nor_1 : runs supervisor [(.reg 65, 0xF0F0F0F0), (.reg 66, 0x8000FFFF), (.special 132, 0x480)] 0x98404142
    [(.reg 64, 0xF0F0000), (.flag 10, 1), (.flag 9, 0), (.flag 8, 0), (.flag 7, 1), (.pc, 0x1004)] = true := by decide

theorem test_nor_2 : runs supervisor [(.reg 65, 0xFFFF), (.special 132, 0x480)] 0x99404100
    [(.reg 64, 0xFFFF0000), (.flag 10, 1), (.flag 9, 1), (.flag 8, 0), (.flag 7, 1), (.pc, 0x1004)] = true := by decide

theorem test_xor_1 : runs supervisor [(.reg 65, 0xF0F0F0F0), (.reg 66, 0x8000FFFF), (.special 132, 0x480)] 0x94404142
    [(.reg 64, 0x70F00F0F), (.flag 10, 1), (.flag 9, 0), (.flag 8, 0), (.flag 7, 1), (.pc, 0x1004)] = true := by decide

theorem test_xor_2 : runs supervisor [(.reg 65, 0xDEADBEEF), (.special 132, 0x480)] 0x94404141
    [(.reg 64, 0), (.flag 10, 1), (.flag 9, 0), (.flag 8, 1), (.flag 7, 1), (.pc, 0x1004)] = true := by decide

theorem test_xnor_1 : runs supervisor [(.reg 65, 0xF0F0F0F0), (.reg 66, 0x8000FFFF), (.special 132, 0x480)] 0x96404142
    [(.reg 64, 0x8F0FF0F0), (.flag 10, 1), (.flag 9, 1), (.flag 8, 0), (.flag 7, 1), (.pc, 0x1004)] = true := by decide

theorem test_xnor_2 : runs supervisor [(.reg 65, 0xFFFFFFFF), (.special 132, 0x480)] 0x97404100
    [(.reg 64, 0), (.flag 10, 1), (.flag 9, 0), (.flag 8, 1), (.flag 7, 1), (.pc, 0x1004)] = true := by decide

theorem test_sll_1 : runs supervisor [(.reg 65, 0xC0000001)] 0x81404102
    [(.reg 64, 4), (.pc, 0x1004)] = true := by decide

theorem test_sll_2 : runs supervisor [(.reg 65, 1)] 0x81404121
    [(.reg 64, 2), (.pc, 0x1004)] = true := by decide

theorem test_srl_1 : runs supervisor [(.reg 65, 0x80000010)] 0x83404104
    [(.reg 64, 0x8000001), (.pc, 0x1004)] = true := by decide

theorem test_srl_2 : runs supervisor [(.reg 65, 0x80000010), (.reg 66, 0xFFFFFFE0)] 0x82404142
    [(.reg 64, 0x80000010), (.pc, 0x1004)] = true := by decide

theorem test_sra_1 : runs supervisor [(.reg 65, 0x80000010)] 0x87404104
    [(.reg 64, 0xF8000001), (.pc, 0x1004)] = true := by decide

theorem test_sra_2 : runs supervisor [(.reg 64, 0xFFFFFF04)] 0x86404040
    [(.reg 64, 0xFFFFFFF0), (.pc, 0x1004)] = true := by decide

theorem test_extract_1 : runs supervisor [(.reg 65, 0x12345678), (.reg 66, 0x9ABCDEF0), (.special 134, 0)] 0x7A404142
    [(.reg 64, 0x12345678), (.pc, 0x1004)] = true := by decide

theorem test_extract_2 : runs supervisor [(.reg 65, 0xFFFFFFFF), (.special 134, 0)] 0x7B4041FF
    [(.reg 64, 0xFFFFFFFF), (.pc, 0x1004)] = true := by decide

theorem test_exbyte_1 : runs supervisor [(.reg 65, 0x11223344), (.special 133, 0), (.special 3, 0)] 0x0B404100
    [(.reg 64, 0x11), (.pc, 0x1004)] = true := by decide

theorem test_exbyte_2 : runs supervisor [(.reg 65, 0x11223344), (.reg 66, 0xAABBCCDD), (.special 133, 0), (.special 3, 0)] 0x0A404142
    [(.reg 64, 0xAABBCC11), (.pc, 0x1004)] = true := by decide

theorem test_exhw_1 : runs supervisor [(.reg 65, 0x11223344), (.special 133, 0), (.special 3, 0)] 0x7D404100
    [(.reg 64, 0x1122), (.pc, 0x1004)] = true := by decide

theorem test_exhw_2 : runs supervisor [(.reg 65, 0x11223344), (.reg 66, 0xAABBCCDD), (.special 133, 1), (.special 3, 0)] 0x7C404142
    [(.reg 64, 0xAABB1122), (.pc, 0x1004)] = true := by decide

theorem test_exhws_1 : runs supervisor [(.reg 65, 0x8001FFFF), (.special 133, 0), (.special 3, 0)] 0x7E404100
    [(.reg 64, 0xFFFF8001), (.pc, 0x1004)] = true := by decide

theorem test_exhws_2 : runs supervisor [(.reg 65, 0x17FFF), (.special 133, 2), (.special 3, 0)] 0x7E404100
    [(.reg 64, 0x7FFF), (.pc, 0x1004)] = true := by decide

theorem test_inbyte_1 : runs supervisor [(.reg 65, 0x11223344), (.reg 66, 0xAABBCCDD), (.special 133, 0), (.special 3, 0)] 0x0C404142
    [(.reg 64, 0xDD223344), (.pc, 0x1004)] = true := by decide

theorem test_inbyte_2 : runs supervisor [(.reg 65, 0x11223344), (.special 133, 3), (.special 3, 0)] 0x0D404141
    [(.reg 64, 0x11223341), (.pc, 0x1004)] = true := by decide

theorem test_inhw_1 : runs supervisor [(.reg 65, 0x11223344), (.reg 66, 0xAABBCCDD), (.special 133, 0), (.special 3, 0)] 0x78404142
    [(.reg 64, 0xCCDD3344), (.pc, 0x1004)] = true := by decide

theorem test_inhw_2 : runs supervisor [(.reg 65, 0x11223344), (.special 133, 3), (.special 3, 0)] 0x794041FF
    [(.reg 64, 0x112200FF), (.pc, 0x1004)] = true := by decide

theorem test_mfsr_1 : runs supervisor [(.special 131, 0xDEADBEEF)] 0xC6408300
    [(.reg 64, 0xDEADBEEF), (.pc, 0x1004)] = true := by decide

theorem test_mfsr_2 : runs supervisor [(.special 131, 0xDEADBEEF)] 0xC6408300
    [(.reg 64, 0xDEADBEEF), (.pc, 0x1004)] = true := by decide

theorem test_mtsr_1 : runs supervisor [(.reg 70, 0x12345678)] 0xCE008346
    [(.special 131, 0x12345678), (.pc, 0x1004)] = true := by decide

theorem test_mtsr_2 : runs user [(.reg 64, 0), (.special 7, 0xFFFF)] 0xCE000740
    [(.special 7, 0xFFFF), (.special 11, 0x1000), (.pc, 0x10500)] = true := by decide

theorem test_mtsrim_1 : runs supervisor [(.special 6, 0)] 0x0400871F
    [(.special 6, 0x1F0000), (.pc, 0x1004)] = true := by decide

theorem test_mtsrim_2 : runs supervisor [] 0x04010273
    [(.special 2, 0x173), (.pc, 0x1004)] = true := by decide

theorem test_const_1 : runs supervisor [] 0x03124034
    [(.reg 64, 0x1234), (.pc, 0x1004)] = true := by decide

theorem test_const_2 : runs supervisor [(.reg 64, 0xAAAAAAAA)] 0x03004000
    [(.reg 64, 0), (.pc, 0x1004)] = true := by decide

theorem test_consth_1 : runs supervisor [(.reg 64, 0x5678)] 0x02124034
    [(.reg 64, 0x12345678), (.pc, 0x1004)] = true := by decide

theorem test_consth_2 : runs supervisor [(.reg 64, 0)] 0x02FF40FF
    [(.reg 64, 0xFFFF0000), (.pc, 0x1004)] = true := by decide

theorem test_constn_1 : runs supervisor [] 0x01FF40FE
    [(.reg 64, 0xFFFFFFFE), (.pc, 0x1004)] = true := by decide

theorem test_constn_2 : runs supervisor [] 0x017F40FF
    [(.reg 64, 0xFFFF7FFF), (.pc, 0x1004)] = true := by decide

theorem test_jmp_1 : runs supervisor [] 0xA0000004
    [(.pc, 0x1004), (.npc, 0x1010)] = true := by decide

theorem test_jmp_2 : runs supervisor [] 0xA1FF00FF
    [(.pc, 0x1004), (.npc, 0x3FFFC)] = true := by decide

theorem test_jmpi_1 : runs supervisor [(.reg 64, 0x40003)] 0xC0000040
    [(.pc, 0x1004), (.npc, 0x40000)] = true := by decide

theorem test_jmpt_1 : runs supervisor [(.reg 64, 0x80000000)] 0xACFF40FE
    [(.pc, 0x1004), (.npc, 0xFF8)] = true := by decide

theorem test_jmpt_2 : runs supervisor [(.reg 64, 0xFFFFFFFF)] 0xACFF40FE
    [(.pc, 0x1004), (.npc, 0xFF8)] = true := by decide

theorem test_jmpf_1 : runs supervisor [(.reg 64, 0)] 0xA4004003
    [(.pc, 0x1004), (.npc, 0x100C)] = true := by decide

theorem test_jmpf_2 : runs supervisor [(.reg 64, 0x80000000)] 0xA4004003
    [(.pc, 0x1004), (.npc, 0x1008)] = true := by decide

theorem test_jmpti_1 : runs supervisor [(.reg 64, 0x80000000), (.reg 65, 0x2000)] 0xCC004041
    [(.pc, 0x1004), (.npc, 0x2000)] = true := by decide

theorem test_jmpti_2 : runs supervisor [(.reg 64, 0), (.reg 65, 0x2000)] 0xCC004041
    [(.pc, 0x1004), (.npc, 0x1008)] = true := by decide

theorem test_jmpfi_1 : runs supervisor [(.reg 64, 0), (.reg 65, 0x2002)] 0xC4004041
    [(.pc, 0x1004), (.npc, 0x2000)] = true := by decide

theorem test_jmpfi_2 : runs supervisor [(.reg 64, 0x80000000), (.reg 65, 0x2000)] 0xC4004041
    [(.pc, 0x1004), (.npc, 0x1008)] = true := by decide

theorem test_jmpfdec_1 : runs supervisor [(.reg 64, 2)] 0xB4FF40FF
    [(.reg 64, 1), (.pc, 0x1004), (.npc, 0xFFC)] = true := by decide

theorem test_jmpfdec_2 : runs supervisor [(.reg 64, 0x80000000)] 0xB4FF40FF
    [(.reg 64, 0x7FFFFFFF), (.pc, 0x1004), (.npc, 0x1008)] = true := by decide

theorem test_call_1 : runs supervisor [] 0xA8014000
    [(.reg 64, 0x1008), (.pc, 0x1004), (.npc, 0x1400)] = true := by decide

theorem test_call_2 : runs supervisor [] 0xA9204000
    [(.reg 64, 0x1008), (.pc, 0x1004), (.npc, 0x8000)] = true := by decide

theorem test_calli_1 : runs supervisor [(.reg 65, 0x40000)] 0xC8004041
    [(.reg 64, 0x1008), (.pc, 0x1004), (.npc, 0x40000)] = true := by decide

theorem test_calli_2 : runs supervisor [(.reg 64, 0x40000)] 0xC8004040
    [(.reg 64, 0x1008), (.pc, 0x1004), (.npc, 0x40000)] = true := by decide

theorem test_clz_1 : runs supervisor [(.reg 65, 0x80000000)] 0x08400041
    [(.reg 64, 0), (.pc, 0x1004)] = true := by decide

theorem test_clz_2 : runs supervisor [(.reg 64, 0x800)] 0x08400040
    [(.reg 64, 0x14), (.pc, 0x1004)] = true := by decide

theorem test_setip_1 : runs supervisor [(.special 129, 0x3FC), (.special 130, 0x200), (.special 128, 0x204)] 0x9E004100
    [(.special 129, 0x104), (.special 130, 0x200), (.special 128, 0x204), (.pc, 0x1004)] = true := by decide

theorem test_emulate_1 : runs supervisor [(.special 129, 0), (.special 130, 0)] 0xF8404142
    [(.special 129, 0x104), (.special 130, 0x108), (.special 10, 0x1008), (.special 11, 0x1004), (.special 12, 0x1000), (.pc, 0x14000)] = true := by decide

theorem test_emulate_2 : runs supervisor [(.special 129, 0), (.special 130, 0)] 0xF8054142
    [(.special 129, 0x104), (.special 130, 0x108), (.special 11, 0x1004), (.pc, 0x10500)] = true := by decide

theorem test_inv_1 : runs user [] 0x9F000000
    [(.special 11, 0x1000), (.pc, 0x10500)] = true := by decide

theorem test_iret_1 : runs user [] 0x88000000
    [(.special 11, 0x1000), (.pc, 0x10500)] = true := by decide

theorem test_iretinv_1 : runs user [] 0x8C000000
    [(.special 11, 0x1000), (.pc, 0x10500)] = true := by decide

theorem test_halt_1 : runs user [] 0x89000000
    [(.special 11, 0x1000), (.pc, 0x10500)] = true := by decide

/-! Rows of 96 for memory accesses: section 2.5, and section 2.11 with two of its TLB entries. -/

theorem test_load_1 : runs supervisor [(.reg 65, 0x4000), (.mem 0x4000, 0x11223344)] 0x16004041
    [(.reg 64, 0x11223344), (.special 4, 0x4000), (.special 6, 0x8100), (.special 133, 0), (.pc, 0x1004)] = true := by decide

theorem test_load_2 : runs 0x20#32 [(.special 13, 1), (.tlb 4, 0x17401), (.tlb 5, 0x54080), (.tlb 68, 0x1C601), (.tlb 69, 0x60000), (.mem 0x54010, 0xA5A5A5A5), (.reg 65, 0x10810)] 0x16004041
    [(.reg 64, 0xA5A5A5A5), (.tlb 5, 0x54082), (.tlb 69, 0x60002), (.special 6, 0x8100), (.special 14, 0)] = true := by decide

theorem test_loadl_1 : runs supervisor [(.reg 65, 0x4000), (.mem 0x4000, 0x11223344)] 0x06004041
    [(.reg 64, 0x11223344), (.special 4, 0x4000), (.special 6, 0x9100)] = true := by decide

theorem test_loadl_2 : runs 0x30#32 [(.special 13, 1), (.tlb 4, 0x17401), (.tlb 5, 0x54080), (.tlb 68, 0x1C601), (.tlb 69, 0x60000), (.reg 64, 0x55555555), (.reg 65, 0x20810)] 0x06084041
    [(.reg 64, 0x55555555), (.special 14, 4), (.special 11, 0x1004), (.pc, 0x10900)] = true := by decide

theorem test_loadset_1 : runs 0x20#32 [(.special 13, 1), (.tlb 4, 0x17401), (.tlb 5, 0x54080), (.tlb 68, 0x1C601), (.tlb 69, 0x60000), (.mem 0x60010, 0x5A5A5A5A), (.reg 65, 0x18810)] 0x26004041
    [(.reg 64, 0x5A5A5A5A), (.mem 0x60010, 0xFFFFFFFF), (.special 6, 0xA100)] = true := by decide

theorem test_loadset_2 : runs 0x20#32 [(.special 13, 1), (.tlb 4, 0x17401), (.tlb 5, 0x54080), (.tlb 68, 0x1C601), (.tlb 69, 0x60000), (.mem 0x54010, 0xA5A5A5A5), (.reg 64, 0x55555555), (.reg 65, 0x10810)] 0x26004041
    [(.reg 64, 0x55555555), (.mem 0x54010, 0xA5A5A5A5), (.special 6, 0xA101), (.pc, 0x10D00)] = true := by decide

theorem test_store_1 : runs 0x30#32 [(.special 13, 1), (.tlb 4, 0x17401), (.tlb 5, 0x54080), (.tlb 68, 0x1C601), (.tlb 69, 0x60000), (.mem 0x54010, 0xA5A5A5A5), (.reg 64, 0xCAFEBABE), (.reg 65, 0x10810)] 0x1E004041
    [(.mem 0x54010, 0xCAFEBABE), (.tlb 5, 0x54082), (.tlb 69, 0x60002), (.special 6, 0x100)] = true := by decide

theorem test_store_2 : runs supervisor [(.reg 64, 0x11111111), (.reg 65, 0x22222222)] 0x1EE04041
    [(.special 4, 0x22222222), (.special 5, 0x11111111), (.special 6, 0xE0000101), (.special 11, 0x1004), (.pc, 0x10300)] = true := by decide

/-! From the rules themselves: 44 R384, R386 to R388, R403, R404, 48 R504, R507, 60 R570. -/

theorem test_storel_1 : runs supervisor [(.reg 64, 0x11111111), (.reg 65, 0x4000)] 0x0E004041
    [(.mem 0x4000, 0x11111111), (.special 6, 0x1100), (.pc, 0x1004)] = true := by decide

theorem test_loadm_1 : runs supervisor [(.special 135, 1), (.reg 96, 0x4000), (.mem 0x4000, 5), (.mem 0x4004, 6), (.mem 0x4008, 7)] 0x36004060
    [(.reg 64, 5), (.reg 65, 6), (.reg 66, 0), (.special 4, 0x4004), (.pc, 0x1004)] = true := by decide +kernel

theorem test_loadm_2 : runs supervisor [(.special 135, 1), (.reg 96, 0x4000), (.mem 0x4000, 5), (.mem 0x4004, 6)] 0x3600FF60
    [(.reg 255, 5), (.reg 128, 6), (.reg 127, 0), (.special 4, 0x4004)] = true := by decide +kernel

theorem test_storem_1 : runs supervisor [(.special 135, 1), (.reg 96, 0x4000), (.reg 127, 5), (.reg 128, 6), (.mem 0x4008, 9)] 0x3E007F60
    [(.mem 0x4000, 5), (.mem 0x4004, 6), (.mem 0x4008, 9), (.special 4, 0x4004)] = true := by decide +kernel

theorem test_mftlb_1 : runs supervisor [(.tlb 5, 0x54080), (.reg 65, 0x85)] 0xB6404100
    [(.reg 64, 0x54080), (.pc, 0x1004)] = true := by decide

theorem test_mttlb_1 : runs supervisor [(.reg 65, 5), (.reg 66, 0xFFFFFFFF)] 0xBE004142
    [(.tlb 5, 0xFFFFFCC3), (.tlb 4, 0), (.tlb 6, 0)] = true := by decide

theorem test_mttlb_2 : runs user [(.reg 65, 5), (.reg 66, 0xFFFFFFFF)] 0xBE004142
    [(.tlb 5, 0), (.special 11, 0x1000), (.pc, 0x10500)] = true := by decide

theorem test_inv_2 : runs supervisor [] 0x9F000000
    [(.pc, 0x1004)] = true := by decide

theorem test_halt_2 : runs supervisor [] 0x89000000
    [(.halted, 1), (.pc, 0x1004)] = true := by decide

theorem test_iret_2 : runs 0x470#32 [(.special 1, 0x60), (.special 10, 0x2004), (.special 11, 0x2000)] 0x88000000
    [(.special 2, 0x60), (.pc, 0x2000), (.npc, 0x2004)] = true := by decide

theorem test_iretinv_2 : runs 0x470#32 [(.special 1, 0x60), (.special 10, 0x2004), (.special 11, 0x2000)] 0x8C000000
    [(.special 2, 0x60), (.pc, 0x2000), (.npc, 0x2004)] = true := by decide

theorem test_setip_2 : runs supervisor [(.reg 1, 0x40)] 0x9E828340
    [(.special 129, 0x24C), (.special 130, 0x100), (.special 128, 0x248), (.pc, 0x1004)] = true := by decide

theorem test_multiply_1 : runs supervisor [(.reg 1, 0x40)] 0xE0828340
    [(.special 129, 0x24C), (.special 130, 0x100), (.special 128, 0x248), (.special 11, 0x1004), (.special 12, 0x1000), (.pc, 0x12000)] = true := by decide

/-! Rows of 96, section 2.7: Stack Pointer 0x40, the pointers and the handler; `IPB` of a conversion is any value. -/

theorem test_fadd : runs supervisor [(.reg 1, 0x40)] 0xF0824183
    [(.special 129, 0x104), (.special 130, 0x24C), (.special 128, 0x248), (.special 12, 0x1000), (.pc, 0x13000)] = true := by decide

theorem test_dadd : runs supervisor [(.reg 1, 0x40)] 0xF1404284
    [(.special 129, 0x108), (.special 130, 0x250), (.special 128, 0x100), (.special 12, 0x1000), (.pc, 0x13100)] = true := by decide

theorem test_fsub : runs supervisor [(.reg 1, 0x40)] 0xF2824183
    [(.special 129, 0x104), (.special 130, 0x24C), (.special 128, 0x248), (.special 12, 0x1000), (.pc, 0x13200)] = true := by decide

theorem test_dsub : runs supervisor [(.reg 1, 0x40)] 0xF3404284
    [(.special 129, 0x108), (.special 130, 0x250), (.special 128, 0x100), (.special 12, 0x1000), (.pc, 0x13300)] = true := by decide

theorem test_fmul : runs supervisor [(.reg 1, 0x40)] 0xF4824183
    [(.special 129, 0x104), (.special 130, 0x24C), (.special 128, 0x248), (.special 12, 0x1000), (.pc, 0x13400)] = true := by decide

theorem test_dmul : runs supervisor [(.reg 1, 0x40)] 0xF5404284
    [(.special 129, 0x108), (.special 130, 0x250), (.special 128, 0x100), (.special 12, 0x1000), (.pc, 0x13500)] = true := by decide

theorem test_fdiv : runs supervisor [(.reg 1, 0x40)] 0xF6824183
    [(.special 129, 0x104), (.special 130, 0x24C), (.special 128, 0x248), (.special 12, 0x1000), (.pc, 0x13600)] = true := by decide

theorem test_ddiv : runs supervisor [(.reg 1, 0x40)] 0xF7404284
    [(.special 129, 0x108), (.special 130, 0x250), (.special 128, 0x100), (.special 12, 0x1000), (.pc, 0x13700)] = true := by decide

theorem test_feq : runs supervisor [(.reg 1, 0x40)] 0xEA824183
    [(.special 129, 0x104), (.special 130, 0x24C), (.special 128, 0x248), (.special 12, 0x1000), (.pc, 0x12A00)] = true := by decide

theorem test_deq : runs supervisor [(.reg 1, 0x40)] 0xEB404284
    [(.special 129, 0x108), (.special 130, 0x250), (.special 128, 0x100), (.special 12, 0x1000), (.pc, 0x12B00)] = true := by decide

theorem test_fgt : runs supervisor [(.reg 1, 0x40)] 0xEC824183
    [(.special 129, 0x104), (.special 130, 0x24C), (.special 128, 0x248), (.special 12, 0x1000), (.pc, 0x12C00)] = true := by decide

theorem test_dgt : runs supervisor [(.reg 1, 0x40)] 0xED404284
    [(.special 129, 0x108), (.special 130, 0x250), (.special 128, 0x100), (.special 12, 0x1000), (.pc, 0x12D00)] = true := by decide

theorem test_flt : runs supervisor [(.reg 1, 0x40)] 0xEE824183
    [(.special 129, 0x104), (.special 130, 0x24C), (.special 128, 0x248), (.special 12, 0x1000), (.pc, 0x12E00)] = true := by decide

theorem test_dlt : runs supervisor [(.reg 1, 0x40)] 0xEF404284
    [(.special 129, 0x108), (.special 130, 0x250), (.special 128, 0x100), (.special 12, 0x1000), (.pc, 0x12F00)] = true := by decide

theorem test_cvintf : runs supervisor [(.reg 1, 0x40)] 0xE4824100
    [(.special 129, 0x104), (.special 128, 0x248), (.special 12, 0x1000), (.pc, 0x12400)] = true := by decide

theorem test_cvintd : runs supervisor [(.reg 1, 0x40)] 0xE5824100
    [(.special 129, 0x104), (.special 128, 0x248), (.special 12, 0x1000), (.pc, 0x12500)] = true := by decide

theorem test_cvfint : runs supervisor [(.reg 1, 0x40)] 0xE6824100
    [(.special 129, 0x104), (.special 128, 0x248), (.special 12, 0x1000), (.pc, 0x12600)] = true := by decide

theorem test_cvdint : runs supervisor [(.reg 1, 0x40)] 0xE7824100
    [(.special 129, 0x104), (.special 128, 0x248), (.special 12, 0x1000), (.pc, 0x12700)] = true := by decide

theorem test_cvfd : runs supervisor [(.reg 1, 0x40)] 0xE8824100
    [(.special 129, 0x104), (.special 128, 0x248), (.special 12, 0x1000), (.pc, 0x12800)] = true := by decide

theorem test_cvdf : runs supervisor [(.reg 1, 0x40)] 0xE9824100
    [(.special 129, 0x104), (.special 128, 0x248), (.special 12, 0x1000), (.pc, 0x12900)] = true := by decide

/-! Rows of 96, section 2.11, instruction side, with its entry E: what a translated fetch at 0x1000 does. -/

/-- One step with nothing placed leaves these values. -/
def fetches (cps : Word) (before : List (Slot × Nat)) (after : List (Slot × Nat)) : Bool :=
  match step (begin cps before) with
  | .next t => after.all fun p => State.look t p.1 == p.2
  | _ => false

theorem test_fetch_hit : fetches 0x40#32 [(.special 13, 1), (.tlb 8, 0x4901), (.tlb 9, 0x2000), (.mem 0x2000, 0x03224022)]
    [(.reg 64, 0x2222), (.tlb 9, 0x2002), (.tlb 73, 2), (.special 14, 0)] = true := by decide

theorem test_fetch_miss : fetches 0x50#32 [(.special 13, 2), (.tlb 8, 0x4901), (.tlb 9, 0x2000)]
    [(.special 14, 8), (.special 10, 0x1004), (.special 11, 0x1000), (.pc, 0x10A00)] = true := by decide

theorem test_fetch_protection : fetches 0x40#32 [(.special 13, 1), (.tlb 8, 0x4801), (.tlb 9, 0x2000)]
    [(.tlb 9, 0x2002), (.special 11, 0x1000), (.pc, 0x10C00)] = true := by decide

/-! Rows of 96, section 2.10: `CPS` and `OPS` across a trap, a vector with its R bit, an illegal opcode. -/

theorem test_trap_status : runs 0x8A0C#32 [] 0x72450101
    [(.special 1, 0x8A0C), (.special 2, 0x847F)] = true := by decide

/-- A translated fetch right after a write of the page size leaves its mapping behind (10 R39, 20 R177); a later one does not. -/
theorem test_window_remembered :
    let s := { start 0x50#32 with mmu := { now := 0x100#32, old := 0#32, age := 1 } }
    (s.rememberWindow false).oldMaps.length = 1 ∧
      ({ s with mmu := s.mmu.settle }.rememberWindow false).oldMaps.length = 0 := by
  decide



/-! For each statement with hypotheses, a case that meets them, and one for each of its clauses, at the ends of their ranges.
The statement's name follows `witness_`. First, the hypotheses that have a name in `Safety`, from what `decide` can tell. -/

theorem sourcesReady_of {s : State} {ra : RegNum} {rb : Src2}
    (h : s.isProtected (s.absReg .A ra) = false ∧ s.protectedSrc (s.resolve rb) = false ∧
      s.ready (s.sourceRegs ra rb) = true) : s.SourcesReady ra rb := h

theorem binaryReady_of {s : State} {rc ra : RegNum} {rb : Src2}
    (h : s.isProtected (s.absReg .C rc) = false ∧ s.isProtected (s.absReg .A ra) = false ∧
      s.protectedSrc (s.resolve rb) = false ∧ s.ready (s.sourceRegs ra rb) = true) : s.BinaryReady rc ra rb :=
  ⟨h.1, sourcesReady_of h.2⟩

theorem mayAccess_of {s : State} {ctl : BitVec 8} {ra : RegNum} {rb : Src2}
    (h : (s.supervisor = true ∨ ctl.getLsbD 7 = true ∨ ctl.getLsbD 5 = false) ∧ s.isProtected (s.absReg .A ra) = false ∧
      s.protectedSrc (s.resolve rb) = false ∧ (s.mlByMove = false ∨ s.chc.getLsbD 14 = false ∨ s.frozen = true) ∧
      s.settlement = .ends) :
    s.MayAccess ctl ra rb := h

theorem maySequence_of {s : State} {ctl : BitVec 8} {ra : RegNum} {rb : Src2} (h : s.MayAccess ctl ra rb)
    (g : s.testing = false ∧ s.cps.getLsbD 10 = false ∧ s.afterMultiple = false) : s.MaySequence ctl ra rb := ⟨h, g⟩

theorem mayTrap_of {s : State}
    (h : s.nextPins.reset = false ∧ s.nextPins.warn = false ∧ s.settlement = .ends ∧ s.drain.vectorReadable = true) :
    s.MayTrap :=
  ⟨h.1, fun w => absurd w (by rw [h.2.1]; decide), by rw [h.2.2.1]; decide, h.2.2.2⟩

theorem quiet_of {s : State}
    (h : s.mode = .executing ∧ s.nextPins.reset = false ∧ s.warnPending = false ∧ s.nextPins.warn = false ∧
      s.nextPins.cntl = .normal ∧ s.pins.cntl ≠ .loadTest ∧ s.irValid = false) : s.Quiet where
  mode := h.1
  reset := h.2.1
  warn := ⟨h.2.2.1, fun w => absurd w (by rw [h.2.2.2.1]; decide)⟩
  cntl := ⟨h.2.2.2.2.1, h.2.2.2.2.2.1⟩
  irValid := h.2.2.2.2.2.2

theorem calm_of {s : State}
    (h : s.env.events = [] ∧ s.env.cycles = [] ∧ s.env.answers = [] ∧ s.warnPending = false ∧ s.pins.reset = false) :
    s.Calm :=
  { events := h.1, cycles := h.2.1, answers := h.2.2.1, warn := h.2.2.2.1, reset := h.2.2.2.2 }

theorem undisturbed_of {s : State}
    (h : (s.env.events = [] ∧ s.env.cycles = [] ∧ s.env.answers = [] ∧ s.warnPending = false ∧ s.pins.reset = false) ∧
      ({ s with chc := 0#32 } : State).asyncEvent = none) : s.Undisturbed :=
  { calm_of h.1 with async := h.2 }

/-- An access that is not translated, and goes out with the address it gives. -/
theorem goes_of {s : State} {ctl : BitVec 8} (want : Want) {a : Word}
    (h : s.misaligned ctl a = false ∧ ctl.getLsbD 7 = false ∧ s.translated ctl = false) :
    ∃ tlb, s.Goes ctl want a a tlb :=
  ⟨s.tlbReg, h.1, fun g => absurd g (by rw [h.2.1]; decide), by rw [if_neg (by rw [h.2.2]; decide)]; exact ⟨rfl, rfl⟩⟩

/-- An access that is translated through the entry of a set. -/
theorem goes_through {s : State} {ctl : BitVec 8} {want : Want} {a : Word} (set : Nat) (hit : s.TlbHit a set)
    (h : s.misaligned ctl a = false ∧ ctl.getLsbD 7 = false ∧ s.translated ctl = true ∧ s.mmu.age ≠ 1 ∧
      permits (s.entry0 a set) want (s.asUser ctl) = true) :
    ∃ tlb, s.Goes ctl want a (s.physical a set) tlb :=
  ⟨s.usedTlb a set, h.1, fun g => absurd g (by rw [h.2.1]; decide), by
    rw [if_pos h.2.2.1]
    exact ⟨h.2.2.2.1, set, hit, h.2.2.2.2, rfl, rfl⟩⟩

/-- A fetch that is not translated. -/
theorem fetchesAt_of {s : State} (rom : Bool) (h : s.cps.getLsbD 8 = rom ∧ s.cps.getLsbD 5 = true) :
    ∃ tlb, s.FetchesAt rom s.pc tlb :=
  ⟨s.tlbReg, by rw [State.FetchesAt, if_neg (by rw [h.2]; rintro ⟨g, -⟩; cases g)]; exact ⟨h.1.symm, rfl, rfl⟩⟩

/-- A fetch that is translated through the entry of a set. -/
theorem fetchesAt_through {s : State} (set : Nat) (hit : s.TlbHit (s.pc ++ 0#2) set)
    (h : (s.cps.getLsbD 5 = false ∧ s.cps.getLsbD 8 = false) ∧ s.mmu.age ≠ 1 ∧ s.psTarget ≠ 1 ∧
      permits (s.entry0 (s.pc ++ 0#2) set) .fetch (!s.cps.getLsbD 4) = true) :
    ∃ tlb, s.FetchesAt false ((s.physical (s.pc ++ 0#2) set).extractLsb' 2 30) tlb :=
  ⟨s.usedTlb (s.pc ++ 0#2) set, by
    rw [State.FetchesAt, if_pos h.1]
    exact ⟨h.2.1, h.2.2.1, rfl, set, hit, h.2.2.2, rfl, rfl⟩⟩

/-! The states. -/

/-- Operands in GR65 and GR66. -/
def two (cps : Word) (a b : Nat) : State := begin cps [(.reg 65, a), (.reg 66, b)]

/-- 0x70 with DA. -/
def masked : Word := 0x71#32

/-- A load to register `tr`, which completes after `n` more instructions. -/
def loadOf (tr : RegNum) (n : Nat) : Access :=
  { ctl := 0#8, isLoad := true, set := false, la := false, user := false, lock := false, tr := tr, addr := 0x4000#32
    pa := 0x4000#32, pgm := 0#2, data := 0#32, discard := false, left := n }

/-- A load to GR65 is in flight: an instruction that reads GR65 waits for it. -/
def loading : State := { two supervisor 5 7 with inflight := some (loadOf 65#8 3) }

/-- The system answers the next data access or vector fetch so. -/
def answering (a : Answer) (s : State) : State := { s with env := { s.env with answers := [a] } }

/-- The system answers the next fetch with `*IERR`. -/
def badFetch (s : State) : State :=
  { s with env := { s.env with fetches := [{ answer := .error, oldStream := false, copy := 0 }] } }

/-- The next sample of the pins. -/
def sampling (p : Pins) (s : State) : State := { s with env := { s.env with events := [p] } }

/-- `*INTR0`, `*RESET`, `*WARN` becomes active. -/
def interrupt : Pins := { Pins.idle with intr := 1#4 }
def resetPin : Pins := { Pins.idle with reset := true }
def warnPin : Pins := { Pins.idle with warn := true }

theorem ready_two : (two supervisor 5 7).BinaryReady 64#8 65#8 (.reg 66#8) := binaryReady_of (by decide)

theorem ready_imm : (two user 5 7).BinaryReady 255#8 128#8 (.imm 255#8) := binaryReady_of (by decide)

theorem ready_loading : loading.BinaryReady 64#8 65#8 (.reg 66#8) ∧ loading.waitsFor [65#8] = true :=
  ⟨binaryReady_of (by decide), by decide⟩

/-! The witnesses. -/

theorem witness_AddSubtractResults : (two supervisor 5 7).BinaryReady 64#8 65#8 (.reg 66#8) := ready_two

theorem witness_MultiplySteps : (two supervisor 5 7).BinaryReady 64#8 65#8 (.reg 66#8) := ready_two

theorem witness_DivideSteps : (two user 5 7).BinaryReady 255#8 128#8 (.imm 255#8) := ready_imm

theorem witness_CompareResults : (two user 5 7).BinaryReady 255#8 128#8 (.imm 255#8) := ready_imm

theorem witness_LogicalResults : (two supervisor 5 7).BinaryReady 64#8 65#8 (.reg 66#8) := ready_two

theorem witness_ShiftResults : loading.BinaryReady 64#8 65#8 (.reg 66#8) := ready_loading.1

theorem witness_DivideBeginAndRemainder :
    let s := two supervisor 5 7
    (s.isProtected (s.absReg .C 64#8) = false ∧ s.protectedSrc (s.resolve (.reg 66#8)) = false ∧
      s.ready (srcRegs (s.resolve (.reg 66#8))) = true) ∧ s.BinaryReady 64#8 65#8 (.reg 66#8) :=
  ⟨by decide, ready_two⟩

/-- For each condition under which one of the twelve traps, operands that meet it; with and without an alarm. -/
theorem witness_OutOfRangeTraps :
    let s := two supervisor 0x7FFFFFFF 1
    let sum (a b : Nat) (cin : Bool) := exactSum (BitVec.ofNat 32 a) (BitVec.ofNat 32 b) cin
    let diff (a b : Nat) (cin : Bool) := exactDifference (BitVec.ofNat 32 a) (BitVec.ofNat 32 b) cin
    s.BinaryReady 64#8 65#8 (.reg 66#8) ∧ s.da = false ∧ s.srcA 65#8 (.reg 66#8) = 0x7FFFFFFF#32 ∧
    s.srcB 65#8 (.reg 66#8) = 1#32 ∧ s.alarm = false ∧ (sampling warnPin s).alarm = true ∧
    (sum 0x7FFFFFFF 1 false).overflows = true ∧ (sum 0xFFFFFFFF 1 false).carry = true ∧
    (sum 0x7FFFFFFF 0 true).overflows = true ∧ (sum 0xFFFFFFFF 0 true).carry = true ∧
    (diff 0x80000000 1 true).overflows = true ∧ (!(diff 0 1 true).carry) = true ∧
    (diff 0x80000000 0 false).overflows = true ∧ (!(diff 0 0 false).carry) = true :=
  ⟨binaryReady_of (by decide), by decide⟩

/-- In range without DA; out of range with it. -/
theorem witness_TrappingArithmeticCompletes :
    ((two supervisor 5 7).BinaryReady 64#8 65#8 (.reg 66#8) ∧ (two masked 0x80000000 1).BinaryReady 64#8 65#8 (.reg 66#8)) ∧
    (exactSum 5#32 7#32 false).overflows = false ∧ (exactSum 5#32 7#32 false).carry = false ∧
    (exactDifference 5#32 5#32 true).overflows = false ∧ (exactDifference 5#32 5#32 true).carry = true ∧
    (two masked 0x80000000 1).da = true ∧ (exactDifference 0x80000000#32 1#32 true).overflows = true :=
  ⟨⟨ready_two, binaryReady_of (by decide)⟩, by decide⟩

/-- In range and out of range, each with and without DA; the operands of the other instructions; a completed load. -/
theorem witness_StackPointerShadow :
    let s := two supervisor 0x7FFFFFFF 1
    let m := two masked 0x7FFFFFFF 1
    let l := { two user 5 7 with inflight := some (loadOf 1#8 0) }
    (s.BinaryReady 1#8 65#8 (.reg 66#8) ∧ m.BinaryReady 1#8 65#8 (.reg 66#8)) ∧
    (s.absReg .C 1#8 = 1#8 ∧ s.da = false ∧ s.alarm = false ∧ m.da = true ∧
      outOfRange (.adds 1#8 65#8 (.reg 66#8)) 0x7FFFFFFF#32 1#32 false = true ∧
      outOfRange (.addu 1#8 65#8 (.reg 66#8)) 0x7FFFFFFF#32 1#32 false = false) ∧
    (s.isProtected (s.absReg .C 1#8) = false ∧ s.protectedSrc (s.resolve (.imm 5#8)) = false ∧
      s.ready (srcRegs (s.resolve (.imm 5#8))) = true ∧ s.isProtected (s.absReg .A 65#8) = false ∧
      s.ready [s.absReg .A 65#8] = true ∧ s.supervisor = true ∧ 128 ≤ (128#8).toNat) ∧
    (s.isProtected (s.absReg .A 1#8) = false ∧ s.absReg .A 1#8 = 1#8 ∧ s.ready [1#8] = true ∧
      s.isProtected (s.absReg .B 66#8) = false ∧ s.ready [s.absReg .B 66#8] = true) ∧
    ∃ d, l.inflight = some d ∧ d.isLoad = true ∧ d.discard = false ∧ d.tr = 1#8 ∧ l.answered d.set = true :=
  ⟨⟨binaryReady_of (by decide), binaryReady_of (by decide)⟩, by decide, by decide, by decide, _, rfl, by decide⟩

theorem witness_AbsoluteRegisterNumbers :
    let s := { start supervisor with sps := { now := some 0x10#7, old := some 0x7F#7, age := 1 } }
    ((start user).pointer .A).age ≠ 1 ∧ 1 ≤ (1#8).toNat ∧ (127#8).toNat ≤ 127 ∧ 128 ≤ (128#8).toNat ∧
      (start user).sps.age ≠ 1 ∧ (start user).sps.now = some 0#7 ∧ s.sps.age = 1 ∧ s.sps.now = some 0x10#7 ∧
      s.sps.old = some 0x7F#7 := by
  decide

/-- Each relation with 5 in GR65 and 7 in GR66, GR67 being 5 too. -/
theorem witness_AssertsThatHoldChangeNothing :
    let s := begin user [(.reg 65, 5), (.reg 66, 7), (.reg 67, 5)]
    (s.SourcesReady 65#8 (.reg 66#8) ∧ s.SourcesReady 65#8 (.reg 67#8) ∧ s.SourcesReady 66#8 (.reg 67#8)) ∧
    (s.srcA 65#8 (.reg 66#8) = 5#32 ∧ s.srcB 65#8 (.reg 66#8) = 7#32 ∧ s.srcB 65#8 (.reg 67#8) = 5#32 ∧
      s.srcA 66#8 (.reg 67#8) = 7#32 ∧ s.srcB 66#8 (.reg 67#8) = 5#32) ∧
    (∀ i ∈ [Instr.aseq 0#8 65#8 (.reg 67#8), .asle 0#8 65#8 (.reg 67#8), .asleu 0#8 65#8 (.reg 67#8),
      .asge 0#8 65#8 (.reg 67#8), .asgeu 0#8 65#8 (.reg 67#8)], assertRelation i 5#32 5#32) ∧
    (∀ i ∈ [Instr.asneq 0#8 65#8 (.reg 66#8), .aslt 0#8 65#8 (.reg 66#8), .asltu 0#8 65#8 (.reg 66#8)],
      assertRelation i 5#32 7#32) ∧
    ∀ i ∈ [Instr.asgt 0#8 66#8 (.reg 67#8), .asgtu 0#8 66#8 (.reg 67#8)], assertRelation i 7#32 5#32 := by
  refine ⟨⟨sourcesReady_of (by decide), sourcesReady_of (by decide), sourcesReady_of (by decide)⟩, by decide, ?_⟩
  simp only [List.forall_mem_cons, List.not_mem_nil, assertRelation, false_implies, implies_true, and_true]
  decide

theorem witness_AssertsThatFailTrap :
    let fails (s : State) : Prop :=
      s.SourcesReady 65#8 (.reg 66#8) ∧
        ¬assertRelation (.aseq 0#8 65#8 (.reg 66#8)) (s.srcA 65#8 (.reg 66#8)) (s.srcB 65#8 (.reg 66#8))
    (fails (two masked 5 7) ∧ fails (two user 5 7) ∧ fails (two supervisor 5 7)) ∧
    (two masked 5 7).da = true ∧ ((two user 5 7).da = false ∧ (two user 5 7).supervisor = false ∧ (63#8).toNat < 64) ∧
    (two supervisor 5 7).supervisor = true ∧ 64 ≤ (64#8).toNat ∧ (two supervisor 5 7).alarm = false ∧
    (sampling resetPin (two supervisor 5 7)).alarm = true := by
  refine ⟨?_, by decide⟩
  simp only [assertRelation]
  exact ⟨⟨sourcesReady_of (by decide), by decide⟩, ⟨sourcesReady_of (by decide), by decide⟩,
    sourcesReady_of (by decide), by decide⟩

theorem witness_ConstantResults :
    (start user).isProtected ((start user).absReg .A 64#8) = false ∧ (start user).ready [(start user).absReg .A 64#8] = true ∧
      loading.ready [65#8] = true := by
  decide

theorem witness_ByteAndHalfWordResults :
    let s := two supervisor 5 7
    s.BinaryReady 64#8 65#8 (.reg 66#8) ∧ s.isProtected (s.absReg .C 64#8) = false ∧
      s.isProtected (s.absReg .A 65#8) = false ∧ s.ready [s.absReg .A 65#8] = true :=
  ⟨ready_two, by decide⟩

theorem witness_MoveFromSpecial :
    (start user).isProtected ((start user).absReg .C 64#8) = false ∧ 128 ≤ (128#8).toNat ∧
      (start supervisor).supervisor = true := by
  decide

theorem witness_MoveToSpecial :
    let s := two user 5 7
    s.settlement = .ends ∧ 128 ≤ (128#8).toNat ∧ s.testing = false ∧
      s.drain.isProtected (s.drain.absReg .B 66#8) = false ∧ loading.settlement = .ends ∧ loading.supervisor = true ∧
      { loading with testing := true, cps := 0x470#32 }.fz = true ∧ (9#8 : BitVec 8).toNat ∉ [10, 11, 12] := by
  decide

theorem witness_DelayedEffects :
    let s := { start supervisor with ipa := { now := 65#8, old := 64#8, age := 1 }, psTarget := 1 }
    let p := { start supervisor with mmu := { now := 0x100#32, old := 0#32, age := 1 } }
    (s.pointer .A).age = 1 ∧ (s.pointer .B).age ≠ 1 ∧ s.ipa.age ≤ 1 ∧ s.sps.age ≤ 1 ∧ s.mmu.age ≤ 1 ∧
      s.isProtected (s.absReg .A 64#8) = false ∧ s.isProtected (s.absReg .B 65#8) = false ∧
      s.isProtected (s.absReg .C 66#8) = false ∧ p.mmu.age = 1 ∧ s.mmu.age ≠ 1 ∧ s.psTarget ≤ 1 := by
  decide

theorem witness_TlbMoves :
    let s := two supervisor 5 7
    s.supervisor = true ∧ s.isProtected (s.absReg .C 64#8) = false ∧ s.isProtected (s.absReg .A 65#8) = false ∧
      s.ready [s.absReg .A 65#8] = true ∧ loading.supervisor = true ∧ loading.settlement = .ends ∧
      loading.drain.isProtected (loading.drain.absReg .A 65#8) = false ∧
      loading.drain.isProtected (loading.drain.absReg .B 66#8) = false := by
  decide

theorem witness_ClzResult :
    let s := two user 5 7
    s.isProtected (s.absReg .C 64#8) = false ∧ s.protectedSrc (s.resolve (.reg 65#8)) = false ∧
      s.ready (srcRegs (s.resolve (.reg 65#8))) = true := by
  decide

/-- In the last clause, a word prefetched since the last non-sequential fetch. -/
theorem witness_SetipAndInv :
    let s := two user 5 7
    let u := { start supervisor with invPending := true, clock := 3, lastNonseq := 1 }
    s.isProtected (s.absReg .A 65#8) = false ∧ s.isProtected (s.absReg .B 66#8) = false ∧
      s.isProtected (s.absReg .C 64#8) = false ∧ u.supervisor = true ∧ u.invPending = true ∧ 2 ≤ u.clock ∧
      (u.branchTo 0x800#30).copyUsable 2 true = true := by
  decide

theorem witness_HaltEntersHaltMode :
    let s := start supervisor
    let v := answering .never (badFetch { s with cfg := 0x10#32 })
    s.supervisor = true ∧ s.settlement = .ends ∧ s.cps.getLsbD 5 = true ∧ (start 0x150#32).cps.getLsbD 8 = true ∧
      s.fetchChoice.answer = .ready ∧ (badFetch s).fetchChoice.answer = .error ∧
      (badFetch s).drain.vectorReadable = true ∧ v.fetchChoice.answer = .error ∧ v.drain.cfg.getLsbD 4 = true ∧
      v.drain.env.answers.headD .ready = .never := by
  decide

theorem witness_Jumps :
    let s := two user 5 7
    s.SourcesReady 65#8 (.reg 66#8) ∧
    s.isProtected (s.absReg .B 66#8) = false ∧ s.ready [s.absReg .B 66#8] = true ∧
      s.isProtected (s.absReg .A 65#8) = false ∧ s.ready [s.absReg .A 65#8] = true ∧
      loading.isProtected (loading.absReg .A 65#8) = false ∧ loading.ready [loading.absReg .A 65#8] = true :=
  ⟨sourcesReady_of (by decide), by decide⟩

theorem witness_Calls :
    let s := two user 5 7
    s.isProtected (s.absReg .A 65#8) = false ∧ s.isProtected (s.absReg .B 66#8) = false ∧
      s.ready [s.absReg .B 66#8] = true := by
  decide

/-- Entries A and B of 96, section 2.11, and the address `a` in GR65. -/
def mapped (cps : Word) (a : Nat) : State :=
  begin cps [(.special 13, 1), (.tlb 4, 0x17401), (.tlb 5, 0x54080), (.tlb 68, 0x1C601), (.tlb 69, 0x60000), (.reg 65, a)]

theorem hit_set0 : (mapped 0x20#32 0x10810).TlbHit 0x10810#32 0 := by
  simp only [State.TlbHit, State.EntryMatches]; decide

theorem hit_set1 : (mapped 0x20#32 0x18810).TlbHit 0x18810#32 1 := by
  simp only [State.TlbHit, State.EntryMatches]; decide

theorem mayAccess_mapped : (mapped 0x20#32 0x10810).MayAccess 0#8 64#8 (.reg 65#8) ∧
    (mapped 0x20#32 0x18810).MayAccess 0#8 64#8 (.reg 65#8) :=
  ⟨mayAccess_of (by decide), mayAccess_of (by decide)⟩

/-- A load through set 0, a `LOADSET` through set 1. -/
theorem witness_LoadCompletes :
    let u := mapped 0x20#32 0x10810
    let v := mapped 0x20#32 0x18810
    (u.MayAccess 0#8 64#8 (.reg 65#8) ∧ v.MayAccess 0#8 64#8 (.reg 65#8)) ∧
    (∃ tlb, u.Goes 0#8 .load 0x10810#32 (u.physical 0x10810#32 0) tlb) ∧
    (∃ tlb, v.Goes 0#8 .loadset 0x18810#32 (v.physical 0x18810#32 1) tlb) ∧
    u.drain.srcValue (u.resolve (.reg 65#8)) = 0x10810#32 ∧ u.drain = u ∧ u.physical 0x10810#32 0 = 0x54010#32 ∧
    u.answered true = true ∧ u.env.latency.headD 0 = 0 :=
  ⟨mayAccess_mapped, goes_through 0 hit_set0 (by decide), goes_through 1 hit_set1 (by decide), by decide, rfl, by decide⟩

/-- A User store through set 1, and a Supervisor one that gives the physical address itself. -/
theorem witness_StoreCompletes :
    let v := mapped 0x20#32 0x18810
    let p := mapped 0x30#32 0x10810
    (v.MayAccess 0#8 64#8 (.reg 65#8) ∧ p.MayAccess 0x20#8 64#8 (.reg 65#8)) ∧
    (∃ tlb, v.Goes 0#8 .store 0x18810#32 (v.physical 0x18810#32 1) tlb) ∧
    (∃ tlb, p.Goes 0x20#8 .store 0x10810#32 0x10810#32 tlb) ∧ v.answered false = true ∧ v.env.latency.headD 0 = 0 :=
  ⟨⟨mayAccess_mapped.2, mayAccess_of (by decide)⟩, goes_through 1 hit_set1 (by decide), goes_of _ (by decide), by decide⟩

theorem witness_OverlappedAccess :
    let s := { mapped 0x30#32 0x10810 with env := { Env.default with latency := [1] } }
    s.MayAccess 0x20#8 64#8 (.reg 65#8) ∧ (∀ want, ∃ tlb, s.drain.Goes 0x20#8 want 0x10810#32 0x10810#32 tlb) ∧
      s.drain.env.latency.headD 0 = 0 + 1 :=
  ⟨mayAccess_of (by decide), fun _ => goes_of _ (by decide), by decide⟩

theorem witness_AccessCompletes :
    let s := { loading with inflight := some { loadOf 65#8 0 with isLoad := false } }
    (∃ d, loading.inflight = some d ∧ d.isLoad = true ∧ d.discard = false ∧ loading.answered (d.isLoad && d.set) = true) ∧
    ∃ d, s.inflight = some d ∧ d.isLoad = false ∧ s.answered (d.isLoad && d.set) = true :=
  ⟨⟨_, rfl, by decide⟩, _, rfl, by decide⟩

theorem witness_AccessFails :
    let s := answering .error loading
    let f := { s with cps := 0x470#32 }
    (∃ d, s.inflight = some d ∧ s.refusedBySystem (d.isLoad && d.set) = true) ∧
    (∃ d, f.inflight = some d ∧ f.refusedBySystem (d.isLoad && d.set) = true) ∧ s.frozen = false ∧ f.frozen = true :=
  ⟨⟨_, rfl, by decide⟩, ⟨_, rfl, by decide⟩, by decide⟩

theorem witness_OverwrittenLoadDropped :
    implemented 65#8 = true ∧ implemented 64#8 = true ∧ implemented 255#8 = true ∧ implemented 1#8 = true ∧
      loading.overwrites 65#8 = true ∧ loading.frozen = false := by
  decide

/-- The four traps: a coprocessor access without a coprocessor; no entry matches; set 1 does not let a Supervisor read, nor
set 0 a User write; a word access at an odd address, untranslated and translated. -/
theorem witness_DataAccessTraps :
    let p := mapped 0x30#32 0x18810
    let u := mapped 0x20#32 0x10810
    let w := mapped 0x820#32 0x10811
    (p.MayAccess 0xE0#8 64#8 (.reg 65#8) ∧ p.MayAccess 0#8 64#8 (.reg 65#8) ∧ u.MayAccess 0#8 64#8 (.reg 65#8) ∧
      p.MayTrap ∧ u.MayTrap ∧ w.MayTrap) ∧
    (u.TlbMiss 0x20810#32 ∧ p.TlbHit 0x18810#32 1 ∧ u.TlbHit 0x10810#32 0 ∧ w.TlbHit 0x10811#32 0) ∧
    (p.da = false ∧ (0xE0#8 : BitVec 8).getLsbD 7 = true ∧ p.drain.cfg.getLsbD 1 = false) ∧
    (u.translated 0#8 = true ∧ u.mmu.age ≠ 1 ∧ permits (u.entry0 0x10810#32 0) .store (u.asUser 0#8) = false) ∧
    permits (p.entry0 0x18810#32 1) .load (p.asUser 0#8) = false ∧
    (w.misaligned 0#8 0x10811#32 = true ∧ w.translated 0#8 = true ∧
      permits (w.entry0 0x10811#32 0) .load (w.asUser 0#8) = true) ∧
    ((start 0x870#32).misaligned 2#8 0x4001#32 = true ∧ (start 0x870#32).translated 2#8 = false) := by
  refine ⟨⟨mayAccess_of (by decide), mayAccess_of (by decide), mayAccess_mapped.1, mayTrap_of (by decide),
    mayTrap_of (by decide), mayTrap_of (by decide)⟩, ?_, by decide⟩
  simp only [State.TlbHit, State.TlbMiss, State.EntryMatches]
  decide

/-- CR = `n`, GR96 = 0x4000. -/
def sequence (cps : Word) (n : Nat) : State := begin cps [(.special 135, n), (.reg 96, 0x4000)]

theorem maySequence_sequence : (sequence user 2).MaySequence 0#8 126#8 (.reg 96#8) :=
  maySequence_of (mayAccess_of (by decide)) (by decide)

theorem goes_sequence (want : Want) (a : Word) : ∃ tlb, (sequence user 2).drain.Goes 0#8 want a a tlb := by
  refine goes_of want ⟨?_, by decide⟩
  simp only [State.misaligned, show (sequence user 2).drain.cps.getLsbD 11 = false by decide, Bool.false_and]

/-- Three transfers, of registers 126, 127 and 128. -/
theorem witness_LoadMultipleCompletes :
    let s := sequence user 2
    (s.MaySequence 0#8 126#8 (.reg 96#8) ∧ s.drain.Undisturbed) ∧ s.drain.chc.toNat / 2 ^ 16 % 2 ^ 8 = 2 ∧
    (∀ k ≤ 2, s.drain.isProtected (seqReg (s.absReg .A 126#8) k) = false) ∧
    ∀ k ≤ 2, ∃ tlb, s.drain.Goes 0#8 .load (seqAddr 0x4000#32 k) (seqAddr 0x4000#32 k) tlb :=
  ⟨⟨maySequence_sequence, undisturbed_of (by decide)⟩, by decide, by decide, fun _ _ => goes_sequence _ _⟩

theorem witness_StoreMultipleCompletes :
    let s := sequence user 2
    (s.MaySequence 0#8 126#8 (.reg 96#8) ∧ s.drain.Undisturbed) ∧
    (∀ k ≤ 2, s.drain.isProtected (seqReg (s.absReg .A 126#8) k) = false) ∧
    ∀ k ≤ 2, ∃ tlb, s.drain.Goes 0#8 .store (seqAddr 0x4000#32 k) (seqAddr 0x4000#32 k) tlb :=
  ⟨⟨maySequence_sequence, undisturbed_of (by decide)⟩, by decide, fun _ _ => goes_sequence _ _⟩

theorem uncut_of {s : State} {j : Nat}
    (h : (∀ e ∈ s.env.events.take j, e = s.pins) ∧ (∀ c ∈ s.env.cycles.take j, c = 0) ∧ s.warnPending = false ∧
      s.pins.reset = false ∧ ({ s with chc := 0#32 } : State).asyncEvent = none) : s.Uncut j :=
  ⟨h.1, h.2.1, fun _ => h.2.2⟩

/-- An interrupt, `*WARN`, `*RESET` comes after the first access, or after the second one, of three. -/
def cutAt (k : Nat) (p : Pins) : State :=
  let s := sequence user 2
  { s with env := { s.env with events := List.replicate (k - 1) Pins.idle ++ [p] } }

theorem witness_InterruptedMultiple :
    (∀ k ∈ [1, 2], ∀ p ∈ [interrupt, warnPin, resetPin],
      (cutAt k p).MaySequence 0#8 126#8 (.reg 96#8) ∧ (cutAt k p).drain.Uncut (k - 1) ∧
      ∀ want, ∀ a ∈ [0x4000#32, 0x4004#32], ∃ tlb, (cutAt k p).drain.Goes 0#8 want a a tlb) ∧
    ∀ k ∈ [1, 2],
      let gap (p : Pins) : State :=
        let s1 := (cutAt k p).drain
        { s1 with
          env := { s1.env with events := s1.env.events.drop (k - 1), cycles := s1.env.cycles.drop (k - 1) } }
      let m (p : Pins) : State := (gap p).betweenAccesses
      ((cutAt k interrupt).drain.chc.toNat / 2 ^ 16 % 2 ^ 8 = 2 ∧ (cutAt k interrupt).drain.env.answers = [] ∧
        ∀ j ≤ 2, (cutAt k interrupt).drain.isProtected (seqReg 126#8 j) = false) ∧
      ((gap interrupt).nextPins.reset = false ∧ (m interrupt).warnPending = false ∧
        ({ m interrupt with chc := 0#32 } : State).asyncEvent = some (7, 16#8)) ∧
      ((gap warnPin).nextPins.reset = false ∧ (m warnPin).warnPending = true) ∧ (gap resetPin).nextPins.reset = true := by
  refine ⟨?_, by decide⟩
  simp only [List.forall_mem_cons, List.not_mem_nil, false_implies, implies_true, and_true]
  refine ⟨⟨?_, ?_, ?_⟩, ?_, ?_, ?_⟩
  all_goals
    exact ⟨maySequence_of (mayAccess_of (by decide)) (by decide), uncut_of (by decide),
      fun _ => ⟨goes_of _ (by decide), goes_of _ (by decide)⟩⟩

/-- In a sequence of three from 126: no coprocessor; the last word of a page whose neighbour is not mapped, or not to be read; an
odd address, untranslated and translated; register 128 in a protected bank; `*DERR` at the third access. -/
theorem witness_MultipleSequenceTraps :
    let s := sequence user 2
    let m := begin 0x20#32 [(.special 13, 1), (.special 135, 2), (.tlb 4, 0x17401), (.tlb 5, 0x54080), (.tlb 68, 0x1C601),
      (.tlb 69, 0x60000)]
    let t := { m with cps := 0x820#32 }
    let p := begin user [(.special 135, 2), (.special 7, 0x100), (.reg 96, 0x4000)]
    let d := { s with env := { s.env with answers := List.replicate 2 Answer.ready ++ [Answer.error] } }
    (s.MaySequence 0#8 126#8 (.reg 96#8) ∧ s.MaySequence 0x80#8 126#8 (.reg 96#8) ∧ m.MaySequence 0#8 126#8 (.reg 96#8) ∧
      t.MaySequence 0#8 126#8 (.reg 96#8) ∧ p.MaySequence 0#8 126#8 (.reg 96#8) ∧ d.MaySequence 0#8 126#8 (.reg 96#8)) ∧
    (s.drain.Undisturbed ∧ m.drain.Undisturbed ∧ t.drain.Undisturbed ∧ p.drain.Undisturbed ∧
      State.Undisturbed { d.drain with env := { d.drain.env with answers := [] } }) ∧
    ((∃ pa tlb, m.drain.Goes 0#8 .load 0x10BFC#32 pa tlb) ∧ (∃ tlb, p.drain.Goes 0#8 .load 0x4000#32 0x4000#32 tlb) ∧
      ∀ a, ∃ tlb, s.drain.Goes 0#8 .load a a tlb) ∧
    (m.drain.TlbMiss (seqAddr 0x10BFC#32 1) ∧ m.drain.TlbHit 0x18810#32 1 ∧ m.drain.TlbHit 0x10810#32 0 ∧
      t.drain.TlbHit 0x10811#32 0) ∧
    (s.da = false ∧ (0x80#8 : BitVec 8).getLsbD 7 = true ∧ s.drain.cfg.getLsbD 1 = false ∧
      s.drain.isProtected (seqReg 126#8 1) = false ∧ s.drain.isProtected (seqReg 126#8 2) = false) ∧
    (m.drain.translated 0#8 = true ∧ m.drain.mmu.age ≠ 1 ∧
      permits (m.drain.entry0 0x10810#32 0) .store (m.drain.asUser 0#8) = false) ∧
    (t.drain.misaligned 0#8 0x10811#32 = true ∧ t.drain.translated 0#8 = true ∧
      permits (t.drain.entry0 0x10811#32 0) .load (t.drain.asUser 0#8) = true) ∧
    ((sequence 0x860#32 2).misaligned 0#8 0x4001#32 = true ∧ (sequence 0x860#32 2).translated 0#8 = false) ∧
    (p.drain.isProtected (seqReg 127#8 0) = false ∧ p.drain.isProtected (seqReg 127#8 1) = true) ∧
    d.drain.env.answers = List.replicate 2 Answer.ready ++ Answer.error :: [] := by
  have hit : (begin 0x20#32 [(.special 13, 1), (.special 135, 2), (.tlb 4, 0x17401), (.tlb 5, 0x54080), (.tlb 68, 0x1C601),
      (.tlb 69, 0x60000)]).drain.TlbHit 0x10BFC#32 0 := by
    simp only [State.TlbHit, State.EntryMatches]; decide
  refine ⟨⟨?_, ?_, ?_, ?_, ?_, ?_⟩, ⟨?_, ?_, ?_, ?_, ?_⟩, ⟨⟨_, goes_through 0 hit (by decide)⟩, goes_of _ (by decide), ?_⟩, ?_,
    by decide⟩
  case refine_12 => exact goes_sequence .load
  case refine_13 => simp only [State.TlbHit, State.TlbMiss, State.EntryMatches]; decide
  all_goals first
    | exact maySequence_of (mayAccess_of (by decide)) (by decide)
    | exact undisturbed_of (by decide)

/-- The access in flight ends well, badly, never; the vector fetch is answered badly, never. -/
theorem witness_TrapEntry :
    let v := { start user with cfg := 0x10#32 }
    (start user).drain.vectorReadable = true ∧ (start user).settlement = .ends ∧
      (answering .error loading).drain.vectorReadable = true ∧ (answering .error loading).settlement = .error 7#8 ∧
      4 ≤ 4 ∧ 4 < 5 ∧ (answering .never loading).settlement = .never ∧ v.settlement ≠ .never ∧ v.cfg.getLsbD 4 = true ∧
      (answering .error v).drain.env.answers.headD .ready = .error ∧
      (answering .never v).drain.env.answers.headD .ready = .never := by
  decide

/-- Bank 15 is protected, and register 255 in it; bank 0, and register 15 in it; with and without DA. -/
theorem witness_BankProtection :
    let s := begin user [(.special 7, 0x8001)]
    s.testing = false ∧ s.cps.getLsbD 4 = false ∧ 2 ≤ (15#8).toNat ∧
      s.rbp.getLsbD ((255#8).toNat / 16) = true ∧ s.rbp.getLsbD ((15#8).toNat / 16) = true ∧
      s.absReg .A 255#8 = 255#8 ∧ s.absReg .B 15#8 = 15#8 ∧ s.absReg .C 255#8 = 255#8 ∧
      15#8 ∈ s.sourceRegs 65#8 (.reg 15#8) ∧ 15#8 ∈ srcRegs (s.resolve (.reg 15#8)) ∧
      s.settlement = .ends ∧ 255#8 ∈ [s.drain.absReg .B 255#8] ∧ s.cps.getLsbD 0 = false ∧
      (begin 0x61#32 [(.special 7, 0x8001)]).cps.getLsbD 0 = true := by
  decide

theorem witness_PrivilegedInstructionsTrap :
    let s := start user
    s.testing = false ∧ s.cps.getLsbD 4 = false ∧ (127#8).toNat < 128 ∧ s.cps.getLsbD 0 = false ∧ s.settlement = .ends ∧
      s.drain.vectorReadable = true ∧ (0x2F#8 : BitVec 8).getLsbD 7 = false ∧ (0x2F#8 : BitVec 8).getLsbD 5 = true := by
  decide

theorem witness_EmulationTraps :
    let s := start user
    s.MayTrap ∧ s.isProtected (s.absReg .A 65#8) = false ∧ s.isProtected (s.absReg .B 66#8) = false ∧
      s.isProtected (s.absReg .C 64#8) = false ∧ s.cps.getLsbD 0 = false ∧ (start masked).cps.getLsbD 0 = true ∧
      64 ≤ (64#8).toNat ∧ (s.supervisor = false ∧ (63#8).toNat < 64) ∧ (start supervisor).supervisor = true :=
  ⟨mayTrap_of (by decide), by decide⟩

/-- A handler about to return to a User program at 0x2000, with no access to restart. -/
def handler (before : List (Slot × Nat)) : State :=
  begin 0x470#32 ([(.special 1, 0x60), (.special 10, 0x2004), (.special 11, 0x2000)] ++ before)

theorem witness_InterruptReturn :
    let s := handler []
    let n := handler [(.special 6, 0x8103)]
    (s.testing = false ∧ s.cps.getLsbD 4 = true ∧ s.settlement = .ends ∧ s.drain.chc.getLsbD 0 = false) ∧
      n.settlement = .ends ∧ n.drain.chc.getLsbD 1 = true := by
  decide

/-- A load of register 64 from 0x4000, a `LOADSET` of it, and a store of 5 there, are to be made again. -/
theorem witness_ReturnRestartsAccess :
    let l := handler [(.special 4, 0x4000), (.special 6, 0x8101)]
    let x := handler [(.special 4, 0x4000), (.special 6, 0xA101)]
    let t := handler [(.special 4, 0x4000), (.special 5, 5), (.special 6, 0x0101)]
    ((∃ tlb, l.drain.underOps.Goes 0#8 .load 0x4000#32 0x4000#32 tlb) ∧
      (∃ tlb, x.drain.underOps.Goes 0#8 .loadset 0x4000#32 0x4000#32 tlb) ∧
      ∃ tlb, t.drain.underOps.Goes 0#8 .store 0x4000#32 0x4000#32 tlb) ∧
    (l.testing = false ∧ l.cps.getLsbD 4 = true ∧ l.settlement = .ends ∧ l.drain.chc.getLsbD 0 = true ∧
      l.drain.chc.getLsbD 1 = false ∧ l.drain.chc.getLsbD 14 = false ∧ l.drain.answered false = true ∧
      l.drain.env.latency.headD 0 = 0 ∧ l.drain.chc.getLsbD 15 = true ∧ l.drain.cha = 0x4000#32) ∧
    (x.drain.chc.getLsbD 0 = true ∧ x.drain.chc.getLsbD 1 = false ∧ x.drain.chc.getLsbD 14 = false ∧
      x.drain.chc.getLsbD 15 = true ∧ x.drain.chc.getLsbD 13 = true ∧ x.drain.cha = 0x4000#32 ∧
      x.drain.answered true = true ∧ x.drain.env.latency.headD 0 = 0) ∧
    (t.drain.chc.getLsbD 0 = true ∧ t.drain.chc.getLsbD 15 = false) :=
  ⟨⟨goes_of _ (by decide), goes_of _ (by decide), goes_of _ (by decide)⟩, by decide⟩

/-- The state in which a return from `s` fetches. -/
def back (s : State) : State :=
  { s.drain.underOps with pc := s.drain.pc1.extractLsb' 2 30, mmu := s.drain.underOps.mmu.settle, psTarget := 0 }

/-- Two transfers are left of a `LOADM`, and two of a `STOREM`: registers 64 and 65, from 0x4000. -/
theorem witness_ReturnResumesMultiple :
    let s := handler [(.special 4, 0x4000), (.special 6, 0x1C101)]
    let w := handler [(.special 4, 0x4000), (.special 5, 5), (.special 6, 0x14101)]
    let r := s.drain.underOps
    (s.drain.Calm ∧ w.drain.Calm) ∧
    ((∃ tlb, (back s).FetchesAt false (back s).pc tlb) ∧ ∃ tlb, (back w).FetchesAt false (back w).pc tlb) ∧
    (∀ a ∈ [0x4000#32, 0x4004#32],
      (∃ tlb, r.Goes 0#8 .load a a tlb) ∧ ∃ tlb, w.drain.underOps.Goes 0#8 .store a a tlb) ∧
    (s.testing = false ∧ s.cps.getLsbD 4 = true ∧ s.settlement = .ends ∧ s.drain.chc.getLsbD 0 = true ∧
      s.drain.chc.getLsbD 1 = false ∧ s.drain.chc.getLsbD 14 = true ∧ s.drain.ops.getLsbD 10 = false ∧
      s.drain.chc.toNat / 2 ^ 16 % 2 ^ 8 = 1 ∧ s.drain.cha = 0x4000#32 ∧ s.drain.fetchChoice.answer = .ready) ∧
    (w.testing = false ∧ w.cps.getLsbD 4 = true ∧ w.settlement = .ends ∧ w.drain.chc.getLsbD 0 = true ∧
      w.drain.chc.getLsbD 1 = false ∧ w.drain.chc.getLsbD 14 = true ∧ w.drain.chc.getLsbD 15 = false ∧
      w.drain.ops.getLsbD 10 = false ∧ w.drain.chc.toNat / 2 ^ 16 % 2 ^ 8 = 1 ∧ w.drain.cha = 0x4000#32 ∧
      w.drain.fetchChoice.answer = .ready) ∧
    (∀ k ≤ 1, 1 ≤ k → r.isProtected (seqReg 64#8 k) = false ∧ w.drain.underOps.isProtected (seqReg 64#8 k) = false) := by
  refine ⟨⟨calm_of (by decide), calm_of (by decide)⟩, ⟨fetchesAt_of _ (by decide), fetchesAt_of _ (by decide)⟩, ?_, by decide⟩
  simp only [List.forall_mem_cons, List.not_mem_nil]
  exact ⟨⟨goes_of _ (by decide), goes_of _ (by decide)⟩, ⟨goes_of _ (by decide), goes_of _ (by decide)⟩, fun _ h => h.elim⟩

/-- A return with a sequence to go on with, whose fetch finds what `before` leaves in the TLB. -/
def failing (ops : Nat) (before : List (Slot × Nat)) : State :=
  handler ([(.special 1, ops), (.special 4, 0x4000), (.special 6, 0x1C101), (.special 13, 1)] ++ before)

/-- The same return where its fetch fails: no entry; an entry of either set that does not let a User fetch; `*IERR`; a miss with
`*INTR0` pending and enabled, and one with Wait mode restored. -/
theorem witness_ReturnResumesMultiple_fails :
    let m := failing 0x40 []
    let p := failing 0x40 [(.tlb 16, 0x4801), (.tlb 17, 0x2000)]
    let q := failing 0x40 [(.tlb 80, 0x4801), (.tlb 81, 0x2000)]
    let e := badFetch (failing 0x60 [])
    let i := { m with pins := interrupt }
    let h := failing 0xC0 []
    (∀ s ∈ [m, p, q, e, i, h], s.testing = false ∧ s.cps.getLsbD 4 = true ∧ s.settlement = .ends ∧
      s.drain.chc.getLsbD 0 = true ∧ s.drain.chc.getLsbD 1 = false ∧ s.drain.chc.getLsbD 14 = true ∧
      s.drain.ops.getLsbD 10 = false ∧ s.drain.cps.getLsbD 10 = true) ∧
    (m.drain.Calm ∧ p.drain.Calm ∧ q.drain.Calm ∧ e.drain.Calm ∧ i.drain.Calm ∧ h.drain.Calm) ∧
    (∀ s ∈ [m, p, q, e, h], ∀ n, 4 ≤ n → n ≤ 12 → ¬(back s).Pending n) ∧
    (∀ s ∈ [m, p, q, e], (back s).cps.getLsbD 7 = false ∧ (back s).cps.getLsbD 0 = false) ∧
    (∀ s ∈ [m, p, q, i, h], (back s).cps.getLsbD 5 = false ∧ (back s).cps.getLsbD 8 = false) ∧
    ((back m).TlbMiss 0x2000#32 ∧ (back i).TlbMiss 0x2000#32 ∧ (back h).TlbMiss 0x2000#32 ∧
      (back p).TlbHit 0x2000#32 0 ∧ (back q).TlbHit 0x2000#32 1) ∧
    (permits ((back p).entry0 0x2000#32 0) .fetch true = false ∧ permits ((back q).entry0 0x2000#32 1) .fetch true = false) ∧
    ((∃ tlb, (back e).FetchesAt false (back e).pc tlb) ∧ e.drain.fetchChoice.answer = .error) ∧
    ((back i).Pending 7 ∧ ∀ n, 4 ≤ n → n < 7 → ¬(back i).Pending n) ∧ (back h).cps.getLsbD 7 = true := by
  refine ⟨by decide, ⟨calm_of (by decide), calm_of (by decide), calm_of (by decide), calm_of (by decide),
    calm_of (by decide), calm_of (by decide)⟩, ?_, by decide, by decide, ?_, by decide,
    ⟨fetchesAt_of _ (by decide), by decide⟩, ⟨by simp only [State.Pending]; decide, fun n h1 h2 => ?_⟩, by decide⟩
  · simp only [List.forall_mem_cons, List.not_mem_nil]
    refine ⟨?_, ?_, ?_, ?_, ?_, fun _ h => h.elim⟩ <;> intro n h1 h2 <;>
      interval_cases n <;> (simp only [State.Pending]; decide)
  · simp only [State.TlbHit, State.TlbMiss, State.EntryMatches]
    decide
  · interval_cases n <;> (simp only [State.Pending]; decide)

theorem witness_Translation :
    let s := mapped 0x20#32 0x10810
    (s.TlbHit 0x10810#32 0 ∧ (mapped 0x20#32 0x18810).TlbHit 0x18810#32 1 ∧ s.TlbMiss 0x20810#32) ∧ s.mmu.age ≠ 1 ∧
      s.psTarget ≠ 1 ∧ permits (s.entry0 0x10810#32 0) .load true = true ∧
      permits (s.entry0 0x10810#32 0) .store true = false :=
  ⟨⟨hit_set0, hit_set1, by simp only [State.TlbMiss, State.EntryMatches]; decide⟩, by decide⟩

/-- `CONST GR64,0x1111` at 0x1000 of instruction/data memory, and at 0 of ROM; and through entry E of 96, section 2.11. -/
theorem witness_StepRunsTheDecodedInstruction :
    let s := begin user [(.mem 0x1000, 0x03114011)]
    let r := State.reset.withFetchWord 32 0x03114011
    let v := begin 0x40#32 [(.special 13, 1), (.tlb 8, 0x4901), (.tlb 9, 0x2000), (.mem 0x2000, 0x03114011)]
    (s.Quiet ∧ r.Quiet ∧ v.Quiet) ∧
    ((∃ tlb, s.atBoundary.FetchesAt false 0x400#30 tlb) ∧ (∃ tlb, r.atBoundary.FetchesAt true 0#30 tlb) ∧
      ∃ tlb, v.atBoundary.FetchesAt false ((v.atBoundary.physical 0x1000#32 0).extractLsb' 2 30) tlb) ∧
    (v.atBoundary.physical 0x1000#32 0).extractLsb' 2 30 = 0x800#30 ∧
    (s.atBoundary.asyncEvent = none ∧ s.atBoundary.cps.getLsbD 7 = false ∧ s.atBoundary.env.fetches = []) ∧
    decode (Memory.readWord s.atBoundary.idm 0x400#30) = .ok (.const 64#8 0x1111#16) ∧
    decode (Memory.readWord r.atBoundary.rom 0#30) = .ok (.const 64#8 0x1111#16) ∧
    decode (Memory.readWord v.atBoundary.idm 0x800#30) = .ok (.const 64#8 0x1111#16) := by
  refine ⟨⟨quiet_of (by decide), quiet_of (by decide), quiet_of (by decide)⟩, ⟨fetchesAt_of _ (by decide),
    fetchesAt_of _ (by decide), fetchesAt_through 0 ?_ (by decide)⟩, by decide⟩
  simp only [State.TlbHit, State.EntryMatches]
  decide

theorem witness_UnassignedOpcodesTrap :
    0 ∈ unassigned ∧ 0xFF ∈ unassigned ∧ (start user).cps.getLsbD 0 = false ∧ (start user).settlement = .ends ∧
      (start user).drain.vectorReadable = true ∧ (start masked).cps.getLsbD 0 = true := by
  decide

/-- No entry; an entry of either set that does not let a User fetch; `*IERR`. -/
theorem witness_FetchTraps :
    let m := begin 0x50#32 [(.special 13, 2), (.tlb 8, 0x4901), (.tlb 9, 0x2000)]
    let p := begin 0x40#32 [(.special 13, 1), (.tlb 8, 0x4801), (.tlb 9, 0x2000)]
    let q := begin 0x40#32 [(.special 13, 1), (.tlb 72, 0x4801), (.tlb 73, 0x2000)]
    let e := badFetch (start user)
    (m.Quiet ∧ p.Quiet ∧ q.Quiet ∧ e.Quiet) ∧ (∃ tlb, e.atBoundary.FetchesAt false 0x400#30 tlb) ∧
    (m.atBoundary.TlbMiss 0x1000#32 ∧ p.atBoundary.TlbHit 0x1000#32 0 ∧ q.atBoundary.TlbHit 0x1000#32 1) ∧
    (∀ s ∈ [m, p, q, e], s.atBoundary.asyncEvent = none ∧ s.atBoundary.cps.getLsbD 7 = false ∧
      s.atBoundary.settlement = .ends ∧ s.atBoundary.drain.vectorReadable = true ∧
      s.atBoundary.fetchChoice.oldStream = false) ∧
    (∀ s ∈ [m, p, q], s.atBoundary.cps.getLsbD 5 = false ∧ s.atBoundary.cps.getLsbD 8 = false ∧
      s.atBoundary.mmu.age ≠ 1 ∧ s.atBoundary.psTarget ≠ 1 ∧ s.atBoundary.cps.getLsbD 0 = false) ∧
    permits (p.atBoundary.entry0 0x1000#32 0) .fetch true = false ∧
    permits (q.atBoundary.entry0 0x1000#32 1) .fetch true = false ∧ e.atBoundary.fetchChoice.answer = .error := by
  refine ⟨⟨quiet_of (by decide), quiet_of (by decide), quiet_of (by decide), quiet_of (by decide)⟩,
    fetchesAt_of _ (by decide), ?_, by decide⟩
  simp only [State.TlbHit, State.TlbMiss, State.EntryMatches]
  decide

/-- For each asynchronous event, a state in which it is pending and none of higher priority is. -/
def pending (p : Nat) : State :=
  let s := start user
  match p with
  | 4 => { s with derr := some 7#8 }
  | 5 => { s with pins := { Pins.idle with trap0 := true } }
  | 6 => { s with pins := { Pins.idle with trap1 := true } }
  | 7 => { s with pins := { Pins.idle with intr := 1#4 } }
  | 8 => { s with pins := { Pins.idle with intr := 2#4 }, cps := 0x64#32 }
  | 9 => { s with pins := { Pins.idle with intr := 4#4 }, cps := 0x68#32 }
  | 10 => { s with pins := { Pins.idle with intr := 8#4 }, cps := 0x6C#32 }
  | 11 => { s with tmr := 0x3000000#32, tmc := 5#32 }
  | _ => { s with cps := 0x1060#32 }

theorem witness_HighestPriorityEventIsTaken :
    ∀ p, 4 ≤ p → p ≤ 12 → (pending p).Quiet ∧ (pending p).atBoundary.Pending p ∧
      (∀ q, 4 ≤ q → q < p → ¬(pending p).atBoundary.Pending q) ∧ (pending p).atBoundary.settlement = .ends ∧
      (pending p).atBoundary.drain.vectorReadable = true := by
  intro p h1 h2
  interval_cases p
  all_goals
    refine ⟨quiet_of (by decide), by simp only [State.Pending]; decide, fun q hq1 hq2 => ?_, by decide⟩
    interval_cases q <;> (simp only [State.Pending]; decide)

/-- Wait mode, with no access in flight, with one that goes on, with one that completes, and with one that never does. -/
theorem witness_WaitModeHolds :
    let s := start 0xE0#32
    let l (n : Nat) : State := { s with inflight := some (loadOf 65#8 n) }
    (s.Quiet ∧ (l 1).Quiet ∧ (l 0).Quiet) ∧
    (∀ p, 4 ≤ p → p ≤ 12 → ¬s.atBoundary.Pending p ∧ ¬(l 1).atBoundary.Pending p ∧ ¬(l 0).atBoundary.Pending p) ∧
    (s.atBoundary.cps.getLsbD 7 = true ∧ s.inflight = none ∧ (l 1).inflight = some (loadOf 65#8 1) ∧
      (loadOf 65#8 1).left ≠ 0 ∧ (l 0).inflight = some (loadOf 65#8 0) ∧ (loadOf 65#8 0).left = 0 ∧
      (l 0).settlement = .ends ∧ (answering .never (l 0)).settlement = .never) := by
  refine ⟨⟨quiet_of (by decide), quiet_of (by decide), quiet_of (by decide)⟩, fun p h1 h2 => ?_, by decide⟩
  interval_cases p <;> (simp only [State.Pending]; decide)

/-- An access in flight that is never answered; what each instruction needs; Pipeline Hold, with that access and with none. -/
theorem witness_PipelineHold :
    let s := answering .never loading
    let h := s.hold
    s.settlement = .never ∧
    (s.accessForbidden 0#8 (s.absReg .A 64#8) (s.resolve (.reg 66#8)) = false ∧ s.multipleByMove = false ∧
      s.testing = false ∧ s.fz = false ∧ s.afterMultiple = false ∧ s.supervisor = true) ∧
    (s.isProtected (s.absReg .C 64#8) = false ∧ s.isProtected (s.absReg .A 65#8) = false ∧
      s.protectedSrc (s.resolve (.reg 66#8)) = false ∧ s.waitsFor (s.sourceRegs 65#8 (.reg 66#8)) = true) ∧
    (h.mode = .held ∧ h.nextPins.reset = false ∧ h.warnPending = false ∧ h.nextPins.warn = false ∧
      cntlJump h.pins.cntl h.nextPins.cntl = false ∧ h.settlement = .never ∧ (start user).hold.inflight = none) := by
  decide

theorem witness_TimerCounts : 0 ≤ (0#32).toNat ∧ 5 ≤ (5#32).toNat := by decide

/-- The start state with the pins `old`, the next sample being `new`. -/
def sampled (mode : Mode) (old new : Pins) : State := sampling new { start user with mode := mode, pins := old }

/-- With no access in flight, and with a load, a store, and the store of a `LOADSET` in flight; in Pipeline Hold; in Reset mode. -/
theorem witness_ResetPin :
    (∀ d ∈ [{ loadOf 65#8 3 with isLoad := false }, { loadOf 65#8 3 with set := true }],
      let s := { sampled .executing .idle resetPin with inflight := some d }
      s.nextPins.reset = true ∧ s.mode ≠ .reset ∧ (d.isLoad = false ∨ d.set = true) ∧
        s.movesByte d.ctl d.pa 0x4003 = true ∧ s.movesByte d.ctl d.pa 0x3FFF = false) ∧
    (let s := { sampled .held .idle resetPin with inflight := some (loadOf 65#8 3) }
     s.nextPins.reset = true ∧ s.mode ≠ .reset ∧ (loadOf 65#8 3).isLoad = true ∧ (loadOf 65#8 3).set = false) ∧
    (sampled .executing .idle resetPin).nextPins.reset = true ∧ (sampled .held .idle resetPin).mode ≠ .reset ∧
      (sampled .reset resetPin resetPin).nextPins.reset = true ∧ (sampled .reset resetPin resetPin).mode = .reset ∧
      (start user).movesByte 0#8 0x4000#32 0x4003 = true ∧ (start user).movesByte 0#8 0x4000#32 0x4004 = false := by
  decide

/-- The transition comes, or is latched already; in a mode in which the Timer counts, and in one in which it does not. -/
theorem witness_WarnIsTaken :
    ∀ m ∈ [Mode.executing, .held, .halt], (sampled m .idle warnPin).nextPins.reset = false ∧
      (sampled m .idle warnPin).nextPins.warn = true ∧ (sampled m .idle warnPin).pins.warn = false ∧
      { sampled m .idle .idle with warnPending := true }.nextPins.reset = false := by
  decide

/-- What holds of `OperatingModes` for a mode, and the levels of `CNTL0-CNTL1` before and after. -/
def meets (m : Mode) (levels : Cntl × Cntl) : Bool :=
  let s := sampled m { Pins.idle with cntl := levels.1 } { Pins.idle with cntl := levels.2 }
  !s.nextPins.reset && !s.warnPending && !s.nextPins.warn && s.mode == m && s.pins.cntl == levels.1 &&
    s.nextPins.cntl == levels.2 && s.settlement == .ends && s.cps.getLsbD 5 && s.fetchChoice.answer == .ready

theorem witness_OperatingModes :
    (∀ x ∈ [(.normal, .halt), (.normal, .step), (.normal, .loadTest)], meets .executing x = true) ∧
    (∀ x ∈ [(.halt, .normal), (.normal, .step), (.halt, .halt), (.normal, .normal), (.halt, .loadTest)],
      meets .halt x = true) ∧
    (∀ x ∈ [(.normal, .halt), (.step, .step), (.normal, .normal), (.step, .loadTest)], meets .step x = true) ∧
    (∀ x ∈ [(.loadTest, .loadTest), (.loadTest, .step), (.loadTest, .halt)], meets .loadTest x = true) ∧
    (∀ m ∈ [Mode.reset, .starting], ∀ c ∈ [Cntl.normal, .halt, .step, .loadTest], meets m (c, c) = true) ∧
    cntlJump .normal .loadTest = true := by
  decide

/-- A step has ended in a next state. -/
def goesOn (r : Result) : Bool :=
  match r with
  | .next _ => true
  | _ => false

/-- `CONST GR64,0x1111`, and `ADD GR64,GR65,GR66`, loaded, and at 0x1000 with nothing loaded. -/
theorem witness_StepModeExecutesOneInstruction :
    let s := { sampled .step { Pins.idle with cntl := .step } .idle with ir := 0x03114011#32, irValid := true }
    let b := { s with ir := 0x14404142#32 }
    let b1 := { b.atBoundary with testing := true }
    let m := { s with irValid := false, idm := (begin user [(.mem 0x1000, 0x14404142)]).idm }
    (m.irValid = false ∧ m.mode = .step ∧ m.atBoundary.env.fetches = [] ∧ m.atBoundary.asyncEvent = none ∧
      m.atBoundary.cps.getLsbD 7 = false ∧
      decode (Memory.readWord m.atBoundary.idm 0x400#30) = .ok (.add 64#8 65#8 (.reg 66#8)) ∧
      m.atBoundary.settlement ≠ .never) ∧
    (∃ tlb, m.atBoundary.FetchesAt false 0x400#30 tlb) ∧ m.atBoundary.BinaryReady 64#8 65#8 (.reg 66#8) ∧
    b1.BinaryReady 64#8 65#8 (.reg 66#8) ∧
    (s.nextPins.reset = false ∧ s.warnPending = false ∧ s.nextPins.warn = false ∧ s.mode = .step ∧ s.pins.cntl = .step ∧
      s.nextPins.cntl = .normal ∧ s.irValid = true ∧ decode s.ir = .ok (.const 64#8 0x1111#16) ∧
      s.atBoundary.asyncEvent = none ∧ s.atBoundary.cps.getLsbD 7 = false ∧
      goesOn (exec (.const 64#8 0x1111#16) { s.atBoundary with testing := true }) = true) ∧
    decode b.ir = .ok (.add 64#8 65#8 (.reg 66#8)) ∧ b1.settlement ≠ .never ∧
    outOfRange (.add 64#8 65#8 (.reg 66#8)) (b1.srcA 65#8 (.reg 66#8)) (b1.srcB 65#8 (.reg 66#8)) false = false :=
  ⟨by decide, fetchesAt_of _ (by decide), binaryReady_of (by decide), binaryReady_of (by decide), by decide⟩

theorem witness_Stops :
    let s := sequence supervisor 2
    let m := { begin supervisor [(.special 6, 0x4000)] with mlByMove := true }
    let d := { mapped 0x31#32 0x18810 with cfg := 0#32 }
    let w := mapped 0x831#32 0x10811
    (d.MayAccess 0x80#8 64#8 (.reg 65#8) ∧ d.MaySequence 0#8 64#8 (.reg 65#8) ∧ w.MaySequence 0#8 64#8 (.reg 65#8)) ∧
    (d.TlbMiss 0x20810#32 ∧ d.TlbHit 0x18810#32 1 ∧ w.TlbHit 0x10811#32 0) ∧
    (s.accessForbidden 0#8 (s.absReg .A 64#8) (s.resolve (.reg 96#8)) = false ∧
      (sequence 0x470#32 2).cps.getLsbD 10 = true ∧ { s with afterMultiple := true }.afterMultiple = true ∧
      { s with testing := true }.testing = true) ∧
    (m.accessForbidden 0#8 (m.absReg .A 64#8) (m.resolve (.reg 96#8)) = false ∧ m.mlByMove = true ∧ m.frozen = false ∧
      m.chc.getLsbD 14 = true ∧ m.testing = false ∧ m.cps.getLsbD 10 = false ∧ m.afterMultiple = false) ∧
    (d.cps.getLsbD 0 = true ∧ (0x80#8 : BitVec 8).getLsbD 7 = true ∧ d.drain.cfg.getLsbD 1 = false ∧
      d.translated 0#8 = true ∧ permits (d.entry0 0x18810#32 1) .load (d.asUser 0#8) = false) ∧
    (w.misaligned 0#8 0x10811#32 = true ∧ permits (w.entry0 0x10811#32 0) .load (w.asUser 8#8) = true) ∧
    ((start 0x871#32).misaligned 2#8 0x4001#32 = true ∧ (start 0x871#32).translated 2#8 = false) := by
  refine ⟨⟨mayAccess_of (by decide), maySequence_of (mayAccess_of (by decide)) (by decide),
    maySequence_of (mayAccess_of (by decide)) (by decide)⟩, ?_, by decide⟩
  simp only [State.TlbHit, State.TlbMiss, State.EntryMatches]
  decide

theorem witness_DecodeAndEncodeAgree :
    (Instr.loadm 0x6F#8 0xFF#8 (.imm 0xFF#8)).wellFormed = true ∧
      decode 0xC0FFFF83#32 = .ok (.jmpi 0x83#8) ∧ (encode (.jmpi 0x83#8)).toNat / 2 ^ 24 = 0xC0 := by
  decide

/-- A legal state, other than that after Reset, from which a step gives a next state. -/
theorem witness_StepKeepsLegal :
    let s := begin user [(.mem 0x1000, 0x03114011)]
    s.Legal ∧ goesOn (step s) = true := by
  refine ⟨?_, by decide⟩
  constructor <;> decide

/-- A handler that has put back a `CHC` with ML set makes its loads all the same, and its return uses the mark up, also where FZ
stays 1 (44 R389, 20 R145, 93 U14). -/
theorem test_restored_ml :
    let m := { handler [(.special 1, 0x460), (.special 4, 0x4000), (.special 6, 0x1C101)] with mlByMove := true }
    (match exec (.load 0#8 66#8 (.reg 67#8)) m with
      | .next t => t.chc == m.chc && t.mlByMove
      | _ => false) = true ∧
    (match exec .iret m with
      | .next t => t.chc == m.chc && !t.mlByMove && t.frozen
      | _ => false) = true := by
  decide

/-- A return whose fetch finds no entry: with `*INTR0` pending and enabled under the restored status vector 16 is taken, with
Wait mode restored the processor waits; the sequence stays described (60 R546, R574 step 11). -/
theorem test_return_event :
    let i := { failing 0x40 [] with pins := interrupt }
    let h := failing 0xC0 []
    (match exec .iret i with
      | .next t => t.pc == 0x4400#30 && t.ops == 0x40#32 && t.chc == i.chc
      | _ => false) = true ∧
    (match exec .iret h with
      | .next t => t.pc == 0x800#30 && t.cps == 0xC0#32 && t.chc == h.chc
      | _ => false) = true := by
  decide

end Sys2Proof.Tests
end

/-! Proofs for the family `40_integer_arithmetic.md`: the six adds and subtracts that raise no Out of Range. -/

namespace Sys2Proof.Machine

/-- The two opcodes of an instruction with an M bit, read off the opcode map (30 R204, R212). -/
theorem hasOpcodes_of_decodeFields {op : BitVec 8} {i : RegNum → RegNum → Src2 → Instr}
    (h : ∀ rc ra n, decodeFields op rc ra n = .ok (i rc ra (.reg n)) ∧
      decodeFields (op + 1#8) rc ra n = .ok (i rc ra (.imm n))) : HasOpcodes op i := by
  intro rc ra n
  obtain ⟨hreg, himm⟩ := h rc ra n
  exact ⟨(decode_word op rc ra n).trans hreg, (decode_word (op + 1#8) rc ra n).trans himm⟩

/-- The state after `Add3(x, y, cin)` is written to register `c` with its flags: the one ending that the six instructions
share (40 R240, R241). -/
def State.addResult (s : State) (c : RegNum) (x y : Word) (cin : Bool) : State :=
  s.arithResult c (add3 x y cin) (add3 x y cin).r

/-- `Add3` on the operands themselves is their exact sum (40 R242, R245). -/
theorem addResult_arithEnds_sum (s : State) (c : RegNum) (x y : Word) (cin : Bool) :
    ArithEnds s (s.addResult c x y cin) c (exactSum x y cin) :=
  arithResult_ends s c (add3 x y cin) _ (add3_r x y cin) (add3_cout x y cin) (add3_v x y cin)

/-- `Add3` on the complement of the second operand is the exact difference (40 R248, R251, R254, R257). -/
theorem addResult_arithEnds_difference (s : State) (c : RegNum) (x y : Word) (cin : Bool) :
    ArithEnds s (s.addResult c x (~~~y) cin) c (exactDifference x y cin) := by
  obtain ⟨hword, hcarry, hoverflows, -⟩ := exactSum_not x y cin
  exact arithResult_ends s c (add3 x (~~~y) cin) _ ((add3_r x (~~~y) cin).trans hword)
    ((add3_cout x (~~~y) cin).trans hcarry) ((add3_v x (~~~y) cin).trans hoverflows)

section Ready

variable {s : State} {rc ra : RegNum} {rb : Src2} (h : s.BinaryReady rc ra rb)
include h

/-! What each of the six is, once its operands may be used and can be had: an `Add3` of SRCA and SRCB, or of one and the
complement of the other, with a constant carry in or `ALU.C`. -/

theorem exec_add_ready :
    exec (.add rc ra rb) s =
      .next ((s.atRead ra rb).addResult (s.absReg .C rc) (s.srcA ra rb) (s.srcB ra rb) false) :=
  State.binary_ready h fun c a b s1 => .next (s1.addResult c a b false)

theorem exec_addc_ready :
    exec (.addc rc ra rb) s =
      .next ((s.atRead ra rb).addResult (s.absReg .C rc) (s.srcA ra rb) (s.srcB ra rb) (s.atRead ra rb).carry) :=
  State.binary_ready h fun c a b s1 => .next (s1.addResult c a b s1.carry)

theorem exec_sub_ready :
    exec (.sub rc ra rb) s =
      .next ((s.atRead ra rb).addResult (s.absReg .C rc) (s.srcA ra rb) (~~~(s.srcB ra rb)) true) :=
  State.binary_ready h fun c a b s1 => .next (s1.addResult c a (~~~b) true)

theorem exec_subc_ready :
    exec (.subc rc ra rb) s =
      .next ((s.atRead ra rb).addResult (s.absReg .C rc) (s.srcA ra rb) (~~~(s.srcB ra rb)) (s.atRead ra rb).carry) :=
  State.binary_ready h fun c a b s1 => .next (s1.addResult c a (~~~b) s1.carry)

theorem exec_subr_ready :
    exec (.subr rc ra rb) s =
      .next ((s.atRead ra rb).addResult (s.absReg .C rc) (s.srcB ra rb) (~~~(s.srcA ra rb)) true) :=
  State.binary_ready h fun c a b s1 => .next (s1.addResult c b (~~~a) true)

theorem exec_subrc_ready :
    exec (.subrc rc ra rb) s =
      .next ((s.atRead ra rb).addResult (s.absReg .C rc) (s.srcB ra rb) (~~~(s.srcA ra rb)) (s.atRead ra rb).carry) :=
  State.binary_ready h fun c a b s1 => .next (s1.addResult c b (~~~a) s1.carry)

end Ready

/-- Settles O9: the opcodes are read off the opcode map, and each instruction is one `Add3` whose ending is that of the exact
sum or difference. -/
theorem addSubtractResults : Obligations.AddSubtractResults := by
  refine ⟨hasOpcodes_of_decodeFields fun _ _ _ => ⟨rfl, rfl⟩,
    hasOpcodes_of_decodeFields fun _ _ _ => ⟨rfl, rfl⟩,
    hasOpcodes_of_decodeFields fun _ _ _ => ⟨rfl, rfl⟩,
    hasOpcodes_of_decodeFields fun _ _ _ => ⟨rfl, rfl⟩,
    hasOpcodes_of_decodeFields fun _ _ _ => ⟨rfl, rfl⟩,
    hasOpcodes_of_decodeFields fun _ _ _ => ⟨rfl, rfl⟩, ?_⟩
  intro rc ra rb s h
  exact ⟨⟨_, exec_add_ready h, addResult_arithEnds_sum _ _ _ _ _⟩,
    ⟨_, exec_addc_ready h, addResult_arithEnds_sum _ _ _ _ _⟩,
    ⟨_, exec_sub_ready h, addResult_arithEnds_difference _ _ _ _ _⟩,
    ⟨_, exec_subc_ready h, addResult_arithEnds_difference _ _ _ _ _⟩,
    ⟨_, exec_subr_ready h, addResult_arithEnds_difference _ _ _ _ _⟩,
    ⟨_, exec_subrc_ready h, addResult_arithEnds_difference _ _ _ _ _⟩⟩

end Sys2Proof.Machine

/-! Proofs for the family `41_compare.md`: the eleven compares. -/

namespace Sys2Proof.Machine

/-- The model's test of the four bytes of two words finds an equal pair exactly when one is in the same place of both, the
bytes counted from the right (41 R301). -/
theorem anyByteEqual_iff (a b : Word) :
    anyByteEqual a b = true ↔ ∃ k < 4, a.extractLsb' (8 * k) 8 = b.extractLsb' (8 * k) 8 := by
  simp only [anyByteEqual, Bool.or_eq_true, beq_iff_eq]
  constructor
  · rintro (((h | h) | h) | h)
    · exact ⟨3, by decide, h⟩
    · exact ⟨2, by decide, h⟩
    · exact ⟨1, by decide, h⟩
    · exact ⟨0, by decide, h⟩
  · rintro ⟨k, hk, h⟩
    match k, hk with
    | 0, _ => exact .inr h
    | 1, _ => exact .inl (.inr h)
    | 2, _ => exact .inl (.inl (.inr h))
    | 3, _ => exact .inl (.inl (.inl h))

/-- A compare whose operands may be used and can be had writes the Boolean of its test to DEST and no status (41 R290). -/
theorem State.compare_ready {s : State} {rc ra : RegNum} {rb : Src2} (h : s.BinaryReady rc ra rb)
    (rel : Word → Word → Bool) :
    s.compare rc ra rb rel =
      .next ((s.atRead ra rb).plainResult (s.absReg .C rc) (boolWord (rel (s.srcA ra rb) (s.srcB ra rb)))) :=
  State.binary_ready h fun c a b s1 => .next (s1.plainResult c (boolWord (rel a b)))

/-- How an instruction that compares by `rel` ends, where `rel` decides the relation `P` of the operands. -/
theorem compare_ends {s : State} {rc ra : RegNum} {rb : Src2} (h : s.BinaryReady rc ra rb) {i : Instr}
    {P : Prop} (rel : Word → Word → Bool) (hexec : exec i s = s.compare rc ra rb rel)
    (hrel : rel (s.srcA ra rb) (s.srcB ra rb) = true ↔ P) :
    ∃ t w, exec i s = .next t ∧ (P → w = 0x80000000#32) ∧ (¬P → w = 0#32) ∧
      WritesReg (s.atRead ra rb) t (s.absReg .C rc) w ∧ t.alu = (s.atRead ra rb).alu ∧ t.q = (s.atRead ra rb).q ∧
      PcAdvances (s.atRead ra rb) t := by
  obtain ⟨htrue, hfalse⟩ := boolWord_spec hrel
  exact ⟨_, _, hexec.trans (State.compare_ready h rel), htrue, hfalse, plainResult_ends _ _ _⟩

/-- Settles O15: the opcodes are read off the opcode map, and each instruction is a compare by a test that decides its
relation. -/
theorem compareResults : Obligations.CompareResults := by
  refine ⟨hasOpcodes_of_decodeFields fun _ _ _ => ⟨rfl, rfl⟩,
    hasOpcodes_of_decodeFields fun _ _ _ => ⟨rfl, rfl⟩,
    hasOpcodes_of_decodeFields fun _ _ _ => ⟨rfl, rfl⟩,
    hasOpcodes_of_decodeFields fun _ _ _ => ⟨rfl, rfl⟩,
    hasOpcodes_of_decodeFields fun _ _ _ => ⟨rfl, rfl⟩,
    hasOpcodes_of_decodeFields fun _ _ _ => ⟨rfl, rfl⟩,
    hasOpcodes_of_decodeFields fun _ _ _ => ⟨rfl, rfl⟩,
    hasOpcodes_of_decodeFields fun _ _ _ => ⟨rfl, rfl⟩,
    hasOpcodes_of_decodeFields fun _ _ _ => ⟨rfl, rfl⟩,
    hasOpcodes_of_decodeFields fun _ _ _ => ⟨rfl, rfl⟩,
    hasOpcodes_of_decodeFields fun _ _ _ => ⟨rfl, rfl⟩, ?_⟩
  intro rc ra rb s h
  exact ⟨compare_ends h (fun a b => a == b) rfl beq_iff_eq,
    compare_ends h (fun a b => a != b) rfl bne_iff_ne,
    compare_ends h (fun a b => a.slt b) rfl BitVec.slt_iff_toInt_lt,
    compare_ends h (fun a b => a.ult b) rfl BitVec.ult_iff_toNat_lt,
    compare_ends h (fun a b => a.sle b) rfl BitVec.sle_iff_toInt_le,
    compare_ends h (fun a b => a.ule b) rfl BitVec.ule_iff_toNat_le,
    compare_ends h (fun a b => b.slt a) rfl BitVec.slt_iff_toInt_lt,
    compare_ends h (fun a b => b.ult a) rfl BitVec.ult_iff_toNat_lt,
    compare_ends h (fun a b => b.sle a) rfl BitVec.sle_iff_toInt_le,
    compare_ends h (fun a b => b.ule a) rfl BitVec.ule_iff_toNat_le,
    compare_ends h anyByteEqual rfl (anyByteEqual_iff _ _)⟩

end Sys2Proof.Machine

/-! Proofs for the family `42_logical.md`: the seven logical instructions. -/

namespace Sys2Proof.Machine

/-- A logical instruction whose operands may be used and can be had sets N and Z from its word, then writes it to DEST
(42 R330). -/
theorem State.logical_ready {s : State} {rc ra : RegNum} {rb : Src2} (h : s.BinaryReady rc ra rb)
    (f : Word → Word → Word) :
    s.logical rc ra rb f =
      .next (((s.atRead ra rb).setNZ (f (s.srcA ra rb) (s.srcB ra rb))).writeReg true (s.absReg .C rc)
        (f (s.srcA ra rb) (s.srcB ra rb))).retire :=
  State.binary_ready h fun c a b s1 => .next ((s1.setNZ (f a b)).writeReg true c (f a b)).retire

/-- The complement flips the bits of a word, those at the 32 places inside it (42 R332). -/
theorem getLsbD_complement (w : Word) {k : Nat} (hk : k < 32) : (~~~w).getLsbD k = !w.getLsbD k := by
  rw [BitVec.getLsbD_not, decide_eq_true hk, Bool.true_and]

/-- How an instruction that combines its operands by `f` ends, where `f` is the Boolean function `bit` in each place. -/
theorem logical_ends_bitwise {s : State} {rc ra : RegNum} {rb : Src2} (h : s.BinaryReady rc ra rb) {i : Instr}
    (f : Word → Word → Word) (bit : Bool → Bool → Bool) (hexec : exec i s = s.logical rc ra rb f)
    (hbit : ∀ a b : Word, ∀ k < 32, (f a b).getLsbD k = bit (a.getLsbD k) (b.getLsbD k)) :
    ∃ t w, exec i s = .next t ∧
      (∀ k < 32, w.getLsbD k = bit ((s.srcA ra rb).getLsbD k) ((s.srcB ra rb).getLsbD k)) ∧
      WritesReg (s.atRead ra rb) t (s.absReg .C rc) w ∧
      FlagsNZ (s.atRead ra rb) t (decide (w.toInt < 0)) (decide (w.toNat = 0)) ∧ t.q = (s.atRead ra rb).q ∧
      PcAdvances (s.atRead ra rb) t :=
  ⟨_, _, hexec.trans (State.logical_ready h f), hbit _ _, logical_ends _ _ _⟩

/-- Settles O18: the opcodes are read off the opcode map, and each instruction combines its operands by a word operator
that is its Boolean function in each place. -/
theorem logicalResults : Obligations.LogicalResults := by
  refine ⟨hasOpcodes_of_decodeFields fun _ _ _ => ⟨rfl, rfl⟩,
    hasOpcodes_of_decodeFields fun _ _ _ => ⟨rfl, rfl⟩,
    hasOpcodes_of_decodeFields fun _ _ _ => ⟨rfl, rfl⟩,
    hasOpcodes_of_decodeFields fun _ _ _ => ⟨rfl, rfl⟩,
    hasOpcodes_of_decodeFields fun _ _ _ => ⟨rfl, rfl⟩,
    hasOpcodes_of_decodeFields fun _ _ _ => ⟨rfl, rfl⟩,
    hasOpcodes_of_decodeFields fun _ _ _ => ⟨rfl, rfl⟩, ?_⟩
  intro rc ra rb s h
  refine ⟨logical_ends_bitwise h (fun a b => a &&& b) (fun x y => x && y) rfl fun a b k _ => BitVec.getLsbD_and,
    logical_ends_bitwise h (fun a b => a &&& ~~~b) (fun x y => x && !y) rfl fun a b k hk => ?andn,
    logical_ends_bitwise h (fun a b => ~~~(a &&& b)) (fun x y => !(x && y)) rfl fun a b k hk => ?nand,
    logical_ends_bitwise h (fun a b => a ||| b) (fun x y => x || y) rfl fun a b k _ => BitVec.getLsbD_or,
    logical_ends_bitwise h (fun a b => ~~~(a ||| b)) (fun x y => !(x || y)) rfl fun a b k hk => ?nor,
    logical_ends_bitwise h (fun a b => a ^^^ b) (fun x y => x != y) rfl fun a b k _ => BitVec.getLsbD_xor,
    logical_ends_bitwise h (fun a b => ~~~(a ^^^ b)) (fun x y => x == y) rfl fun a b k hk => ?xnor⟩
  case andn => rw [BitVec.getLsbD_and, getLsbD_complement b hk]
  case nand => rw [getLsbD_complement _ hk, BitVec.getLsbD_and]
  case nor => rw [getLsbD_complement _ hk, BitVec.getLsbD_or]
  case xnor =>
    rw [getLsbD_complement _ hk, BitVec.getLsbD_xor]
    exact Bool.not_not _

end Sys2Proof.Machine

/-! Proofs for the family `43_shift.md`: the three shifts, and `EXTRACT`. -/

namespace Sys2Proof.Machine

/-- The shift count is SRCB modulo 32 (43 R350). -/
theorem shiftCount_eq (b : Word) : shiftCount b = b.toNat % 32 := by
  rw [shiftCount, BitVec.extractLsb'_toNat, Nat.shiftRight_zero]

/-- `ALU.FC` is the `ALU` register modulo 32 (10 R77). -/
theorem State.funnelCount_toNat (s : State) : s.funnelCount.toNat = s.alu.toNat % 32 := by
  rw [State.funnelCount, aluFC, BitVec.extractLsb'_toNat, Nat.shiftRight_zero]

/-- A left shift with zero fill multiplies by a power of two, what leaves the word being lost (43 R351). -/
theorem shiftLeft_eq_ofNat_mul (a : Word) (n : Nat) : a <<< n = BitVec.ofNat 32 (a.toNat * 2 ^ n) := by
  apply BitVec.eq_of_toNat_eq
  rw [BitVec.toNat_shiftLeft, Nat.shiftLeft_eq, BitVec.toNat_ofNat]

/-- A right shift with zero fill divides the unsigned number (43 R352). -/
theorem shiftRight_eq_ofNat_div (a : Word) (n : Nat) : a >>> n = BitVec.ofNat 32 (a.toNat / 2 ^ n) := by
  rw [← Nat.shiftRight_eq_div_pow, ← BitVec.toNat_ushiftRight, BitVec.ofNat_toNat, BitVec.setWidth_eq]

/-- A right shift with sign fill divides the signed number, towards minus infinity (43 R353). -/
theorem sshiftRight_eq_ofInt_div (a : Word) (n : Nat) : a.sshiftRight n = BitVec.ofInt 32 (a.toInt / 2 ^ n) := by
  have hdiv : a.toInt / 2 ^ n = (a.sshiftRight n).toInt := by
    rw [BitVec.toInt_sshiftRight, Int.shiftRight_eq_div_pow, Nat.cast_pow, Nat.cast_ofNat]
  rw [hdiv, BitVec.ofInt_toInt]

/-- The high word of the double word `a // b` shifted left: what goes past its top bit is lost, and so falls out of the
quotient by `2 ^ 32` modulo a word (43 R354). -/
theorem extract_eq_ofNat (a b : Word) (n : Nat) :
    ((a ++ b : BitVec 64) <<< n).extractLsb' 32 32 =
      BitVec.ofNat 32 ((a.toNat * 2 ^ 32 + b.toNat) * 2 ^ n / 2 ^ 32) := by
  apply BitVec.eq_of_toNat_eq
  rw [BitVec.extractLsb'_toNat, BitVec.toNat_shiftLeft, toNat_append32, Nat.shiftLeft_eq, Nat.shiftRight_eq_div_pow,
    BitVec.toNat_ofNat]
  generalize (a.toNat * 2 ^ 32 + b.toNat) * 2 ^ n = x
  omega

/-- How an instruction ends that writes the word `f` of its operands and of the state it reads them in, and no status
(43 R350). -/
theorem plainBinary_ends {s : State} {rc ra : RegNum} {rb : Src2} (h : s.BinaryReady rc ra rb) {i : Instr} {w : Word}
    (f : Word → Word → State → Word)
    (hexec : exec i s = s.binary rc ra rb fun c a b s1 => .next (s1.plainResult c (f a b s1)))
    (hf : f (s.srcA ra rb) (s.srcB ra rb) (s.atRead ra rb) = w) :
    ∃ t, exec i s = .next t ∧ WritesReg (s.atRead ra rb) t (s.absReg .C rc) w ∧ t.alu = (s.atRead ra rb).alu ∧
      t.q = (s.atRead ra rb).q ∧ PcAdvances (s.atRead ra rb) t := by
  subst hf
  exact ⟨_, hexec.trans (State.binary_ready h _), plainResult_ends _ _ _⟩

/-- Settles O19: the opcodes are read off the opcode map, and each instruction writes one word, which is the product or
quotient by a power of two of the number that its operands make up. -/
theorem shiftResults : Obligations.ShiftResults := by
  refine ⟨hasOpcodes_of_decodeFields fun _ _ _ => ⟨rfl, rfl⟩,
    hasOpcodes_of_decodeFields fun _ _ _ => ⟨rfl, rfl⟩,
    hasOpcodes_of_decodeFields fun _ _ _ => ⟨rfl, rfl⟩,
    hasOpcodes_of_decodeFields fun _ _ _ => ⟨rfl, rfl⟩, ?_⟩
  intro rc ra rb s h
  refine ⟨plainBinary_ends h (fun a b _ => a <<< shiftCount b) rfl ?sll,
    plainBinary_ends h (fun a b _ => a >>> shiftCount b) rfl ?srl,
    plainBinary_ends h (fun a b _ => a.sshiftRight (shiftCount b)) rfl ?sra,
    plainBinary_ends h (fun a b s1 => ((a ++ b : BitVec 64) <<< s1.funnelCount.toNat).extractLsb' 32 32) rfl ?extract⟩
  case sll => rw [shiftLeft_eq_ofNat_mul, shiftCount_eq]
  case srl => rw [shiftRight_eq_ofNat_div, shiftCount_eq]
  case sra => rw [sshiftRight_eq_ofInt_div, shiftCount_eq]
  case extract => rw [extract_eq_ofNat, State.funnelCount_toNat]

end Sys2Proof.Machine

/-! Proofs for the family `45_constant.md`: `CONST`, `CONSTH` and `CONSTN`. -/

namespace Sys2Proof.Machine

/-- The opcode of an instruction with a 16-bit constant, read off the opcode map (30 R206, R212). -/
theorem hasOpcode_of_decodeFields {op : BitVec 8} {i : RegNum → BitVec 16 → Instr}
    (h : ∀ ra high low, decodeFields op high ra low = .ok (i ra (high ++ low))) : HasOpcode op i :=
  fun ra high low => (decode_word op high ra low).trans (h ra high low)

/-- The number that two half-words make up as one word (45 R422). -/
theorem append16_eq_ofNat (high low : BitVec 16) :
    (high ++ low : Word) = BitVec.ofNat 32 (high.toNat * 2 ^ 16 + low.toNat) := by
  rw [← Nat.shiftLeft_eq, Nat.shiftLeft_add_eq_or_of_lt low.isLt, ← BitVec.toNat_append, BitVec.ofNat_toNat,
    BitVec.setWidth_eq]

/-- How an instruction ends that writes the word `w` to RA without reading it, and no status (45 R420). -/
theorem plainDestA_ends {s : State} {ra : RegNum} (ha : s.isProtected (s.absReg .A ra) = false) {i : Instr} {w : Word}
    (v : Word) (hexec : exec i s = s.destA ra fun a s1 => .next (s1.plainResult a v)) (hv : v = w) :
    ∃ t, exec i s = .next t ∧ WritesReg s t (s.absReg .A ra) w ∧ t.alu = s.alu ∧ t.q = s.q ∧ PcAdvances s t := by
  subst hv
  exact ⟨_, hexec.trans (State.destA_ready ha _), plainResult_ends _ _ _⟩

/-- How an instruction ends that waits for RA and writes the word `f` of its value back to it, and no status (45 R422). -/
theorem plainReadA_ends {s : State} {ra : RegNum} (ha : s.isProtected (s.absReg .A ra) = false)
    (hr : s.ready [s.absReg .A ra] = true) {i : Instr} {w : Word} (f : Word → Word)
    (hexec : exec i s = s.readA ra fun a v s1 => .next (s1.plainResult a (f v)))
    (hf : f ((s.afterWait [s.absReg .A ra]).readReg .A (s.absReg .A ra)) = w) :
    ∃ t, exec i s = .next t ∧ WritesReg (s.afterWait [s.absReg .A ra]) t (s.absReg .A ra) w ∧
      t.alu = (s.afterWait [s.absReg .A ra]).alu ∧ t.q = (s.afterWait [s.absReg .A ra]).q ∧
      PcAdvances (s.afterWait [s.absReg .A ra]) t := by
  subst hf
  exact ⟨_, hexec.trans (State.readA_ready ha hr _), plainResult_ends _ _ _⟩

/-- Settles O20: the opcodes are read off the opcode map, and each instruction writes one word made of two half-words: the
constant below zeros, the constant below ones, or the constant above the low half of RA. -/
theorem constantResults : Obligations.ConstantResults := by
  refine ⟨hasOpcode_of_decodeFields fun _ _ _ => rfl, hasOpcode_of_decodeFields fun _ _ _ => rfl,
    hasOpcode_of_decodeFields fun _ _ _ => rfl, ?_⟩
  intro ra i16 s ha
  refine ⟨plainDestA_ends ha (0#16 ++ i16) rfl ?const, plainDestA_ends ha (0xFFFF#16 ++ i16) rfl ?constn,
    fun hr => plainReadA_ends ha hr (fun v => i16 ++ v.extractLsb' 0 16) rfl ?consth⟩
  case const => rw [append16_eq_ofNat, BitVec.toNat_zero, Nat.zero_mul, Nat.zero_add]
  case constn => exact append16_eq_ofNat 0xFFFF#16 i16
  case consth => rw [append16_eq_ofNat, BitVec.extractLsb'_toNat, Nat.shiftRight_zero]

end Sys2Proof.Machine

/-! Proofs for the family `other`: every step keeps a legal state legal. -/

namespace Sys2Proof.Machine

section Exec

variable {s t : State} (h : Kept 1 s t)
include h

/-! One rule for each shape of instruction: the operand form gives a state that comes from `s`, and the ending keeps it. -/

theorem Kept.arithForm {rc ra : RegNum} {rb : Src2} (sum : Word → Word → State → Sum) :
    Result.All (Ends s)
      (t.binary rc ra rb fun c a b u => .next (u.arithResult c (sum a b u) (sum a b u).r)) :=
  (h.binary fun c _ _ _ hu => Result.all_next (hu.arithResult c _ _)).imp fun _ => Kept.ends

theorem Kept.rangeForm {rc ra : RegNum} {rb : Src2} (sum : Word → Word → State → Sum) (out : Sum → Bool) :
    Result.All (Ends s)
      (t.binary rc ra rb fun c a b u => (u.arithResult c (sum a b u) (sum a b u).r).rangeResult (out (sum a b u))) :=
  (h.binary fun c _ _ _ hu => (hu.arithResult c _ _).rangeResult _).imp fun _ => Kept.ends

theorem Kept.multiplyForm {rc ra : RegNum} {rb : Src2} (sum : Word → Word → State → Sum) (top : Sum → Bool) :
    Result.All (Ends s)
      (t.binary rc ra rb fun c a b u => .next (u.multiplyStep c (sum a b u) (top (sum a b u)))) :=
  (h.binary fun c _ _ _ hu => Result.all_next (hu.multiplyStep c _ _)).imp fun _ => Kept.ends

theorem Kept.divideForm {rc ra : RegNum} {rb : Src2} (w : Word → Word → State → Word) :
    Result.All (Ends s)
      (t.binary rc ra rb fun c a b u =>
        .next ((u.divideStep (u.quotientBit (u.divideAdd a b))).arithResult c (u.divideAdd a b) (w a b u))) :=
  (h.binary fun c _ _ _ hu => Result.all_next ((hu.quotient _ _).arithResult c _ _)).imp fun _ => Kept.ends

theorem Kept.plainForm {rc ra : RegNum} {rb : Src2} (w : Word → Word → State → Word) :
    Result.All (Ends s) (t.binary rc ra rb fun c a b u => .next (u.plainResult c (w a b u))) :=
  (h.binary fun c _ _ _ hu => Result.all_next (hu.plainResult c _)).imp fun _ => Kept.ends

theorem Kept.compare (rc ra : RegNum) (rb : Src2) (rel : Word → Word → Bool) :
    Result.All (Kept 1 s) (t.compare rc ra rb rel) :=
  h.binary fun c _ _ _ hu => Result.all_next (hu.plainResult c _)

theorem Kept.shift (rc ra : RegNum) (rb : Src2) (f : Word → Word → Word) :
    Result.All (Kept 1 s) (t.shift rc ra rb f) :=
  h.binary fun c _ _ _ hu => Result.all_next (hu.plainResult c _)

/-- An instruction waits for the access in flight, then runs as `k` does. -/
theorem Kept.serialForm {k : State → Result} (hk : ∀ u, Kept 1 s u → Result.All (Kept 1 s) (k u)) :
    Result.All (Ends s) (t.finishAccess k) :=
  (h.finishAccess (fun _ hu => hu) hk).imp fun _ => Kept.ends

theorem Kept.setip (rc ra rb : RegNum) : Result.All (Kept 1 s) (execSetip rc ra rb t) := by
  unfold execSetip
  simp only
  split
  · exact h.protectionViolation
  · exact Result.all_next (Kept.setPointers h _ _ _)

theorem Kept.emulate (vn : BitVec 8) (ra rb : RegNum) : Result.All (Kept 1 s) (execEmulate vn ra rb t) := by
  unfold execEmulate
  simp only
  split
  · exact h.protectionViolation
  · split
    · exact h.protectionViolation
    · exact (Kept.setPointers h _ _ _).raiseNext _

theorem Kept.inv : Result.All (Kept 1 s) (execInv t) := by
  unfold execInv
  split
  · exact h.protectionViolation
  · exact Result.all_next
      (h.mono.of { h.reserved with } ⟨rfl, rfl, rfl, rfl, rfl, rfl⟩ ⟨rfl, rfl, rfl⟩ :
        Kept 2 s { t with invPending := true }).retire

theorem Kept.halt : Result.All (Ends s) (execHalt t) := by
  unfold execHalt
  split
  · exact h.protectionViolation.imp fun _ => Kept.ends
  · exact h.finishAccess (fun _ hu => hu.ends) fun u hu => hu.mono.retire.haltAt _

theorem Kept.mfsr (rc : RegNum) (sa : BitVec 8) : Result.All (Kept 1 s) (execMfsr rc sa t) := by
  unfold execMfsr
  simp only
  split
  · exact h.protectionViolation
  · exact Result.all_next (h.plainResult _ _)

theorem Kept.mtsr (sa : BitVec 8) (rb : RegNum) : Result.All (Ends s) (execMtsr sa rb t) :=
  h.serialForm fun u hu => by
    split
    · exact hu.protectionViolation
    · exact hu.readB fun v x hx => Result.all_next (hx.moveResult sa v)

theorem Kept.mtsrim (sa : BitVec 8) (i16 : BitVec 16) : Result.All (Ends s) (execMtsrim sa i16 t) :=
  h.serialForm fun u hu => by
    split
    · exact hu.protectionViolation
    · exact Result.all_next (hu.moveResult sa _)

theorem Kept.mftlb (rc ra : RegNum) : Result.All (Kept 1 s) (execMftlb rc ra t) := by
  unfold execMftlb
  split
  · exact h.protectionViolation
  · exact h.unaryA fun c a u hu => Result.all_next (hu.plainResult c _)

theorem Kept.mttlb (ra rb : RegNum) : Result.All (Ends s) (execMttlb ra rb t) :=
  h.serialForm fun u hu => by
    split
    · exact hu.protectionViolation
    · exact hu.sources fun a b x hx => Result.all_next (hx.writeTlb _ _).mono.retire

theorem Kept.calli (ra rb : RegNum) : Result.All (Kept 1 s) (execCalli ra rb t) := by
  unfold execCalli
  simp only
  split
  · exact h.protectionViolation
  · exact h.readB fun v u hu => Result.all_next ((hu.writeReg _ _ _).branchTo _)

/-- Whatever the instruction, a state it ends in keeps what a state of the machine must keep. -/
theorem Kept.exec (i : Instr) : Result.All (Ends s) (exec i t) := by
  cases i
  all_goals dsimp only [Machine.exec]
  case add => exact h.arithForm fun a b _ => add3 a b false
  case addc => exact h.arithForm fun a b u => add3 a b u.carry
  case sub => exact h.arithForm fun a b _ => add3 a (~~~b) true
  case subc => exact h.arithForm fun a b u => add3 a (~~~b) u.carry
  case subr => exact h.arithForm fun a b _ => add3 b (~~~a) true
  case subrc => exact h.arithForm fun a b u => add3 b (~~~a) u.carry
  case adds => exact h.rangeForm (fun a b _ => add3 a b false) fun sum => sum.v
  case addu => exact h.rangeForm (fun a b _ => add3 a b false) fun sum => sum.cout
  case addcs => exact h.rangeForm (fun a b u => add3 a b u.carry) fun sum => sum.v
  case addcu => exact h.rangeForm (fun a b u => add3 a b u.carry) fun sum => sum.cout
  case subs => exact h.rangeForm (fun a b _ => add3 a (~~~b) true) fun sum => sum.v
  case subu => exact h.rangeForm (fun a b _ => add3 a (~~~b) true) fun sum => !sum.cout
  case subcs => exact h.rangeForm (fun a b u => add3 a (~~~b) u.carry) fun sum => sum.v
  case subcu => exact h.rangeForm (fun a b u => add3 a (~~~b) u.carry) fun sum => !sum.cout
  case subrs => exact h.rangeForm (fun a b _ => add3 b (~~~a) true) fun sum => sum.v
  case subru => exact h.rangeForm (fun a b _ => add3 b (~~~a) true) fun sum => !sum.cout
  case subrcs => exact h.rangeForm (fun a b u => add3 b (~~~a) u.carry) fun sum => sum.v
  case subrcu => exact h.rangeForm (fun a b u => add3 b (~~~a) u.carry) fun sum => !sum.cout
  case mul => exact h.multiplyForm (fun a b u => add3 (u.multiplicand a) b false) fun sum => sum.r.getLsbD 31 ^^ sum.v
  case mull =>
    exact h.multiplyForm (fun a b u => add3 b (~~~(u.multiplicand a)) true) fun sum => sum.r.getLsbD 31 ^^ sum.v
  case mulu => exact h.multiplyForm (fun a b u => add3 (u.multiplicand a) b false) fun sum => sum.cout
  case multiply | divide => exact (h.emulated3 _ _ _ _).imp fun _ => Kept.ends
  case div0 =>
    exact (h.unaryB fun c _ _ hu => Result.all_next ((hu.quotient _ _).arithResult c _ _)).imp fun _ => Kept.ends
  case div => exact h.divideForm fun a b u => (u.divideAdd a b).r.extractLsb' 0 31 ++ u.q.extractLsb' 31 1
  case divl => exact h.divideForm fun a b u => (u.divideAdd a b).r
  case divrem =>
    exact h.arithForm fun a b u => if u.divideFlag then add3 a 0#32 false else add3 a b false
  case cpeq | cpneq | cplt | cpltu | cple | cpleu | cpgt | cpgtu | cpge | cpgeu | cpbyte => exact (h.compare _ _ _ _).imp fun _ => Kept.ends
  case aseq | asneq | aslt | asltu | asle | asleu | asgt | asgtu | asge | asgeu =>
    exact (h.assert _ _ _ _).imp fun _ => Kept.ends
  case and | andn | nand | or | nor | xor | xnor => exact (h.logical _ _ _ _).imp fun _ => Kept.ends
  case sll | srl | sra => exact (h.shift _ _ _ _).imp fun _ => Kept.ends
  case extract =>
    exact h.plainForm fun a b u => ((a ++ b : BitVec 64) <<< u.funnelCount.toNat).extractLsb' 32 32
  case exbyte => exact h.plainForm fun a b u => b.extractLsb' 8 24 ++ u.selectedByte a
  case exhw => exact h.plainForm fun a b u => b.extractLsb' 16 16 ++ u.selectedHalf a
  case inbyte => exact h.plainForm fun a b u => putField a (byteLow u.byteOrder u.bytePointer) (b.extractLsb' 0 8)
  case inhw => exact h.plainForm fun a b u => putField a (halfLow u.byteOrder u.bytePointer) (b.extractLsb' 0 16)
  case load | loadl | loadset | store | storel => exact (h.loadStore _ _ _ _ _ _).imp fun _ => Kept.ends
  case loadm | storem => exact h.loadStoreMultiple _ _ _ _
  case exhws => exact (h.unaryA fun c _ _ hu => Result.all_next (hu.plainResult c _)).imp fun _ => Kept.ends
  case mfsr => exact (h.mfsr _ _).imp fun _ => Kept.ends
  case mtsr => exact h.mtsr _ _
  case mtsrim => exact h.mtsrim _ _
  case mftlb => exact (h.mftlb _ _).imp fun _ => Kept.ends
  case mttlb => exact h.mttlb _ _
  case const | constn =>
    exact (Kept.destA h (k := fun a u => .next (u.plainResult a _)) fun a =>
      Result.all_next (h.plainResult a _)).imp fun _ => Kept.ends
  case consth => exact (h.readA fun a _ _ hu => Result.all_next (hu.plainResult a _)).imp fun _ => Kept.ends
  case fadd | dadd | fsub | dsub | fmul | dmul | fdiv | ddiv | feq | deq | flt | dlt | fgt | dgt =>
    exact (h.emulated3 _ _ _ _).imp fun _ => Kept.ends
  case cvintf | cvintd | cvfint | cvdint | cvfd | cvdf => exact (h.emulated2 _ _ _).imp fun _ => Kept.ends
  case jmp => exact Result.all_next (h.mono.branchTo _).ends
  case jmpi => exact (h.readB fun _ _ hu => Result.all_next (hu.mono.branchTo _)).imp fun _ => Kept.ends
  case jmpt | jmpf => exact (h.readA fun _ _ _ hu => Result.all_next (hu.mono.branchIf _ _)).imp fun _ => Kept.ends
  case jmpti | jmpfi => exact (h.sources fun _ _ _ hu => Result.all_next (hu.mono.branchIf _ _)).imp fun _ => Kept.ends
  case jmpfdec =>
    exact (h.readA fun _ _ _ hu => Result.all_next ((hu.writeReg _ _ _).branchIf _ _)).imp fun _ => Kept.ends
  case call =>
    exact (Kept.destA h (k := fun n u => .next ((u.writeReg false n u.returnAddress).branchTo _)) fun n =>
      Result.all_next ((h.writeReg _ _ _).branchTo _)).imp fun _ => Kept.ends
  case calli => exact (h.calli _ _).imp fun _ => Kept.ends
  case clz => exact (h.unaryB fun c _ _ hu => Result.all_next (hu.plainResult c _)).imp fun _ => Kept.ends
  case setip => exact (h.setip _ _ _).imp fun _ => Kept.ends
  case emulate => exact (h.emulate _ _ _).imp fun _ => Kept.ends
  case inv => exact h.inv.imp fun _ => Kept.ends
  case iret | iretinv => exact h.interruptReturn _
  case halt => exact h.halt

theorem Kept.runWord (w : Word) : Result.All (Ends s) (runWord w t) := by
  unfold Machine.runWord
  split
  · exact h.exec _
  · exact (h.raiseCurr _).imp fun _ => Kept.ends

end Exec

/-- Where the instruction register may be valid (60 R614, 70 R650). -/
def Mode.mayHoldInstr (m : Mode) : Prop := m = .step ∨ m = .loadTest ∨ m = .held

/-- The end of an instruction is a legal state, once no instruction is marked as one of the development system. -/
theorem Ends.legal {s t : State} (h : Ends s t) (ht : t.testing = false) (hir : s.irValid = true → s.mode.mayHoldInstr) :
    t.Legal := by
  have hv : t.irValid = true → t.mode.mayHoldInstr := by
    intro hti
    rcases h.mode with ⟨hm, hi⟩ | hi
    · rcases hm with hm | hm
      · rw [hm]
        exact hir (hi ▸ hti)
      · exact .inr (.inr hm)
    · rw [hi] at hti
      cases hti
  obtain ⟨sps, mmu, ipa, ipb, ipc, ps⟩ := h.ages
  exact { h.reserved with
    spsAge := sps, mmuAge := mmu, ipaAge := ipa, ipbAge := ipb, ipcAge := ipc, psTarget := ps, testing := ht, irValid := hv }

/-- An operation on a legal state that leaves the mode, or waits without end, gives a legal state. -/
theorem Kept.legal {s t : State} (h : Kept 1 s t) (hs : s.Legal) : t.Legal :=
  h.ends.legal (h.testing.trans hs.testing) hs.irValid

/-- A legal state stays legal in any mode if it holds no instruction, or one that the mode may hold. -/
theorem State.Legal.inMode {s : State} (h : s.Legal) (m : Mode) (valid : Bool) (word : Word)
    (hv : valid = true → m.mayHoldInstr) : ({ s with mode := m, irValid := valid, ir := word } : State).Legal :=
  { h with irValid := hv }

theorem State.Legal.drained {s : State} (h : s.Legal) : s.drain.Legal := h.kept.drain.legal h

theorem State.Legal.held {s : State} (h : s.Legal) : s.hold.Legal := h.kept.hold.legal h

theorem State.Legal.sampled {s : State} (h : s.Legal) : s.samplePins.Legal := h.kept.samplePins.legal h

/-- The cycles of a step pass. -/
theorem Kept.stepCycles {n : Nat} {s t : State} (h : Kept n s t) : Kept n s t.stepCycles :=
  h.of h.reserved.stepCycles ⟨rfl, rfl, rfl, rfl, rfl, rfl⟩ ⟨rfl, rfl, rfl⟩

theorem State.Legal.waited {s : State} (h : s.Legal) : s.stepCycles.accessTick.Legal := h.kept.stepCycles.accessTick.legal h

theorem State.Legal.haltAt {s : State} (h : s.Legal) (m : Mode) (hm : s.irValid = false) :
    Result.All State.Legal (s.haltAt m) :=
  (h.kept.haltAt m).imp fun _ he => he.legal (he.testing.trans h.testing) fun hv => absurd (hm.symm.trans hv) Bool.false_ne_true

/-- A legal state in which an instruction may be executed: one that the development system has loaded only in Step mode. -/
def State.Runs (s : State) : Prop := s.Legal ∧ (s.irValid = true → s.mode = .step)

/-- What a boundary may give: a state to run in, or a legal end of the step. -/
def Boundary.Safe (b : Boundary) : Prop :=
  match b with
  | .run s => s.Runs
  | .ended r => Result.All State.Legal r

theorem State.Legal.enterHalt {s : State} (h : s.Legal) : s.enterHalt.Legal := by
  unfold State.enterHalt
  split
  · exact h.held
  · exact h.drained.inMode .halt false s.drain.ir nofun

theorem State.Legal.enterStep {s : State} (h : s.Legal) : s.enterStep.Legal := by
  unfold State.enterStep
  split
  · exact h.held
  · exact h.drained.inMode .step s.drain.irValid s.drain.ir fun _ => .inl rfl

/-- In Executing, Halt, Reset mode and at a start-up no instruction register is valid. -/
theorem State.Legal.noInstr {s : State} (h : s.Legal) (hm : ¬s.mode.mayHoldInstr) : s.irValid = false :=
  Bool.eq_false_iff.mpr fun hv => hm (h.irValid hv)

theorem State.Legal.startUp {s : State} (h : s.Legal) (hi : s.irValid = false) : s.startUp.Safe := by
  have hv : s.irValid = true → False := fun hv => absurd (hi.symm.trans hv) Bool.false_ne_true
  unfold State.startUp
  split
  · exact ⟨h.inMode .executing s.irValid s.ir fun x => (hv x).elim, fun x => (hv x).elim⟩
  · exact h.haltAt .halt hi
  · exact h.haltAt .step hi
  · exact Result.all_fault

theorem State.Legal.modeStep {s : State} (h : s.Legal) (old : Cntl) : (s.modeStep old).Safe := by
  have hno : ∀ m, s.mode = m → ¬m.mayHoldInstr → s.irValid = false := fun m e hm => h.noInstr (e ▸ hm)
  unfold State.modeStep
  split
  case h_1 hm => exact h.startUp (hno _ hm (by rintro (e | e | e) <;> cases e))
  case h_2 hm => exact h.startUp (hno _ hm (by rintro (e | e | e) <;> cases e))
  case h_3 hm =>
    have hi := hno _ hm (by rintro (e | e | e) <;> cases e)
    split
    · exact ⟨h, fun hv => absurd (hi.symm.trans hv) Bool.false_ne_true⟩
    · exact Result.all_next h.enterHalt
    · exact Result.all_next h.enterStep
    · exact Result.all_fault
  case h_4 => exact Result.all_next h.waited
  case h_5 hm =>
    have hi := hno _ hm (by rintro (e | e | e) <;> cases e)
    have hv : s.irValid = true → False := fun hv => absurd (hi.symm.trans hv) Bool.false_ne_true
    split
    · split
      · exact ⟨{ h with irValid := fun x => (hv x).elim }, fun x => (hv x).elim⟩
      · exact Result.all_next h
    · exact Result.all_next h
    · exact Result.all_next (h.inMode .step s.irValid s.ir fun _ => .inl rfl)
    · exact Result.all_next (h.inMode .loadTest s.irValid s.pins.bus fun _ => .inr (.inl rfl))
  case h_6 hm =>
    split
    · split
      · exact ⟨h, fun _ => hm⟩
      · exact Result.all_next h
    · exact Result.all_next h.enterHalt
    · exact Result.all_next h
    · exact Result.all_next (h.inMode .loadTest s.irValid s.pins.bus fun _ => .inr (.inl rfl))
  case h_7 hm =>
    split
    · exact Result.all_fault
    · exact Result.all_next (h.inMode .halt false s.ir nofun)
    · exact Result.all_next (h.inMode .step true s.ir fun _ => .inl rfl)
    · exact Result.all_next { h with }

theorem State.Legal.enterReset {s : State} (h : s.Legal) : s.enterReset.Legal :=
  { h.reserved.enterReset with
    spsAge := Nat.zero_le _, mmuAge := Nat.zero_le _, ipaAge := Nat.zero_le _, ipbAge := Nat.zero_le _,
    ipcAge := Nat.zero_le _, psTarget := Nat.zero_le _, testing := rfl, irValid := nofun }

theorem State.Legal.warned {s : State} (h : s.Legal) : s.warnCycles.takeWarn.Legal := by
  have hc : Kept 1 s s.warnCycles := by
    unfold State.warnCycles
    split
    · exact h.kept.stepCycles
    · exact h.kept
  exact hc.takeWarn.legal (hc.takeWarn.testing.trans h.testing) h.irValid

theorem State.Legal.boundary {s : State} (h : s.Legal) : s.boundary.Safe := by
  unfold State.boundary
  simp only
  split
  · refine Result.all_next ?_
    split
    · exact h.sampled
    · exact h.sampled.enterReset
  · split
    · exact Result.all_next h.sampled.warned
    · split
      · exact Result.all_fault
      · exact h.sampled.modeStep _

/-- What is at hand after the decision of 60 R545, from a state `s`: an instruction in a state from which its execution keeps
what it must, marked as one of the development system only where that has loaded it, or the end of the step. -/
def Prepared.Safe (s : State) (p : Prepared) : Prop :=
  match p with
  | .instr _ t =>
    Kept 1 { s with testing := t.testing } t ∧ (t.testing = true → s.irValid = true)
  | .ended r => Result.All (Ends s) r

theorem Kept.prepare {s : State} (h : Kept 1 s s) (ht : s.testing = false) : s.prepare.Safe s := by
  have hb : Kept 1 s s.stepCycles.accessTick := h.stepCycles.accessTick
  have same : ({ s with testing := false } : State) = s := by rw [← ht]
  unfold State.prepare
  simp only
  split
  · exact (hb.takeAsync _ _).imp fun _ => Kept.ends
  · split
    · exact Result.all_next hb.ends
    · split
      case isTrue hv =>
        exact ⟨⟨{ hb.reserved with }, ⟨hb.ages.sps, hb.ages.mmu, hb.ages.ipa, hb.ages.ipb, hb.ages.ipc, hb.ages.psTarget⟩,
          rfl, hb.mode, hb.irValid⟩, fun _ => hb.irValid.symm.trans hv⟩
      case isFalse =>
        have hf := hb.fetch
        split
        case h_1 vn u hu =>
          rw [hu] at hf
          exact (Kept.raiseCurr hf vn).imp fun _ => Kept.ends
        case h_2 u hu =>
          rw [hu] at hf
          exact Result.all_next (Kept.hold hf).ends
        case h_3 w u hu =>
          rw [hu] at hf
          have htest : u.testing = false := (Kept.testing hf).trans ht
          refine ⟨?_, fun x => absurd (htest.symm.trans x) Bool.false_ne_true⟩
          rw [htest, same]
          exact hf

/-- What keeps the end of an instruction may follow it. -/
theorem Ends.then {s t u : State} (h : Ends s t) (hu : Kept 1 t u) : Ends s u := by
  refine ⟨hu.reserved, hu.ages, hu.testing.trans h.testing, ?_⟩
  rcases h.mode with ⟨hm, hi⟩ | hi
  · refine .inl ⟨?_, hu.irValid.trans hi⟩
    rcases hu.mode with e | e
    · exact hm.imp e.trans e.trans
    · exact .inr e
  · exact .inr (hu.irValid.trans hi)

/-- The end of an instruction, seen from itself. -/
theorem Ends.kept {s t : State} (h : Ends s t) : Kept 1 t t := ⟨h.reserved, h.ages, rfl, .inl rfl, rfl⟩

/-- The mark of the development system is taken away. -/
theorem Ends.untested {s t : State} (h : Ends s t) (hir : s.irValid = true → s.mode.mayHoldInstr) :
    ({ t with testing := false } : State).Legal :=
  (⟨{ h.reserved with }, ⟨h.ages.sps, h.ages.mmu, h.ages.ipa, h.ages.ipb, h.ages.ipc, h.ages.psTarget⟩, rfl, h.mode⟩ :
    Ends { s with testing := false } { t with testing := false }).legal rfl hir

/-- The end of a step of Step mode completes the access in flight and takes the mark away; a step of another mode must not have
executed an instruction of the development system. -/
theorem Ends.finishStep {s : State} {r : Result} (h : Result.All (Ends s) r) (stepping : Bool)
    (ht : stepping = false → s.testing = false) (hir : s.irValid = true → s.mode.mayHoldInstr) :
    Result.All State.Legal (finishStep stepping r) := by
  cases stepping with
  | false => exact h.imp fun _ he => he.legal (he.testing.trans (ht rfl)) hir
  | true =>
    cases r with
    | fault => exact Result.all_fault
    | refused => exact Result.all_refused
    | next t =>
      have he : Ends s t := h t rfl
      show Result.All State.Legal (if t.settlement = .never then _ else _)
      split
      · exact Result.all_next ((he.then he.kept.hold).untested hir)
      · exact Result.all_next ((he.then he.kept.drain).untested hir)

/-- Settles O1: the boundary gives a legal state to run in or a legal end; what runs there, an event or an instruction, keeps
what a legal state must keep; the end of a step of Step mode takes the mark of a loaded instruction away. -/
theorem stepKeepsLegal : Obligations.StepKeepsLegal := by
  intro s t hs
  suffices h : Result.All State.Legal (step s) from h t
  have hb := hs.boundary
  unfold step
  cases hbound : s.boundary with
  | ended r =>
    rw [hbound] at hb
    exact hb
  | run s1 =>
    rw [hbound] at hb
    obtain ⟨hl, hstep⟩ := hb
    have hp := hl.kept.prepare hl.testing
    simp only
    cases hprep : s1.prepare with
    | ended r =>
      rw [hprep] at hp
      exact Ends.finishStep hp _ (fun _ => hl.testing) hl.irValid
    | instr w s2 =>
      rw [hprep] at hp
      obtain ⟨hk, htest⟩ := hp
      refine Ends.finishStep (hk.runWord w) _ (fun hmode => ?_) hl.irValid
      refine Bool.eq_false_iff.mpr fun hx => ?_
      rw [hstep (htest hx)] at hmode
      exact absurd hmode (by decide)

end Sys2Proof.Machine

/-! Proofs for the family `other`: decode and encode agree, and the opcodes that no instruction has. -/

namespace Sys2Proof.Machine

/-- The word that `encode` writes for an instruction decodes to it, whatever the operands (30 R210, R212). -/
theorem decode_encode (i : Instr) : decode (encode i) = .ok i := by
  cases i with
  | add rc ra rb => exact Laws.RoundTrip.add rc ra rb
  | adds rc ra rb => exact Laws.RoundTrip.adds rc ra rb
  | addu rc ra rb => exact Laws.RoundTrip.addu rc ra rb
  | addc rc ra rb => exact Laws.RoundTrip.addc rc ra rb
  | addcs rc ra rb => exact Laws.RoundTrip.addcs rc ra rb
  | addcu rc ra rb => exact Laws.RoundTrip.addcu rc ra rb
  | sub rc ra rb => exact Laws.RoundTrip.sub rc ra rb
  | subs rc ra rb => exact Laws.RoundTrip.subs rc ra rb
  | subu rc ra rb => exact Laws.RoundTrip.subu rc ra rb
  | subc rc ra rb => exact Laws.RoundTrip.subc rc ra rb
  | subcs rc ra rb => exact Laws.RoundTrip.subcs rc ra rb
  | subcu rc ra rb => exact Laws.RoundTrip.subcu rc ra rb
  | subr rc ra rb => exact Laws.RoundTrip.subr rc ra rb
  | subrs rc ra rb => exact Laws.RoundTrip.subrs rc ra rb
  | subru rc ra rb => exact Laws.RoundTrip.subru rc ra rb
  | subrc rc ra rb => exact Laws.RoundTrip.subrc rc ra rb
  | subrcs rc ra rb => exact Laws.RoundTrip.subrcs rc ra rb
  | subrcu rc ra rb => exact Laws.RoundTrip.subrcu rc ra rb
  | mul rc ra rb => exact Laws.RoundTrip.mul rc ra rb
  | mull rc ra rb => exact Laws.RoundTrip.mull rc ra rb
  | multiply rc ra rb => exact Laws.RoundTrip.multiply rc ra rb
  | divide rc ra rb => exact Laws.RoundTrip.divide rc ra rb
  | mulu rc ra rb => exact Laws.RoundTrip.mulu rc ra rb
  | div0 rc rb => exact Laws.RoundTrip.div0 rc rb
  | div rc ra rb => exact Laws.RoundTrip.div rc ra rb
  | divl rc ra rb => exact Laws.RoundTrip.divl rc ra rb
  | divrem rc ra rb => exact Laws.RoundTrip.divrem rc ra rb
  | cpeq rc ra rb => exact Laws.RoundTrip.cpeq rc ra rb
  | cpneq rc ra rb => exact Laws.RoundTrip.cpneq rc ra rb
  | cplt rc ra rb => exact Laws.RoundTrip.cplt rc ra rb
  | cpltu rc ra rb => exact Laws.RoundTrip.cpltu rc ra rb
  | cple rc ra rb => exact Laws.RoundTrip.cple rc ra rb
  | cpleu rc ra rb => exact Laws.RoundTrip.cpleu rc ra rb
  | cpgt rc ra rb => exact Laws.RoundTrip.cpgt rc ra rb
  | cpgtu rc ra rb => exact Laws.RoundTrip.cpgtu rc ra rb
  | cpge rc ra rb => exact Laws.RoundTrip.cpge rc ra rb
  | cpgeu rc ra rb => exact Laws.RoundTrip.cpgeu rc ra rb
  | cpbyte rc ra rb => exact Laws.RoundTrip.cpbyte rc ra rb
  | aseq vn ra rb => exact Laws.RoundTrip.aseq vn ra rb
  | asneq vn ra rb => exact Laws.RoundTrip.asneq vn ra rb
  | aslt vn ra rb => exact Laws.RoundTrip.aslt vn ra rb
  | asltu vn ra rb => exact Laws.RoundTrip.asltu vn ra rb
  | asle vn ra rb => exact Laws.RoundTrip.asle vn ra rb
  | asleu vn ra rb => exact Laws.RoundTrip.asleu vn ra rb
  | asgt vn ra rb => exact Laws.RoundTrip.asgt vn ra rb
  | asgtu vn ra rb => exact Laws.RoundTrip.asgtu vn ra rb
  | asge vn ra rb => exact Laws.RoundTrip.asge vn ra rb
  | asgeu vn ra rb => exact Laws.RoundTrip.asgeu vn ra rb
  | and rc ra rb => exact Laws.RoundTrip.and rc ra rb
  | andn rc ra rb => exact Laws.RoundTrip.andn rc ra rb
  | nand rc ra rb => exact Laws.RoundTrip.nand rc ra rb
  | or rc ra rb => exact Laws.RoundTrip.or rc ra rb
  | nor rc ra rb => exact Laws.RoundTrip.nor rc ra rb
  | xor rc ra rb => exact Laws.RoundTrip.xor rc ra rb
  | xnor rc ra rb => exact Laws.RoundTrip.xnor rc ra rb
  | sll rc ra rb => exact Laws.RoundTrip.sll rc ra rb
  | srl rc ra rb => exact Laws.RoundTrip.srl rc ra rb
  | sra rc ra rb => exact Laws.RoundTrip.sra rc ra rb
  | extract rc ra rb => exact Laws.RoundTrip.extract rc ra rb
  | load ctl ra rb => exact Laws.RoundTrip.load ctl ra rb
  | loadl ctl ra rb => exact Laws.RoundTrip.loadl ctl ra rb
  | loadset ctl ra rb => exact Laws.RoundTrip.loadset ctl ra rb
  | store ctl ra rb => exact Laws.RoundTrip.store ctl ra rb
  | storel ctl ra rb => exact Laws.RoundTrip.storel ctl ra rb
  | loadm ctl ra rb => exact Laws.RoundTrip.loadm ctl ra rb
  | storem ctl ra rb => exact Laws.RoundTrip.storem ctl ra rb
  | exbyte rc ra rb => exact Laws.RoundTrip.exbyte rc ra rb
  | exhw rc ra rb => exact Laws.RoundTrip.exhw rc ra rb
  | exhws rc ra => exact Laws.RoundTrip.exhws rc ra
  | inbyte rc ra rb => exact Laws.RoundTrip.inbyte rc ra rb
  | inhw rc ra rb => exact Laws.RoundTrip.inhw rc ra rb
  | mfsr rc sa => exact Laws.RoundTrip.mfsr rc sa
  | mtsr sa rb => exact Laws.RoundTrip.mtsr sa rb
  | mtsrim sa i16 => exact Laws.RoundTrip.mtsrim sa i16
  | mftlb rc ra => exact Laws.RoundTrip.mftlb rc ra
  | mttlb ra rb => exact Laws.RoundTrip.mttlb ra rb
  | const ra i16 => exact Laws.RoundTrip.const ra i16
  | consth ra i16 => exact Laws.RoundTrip.consth ra i16
  | constn ra i16 => exact Laws.RoundTrip.constn ra i16
  | fadd rc ra rb => exact Laws.RoundTrip.fadd rc ra rb
  | dadd rc ra rb => exact Laws.RoundTrip.dadd rc ra rb
  | fsub rc ra rb => exact Laws.RoundTrip.fsub rc ra rb
  | dsub rc ra rb => exact Laws.RoundTrip.dsub rc ra rb
  | fmul rc ra rb => exact Laws.RoundTrip.fmul rc ra rb
  | dmul rc ra rb => exact Laws.RoundTrip.dmul rc ra rb
  | fdiv rc ra rb => exact Laws.RoundTrip.fdiv rc ra rb
  | ddiv rc ra rb => exact Laws.RoundTrip.ddiv rc ra rb
  | feq rc ra rb => exact Laws.RoundTrip.feq rc ra rb
  | deq rc ra rb => exact Laws.RoundTrip.deq rc ra rb
  | flt rc ra rb => exact Laws.RoundTrip.flt rc ra rb
  | dlt rc ra rb => exact Laws.RoundTrip.dlt rc ra rb
  | fgt rc ra rb => exact Laws.RoundTrip.fgt rc ra rb
  | dgt rc ra rb => exact Laws.RoundTrip.dgt rc ra rb
  | cvintf rc ra => exact Laws.RoundTrip.cvintf rc ra
  | cvintd rc ra => exact Laws.RoundTrip.cvintd rc ra
  | cvfint rc ra => exact Laws.RoundTrip.cvfint rc ra
  | cvdint rc ra => exact Laws.RoundTrip.cvdint rc ra
  | cvfd rc ra => exact Laws.RoundTrip.cvfd rc ra
  | cvdf rc ra => exact Laws.RoundTrip.cvdf rc ra
  | jmp a i16 => exact Laws.RoundTrip.jmp a i16
  | jmpi rb => exact Laws.RoundTrip.jmpi rb
  | jmpt a ra i16 => exact Laws.RoundTrip.jmpt a ra i16
  | jmpf a ra i16 => exact Laws.RoundTrip.jmpf a ra i16
  | jmpti ra rb => exact Laws.RoundTrip.jmpti ra rb
  | jmpfi ra rb => exact Laws.RoundTrip.jmpfi ra rb
  | jmpfdec a ra i16 => exact Laws.RoundTrip.jmpfdec a ra i16
  | call a ra i16 => exact Laws.RoundTrip.call a ra i16
  | calli ra rb => exact Laws.RoundTrip.calli ra rb
  | clz rc rb => exact Laws.RoundTrip.clz rc rb
  | setip rc ra rb => exact Laws.RoundTrip.setip rc ra rb
  | emulate vn ra rb => exact Laws.RoundTrip.emulate vn ra rb
  | inv => exact Laws.RoundTrip.inv
  | iret => exact Laws.RoundTrip.iret
  | iretinv => exact Laws.RoundTrip.iretinv
  | halt => exact Laws.RoundTrip.halt

/-- Decoding the bytes of a word and of what follows decodes the word (30 R200). -/
theorem decodeBytes_append {w : Word} {i : Instr} (h : decode w = .ok i) (rest : List Byte) :
    decodeBytes (bytesOfWord w ++ rest) = .ok (i, rest) := by
  simp only [bytesOfWord, List.cons_append, List.nil_append, decodeBytes, wordOfBytes_fields, h]

/-- A row of the opcode map reads back the opcodes that `encode` writes there: those of its sixteen places that `high`
begins (30 R212). -/
def RowAgrees (high : Nat) (row : Nat → BitVec 8 → BitVec 8 → BitVec 8 → Except DecodeError Instr) : Prop :=
  ∀ lo < 16, ∀ (f2 f1 f0 : BitVec 8) (i : Instr), row lo f2 f1 f0 = .ok i →
    (opField (encode i)).toNat = 16 * high + lo

theorem rows_agree :
    RowAgrees 0x0 decodeRow0 ∧ RowAgrees 0x1 decodeRow1 ∧ RowAgrees 0x2 decodeRow2 ∧ RowAgrees 0x3 decodeRow3 ∧
      RowAgrees 0x4 decodeRow4 ∧ RowAgrees 0x5 decodeRow5 ∧ RowAgrees 0x6 decodeRow6 ∧ RowAgrees 0x7 decodeRow7 ∧
      RowAgrees 0x8 decodeRow8 ∧ RowAgrees 0x9 decodeRow9 ∧ RowAgrees 0xA decodeRowA ∧ RowAgrees 0xB decodeRowB ∧
      RowAgrees 0xC decodeRowC ∧ RowAgrees 0xE decodeRowE ∧ RowAgrees 0xF decodeRowF := by
  refine ⟨?_, ?_, ?_, ?_, ?_, ?_, ?_, ?_, ?_, ?_, ?_, ?_, ?_, ?_, ?_⟩
  all_goals
    intro lo hlo f2 f1 f0 i h
    interval_cases lo <;> cases h <;> exact congrArg BitVec.toNat (opField_word _ _ _ _)

/-- The fields that decode to an instruction begin with the opcode that `encode` writes for it (30 R211). -/
theorem opField_encode_of_decodeFields {op f2 f1 f0 : BitVec 8} {i : Instr} (h : decodeFields op f2 f1 f0 = .ok i) :
    opField (encode i) = op := by
  obtain ⟨h0, h1, h2, h3, h4, h5, h6, h7, h8, h9, hA, hB, hC, hE, hF⟩ := rows_agree
  have hlo : op.toNat % 16 < 16 := Nat.mod_lt _ (by decide)
  have row {high : Nat} {r} (hr : RowAgrees high r) (hhigh : op.toNat / 16 = high)
      (h : r (op.toNat % 16) f2 f1 f0 = .ok i) : opField (encode i) = op := by
    refine BitVec.eq_of_toNat_eq ((hr _ hlo f2 f1 f0 i h).trans ?_)
    rw [← hhigh, Nat.div_add_mod]
  unfold decodeFields at h
  split at h
  case h_1 e => exact row h0 e h
  case h_2 e => exact row h1 e h
  case h_3 e => exact row h2 e h
  case h_4 e => exact row h3 e h
  case h_5 e => exact row h4 e h
  case h_6 e => exact row h5 e h
  case h_7 e => exact row h6 e h
  case h_8 e => exact row h7 e h
  case h_9 e => exact row h8 e h
  case h_10 e => exact row h9 e h
  case h_11 e => exact row hA e h
  case h_12 e => exact row hB e h
  case h_13 e => exact row hC e h
  case h_14 e => exact row hE e h
  case h_15 e => exact row hF e h
  case h_16 => cases h

/-- Bits 31-24 of a word, as a number (30 R201). -/
theorem opField_toNat (w : Word) : (opField w).toNat = w.toNat / 2 ^ 24 := by
  rw [opField, BitVec.extractLsb'_toNat, Nat.shiftRight_eq_div_pow]
  exact Nat.mod_eq_of_lt (Nat.div_lt_of_lt_mul w.isLt)

/-- Settles O2: `encode` writes what the opcode map reads back, constructor by constructor; and each row of the map gives the
instructions whose opcodes lie there. -/
theorem decodeAndEncodeAgree : Obligations.DecodeAndEncodeAgree := by
  refine ⟨fun i rest _ => decodeBytes_append (decode_encode i) rest, fun w i h => ?_⟩
  rw [← opField_toNat, ← opField_toNat, opField_encode_of_decodeFields h]

/-- Settles O6: each word is written out, and its opcode's place in the map is looked up. -/
theorem specWordsDecode : Obligations.SpecWordsDecode :=
  ⟨rfl, rfl, rfl, rfl, rfl, rfl, rfl, rfl, rfl, rfl⟩

/-- The opcodes that decode to an instruction are those that 30 R213 does not list, whatever the other fields. -/
theorem decodeFields_toBool (f2 f1 f0 : BitVec 8) {n : Nat} (hn : n < 256) :
    (decodeFields (BitVec.ofNat 8 n) f2 f1 f0).toBool = decide (n ∉ unassigned) := by
  interval_cases n <;> rfl

theorem exists_ok_iff {α β : Type} (x : Except α β) : (∃ b, x = .ok b) ↔ x.toBool = true := by
  cases x with
  | error => simp [Except.toBool]
  | ok b => exact ⟨fun _ => rfl, fun _ => ⟨b, rfl⟩⟩

/-- A word decodes exactly if its opcode is not one of the unassigned (30 R213). -/
theorem decode_ok_iff (w : Word) : (∃ i, decode w = .ok i) ↔ w.toNat / 2 ^ 24 ∉ unassigned := by
  have h := decodeFields_toBool (field2 w) (field1 w) (field0 w) (opField w).isLt
  rw [BitVec.ofNat_toNat, BitVec.setWidth_eq, opField_toNat] at h
  rw [exists_ok_iff, decode, h, decide_eq_true_iff]

end Sys2Proof.Machine

/-! Proofs for the family `other`: the state after Reset, and the taking of an interrupt or trap. -/

namespace Sys2Proof.Machine

/-- Settles O4: `State.reset` writes these values out. -/
theorem resetValues : Obligations.ResetValues :=
  ⟨rfl, rfl, rfl, rfl, rfl, rfl, rfl, rfl, rfl, rfl, rfl, rfl⟩

/-- Settles O5: every register of `State.reset` with reserved bits is 0, or a word whose reserved bits are 0, and both
memories are empty. -/
theorem resetIsLegal : Obligations.ResetIsLegal :=
  { idm := Memory.wf_nil
    rom := Memory.wf_nil
    vab := rfl, ops := rfl, cps := rfl, cfg := rfl, chc := rfl, rbp := rfl, tmc := rfl, tmr := rfl, pc0 := rfl, pc1 := rfl
    pc2 := rfl, mmuNow := rfl, mmuOld := rfl, lru := rfl, alu := rfl
    tlb := fun n => by
      have h0 : State.reset.readTlb n = 0#32 := by
        simp [State.readTlb, State.reset, n.isLt]
      rw [h0, BitVec.zero_and]
    spsAge := Nat.zero_le _, mmuAge := Nat.zero_le _, ipaAge := Nat.zero_le _, ipbAge := Nat.zero_le _
    ipcAge := Nat.zero_le _, psTarget := Nat.zero_le _, testing := rfl, irValid := nofun
    oldWords := nofun, oldMaps := nofun }

/-- An exception held outside the channel registers is nothing that the taking of a trap looks at (60 R547). -/
theorem TrapEntered.of_derr {s t : State} {vn : Byte} {x : Option Byte}
    (h : TrapEntered { s with derr := x } t vn) : TrapEntered s t vn :=
  { h with }

/-- The take that need not wait: some vector is entered once the access in flight has completed, the one asked for unless the
access has ended in an exception of its own (60 R560). -/
theorem takeTrap_enters (s : State) (prio : Nat) (vn : Byte) (h : s.settlement ≠ .never) :
    ∃ v x, s.takeTrap prio vn = ({ s.drain with derr := x } : State).enterTrap v := by
  rcases takeTrap_cases s prio vn with ⟨e, _⟩ | ⟨v, _, _, e⟩ | ⟨e, _⟩
  · exact ⟨vn, s.drain.derr, e⟩
  · exact ⟨v, none, e⟩
  · exact absurd e h

/-- The take of a trap that goes before the exception of the access in flight, or where there is none. -/
theorem takeTrap_entered {s : State} {prio : Nat} {vn : Byte} (hv : s.drain.vectorReadable = true)
    (h : s.settlement = .ends ∨ (s.settlement ≠ .never ∧ prio ≤ 4)) :
    ∃ t, s.takeTrap prio vn = .next t ∧ TrapEntered s.drain t vn := by
  rcases takeTrap_cases s prio vn with ⟨e, _⟩ | ⟨v, he, hp, _⟩ | ⟨hn, _⟩
  · rw [e]
    exact enterTrap_entered hv
  · rcases h with h | ⟨_, h⟩
    · rw [h] at he
      cases he
    · omega
  · rcases h with h | ⟨h, _⟩
    · rw [h] at hn
      cases hn
    · exact absurd hn h

/-- The take where the access in flight ends in an exception that goes first (60 R560). -/
theorem takeTrap_error {s : State} {prio : Nat} {vn v : Byte} (hv : s.drain.vectorReadable = true)
    (he : s.settlement = .error v) (hp : 4 < prio) :
    ∃ t, s.takeTrap prio vn = .next t ∧ TrapEntered s.drain t v := by
  rcases takeTrap_cases s prio vn with ⟨_, _, h | h⟩ | ⟨u, hu, _, e⟩ | ⟨hn, _⟩
  · rw [he] at h
    cases h
  · omega
  · rw [he] at hu
    cases hu
    obtain ⟨t, ht, hent⟩ := enterTrap_entered (s := { s.drain with derr := none }) (vn := v) hv
    exact ⟨t, e.trans ht, hent.of_derr⟩
  · rw [he] at hn
    cases hn

/-- A vector that is never answered holds the machine with the status saved (60 R560, 70 R650). -/
theorem enterTrap_held {s : State} {vn : Byte} (h4 : s.cfg.getLsbD 4 = true) (ha : s.env.answers.headD .ready = .never) :
    ∃ t, s.enterTrap vn = .next t ∧ t.mode = .held ∧ t.ops = s.cpsView ∧ t.pc = s.pc := by
  have hv : s.cfg.getLsbD cfgVF = true := h4
  refine ⟨({ s.saveStatus with env := { s.env with answers := s.env.answers.drop 1 } } : State).hold, ?_, rfl, rfl, rfl⟩
  rw [State.enterTrap, if_pos hv, ha]

/-- Settles O40: the take is the entry of a vector after the access in flight, or the wait for that access; the entry reads the
vector, faults on it, or waits for it. -/
theorem trapEntry : Obligations.TrapEntry := by
  intro s prio vn
  refine ⟨fun hv h => takeTrap_entered hv h, fun v hv he hp => takeTrap_error hv he hp, fun hn hcfg => ?_, fun hn => ?_⟩
  · obtain ⟨v, x, e⟩ := takeTrap_enters s prio vn hn
    have h4 : ({ s.drain with derr := x } : State).cfg.getLsbD 4 = true := by simpa using hcfg
    rw [e]
    refine ⟨fun ha => (enterTrap_unread h4).1 ha, fun ha => ?_⟩
    obtain ⟨t, ht, hm, hops, hpc⟩ := enterTrap_held (vn := v) h4 ha
    exact ⟨t, ht, hm, hops, hpc.trans (by simp)⟩
  · rw [State.takeTrap, hn]

/-- A trap of priority 14 whose vector can be read is taken, unless `CPS.DA` = 1 disables it (60 R553). -/
theorem raiseCurr_entered {s : State} {vn : Byte} (hda : s.cps.getLsbD 0 = false ∨ vn = 6#8) (hs : s.settlement = .ends)
    (hv : s.drain.vectorReadable = true) : ∃ t, s.raiseCurr vn = .next t ∧ TrapEntered s.drain t vn := by
  have hgo : (s.da && vn != 6#8) = false := by
    rcases hda with h | h
    · rw [show s.da = false from h, Bool.false_and]
    · rw [h, bne_self_eq_false, Bool.and_false]
  rw [State.raiseCurr, hgo]
  exact takeTrap_entered hv (.inl hs)

/-- With `CPS.DA` = 1 a trap of class (c) stops the model (60 R553 (c)). -/
theorem raiseCurr_disabled {s : State} {vn : Byte} (hda : s.cps.getLsbD 0 = true) (hvn : vn ≠ 6#8) :
    s.raiseCurr vn = .refused (.disabledTrap vn) := by
  have hstop : (s.da && vn != 6#8) = true := by rw [show s.da = true from hda, bne_iff_ne.mpr hvn]; rfl
  rw [State.raiseCurr, hstop]
  rfl

/-- A word of an unassigned opcode raises Illegal Opcode (60 R533). -/
theorem runWord_unassigned {w : Word} (hw : w.toNat / 2 ^ 24 ∈ unassigned) (s : State) :
    runWord w s = s.raiseCurr 0#8 := by
  have hn := (not_congr (decode_ok_iff w)).mpr (not_not.mpr hw)
  unfold runWord
  cases hd : decode w with
  | ok i => exact absurd ⟨i, hd⟩ hn
  | error e => rfl

/-- Settles O50: the opcode map is looked up for each of the 256 opcodes; a word that does not decode raises the trap of
vector 0. -/
theorem unassignedOpcodesTrap : Obligations.UnassignedOpcodesTrap := by
  refine ⟨rfl, fun w => ⟨decode_ok_iff w, fun hw s => ?_⟩⟩
  rw [runWord_unassigned hw]
  exact ⟨fun hda hs hv => raiseCurr_entered (.inl hda) hs hv, fun hda => raiseCurr_disabled hda (by decide)⟩

end Sys2Proof.Machine

/-! Proofs for the family `other`: the Integer Arithmetic class with Out of Range, multiply and divide steps. -/

namespace Sys2Proof.Machine

/-- `Add3` on the complement of the second operand carries and overflows as the exact difference does (40 R248). -/
theorem add3_not_flags (x y : Word) (cin : Bool) :
    (add3 x (~~~y) cin).cout = (exactDifference x y cin).carry ∧
      (add3 x (~~~y) cin).v = (exactDifference x y cin).overflows := by
  obtain ⟨-, hcarry, hoverflows, -⟩ := exactSum_not x y cin
  exact ⟨(add3_cout x (~~~y) cin).trans hcarry, (add3_v x (~~~y) cin).trans hoverflows⟩

/-- The sample of the pins that is next is not one that the completion of an access touches. -/
theorem alarm_atRead (s : State) (ra : RegNum) (rb : Src2) : (s.atRead ra rb).alarm = s.alarm := by
  have hdrain : s.drain.alarm = s.alarm := by
    have henv : s.drain.env.events = s.env.events := by
      rw [State.drain_env]
      split <;> rfl
    simp only [State.alarm, State.nextPins, henv, State.drain_pins]
  unfold State.atRead State.afterWait
  split
  · exact hdrain
  · rfl

theorem alarm_arithResult (s : State) (c : RegNum) (sum : Sum) (w : Word) : (s.arithResult c sum w).alarm = s.alarm := by
  simp [State.arithResult, State.alarm, State.nextPins]

/-- A trap of an instruction that has ended is lost with `CPS.DA` = 1, taken where neither `*RESET` nor `*WARN` comes, and taken
or lost where one does (60 R547, R553). -/
theorem raiseNext_or (s : State) (vn : Byte) :
    (s.da = true → s.raiseNext vn = .next s) ∧
      (s.da = false → s.alarm = false → s.raiseNext vn = s.takeTrap 3 vn) ∧
      (s.raiseNext vn = s.takeTrap 3 vn ∨ s.raiseNext vn = .next s) := by
  unfold State.raiseNext
  refine ⟨fun h => by rw [h]; rfl, fun h ha => by rw [h, State.trapLost, ha]; rfl, ?_⟩
  split
  · exact .inr rfl
  · exact .inl rfl

/-- An S- or U-suffixed instruction writes the exact result `e` with its flags, and then raises Out of Range if `out` (40
R269). -/
def EndsInRange (i : Instr) (s : State) (rc ra : RegNum) (rb : Src2) (e : Exact) (out : Bool) : Prop :=
  ∃ sum : Sum, ArithEnds (s.atRead ra rb) ((s.atRead ra rb).arithResult (s.absReg .C rc) sum sum.r) (s.absReg .C rc) e ∧
    exec i s = ((s.atRead ra rb).arithResult (s.absReg .C rc) sum sum.r).rangeResult out

/-- In range, or with `CPS.DA` = 1, such an instruction completes. -/
theorem EndsInRange.completes {i : Instr} {s : State} {rc ra : RegNum} {rb : Src2} {e : Exact} {out : Bool}
    (h : EndsInRange i s rc ra rb e out) (hout : out = true → s.da = true) :
    ∃ t, exec i s = .next t ∧ ArithEnds (s.atRead ra rb) t (s.absReg .C rc) e := by
  obtain ⟨sum, hends, hexec⟩ := h
  refine ⟨_, hexec.trans ?_, hends⟩
  cases out with
  | false => rfl
  | true => exact (raiseNext_or _ 2#8).1 (((da_arithResult _ _ _ _).trans (da_atRead s ra rb)).trans (hout rfl))

/-- Out of range with `CPS.DA` = 0, it takes the trap, or loses it with `*RESET` or `*WARN`. -/
theorem EndsInRange.traps {i : Instr} {s : State} {rc ra : RegNum} {rb : Src2} {e : Exact} {out : Bool}
    (h : EndsInRange i s rc ra rb e out) (hda : s.da = false) (hout : out = true) :
    ∃ t, ArithEnds (s.atRead ra rb) t (s.absReg .C rc) e ∧ (s.alarm = false → exec i s = t.takeTrap 3 2#8) ∧
      (exec i s = t.takeTrap 3 2#8 ∨ exec i s = .next t) := by
  obtain ⟨sum, hends, hexec⟩ := h
  subst hout
  obtain ⟨-, htaken, hor⟩ := raiseNext_or ((s.atRead ra rb).arithResult (s.absReg .C rc) sum sum.r) 2#8
  have htda := (da_arithResult (s.atRead ra rb) (s.absReg .C rc) sum sum.r).trans (da_atRead s ra rb)
  have halarm := (alarm_arithResult (s.atRead ra rb) (s.absReg .C rc) sum sum.r).trans (alarm_atRead s ra rb)
  refine ⟨_, hends, fun ha => hexec.trans (htaken (htda.trans hda) (halarm.trans ha)), ?_⟩
  rw [hexec]
  exact hor

section Ready

variable {s : State} {rc ra : RegNum} {rb : Src2} {i : Instr} (x y : Word) (cin : Bool)

/-- An instruction that ends as a sum, and tests it for Out of Range by `out`. -/
theorem endsInRange_sum (out : Sum → Bool) {b : Bool}
    (hexec : exec i s = ((s.atRead ra rb).addResult (s.absReg .C rc) x y cin).rangeResult (out (add3 x y cin)))
    (hout : out (add3 x y cin) = b) : EndsInRange i s rc ra rb (exactSum x y cin) b :=
  ⟨add3 x y cin, addResult_arithEnds_sum _ _ _ _ _, hexec.trans (by rw [hout]; rfl)⟩

/-- An instruction that ends as a difference, and tests it for Out of Range by `out`. -/
theorem endsInRange_difference (out : Sum → Bool) {b : Bool}
    (hexec : exec i s = ((s.atRead ra rb).addResult (s.absReg .C rc) x (~~~y) cin).rangeResult (out (add3 x (~~~y) cin)))
    (hout : out (add3 x (~~~y) cin) = b) : EndsInRange i s rc ra rb (exactDifference x y cin) b :=
  ⟨add3 x (~~~y) cin, addResult_arithEnds_difference _ _ _ _ _, hexec.trans (by rw [hout]; rfl)⟩

end Ready

/-- How each of the twelve S- and U-suffixed adds and subtracts ends (40 R243 to R259). -/
theorem suffixed_endsInRange {s : State} {rc ra : RegNum} {rb : Src2} (h : s.BinaryReady rc ra rb) :
    let a := s.srcA ra rb
    let b := s.srcB ra rb
    let carry := (s.atRead ra rb).carry
    let ends (i : Instr) (e : Exact) (out : Bool) : Prop := EndsInRange i s rc ra rb e out
    let sum := exactSum a b false
    let sumC := exactSum a b carry
    let diff := exactDifference a b true
    let diffC := exactDifference a b carry
    let rev := exactDifference b a true
    let revC := exactDifference b a carry
    ends (.adds rc ra rb) sum sum.overflows ∧ ends (.addu rc ra rb) sum sum.carry ∧
    ends (.addcs rc ra rb) sumC sumC.overflows ∧ ends (.addcu rc ra rb) sumC sumC.carry ∧
    ends (.subs rc ra rb) diff diff.overflows ∧ ends (.subu rc ra rb) diff (!diff.carry) ∧
    ends (.subcs rc ra rb) diffC diffC.overflows ∧ ends (.subcu rc ra rb) diffC (!diffC.carry) ∧
    ends (.subrs rc ra rb) rev rev.overflows ∧ ends (.subru rc ra rb) rev (!rev.carry) ∧
    ends (.subrcs rc ra rb) revC revC.overflows ∧ ends (.subrcu rc ra rb) revC (!revC.carry) := by
  have borrow (x y : Word) (cin : Bool) : (!(add3 x (~~~y) cin).cout) = !(exactDifference x y cin).carry := by
    rw [(add3_not_flags x y cin).1]
  have overflow (x y : Word) (cin : Bool) := (add3_not_flags x y cin).2
  exact ⟨
    endsInRange_sum _ _ _ Sum.v
      (State.binary_ready h fun c a b s1 => (s1.addResult c a b false).rangeResult (add3 a b false).v) (add3_v _ _ _),
    endsInRange_sum _ _ _ Sum.cout
      (State.binary_ready h fun c a b s1 => (s1.addResult c a b false).rangeResult (add3 a b false).cout) (add3_cout _ _ _),
    endsInRange_sum _ _ _ Sum.v
      (State.binary_ready h fun c a b s1 => (s1.addResult c a b s1.carry).rangeResult (add3 a b s1.carry).v) (add3_v _ _ _),
    endsInRange_sum _ _ _ Sum.cout
      (State.binary_ready h fun c a b s1 => (s1.addResult c a b s1.carry).rangeResult (add3 a b s1.carry).cout)
      (add3_cout _ _ _),
    endsInRange_difference _ _ _ Sum.v
      (State.binary_ready h fun c a b s1 => (s1.addResult c a (~~~b) true).rangeResult (add3 a (~~~b) true).v)
      (overflow _ _ _),
    endsInRange_difference _ _ _ (fun sum => !sum.cout)
      (State.binary_ready h fun c a b s1 => (s1.addResult c a (~~~b) true).rangeResult (!(add3 a (~~~b) true).cout))
      (borrow _ _ _),
    endsInRange_difference _ _ _ Sum.v
      (State.binary_ready h fun c a b s1 => (s1.addResult c a (~~~b) s1.carry).rangeResult (add3 a (~~~b) s1.carry).v)
      (overflow _ _ _),
    endsInRange_difference _ _ _ (fun sum => !sum.cout)
      (State.binary_ready h fun c a b s1 => (s1.addResult c a (~~~b) s1.carry).rangeResult (!(add3 a (~~~b) s1.carry).cout))
      (borrow _ _ _),
    endsInRange_difference _ _ _ Sum.v
      (State.binary_ready h fun c a b s1 => (s1.addResult c b (~~~a) true).rangeResult (add3 b (~~~a) true).v)
      (overflow _ _ _),
    endsInRange_difference _ _ _ (fun sum => !sum.cout)
      (State.binary_ready h fun c a b s1 => (s1.addResult c b (~~~a) true).rangeResult (!(add3 b (~~~a) true).cout))
      (borrow _ _ _),
    endsInRange_difference _ _ _ Sum.v
      (State.binary_ready h fun c a b s1 => (s1.addResult c b (~~~a) s1.carry).rangeResult (add3 b (~~~a) s1.carry).v)
      (overflow _ _ _),
    endsInRange_difference _ _ _ (fun sum => !sum.cout)
      (State.binary_ready h fun c a b s1 => (s1.addResult c b (~~~a) s1.carry).rangeResult (!(add3 b (~~~a) s1.carry).cout))
      (borrow _ _ _)⟩

/-- Settles O10: each of the twelve ends in its exact result, and goes no further in range or with `CPS.DA` = 1. -/
theorem trappingArithmeticCompletes : Obligations.TrappingArithmeticCompletes := by
  intro rc ra rb s h
  obtain ⟨h1, h2, h3, h4, h5, h6, h7, h8, h9, h10, h11, h12⟩ := suffixed_endsInRange h
  exact ⟨h1.completes, h2.completes, h3.completes, h4.completes, h5.completes, h6.completes, h7.completes, h8.completes,
    h9.completes, h10.completes, h11.completes, h12.completes⟩

/-- Settles O11: each of the twelve ends in its exact result, and then raises Out of Range. -/
theorem outOfRangeTraps : Obligations.OutOfRangeTraps := by
  intro rc ra rb s h hda
  obtain ⟨h1, h2, h3, h4, h5, h6, h7, h8, h9, h10, h11, h12⟩ := suffixed_endsInRange h
  exact ⟨h1.traps hda, h2.traps hda, h3.traps hda, h4.traps hda, h5.traps hda, h6.traps hda, h7.traps hda, h8.traps hda,
    h9.traps hda, h10.traps hda, h11.traps hda, h12.traps hda⟩

/-- A signed sum is the unsigned one of the 32 bits kept, less `2 ^ 32` if it is negative; its top bit is bit 31 of those,
turned over by an overflow (40 R260). -/
theorem exactSum_signed (x y : Word) (cin : Bool) :
    let e := exactSum x y cin
    e.signed = e.word.toNat + 2 ^ 32 * (-((e.word.getLsbD 31 ^^ e.overflows).toNat : Int)) := by
  intro e
  have hx := x.isLt
  have hy := y.isLt
  have hc : cin.toNat ≤ 1 := Bool.toNat_le cin
  have hword : e.word.toNat = (x.toNat + y.toNat + cin.toNat) % 2 ^ 32 := by
    rw [← add3_r x y cin, add3, BitVec.extractLsb'_toNat, sum33_toNat, Nat.shiftRight_zero]
  have htop : e.word.getLsbD 31 = decide (2 ^ 31 ≤ e.word.toNat) := getLsbD_top e.word rfl
  have hsigned : e.signed = x.toInt + y.toInt + cin.toNat := rfl
  rw [BitVec.toInt_eq_toNat_cond, BitVec.toInt_eq_toNat_cond] at hsigned
  rw [htop, Exact.overflows]
  by_cases h1 : 2 ^ 31 ≤ e.word.toNat <;> by_cases h2 : e.signed < -(2 ^ 31) ∨ 2 ^ 31 ≤ e.signed
  all_goals
    simp only [h1, h2, decide_true, decide_false, Bool.xor_false, Bool.xor_true, Bool.not_false, Bool.not_true,
      Bool.toNat_true, Bool.toNat_false]
    split_ifs at hsigned <;> omega

/-- An unsigned sum is the 32 bits kept and the carry above them (40 R264). -/
theorem exactSum_unsigned (x y : Word) (cin : Bool) :
    let e := exactSum x y cin
    e.unsigned = e.word.toNat + 2 ^ 32 * (e.carry.toNat : Int) := by
  intro e
  have hx := x.isLt
  have hy := y.isLt
  have hc : cin.toNat ≤ 1 := Bool.toNat_le cin
  have hword : e.word.toNat = (x.toNat + y.toNat + cin.toNat) % 2 ^ 32 := by
    rw [← add3_r x y cin, add3, BitVec.extractLsb'_toNat, sum33_toNat, Nat.shiftRight_zero]
  have hunsigned : e.unsigned = x.toNat + y.toNat + cin.toNat := rfl
  have hcarry : e.carry = decide (2 ^ 32 ≤ x.toNat + y.toNat + cin.toNat) := rfl
  rw [hunsigned, hword, hcarry]
  by_cases h : 2 ^ 32 ≤ x.toNat + y.toNat + cin.toNat
  · rw [decide_eq_true h, Bool.toNat_true]
    omega
  · rw [decide_eq_false h, Bool.toNat_false]
    omega

/-- The double word of an exact value `v` and the old `Q`, halved: the high word has the top bit of `v` before the rest of its
word, the low word the last bit of `v` before the rest of `Q` (40 R260). -/
theorem halved_words (r q : Word) (top : Bool) {v k : Int} (hv : v = r.toNat + 2 ^ 32 * k) (hk : k % 2 = top.toNat) :
    let w := BitVec.ofInt 64 ((v * 2 ^ 32 + q.toNat) / 2)
    bitOf top ++ r.extractLsb' 1 31 = w.extractLsb' 32 32 ∧ r.extractLsb' 0 1 ++ q.extractLsb' 1 31 = w.extractLsb' 0 32 := by
  intro w
  have hr := r.isLt
  have hq := q.isLt
  have ht : top.toNat ≤ 1 := Bool.toNat_le top
  have hw : w.toNat = (((v * 2 ^ 32 + q.toNat) / 2) % 2 ^ 64).toNat := by
    rw [BitVec.toNat_ofInt]
    norm_cast
  constructor
  · apply BitVec.eq_of_toNat_eq
    rw [BitVec.toNat_append, Nat.shiftLeft_eq, Nat.mul_comm, ← Nat.two_pow_add_eq_or_of_lt (r.extractLsb' 1 31).isLt]
    simp only [BitVec.extractLsb'_toNat, bitOf_toNat, Nat.shiftRight_eq_div_pow, hw]
    omega
  · apply BitVec.eq_of_toNat_eq
    rw [BitVec.toNat_append, Nat.shiftLeft_eq, Nat.mul_comm, ← Nat.two_pow_add_eq_or_of_lt (q.extractLsb' 1 31).isLt]
    simp only [BitVec.extractLsb'_toNat, Nat.shiftRight_eq_div_pow, hw]
    omega

/-- How a multiply step ends: DEST and `Q` are the two words of the halved double word (40 R260). -/
theorem multiplyStep_ends (s : State) (c : RegNum) (x y : Word) (cin top : Bool) (e : Exact) {v k : Int}
    (hword : e.word = (exactSum x y cin).word) (hcarry : e.carry = (exactSum x y cin).carry)
    (hover : e.overflows = (exactSum x y cin).overflows)
    (hv : v = (exactSum x y cin).word.toNat + 2 ^ 32 * k) (hk : k % 2 = top.toNat) :
    let t := s.multiplyStep c (add3 x y cin) top
    let w := BitVec.ofInt 64 ((v * 2 ^ 32 + s.q.toNat) / 2)
    let high := w.extractLsb' 32 32
    WritesReg s t c high ∧ t.q = w.extractLsb' 0 32 ∧
      FlagsVNZC s t e.overflows (e.word.getLsbD 31) (high == 0#32) e.carry ∧ PcAdvances s t := by
  intro t w high
  have hr := add3_r x y cin
  obtain ⟨hhigh, hlow⟩ := halved_words (add3 x y cin).r s.q top (hr ▸ hv) hk
  have ht : t = ({ s with q := w.extractLsb' 0 32 } : State).arithResult c (add3 x y cin) high := by
    simp only [t, State.multiplyStep, hhigh, hlow, w, high]
  have hflags := step_flags s (w.extractLsb' 0 32) c (add3 x y cin) high
  rw [add3_v, hr, add3_cout, ← hover, ← hword, ← hcarry] at hflags
  rw [ht]
  exact ⟨step_writes s s.alu _ c _ _, step_q s s.alu _ c _ _, hflags, step_pc s s.alu _ c _ _⟩

/-- A Boolean is its own last bit. -/
theorem toNat_mod_two (b : Bool) : (b.toNat : Int) % 2 = b.toNat := by cases b <;> rfl

/-- The last bit of minus a Boolean is that Boolean. -/
theorem neg_toNat_mod (b : Bool) : (-(b.toNat : Int)) % 2 = b.toNat := by cases b <;> rfl

section Ready

variable {s : State} {rc ra : RegNum} {rb : Src2} (h : s.BinaryReady rc ra rb)
include h

/-! What each step is, once its operands may be used and can be had: a multiply step on the multiplicand and SRCB, or a divide
step on the add that DF asks for. -/

theorem exec_mul_ready :
    exec (.mul rc ra rb) s =
      let sum := add3 ((s.atRead ra rb).multiplicand (s.srcA ra rb)) (s.srcB ra rb) false
      .next ((s.atRead ra rb).multiplyStep (s.absReg .C rc) sum (sum.r.getLsbD 31 ^^ sum.v)) :=
  State.binary_ready h fun c a b s1 =>
    .next (s1.multiplyStep c (add3 (s1.multiplicand a) b false)
      ((add3 (s1.multiplicand a) b false).r.getLsbD 31 ^^ (add3 (s1.multiplicand a) b false).v))

theorem exec_mull_ready :
    exec (.mull rc ra rb) s =
      let sum := add3 (s.srcB ra rb) (~~~((s.atRead ra rb).multiplicand (s.srcA ra rb))) true
      .next ((s.atRead ra rb).multiplyStep (s.absReg .C rc) sum (sum.r.getLsbD 31 ^^ sum.v)) :=
  State.binary_ready h fun c a b s1 =>
    .next (s1.multiplyStep c (add3 b (~~~(s1.multiplicand a)) true)
      ((add3 b (~~~(s1.multiplicand a)) true).r.getLsbD 31 ^^ (add3 b (~~~(s1.multiplicand a)) true).v))

theorem exec_mulu_ready :
    exec (.mulu rc ra rb) s =
      let sum := add3 ((s.atRead ra rb).multiplicand (s.srcA ra rb)) (s.srcB ra rb) false
      .next ((s.atRead ra rb).multiplyStep (s.absReg .C rc) sum sum.cout) :=
  State.binary_ready h fun c a b s1 =>
    .next (s1.multiplyStep c (add3 (s1.multiplicand a) b false) (add3 (s1.multiplicand a) b false).cout)

theorem exec_div_ready :
    exec (.div rc ra rb) s =
      let s1 := s.atRead ra rb
      let sum := s1.divideAdd (s.srcA ra rb) (s.srcB ra rb)
      .next ((s1.divideStep (s1.quotientBit sum)).arithResult (s.absReg .C rc) sum
        (sum.r.extractLsb' 0 31 ++ s1.q.extractLsb' 31 1)) :=
  State.binary_ready h fun c a b s1 =>
    .next ((s1.divideStep (s1.quotientBit (s1.divideAdd a b))).arithResult c (s1.divideAdd a b)
      ((s1.divideAdd a b).r.extractLsb' 0 31 ++ s1.q.extractLsb' 31 1))

theorem exec_divl_ready :
    exec (.divl rc ra rb) s =
      let s1 := s.atRead ra rb
      let sum := s1.divideAdd (s.srcA ra rb) (s.srcB ra rb)
      .next ((s1.divideStep (s1.quotientBit sum)).arithResult (s.absReg .C rc) sum sum.r) :=
  State.binary_ready h fun c a b s1 =>
    .next ((s1.divideStep (s1.quotientBit (s1.divideAdd a b))).arithResult c (s1.divideAdd a b) (s1.divideAdd a b).r)

theorem exec_divrem_ready :
    exec (.divrem rc ra rb) s =
      let s1 := s.atRead ra rb
      let y := if s1.divideFlag then 0#32 else s.srcB ra rb
      .next (s1.addResult (s.absReg .C rc) (s.srcA ra rb) y false) := by
  refine (State.binary_ready h fun c a b s1 =>
    .next (s1.arithResult c (if s1.divideFlag then add3 a 0#32 false else add3 a b false)
      (if s1.divideFlag then add3 a 0#32 false else add3 a b false).r)).trans ?_
  dsimp only
  cases (s.atRead ra rb).divideFlag <;> rfl

end Ready

/-- Settles O12: the add of each step is exact in 33 bits, signed or unsigned, and the halved double word has those bits. -/
theorem multiplySteps : Obligations.MultiplySteps := by
  intro rc ra rb s h
  refine ⟨⟨_, exec_mul_ready h, ?mul⟩, ⟨_, exec_mull_ready h, ?mull⟩, ⟨_, exec_mulu_ready h, ?mulu⟩⟩
  case mul =>
    refine multiplyStep_ends _ _ _ _ _ _ _ rfl rfl rfl (exactSum_signed _ _ _) ?_
    rw [add3_r, add3_v]
    exact neg_toNat_mod _
  case mull =>
    obtain ⟨hword, hcarry, hover, hsigned⟩ :=
      exactSum_not (s.srcB ra rb) ((s.atRead ra rb).multiplicand (s.srcA ra rb)) true
    refine multiplyStep_ends _ _ _ _ _ _ _ hword.symm hcarry.symm hover.symm
      (hsigned.symm.trans (exactSum_signed _ _ _)) ?_
    rw [add3_r, add3_v]
    exact neg_toNat_mod _
  case mulu =>
    refine multiplyStep_ends _ _ _ _ _ _ _ rfl rfl rfl (exactSum_unsigned _ _ _) ?_
    rw [add3_cout]
    exact toNat_mod_two _

/-- Settles O13: the add of a divide step is the exact difference or sum that DF asks for; the new DF goes into `Q` from the
right, and `DIV` shifts the word that it writes. -/
theorem divideSteps : Obligations.DivideSteps := by
  intro rc ra rb s h
  obtain ⟨hr, hcout, hv⟩ := divideAdd_eq (s.atRead ra rb) (s.srcA ra rb) (s.srcB ra rb)
  have ends (w : Word) := divideStep_ends (s.atRead ra rb)
    ((s.atRead ra rb).quotientBit ((s.atRead ra rb).divideAdd (s.srcA ra rb) (s.srcB ra rb))) (s.absReg .C rc)
    ((s.atRead ra rb).divideAdd (s.srcA ra rb) (s.srcB ra rb)) w
  refine ⟨⟨_, exec_div_ready h, ?div⟩, ⟨_, exec_divl_ready h, ?divl⟩⟩
  case div =>
    have hend := ends ((((s.atRead ra rb).divideAdd (s.srcA ra rb) (s.srcB ra rb)).r.extractLsb' 0 31) ++
      (s.atRead ra rb).q.extractLsb' 31 1)
    simp only [State.quotientBit, hr, hcout, hv, shiftLeft_in] at hend ⊢
    exact hend
  case divl =>
    have hend := ends (((s.atRead ra rb).divideAdd (s.srcA ra rb) (s.srcB ra rb)).r)
    simp only [State.quotientBit, hr, hcout, hv] at hend ⊢
    exact hend

/-- Nothing is added: the word stays, and neither overflows nor carries (40 R265; entry 22). -/
theorem exactSum_zero (b : Word) :
    (exactSum 0#32 b false).word = b ∧ (exactSum 0#32 b false).overflows = false ∧ (exactSum 0#32 b false).carry = false := by
  have hsigned : (exactSum 0#32 b false).signed = b.toInt := by simp [exactSum]
  refine ⟨by simp [exactSum, Exact.word], decide_eq_false ?_, decide_eq_false ?_⟩
  · rw [hsigned, BitVec.toInt_eq_toNat_cond]
    have := b.isLt
    split_ifs <;> omega
  · have := b.isLt
    simp only [BitVec.toNat_ofNat, Bool.toNat_false]
    omega

/-- A zero comes into a word from the right (40 R265). -/
theorem shiftLeft_zero_in (q : Word) : (q.extractLsb' 0 31 ++ 0#1 : BitVec 32) = BitVec.ofNat 32 (2 * q.toNat) := by
  rw [show (0#1 : BitVec 1) = (0#32 : Word).extractLsb' 31 1 from rfl, shiftLeft_in]
  rfl

/-- What `DIV0` is, once its operand may be used and can be had (40 R265). -/
theorem exec_div0_ready {s : State} {rc : RegNum} {rb : Src2} (hc : s.isProtected (s.absReg .C rc) = false)
    (hb : s.protectedSrc (s.resolve rb) = false) (hr : s.ready (srcRegs (s.resolve rb)) = true) :
    exec (.div0 rc rb) s =
      let s1 := s.afterWait (srcRegs (s.resolve rb))
      let b := s1.srcValue (s.resolve rb)
      .next ((({ s1 with q := BitVec.ofNat 32 (2 * s1.q.toNat) } : State).setDivideFlag true).arithResult (s.absReg .C rc)
        (add3 0#32 b false) (BitVec.ofNat 32 (2 * b.toNat + s1.q.toNat / 2 ^ 31))) := by
  refine (State.unaryB_ready hc hb hr fun c b s1 =>
    .next ((({ s1 with q := s1.q.extractLsb' 0 31 ++ 0#1 } : State).setDivideFlag true).arithResult c (add3 0#32 b false)
      (b.extractLsb' 0 31 ++ s1.q.extractLsb' 31 1))).trans ?_
  rw [shiftLeft_zero_in, shiftLeft_in]

/-- Settles O14: `DIV0` adds SRCB to zero for the flags and shifts it with `Q`; `DIVREM` is the sum of SRCA and of zero or
SRCB. -/
theorem divideBeginAndRemainder : Obligations.DivideBeginAndRemainder := by
  refine ⟨fun rc rb s hc hb hr => ?_, fun rc ra rb s h => ⟨_, exec_divrem_ready h, ?_⟩⟩
  · intro s1 b w
    obtain ⟨hword, hover, hcarry⟩ := exactSum_zero b
    have hflags := divide_flags s1 (BitVec.ofNat 32 (2 * s1.q.toNat)) true (s.absReg .C rc) (add3 0#32 b false) w
    rw [add3_v, add3_r, add3_cout, hword, hover, hcarry] at hflags
    refine ⟨_, exec_div0_ready hc hb hr, ?_, ?_, hflags, ?_⟩
    all_goals rw [setDivideFlag_eq]
    · exact step_writes s1 _ _ _ _ _
    · exact step_q s1 _ _ _ _ _
    · exact step_pc s1 _ _ _ _ _
  · split
    · exact addResult_arithEnds_sum _ _ _ _ _
    · exact addResult_arithEnds_sum _ _ _ _ _

end Sys2Proof.Machine

/-! Proofs for the family `other`: register-numbers, and the effects that are delayed by one instruction. -/

namespace Sys2Proof.Machine

/-- Register field 0 names the register of its indirect pointer, the new one or, for one instruction, the old one (10 R36). -/
theorem absReg_zero (s : State) (f : Field) :
    ((s.pointer f).age ≠ 1 → s.absReg f 0#8 = (s.pointer f).now) ∧
      (s.absReg f 0#8 = (s.pointer f).now ∨ s.absReg f 0#8 = (s.pointer f).old) := by
  have hzero : s.absReg f 0#8 = s.pointerValue f := if_pos rfl
  rw [hzero, State.pointerValue]
  refine ⟨fun hage => ?_, ?_⟩
  · rw [decide_eq_false hage, Bool.false_and]
    rfl
  · split
    · exact .inr rfl
    · exact .inl rfl

/-- A global register-number names its own register (10 R36). -/
theorem absReg_global (s : State) (f : Field) {n : RegNum} (h1 : 1 ≤ n.toNat) (h2 : n.toNat ≤ 127) : s.absReg f n = n := by
  have hne : n ≠ 0#8 := by
    rintro rfl
    exact absurd h1 (by decide)
  have htop : n.getLsbD 7 = false := by
    rw [getLsbD_top n rfl]
    exact decide_eq_false (by omega)
  rw [State.absReg, if_neg hne, htop]
  rfl

/-- A local register-number is relative to the Stack Pointer shadow as the field sees it (10 R36). -/
theorem absReg_local (s : State) (f : Field) {n : RegNum} (h : 128 ≤ n.toNat) :
    (s.absReg f n).toNat = 128 + (n.toNat - 128 + (s.spValue f).toNat) % 128 := by
  have hne : n ≠ 0#8 := by
    rintro rfl
    exact absurd h (by decide)
  have htop : n.getLsbD 7 = true := by
    rw [getLsbD_top n rfl]
    exact decide_eq_true h
  rw [State.absReg, if_neg hne, htop, if_pos rfl, localNumber n _ h]

/-- The Stack Pointer shadow that a field sees: the new one, or, for one instruction, the old one (10 R39). -/
theorem spValue_of_valid (s : State) (f : Field) {v : BitVec 7} (hv : s.sps.now = some v) :
    (s.sps.age ≠ 1 → s.spValue f = v) ∧ ∀ w, s.sps.old = some w → s.spValue f = v ∨ s.spValue f = w := by
  unfold State.spValue
  refine ⟨fun hage => ?_, fun w hw => ?_⟩
  · rw [decide_eq_false hage, Bool.false_and, if_neg Bool.false_ne_true, hv]
  · split_ifs
    · rw [hw]
      exact .inr rfl
    · rw [hv]
      exact .inl rfl

/-- Settles O7: the three ranges of register-numbers, one by one. -/
theorem absoluteRegisterNumbers : Obligations.AbsoluteRegisterNumbers := by
  intro s f n
  refine ⟨?_, absReg_global s f, fun h => ?_, fun h hage v hv => ?_, fun h _ v w hv hw => ?_⟩
  · rintro rfl
    exact (absReg_zero s f).1
  · rw [absReg_local s f h]
    exact Nat.le_add_right _ _
  · rw [absReg_local s f h, (spValue_of_valid s f hv).1 hage]
  · rw [absReg_local s f h]
    exact ((spValue_of_valid s f hv).2 w hw).imp (fun e => by rw [e]) fun e => by rw [e]

/-- An instruction that ends ages the page size of a branch target (10 R39). -/
@[simp] theorem State.retire_psTarget (s : State) : s.retire.psTarget = s.psTarget - 1 := by
  simp only [State.retire, State.advance, State.advanceTo_psTarget]
  rfl

/-- A taken branch in the window of the page size takes it to its target; any other branch ages what is left of one before. -/
theorem State.branchTo_psTarget (s : State) (x : IAddr) :
    (s.branchTo x).psTarget = if s.mmu.age = 1 then 2 else s.psTarget - 1 := by
  have h : (s.branchTo x).psTarget = s.traceCopy.windowTarget.psTarget - 1 := by
    simp only [State.branchTo, State.advanceTo_psTarget]
    show s.traceCopy.windowTarget.pendingInvalidate.endStream.psTarget - 1 = _
    simp
  rw [h, State.windowTarget]
  split_ifs with ha hb hb
  · rfl
  · exact absurd ha hb
  · exact absurd hb ha
  · rfl

theorem State.branchTo_psBefore (s : State) (x : IAddr) :
    (s.branchTo x).psBefore = if s.mmu.age = 1 then s.mmu.old.extractLsb' 8 2 else s.psBefore := by
  have h : (s.branchTo x).psBefore = s.traceCopy.windowTarget.psBefore := by simp [State.branchTo]
  rw [h, State.windowTarget]
  split_ifs with ha hb hb
  · rfl
  · exact absurd ha hb
  · exact absurd hb ha
  · rfl

/-- The page size of a word of `MMU` as a number (10 R72). -/
theorem pageField_toNat (w : Word) : (w.extractLsb' 8 2).toNat = w.toNat / 2 ^ 8 % 4 := by
  rw [BitVec.extractLsb'_toNat, Nat.shiftRight_eq_div_pow]

/-- A value that has been possible for one instruction is settled after it. -/
theorem Delayed.older_settled {α : Type} {d : Delayed α} (h : d.age ≤ 1) : d.older.age = 0 := Nat.sub_eq_zero_of_le h

/-- A move to `MMU` or to a pointer that the next instruction may not see yet: what the moved register and the window of a
branch target are after it (10 R39). -/
theorem moveResult_delays (v : Word) (s : State) :
    (s.moveResult 129#8 v).ipa = (s.ipa.write (v.extractLsb' 2 8)).older ∧
      (s.moveResult 130#8 v).ipb = (s.ipb.write (v.extractLsb' 2 8)).older ∧
      (s.moveResult 128#8 v).ipc = (s.ipc.write (v.extractLsb' 2 8)).older ∧
      (s.moveResult 13#8 v).mmu = (s.mmu.write (v &&& 0x000003FF#32)).older ∧
      (s.moveResult 13#8 v).psTarget = s.psTarget - 1 ∧ (s.moveResult 13#8 v).psBefore = s.psBefore := by
  have hipa : s.moveResult 129#8 v = { s with ipa := s.ipa.write (v.extractLsb' 2 8) }.retire := rfl
  have hipb : s.moveResult 130#8 v = { s with ipb := s.ipb.write (v.extractLsb' 2 8) }.retire := rfl
  have hipc : s.moveResult 128#8 v = { s with ipc := s.ipc.write (v.extractLsb' 2 8) }.retire := rfl
  have hmmu : s.moveResult 13#8 v =
      { (if v &&& 0x000003FF#32 = s.mmu.now then s else s.rememberMap) with mmu := s.mmu.write (v &&& 0x000003FF#32) }.retire := rfl
  rw [hipa, State.retire_ipa, hipb, State.retire_ipb, hipc, State.retire_ipc, hmmu, State.retire_mmu, State.retire_psTarget,
    State.retire_psBefore]
  refine ⟨rfl, rfl, rfl, rfl, ?_⟩
  split_ifs <;> exact ⟨rfl, rfl⟩

/-- The page size that a translation uses: the present one, the one before the last write for one instruction, or, for the fetch
of a branch target, the one before that branch's window (10 R39). -/
theorem pageSize_or (s : State) (want : Want) :
    (s.pageSize want).toNat = s.mmu.now.toNat / 2 ^ 8 % 4 ∨
      (s.mmu.age = 1 ∧ (s.pageSize want).toNat = s.mmu.old.toNat / 2 ^ 8 % 4) ∨
      (want = .fetch ∧ s.psTarget = 1 ∧ s.pageSize want = s.psBefore) := by
  unfold State.pageSize
  split
  case isTrue h =>
    simp only [Bool.and_eq_true, beq_iff_eq] at h
    obtain ⟨⟨hwant, htarget⟩, -⟩ := h
    exact .inr (.inr ⟨hwant, htarget, rfl⟩)
  case isFalse =>
    generalize (if want == Want.fetch then Site.psPickFetch else Site.psPickData) = site
    by_cases h : (s.mmu.age == 1 && s.freeBit site) = true
    · rw [if_pos h]
      rw [Bool.and_eq_true, beq_iff_eq] at h
      exact .inr (.inl ⟨h.1, pageField_toNat _⟩)
    · rw [if_neg h]
      exact .inl (pageField_toNat _)

/-- `SETIP` whose registers may be used sets the three pointers (48 R502). -/
theorem exec_setip_ready {s : State} {rc ra rb : RegNum} (ha : s.isProtected (s.absReg .A ra) = false)
    (hb : s.isProtected (s.absReg .B rb) = false) (hc : s.isProtected (s.absReg .C rc) = false) :
    exec (.setip rc ra rb) s = .next (s.setPointers (s.absReg .A ra) (s.absReg .B rb) (s.absReg .C rc)).retire := by
  show execSetip rc ra rb s = _
  simp only [execSetip, ha, hb, hc, Bool.or_self, Bool.false_eq_true, if_false]

/-- An Integer Arithmetic or Logical result in Global Register 1 sets the shadow, the old one staying possible (10 R34). -/
theorem retire_writeReg_gr1 (s : State) (w : Word) :
    (s.writeReg true 1#8 w).retire.sps.now = some (w.extractLsb' 2 7) ∧ (s.writeReg true 1#8 w).retire.sps.old = s.sps.now ∧
      (s.writeReg true 1#8 w).retire.sps.age = 1 := by
  rw [State.retire_sps, State.writeReg_sps]
  exact ⟨rfl, rfl, rfl⟩

/-- Settles O24: what each writer of a delayed value leaves, what an instruction and a branch make of the delays, and what a
register field and a translation see. -/
theorem delayedEffects : Obligations.DelayedEffects := by
  refine ⟨fun v s => ?moves, fun rc ra rb s ha hb hc => ?setip, fun c sum w s => ?shadow, fun s f => ?pointer,
    fun s x t ht => ?ages, fun s x => ?window, fun v s => (moveResult_delays v s).2.2.2.2, pageSize_or⟩
  case moves =>
    obtain ⟨ha, hb, hc, hm, -⟩ := moveResult_delays v s
    intro a b c m
    rw [show a.ipa = _ from ha, show b.ipb = _ from hb, show c.ipc = _ from hc, show m.mmu = _ from hm]
    exact ⟨⟨rfl, rfl⟩, ⟨rfl, rfl⟩, ⟨rfl, rfl⟩, ⟨rfl, rfl⟩⟩
  case setip =>
    refine ⟨_, exec_setip_ready ha hb hc, ?_⟩
    rw [State.retire_ipa, State.retire_ipb, State.retire_ipc]
    exact ⟨⟨rfl, rfl⟩, ⟨rfl, rfl⟩, ⟨rfl, rfl⟩⟩
  case shadow =>
    rintro t rfl
    obtain ⟨hnow, hold, hage⟩ := retire_writeReg_gr1 (s.setVNZC sum w) w
    exact ⟨hnow, hold.trans (by simp), hage⟩
  case pointer => exact ⟨(absReg_zero s f).1, fun _ => (absReg_zero s f).2⟩
  case ages =>
    have hretire : t = s.retire ∨ t = s.branchTo x := by simpa using ht
    rcases hretire with rfl | rfl
    · rw [State.retire_sps, State.retire_ipa, State.retire_ipb, State.retire_ipc, State.retire_mmu]
      exact ⟨Delayed.older_settled, Delayed.older_settled, Delayed.older_settled, Delayed.older_settled, Delayed.older_settled⟩
    · rw [State.branchTo_sps, State.branchTo_ipa, State.branchTo_ipb, State.branchTo_ipc, State.branchTo_mmu]
      exact ⟨Delayed.older_settled, Delayed.older_settled, Delayed.older_settled, Delayed.older_settled, Delayed.older_settled⟩
  case window =>
    rw [State.retire_psTarget, State.retire_psTarget, State.retire_psTarget, State.branchTo_psTarget, State.branchTo_psBefore]
    refine ⟨fun h => ?_, fun h hle => ?_, fun hle => (State.retire_psTarget s).trans (Nat.sub_eq_zero_of_le hle)⟩
    · rw [if_pos h, if_pos h, pageField_toNat]
      exact ⟨rfl, rfl, rfl, rfl⟩
    · rw [if_neg h]
      exact Nat.sub_eq_zero_of_le hle

end Sys2Proof.Machine

/-! Proofs for the family `other`: how each of the fifty instructions with RC, RA and `RB or I` ends, and which results set the
Stack Pointer shadow. -/

namespace Sys2Proof.Machine

/-- `t` ends an instruction that has written one register, and `Q` and flags at most; the flags stay while they are frozen
(40 R241, 42 R330). `sets` says that the class sets the Stack Pointer shadow (10 R34). -/
def OneResult (sets : Bool) (s t : State) (c : RegNum) : Prop :=
  ∃ al qq w, t = (({ s with alu := al, q := qq } : State).writeReg sets c w).retire ∧ (s.frozen = true → al = s.alu)

theorem oneResult_plain (s : State) (c : RegNum) (w : Word) : OneResult false s (s.plainResult c w) c :=
  ⟨s.alu, s.q, w, rfl, fun _ => rfl⟩

theorem setNZ_frozen {s : State} (h : s.frozen = true) (w : Word) : (s.setNZ w).alu = s.alu := by rw [State.setNZ, if_pos h]

theorem setVNZC_frozen {s : State} (h : s.frozen = true) (sum : Sum) (w : Word) : (s.setVNZC sum w).alu = s.alu := by
  rw [State.setVNZC, if_pos h]

theorem setDivideFlag_frozen {s : State} (h : s.frozen = true) (df : Bool) : (s.setDivideFlag df).alu = s.alu := by
  rw [State.setDivideFlag, if_pos h]

theorem oneResult_logical (s : State) (c : RegNum) (w : Word) : OneResult true s ((s.setNZ w).writeReg true c w).retire c :=
  ⟨(s.setNZ w).alu, s.q, w, by rw [← State.setNZ_eq], fun h => setNZ_frozen h w⟩

/-- The ending of the Integer Arithmetic class, on a state in which a step has already changed `ALU` and `Q`. -/
theorem oneResult_arith {s u : State} {al qq : Word} (hu : u = { s with alu := al, q := qq })
    (hal : s.frozen = true → al = s.alu) (c : RegNum) (sum : Sum) (w : Word) :
    OneResult true s (u.arithResult c sum w) c := by
  subst hu
  refine ⟨_, qq, w, by rw [State.arithResult, State.setVNZC_eq], fun h => ?_⟩
  exact (setVNZC_frozen (s := { s with alu := al, q := qq }) h sum w).trans (hal h)

theorem oneResult_divide (s : State) (qq : Word) (df : Bool) (c : RegNum) (sum : Sum) (w : Word) :
    OneResult true s ((({ s with q := qq } : State).setDivideFlag df).arithResult c sum w) c :=
  oneResult_arith (setDivideFlag_eq _ df) (fun h => setDivideFlag_frozen (s := { s with q := qq }) h df) c sum w

/-- The instruction `i` ends with one result, and then raises Out of Range if its result is out of range (40 R269). -/
def EndsAs (sets : Bool) (i : Instr) (s : State) (rc ra : RegNum) (rb : Src2) : Prop :=
  ∃ t, OneResult sets (s.atRead ra rb) t (s.absReg .C rc) ∧
    exec i s = t.rangeResult (outOfRange i (s.srcA ra rb) (s.srcB ra rb) (s.atRead ra rb).carry)

section Forms

variable {s : State} {rc ra : RegNum} {rb : Src2} {i : Instr}

theorem endsAs_next {sets : Bool} {t : State} (hexec : exec i s = .next t)
    (ht : OneResult sets (s.atRead ra rb) t (s.absReg .C rc))
    (hrange : outOfRange i (s.srcA ra rb) (s.srcB ra rb) (s.atRead ra rb).carry = false) : EndsAs sets i s rc ra rb :=
  ⟨t, ht, by rw [hexec, hrange]; rfl⟩

theorem endsAs_add {x y : Word} {cin : Bool} (hexec : exec i s = .next ((s.atRead ra rb).addResult (s.absReg .C rc) x y cin))
    (hrange : outOfRange i (s.srcA ra rb) (s.srcB ra rb) (s.atRead ra rb).carry = false) : EndsAs true i s rc ra rb :=
  endsAs_next hexec (oneResult_arith rfl (fun _ => rfl) _ _ _) hrange

theorem EndsInRange.endsAs {e : Exact} (h : EndsInRange i s rc ra rb e
    (outOfRange i (s.srcA ra rb) (s.srcB ra rb) (s.atRead ra rb).carry)) : EndsAs true i s rc ra rb := by
  obtain ⟨sum, -, hexec⟩ := h
  exact ⟨_, oneResult_arith rfl (fun _ => rfl) _ _ _, hexec⟩

variable (h : s.BinaryReady rc ra rb)
include h

theorem endsAs_plain (f : Word → Word → State → Word)
    (hexec : exec i s = s.binary rc ra rb fun c a b s1 => .next (s1.plainResult c (f a b s1)))
    (hrange : outOfRange i (s.srcA ra rb) (s.srcB ra rb) (s.atRead ra rb).carry = false) : EndsAs false i s rc ra rb :=
  endsAs_next (hexec.trans (State.binary_ready h _)) (oneResult_plain _ _ _) hrange

theorem endsAs_compare (rel : Word → Word → Bool) (hexec : exec i s = s.compare rc ra rb rel)
    (hrange : outOfRange i (s.srcA ra rb) (s.srcB ra rb) (s.atRead ra rb).carry = false) : EndsAs false i s rc ra rb :=
  endsAs_plain h (fun a b _ => boolWord (rel a b)) hexec hrange

theorem endsAs_logical (f : Word → Word → Word) (hexec : exec i s = s.logical rc ra rb f)
    (hrange : outOfRange i (s.srcA ra rb) (s.srcB ra rb) (s.atRead ra rb).carry = false) : EndsAs true i s rc ra rb :=
  endsAs_next (hexec.trans (State.logical_ready h f)) (oneResult_logical _ _ _) hrange

/-- The instructions of the Integer Arithmetic and Logical classes, one by one (10 R34). -/
theorem shadowForms_end : ∀ i ∈ shadowForms rc ra rb, EndsAs true i s rc ra rb := by
  obtain ⟨hadds, haddu, haddcs, haddcu, hsubs, hsubu, hsubcs, hsubcu, hsubrs, hsubru, hsubrcs, hsubrcu⟩ :=
    suffixed_endsInRange h
  simp only [shadowForms, List.forall_mem_cons]
  exact ⟨endsAs_add (exec_add_ready h) rfl, endsAs_add (exec_addc_ready h) rfl, hadds.endsAs, haddu.endsAs, haddcs.endsAs,
    haddcu.endsAs, endsAs_add (exec_sub_ready h) rfl, endsAs_add (exec_subc_ready h) rfl, hsubs.endsAs, hsubu.endsAs,
    hsubcs.endsAs, hsubcu.endsAs, endsAs_add (exec_subr_ready h) rfl, endsAs_add (exec_subrc_ready h) rfl, hsubrs.endsAs,
    hsubru.endsAs, hsubrcs.endsAs, hsubrcu.endsAs,
    endsAs_next (exec_mul_ready h) (oneResult_arith rfl (fun _ => rfl) _ _ _) rfl,
    endsAs_next (exec_mull_ready h) (oneResult_arith rfl (fun _ => rfl) _ _ _) rfl,
    endsAs_next (exec_mulu_ready h) (oneResult_arith rfl (fun _ => rfl) _ _ _) rfl,
    endsAs_next (exec_div_ready h) (oneResult_divide _ _ _ _ _ _) rfl,
    endsAs_next (exec_divl_ready h) (oneResult_divide _ _ _ _ _ _) rfl,
    endsAs_add (exec_divrem_ready h) rfl,
    endsAs_logical h (fun a b => a &&& b) rfl rfl, endsAs_logical h (fun a b => a &&& ~~~b) rfl rfl,
    endsAs_logical h (fun a b => ~~~(a &&& b)) rfl rfl, endsAs_logical h (fun a b => a ||| b) rfl rfl,
    endsAs_logical h (fun a b => ~~~(a ||| b)) rfl rfl, endsAs_logical h (fun a b => a ^^^ b) rfl rfl,
    endsAs_logical h (fun a b => ~~~(a ^^^ b)) rfl rfl,
    List.forall_mem_nil _⟩

/-- The instructions of the Compare, Shift and Data Movement classes, one by one (10 R34). -/
theorem noShadowForms_end : ∀ i ∈ noShadowForms rc ra rb, EndsAs false i s rc ra rb := by
  simp only [noShadowForms, List.forall_mem_cons]
  exact ⟨endsAs_compare h (fun a b => a == b) rfl rfl, endsAs_compare h (fun a b => a != b) rfl rfl,
    endsAs_compare h (fun a b => a.slt b) rfl rfl, endsAs_compare h (fun a b => a.ult b) rfl rfl,
    endsAs_compare h (fun a b => a.sle b) rfl rfl, endsAs_compare h (fun a b => a.ule b) rfl rfl,
    endsAs_compare h (fun a b => b.slt a) rfl rfl, endsAs_compare h (fun a b => b.ult a) rfl rfl,
    endsAs_compare h (fun a b => b.sle a) rfl rfl, endsAs_compare h (fun a b => b.ule a) rfl rfl,
    endsAs_compare h anyByteEqual rfl rfl,
    endsAs_plain h (fun a b _ => a <<< shiftCount b) rfl rfl, endsAs_plain h (fun a b _ => a >>> shiftCount b) rfl rfl,
    endsAs_plain h (fun a b _ => a.sshiftRight (shiftCount b)) rfl rfl,
    endsAs_plain h (fun a b s1 => ((a ++ b : BitVec 64) <<< s1.funnelCount.toNat).extractLsb' 32 32) rfl rfl,
    endsAs_plain h (fun a b s1 => b.extractLsb' 8 24 ++ s1.selectedByte a) rfl rfl,
    endsAs_plain h (fun a b s1 => b.extractLsb' 16 16 ++ s1.selectedHalf a) rfl rfl,
    endsAs_plain h (fun a b s1 => putField a (byteLow s1.byteOrder s1.bytePointer) (b.extractLsb' 0 8)) rfl rfl,
    endsAs_plain h (fun a b s1 => putField a (halfLow s1.byteOrder s1.bytePointer) (b.extractLsb' 0 16)) rfl rfl,
        List.forall_mem_nil _⟩

/-- Each of the fifty ends with one result. -/
theorem binaryForms_end : ∀ i ∈ binaryForms rc ra rb, ∃ sets, EndsAs sets i s rc ra rb := by
  have hperm : ∀ i ∈ binaryForms rc ra rb, i ∈ shadowForms rc ra rb ∨ i ∈ noShadowForms rc ra rb := by
    simp only [binaryForms, shadowForms, noShadowForms, List.forall_mem_cons]
    simp
  intro i hi
  rcases hperm i hi with hset | hnot
  · exact ⟨true, shadowForms_end h i hset⟩
  · exact ⟨false, noShadowForms_end h i hnot⟩

end Forms

end Sys2Proof.Machine

/-! Proofs for the family `other`: the Branch class, and the instructions that write Global Register 1. -/

namespace Sys2Proof.Machine

section Ready

variable {s : State} {rc ra rb : RegNum}

/-! What each instruction is that writes one register, and no status, from operands that may be used and can be had. -/

theorem exec_clz_ready {src : Src2} (hc : s.isProtected (s.absReg .C rc) = false) (hb : s.protectedSrc (s.resolve src) = false)
    (hr : s.ready (srcRegs (s.resolve src)) = true) :
    exec (.clz rc src) s =
      let s1 := s.afterWait (srcRegs (s.resolve src))
      .next (s1.plainResult (s.absReg .C rc) (BitVec.ofNat 32 (leadingZeros (s1.srcValue (s.resolve src)) 32))) :=
  State.unaryB_ready hc hb hr fun c b s1 => .next (s1.plainResult c (BitVec.ofNat 32 (leadingZeros b 32)))

theorem exec_exhws_ready (hc : s.isProtected (s.absReg .C rc) = false) (ha : s.isProtected (s.absReg .A ra) = false)
    (hr : s.ready [s.absReg .A ra] = true) :
    exec (.exhws rc ra) s =
      let s1 := s.afterWait [s.absReg .A ra]
      .next (s1.plainResult (s.absReg .C rc) ((s1.selectedHalf (s1.readReg .A (s.absReg .A ra))).signExtend 32)) :=
  State.unaryA_ready hc ha hr fun c a s1 => .next (s1.plainResult c ((s1.selectedHalf a).signExtend 32))

theorem exec_mftlb_ready (hs : s.supervisor = true) (hc : s.isProtected (s.absReg .C rc) = false)
    (ha : s.isProtected (s.absReg .A ra) = false) (hr : s.ready [s.absReg .A ra] = true) :
    exec (.mftlb rc ra) s =
      let s1 := s.afterWait [s.absReg .A ra]
      .next (s1.plainResult (s.absReg .C rc) (s1.readTlb ((s1.readReg .A (s.absReg .A ra)).extractLsb' 0 7))) := by
  show execMftlb rc ra s = _
  rw [execMftlb, hs]
  exact State.unaryA_ready hc ha hr fun c a s1 => .next (s1.plainResult c (s1.readTlb (a.extractLsb' 0 7)))

theorem exec_mfsr_ready {sa : BitVec 8} (hs : s.supervisor = true ∨ 128 ≤ sa.toNat)
    (hc : s.isProtected (s.absReg .C rc) = false) :
    exec (.mfsr rc sa) s = .next (s.plainResult (s.absReg .C rc) (s.readSpecial sa)) := by
  show execMfsr rc sa s = _
  rw [execMfsr, specialForbidden_eq hs, hc]
  rfl

/-! What each branch is, once its registers may be used and can be had (47 R471 to R479). -/

theorem exec_jmpi_ready (hb : s.isProtected (s.absReg .B rb) = false) (hr : s.ready [s.absReg .B rb] = true) :
    exec (.jmpi rb) s =
      let s1 := s.afterWait [s.absReg .B rb]
      .next (s1.branchTo (wordAddr (s1.readReg .B (s.absReg .B rb)))) :=
  State.readB_ready hb hr fun v s1 => .next (s1.branchTo (wordAddr v))

theorem exec_jmpt_ready {a : Bool} {i16 : BitVec 16} (ha : s.isProtected (s.absReg .A ra) = false)
    (hr : s.ready [s.absReg .A ra] = true) :
    exec (.jmpt a ra i16) s =
      let s1 := s.afterWait [s.absReg .A ra]
      .next (s1.branchIf (isTrue (s1.readReg .A (s.absReg .A ra))) (s1.target a i16)) :=
  State.readA_ready ha hr fun _ v s1 => .next (s1.branchIf (isTrue v) (s1.target a i16))

theorem exec_jmpf_ready {a : Bool} {i16 : BitVec 16} (ha : s.isProtected (s.absReg .A ra) = false)
    (hr : s.ready [s.absReg .A ra] = true) :
    exec (.jmpf a ra i16) s =
      let s1 := s.afterWait [s.absReg .A ra]
      .next (s1.branchIf (!isTrue (s1.readReg .A (s.absReg .A ra))) (s1.target a i16)) :=
  State.readA_ready ha hr fun _ v s1 => .next (s1.branchIf (!isTrue v) (s1.target a i16))

theorem exec_jmpti_ready (h : s.SourcesReady ra (.reg rb)) :
    exec (.jmpti ra rb) s =
      .next ((s.atRead ra (.reg rb)).branchIf (isTrue (s.srcA ra (.reg rb))) (wordAddr (s.srcB ra (.reg rb)))) :=
  State.sources_ready h fun v t s1 => .next (s1.branchIf (isTrue v) (wordAddr t))

theorem exec_jmpfi_ready (h : s.SourcesReady ra (.reg rb)) :
    exec (.jmpfi ra rb) s =
      .next ((s.atRead ra (.reg rb)).branchIf (!isTrue (s.srcA ra (.reg rb))) (wordAddr (s.srcB ra (.reg rb)))) :=
  State.sources_ready h fun v t s1 => .next (s1.branchIf (!isTrue v) (wordAddr t))

theorem exec_jmpfdec_ready {a : Bool} {i16 : BitVec 16} (ha : s.isProtected (s.absReg .A ra) = false)
    (hr : s.ready [s.absReg .A ra] = true) :
    exec (.jmpfdec a ra i16) s =
      let s1 := s.afterWait [s.absReg .A ra]
      let v := s1.readReg .A (s.absReg .A ra)
      .next ((s1.writeReg false (s.absReg .A ra) (v - 1#32)).branchIf (!isTrue v) (s1.target a i16)) :=
  State.readA_ready ha hr fun n v s1 => .next ((s1.writeReg false n (v - 1#32)).branchIf (!isTrue v) (s1.target a i16))

theorem exec_call_ready {a : Bool} {i16 : BitVec 16} (ha : s.isProtected (s.absReg .A ra) = false) :
    exec (.call a ra i16) s =
      .next ((s.writeReg false (s.absReg .A ra) s.returnAddress).branchTo (s.target a i16)) :=
  State.destA_ready ha fun n s1 => .next ((s1.writeReg false n s1.returnAddress).branchTo (s1.target a i16))

theorem exec_calli_ready (ha : s.isProtected (s.absReg .A ra) = false) (hb : s.isProtected (s.absReg .B rb) = false)
    (hr : s.ready [s.absReg .B rb] = true) :
    exec (.calli ra rb) s =
      let s1 := s.afterWait [s.absReg .B rb]
      .next ((s1.writeReg false (s.absReg .A ra) s1.returnAddress).branchTo
        (wordAddr (s1.readReg .B (s.absReg .B rb)))) := by
  show execCalli ra rb s = _
  rw [execCalli, ha]
  exact State.readB_ready hb hr fun t s1 =>
    .next ((s1.writeReg false (s.absReg .A ra) s1.returnAddress).branchTo (wordAddr t))

end Ready

/-- The model's target of a branch is the one that 47 R480 gives. -/
theorem State.target_eq (s : State) (a : Bool) (i16 : BitVec 16) : s.target a i16 = branchTarget s.pc a i16 := by
  cases a with
  | true => exact BitVec.eq_of_toNat_eq (by simp [State.target, branchTarget])
  | false =>
    show s.pc + BitVec.ofInt 30 i16.toInt = BitVec.ofInt 30 (s.pc.toNat + i16.toInt)
    rw [BitVec.ofInt_add, BitVec.ofInt_natCast, BitVec.ofNat_toNat, BitVec.setWidth_eq]

/-- The target of a relative branch does not depend on the wait for a register that it tests. -/
theorem target_afterWait (s : State) (regs : List RegNum) (a : Bool) (i16 : BitVec 16) :
    (s.afterWait regs).target a i16 = branchTarget s.pc a i16 := by rw [State.target_eq, afterWait_pc]

/-- Decrementing is modulo `2 ^ 32` (47 R477). -/
theorem sub_one_eq (v : Word) : v - 1#32 = BitVec.ofInt 32 (v.toNat - 1) := by
  rw [Int.sub_eq_add_neg, BitVec.ofInt_add, BitVec.ofInt_natCast, BitVec.ofNat_toNat, BitVec.setWidth_eq, BitVec.sub_eq_add_neg]
  rfl

/-- FALSE is every number that is not negative (10 R32). -/
theorem not_isTrue (v : Word) : (!isTrue v) = decide (0 ≤ v.toInt) := by
  have hmsb : isTrue v = decide (v.toInt < 0) := by
    rw [← BitVec.msb_eq_toInt, BitVec.msb_eq_getLsbD_last]
    rfl
  rw [hmsb]
  by_cases h : v.toInt < 0
  · simp [h, not_le.mpr h]
  · simp [h, not_lt.mp h]

/-- A branch that writes no register. -/
theorem branchIf_ends (s : State) (taken : Bool) (x : IAddr) :
    WritesNothing s (s.branchIf taken x) ∧ BranchEnds s (s.branchIf taken x) taken x := by
  cases taken with
  | true => exact ⟨writesNothing_branchTo s x, branchTo_pcBranches x rfl rfl rfl rfl⟩
  | false => exact ⟨writesNothing_retire s, retire_pcAdvances rfl rfl rfl rfl⟩

/-- A branch that writes one register, whether it is taken or not. -/
theorem writeBranchIf_ends (s : State) (c : RegNum) (w : Word) (taken : Bool) (x : IAddr) :
    let t := (s.writeReg false c w).branchIf taken x
    WritesReg s t c w ∧ t.alu = s.alu ∧ t.q = s.q ∧ BranchEnds s t taken x := by
  cases taken with
  | true =>
    exact ⟨writesReg_branchTo s false c w s.alu s.q x, by simp [State.branchIf], by simp [State.branchIf],
      branchTo_pcBranches x (by simp) (by simp) (by simp) (by simp)⟩
  | false => exact plainResult_ends s c w

/-- Settles O29: each jump is a branch that is taken by bit 31 of what it tests, and `JMPFDEC` writes RA too. -/
theorem jumps : Obligations.Jumps := by
  refine ⟨fun a i16 s => ?jmp, fun rb s hb hr => ?jmpi, fun a ra i16 s ha hr => ?one, fun ra rb s h => ?two,
    fun a ra i16 s ha hr => ?dec⟩
  case jmp =>
    refine ⟨_, rfl, ?_⟩
    rw [State.target_eq]
    exact branchIf_ends s true _
  case jmpi => exact ⟨_, exec_jmpi_ready hb hr, branchIf_ends _ true _⟩
  case one =>
    refine ⟨⟨_, exec_jmpt_ready ha hr, ?_⟩, ⟨_, exec_jmpf_ready ha hr, ?_⟩⟩
    all_goals
      rw [target_afterWait]
      exact branchIf_ends _ _ _
  case two => exact ⟨⟨_, exec_jmpti_ready h, branchIf_ends _ _ _⟩, ⟨_, exec_jmpfi_ready h, branchIf_ends _ _ _⟩⟩
  case dec =>
    refine ⟨_, exec_jmpfdec_ready ha hr, ?_⟩
    rw [target_afterWait, sub_one_eq, not_isTrue]
    exact writeBranchIf_ends _ _ _ _ _

/-- Settles O30: the return address is formed before RA is written, and the target of `CALLI` is read before. -/
theorem calls : Obligations.Calls := by
  refine ⟨fun a ra i16 s ha => ⟨_, exec_call_ready ha, ?call⟩, fun ra rb s ha hb hr => ⟨_, exec_calli_ready ha hb hr, ?calli⟩⟩
  case call =>
    rw [State.target_eq, returnAddress_eq]
    exact writeBranchIf_ends s _ _ true _
  case calli =>
    rw [returnAddress_eq, afterWait_pc]
    exact writeBranchIf_ends _ _ _ true _

/-- A result of a class that does not set the Stack Pointer shadow, in Global Register 1 (10 R34). -/
theorem plain_noShadow (s : State) (w : Word) : (s.plainResult 1#8 w).sps.now = none ∧ (s.plainResult 1#8 w).sps.age = 0 := by
  rw [State.plainResult, State.retire_sps, State.writeReg_sps]
  exact ⟨rfl, rfl⟩

theorem branchIf_noShadow (s : State) (w : Word) (taken : Bool) (x : IAddr) :
    ((s.writeReg false 1#8 w).branchIf taken x).sps.now = none ∧
      ((s.writeReg false 1#8 w).branchIf taken x).sps.age = 0 := by
  cases taken with
  | true =>
    rw [State.branchIf, if_pos rfl, State.branchTo_sps, State.writeReg_sps]
    exact ⟨rfl, rfl⟩
  | false => exact plain_noShadow s w

/-- One result in Global Register 1, of a class that sets the shadow. -/
theorem OneResult.sets {s t : State} (h : OneResult true s t 1#8) :
    t.sps.now = some (t.gr1.extractLsb' 2 7) ∧ t.sps.old = s.sps.now ∧ t.sps.age = 1 := by
  obtain ⟨al, qq, w, rfl, -⟩ := h
  have hgr1 : (({ s with alu := al, q := qq } : State).writeReg true 1#8 w).retire.gr1 = w := by
    simp [State.writeReg, State.storeReg]
  rw [hgr1]
  exact retire_writeReg_gr1 _ w

/-- One result in Global Register 1, of a class that does not. -/
theorem OneResult.unsets {s t : State} (h : OneResult false s t 1#8) : t.sps.now = none ∧ t.sps.age = 0 := by
  obtain ⟨al, qq, w, rfl, -⟩ := h
  exact plain_noShadow _ w

/-- What decides whether a trap of an instruction is taken is as before the instruction. -/
theorem OneResult.trap_same {sets : Bool} {s t : State} {c : RegNum} (h : OneResult sets s t c) :
    t.da = s.da ∧ t.alarm = s.alarm := by
  obtain ⟨al, qq, w, rfl, -⟩ := h
  refine ⟨?_, by simp [State.alarm, State.nextPins]⟩
  rw [da_retire]
  simp [State.da]

/-- The ending with Out of Range: without the trap, or with it (40 R269). -/
theorem EndsAs.next_or {sets : Bool} {i : Instr} {s : State} {rc ra : RegNum} {rb : Src2} (h : EndsAs sets i s rc ra rb) :
    let out := outOfRange i (s.srcA ra rb) (s.srcB ra rb) (s.atRead ra rb).carry
    ∃ t, OneResult sets (s.atRead ra rb) t (s.absReg .C rc) ∧ (out = false ∨ s.da = true → exec i s = .next t) ∧
      (out = true → s.da = false → s.alarm = false → exec i s = t.takeTrap 3 2#8) := by
  intro out
  obtain ⟨t, ht, hexec⟩ := h
  obtain ⟨hda, halarm⟩ := ht.trap_same
  have hda' : t.da = s.da := hda.trans (da_atRead s ra rb)
  have halarm' : t.alarm = s.alarm := halarm.trans (alarm_atRead s ra rb)
  obtain ⟨hlost, htaken, -⟩ := raiseNext_or t 2#8
  refine ⟨t, ht, fun hor => hexec.trans ?_, fun hout hoff hal => hexec.trans ?_⟩
  · change t.rangeResult out = _
    cases hout : out with
    | false => rfl
    | true => exact hlost (hda'.trans (hor.resolve_left (by simp [hout])))
  · change t.rangeResult out = _
    rw [hout]
    exact htaken (hda'.trans hoff) (halarm'.trans hal)

/-- Settles O8: one result that sets the shadow, or one that makes it not valid, instruction by instruction. -/
theorem stackPointerShadow : Obligations.StackPointerShadow := by
  refine ⟨fun rc ra rb s h hc => ⟨fun i hi => ?sets, fun i hi => ?unsets⟩, fun rc ra rb s hp hc => ⟨fun hb hr => ?_,
      fun ha hr => ?_,
    fun sa hs => ?_⟩, fun a ra rb i16 s hp ha => ⟨?_, fun hr => ?_, fun hb hr => ?_⟩, fun s d hd hl hdis htr hans => ?load⟩
  case sets =>
    obtain ⟨t, ht, hnext, htrap⟩ := (shadowForms_end h i hi).next_or
    rw [hc] at ht
    exact ⟨t, ht.sets, hnext, htrap⟩
  case unsets =>
    have hrange : outOfRange i (s.srcA ra rb) (s.srcB ra rb) (s.atRead ra rb).carry = false := by
      revert i
      simp only [noShadowForms, List.forall_mem_cons]
      simp [outOfRange]
    obtain ⟨t, ht, hnext, -⟩ := (noShadowForms_end h i hi).next_or
    rw [hc] at ht
    exact ⟨t, hnext (.inl hrange), ht.unsets⟩
  · have hclz := exec_clz_ready hp hb hr
    have hdiv0 := exec_div0_ready hp hb hr
    rw [hc] at hclz hdiv0
    exact ⟨⟨_, hdiv0, (oneResult_divide _ _ _ _ _ _).sets⟩, ⟨_, hclz, plain_noShadow _ _⟩⟩
  · have hexhws := exec_exhws_ready hp ha hr
    rw [hc] at hexhws
    refine ⟨⟨_, hexhws, plain_noShadow _ _⟩, fun hs => ?_⟩
    have hmftlb := exec_mftlb_ready hs hp ha hr
    rw [hc] at hmftlb
    exact ⟨_, hmftlb, plain_noShadow _ _⟩
  · have hmfsr := exec_mfsr_ready hs hp
    rw [hc] at hmfsr
    exact ⟨_, hmfsr, plain_noShadow _ _⟩
  · have hconst : exec (.const ra i16) s = .next (s.plainResult (s.absReg .A ra) (0#16 ++ i16)) :=
      State.destA_ready hp fun a s1 => .next (s1.plainResult a (0#16 ++ i16))
    have hconstn : exec (.constn ra i16) s = .next (s.plainResult (s.absReg .A ra) (0xFFFF#16 ++ i16)) :=
      State.destA_ready hp fun a s1 => .next (s1.plainResult a (0xFFFF#16 ++ i16))
    have hcall := exec_call_ready (a := a) (i16 := i16) hp
    rw [ha] at hconst hconstn hcall
    simp only [List.forall_mem_cons]
    exact ⟨⟨_, hconst, plain_noShadow _ _⟩, ⟨_, hconstn, plain_noShadow _ _⟩, ⟨_, hcall, branchIf_noShadow _ _ true _⟩,
      List.forall_mem_nil _⟩
  · rw [← ha] at hr
    have hconsth : exec (.consth ra i16) s = .next ((s.afterWait [s.absReg .A ra]).plainResult (s.absReg .A ra)
        (i16 ++ ((s.afterWait [s.absReg .A ra]).readReg .A (s.absReg .A ra)).extractLsb' 0 16)) :=
      State.readA_ready hp hr fun a v s1 => .next (s1.plainResult a (i16 ++ v.extractLsb' 0 16))
    have hdec := exec_jmpfdec_ready (a := a) (i16 := i16) hp hr
    rw [ha] at hconsth hdec
    simp only [List.forall_mem_cons]
    exact ⟨⟨_, hconsth, plain_noShadow _ _⟩, ⟨_, hdec, branchIf_noShadow _ _ _ _⟩, List.forall_mem_nil _⟩
  · have hcalli := exec_calli_ready hp hb hr
    rw [ha] at hcalli
    exact ⟨_, hcalli, branchIf_noShadow _ _ true _⟩
  case load =>
    have hdrain : s.drain = s.complete d := by simp only [State.drain, hd]
    have hdone := complete_ok (s := s) (d := d) (by rw [hl]; exact hans)
    have hsps := hdone.sps
    rw [if_pos ⟨hl, hdis, htr⟩] at hsps
    rw [hdrain, hsps]
    exact ⟨rfl, rfl⟩

end Sys2Proof.Machine

/-! Proofs for the family `other`: moves to special-purpose registers. -/

namespace Sys2Proof.Machine

/-- `SPR[n] <- v` written out field by field (10 R79, 44 R405), `m` being the mappings that are then remembered. -/
def State.specialRecord (s : State) (n : Nat) (v : Word) (m : List OldMap) : State :=
  let captures : Prop := n = 2 ∧ s.cps.getLsbD 10 = false ∧ v.getLsbD 10 = true
  { s with
    vab := if n = 0 then v &&& 0xFFFF0000#32 else s.vab
    ops := if n = 1 then v &&& 0x0000FFFF#32 else s.ops
    cps := if n = 2 then putBit (v &&& 0x0000FFFF#32) cpsIP false else s.cps
    cfg := if n = 3 then v &&& 0x0000001F#32 else s.cfg
    cha := if n = 4 then v else s.cha
    chd := if n = 5 then v else s.chd
    chc := if n = 6 then v &&& 0xFFFFF7FF#32 else if n = 135 then putField s.chc chcCR (v.extractLsb' 0 8) else s.chc
    mlByMove := if n = 6 then v.getLsbD chcML else s.mlByMove
    rbp := if n = 7 then v &&& 0x0000FFFF#32 else s.rbp
    tmc := if n = 8 then v &&& 0x00FFFFFF#32 else s.tmc
    tmr := if n = 9 then v &&& 0x07FFFFFF#32 else s.tmr
    pc0 := if n = 10 ∧ s.cps.getLsbD 10 = true then v &&& 0xFFFFFFFC#32 else if captures then s.npc ++ 0#2 else s.pc0
    pc1 := if n = 11 ∧ s.cps.getLsbD 10 = true then v &&& 0xFFFFFFFC#32 else if captures then s.pc ++ 0#2 else s.pc1
    pc2 := if n = 12 ∧ s.cps.getLsbD 10 = true then v &&& 0xFFFFFFFC#32 else if captures then s.ppc ++ 0#2 else s.pc2
    mmu := if n = 13 then s.mmu.write (v &&& 0x000003FF#32) else s.mmu
    lru := if n = 14 then v &&& 0x0000007E#32 else s.lru
    ipc := if n = 128 then s.ipc.write (v.extractLsb' 2 8) else s.ipc
    ipa := if n = 129 then s.ipa.write (v.extractLsb' 2 8) else s.ipa
    ipb := if n = 130 then s.ipb.write (v.extractLsb' 2 8) else s.ipb
    q := if n = 131 then v else s.q
    alu :=
      if n = 132 then v &&& 0x00000FFF#32
      else if n = 133 then putField s.alu aluBP (v.extractLsb' 0 2)
      else if n = 134 then putField s.alu aluFC (v.extractLsb' 0 5)
      else s.alu
    oldMaps := m }

theorem writePc_of_frozen {s : State} (h : s.cps.getLsbD 10 = true) (v : Word) :
    s.writePc 0 v = { s with pc0 := v } ∧ s.writePc 1 v = { s with pc1 := v } ∧ s.writePc 2 v = { s with pc2 := v } := by
  have hfz : s.fz = true := h
  simp [State.writePc, hfz]

theorem writePc_of_unfrozen {s : State} (h : s.cps.getLsbD 10 = false) (ht : s.testing = false) (n : Nat) (v : Word) :
    s.writePc n v = s := by
  have hfz : s.fz = false := h
  simp [State.writePc, hfz, ht]

theorem setCps_record (s : State) (c : Word) : ∃ m, s.setCps c = { s with cps := putBit c cpsIP false, oldMaps := m } := by
  unfold State.setCps
  split
  · exact ⟨s.oldMaps, rfl⟩
  · exact ⟨s.rememberMap.oldMaps, rfl⟩

theorem capturePcs_of_unfrozen {s : State} (h : s.cps.getLsbD 10 = false) :
    s.capturePcs = { s with pc0 := s.npc ++ 0#2, pc1 := s.pc ++ 0#2, pc2 := s.ppc ++ 0#2 } := by
  have hfz : s.fz = false := h
  simp only [State.capturePcs, State.pc0View, State.pc1View, State.pc2View, hfz]
  rfl

/-- A write of `CPS` captures the program counters where it sets FZ (44 R405). -/
theorem writeCps_record (s : State) (v : Word) :
    ∃ m, (if v.getLsbD cpsFZ && !s.fz then s.capturePcs else s).setCps (v &&& 0x0000FFFF#32) = s.specialRecord 2 v m := by
  by_cases h : s.cps.getLsbD 10 = false ∧ v.getLsbD 10 = true
  · obtain ⟨hfz, hv⟩ := h
    have hcond : (v.getLsbD cpsFZ && !s.fz) = true := by
      show (v.getLsbD 10 && !s.cps.getLsbD 10) = true
      rw [hfz, hv]
      rfl
    obtain ⟨m, hm⟩ := setCps_record s.capturePcs (v &&& 0x0000FFFF#32)
    refine ⟨m, ?_⟩
    rw [if_pos hcond, hm, capturePcs_of_unfrozen hfz]
    simp [State.specialRecord, hfz, hv, -BitVec.getLsbD_eq_getElem]
  · have hcond : (v.getLsbD cpsFZ && !s.fz) = false := by
      rcases Classical.not_and_iff_not_or_not.mp h with hfz | hv
      · simp [State.fz, cpsFZ, (Bool.not_eq_false _).mp hfz, -BitVec.getLsbD_eq_getElem]
      · simp [cpsFZ, (Bool.not_eq_true _).mp hv, -BitVec.getLsbD_eq_getElem]
    obtain ⟨m, hm⟩ := setCps_record s (v &&& 0x0000FFFF#32)
    refine ⟨m, ?_⟩
    rw [hcond, if_neg Bool.false_ne_true, hm]
    simp [State.specialRecord, h, -BitVec.getLsbD_eq_getElem]

/-- A move writes what `specialRecord` says. -/
theorem writeSpecial_record {s : State} (n : BitVec 8) (v : Word)
    (hpc : s.testing = false ∨ s.cps.getLsbD 10 = true ∨ n.toNat ∉ [10, 11, 12]) :
    ∃ m, s.writeSpecial n v = s.specialRecord n.toNat v m := by
  have hpc' (hn : n.toNat ∈ [10, 11, 12]) : s.cps.getLsbD 10 = true ∨ s.cps.getLsbD 10 = false ∧ s.testing = false := by
    by_cases hfz : s.cps.getLsbD 10 = true
    · exact .inl hfz
    · exact .inr ⟨(Bool.not_eq_true _).mp hfz, hpc.resolve_right fun h => h.elim hfz fun hne => hne hn⟩
  unfold State.writeSpecial
  split
  case h_3 hn => exact hn ▸ writeCps_record s v
  case h_11 hn | h_12 hn | h_13 hn =>
    refine ⟨s.oldMaps, ?_⟩
    rw [hn]
    rcases hpc' (by simp [hn]) with hfz | ⟨hfz, ht⟩
    · simp [writePc_of_frozen hfz, State.specialRecord, hfz, -BitVec.getLsbD_eq_getElem]
    · simp [writePc_of_unfrozen hfz ht, State.specialRecord, hfz, -BitVec.getLsbD_eq_getElem]
  case h_14 hn =>
    rw [hn]
    dsimp only
    split
    · exact ⟨s.oldMaps, rfl⟩
    · exact ⟨s.rememberMap.oldMaps, rfl⟩
  case h_24 => exact ⟨s.oldMaps, by simp_all [State.specialRecord]⟩
  all_goals
    rename_i hn
    rw [hn]
    exact ⟨s.oldMaps, rfl⟩

/-- The bits of `CPS` that a move writes, the trace bit apart (10 R79). -/
theorem getLsbD_cpsMove (v : Word) (i : Nat) :
    (putBit (v &&& 0x0000FFFF#32) cpsIP false).getLsbD i = (decide (i < 16 ∧ i ≠ 14) && v.getLsbD i) := by
  rw [getLsbD_putBit _ _ _ _ (by decide), getLsbD_low16]
  by_cases h : i = 14
  · simp [h, cpsIP]
  · simp [h, cpsIP]

/-- What a field of `CHC` or `ALU` is after an alias has been written (10 R78). -/
theorem getLsbD_alias (w v : Word) (i n k : Nat) (h : i + n ≤ 32) :
    (putField w i (v.extractLsb' 0 n)).getLsbD k = if i ≤ k ∧ k < i + n then v.getLsbD (k - i) else w.getLsbD k := by
  rw [getLsbD_putField _ _ _ h]
  split_ifs with hk
  · rw [BitVec.getLsbD_extractLsb', Nat.zero_add, decide_eq_true (by omega), Bool.true_and]
  · rfl

theorem specialRecord_chc (s : State) (n : Nat) (v : Word) (m : List OldMap) (i : Nat) :
    (s.specialRecord n v m).chc.getLsbD i =
      if n = 6 then decide (i ≠ 11) && v.getLsbD i
      else if n = 135 ∧ 16 ≤ i ∧ i < 24 then v.getLsbD (i - 16)
      else s.chc.getLsbD i := by
  show BitVec.getLsbD (if n = 6 then _ else if n = 135 then _ else _) i = _
  by_cases h6 : n = 6
  · rw [if_pos h6, if_pos h6, getLsbD_not11]
  · by_cases h135 : n = 135
    · simp [h135, getLsbD_alias, chcCR]
    · simp [h6, h135]

theorem specialRecord_alu (s : State) (n : Nat) (v : Word) (m : List OldMap) (i : Nat) :
    (s.specialRecord n v m).alu.getLsbD i =
      if n = 132 then decide (i < 12) && v.getLsbD i
      else if n = 133 ∧ 5 ≤ i ∧ i < 7 then v.getLsbD (i - 5)
      else if n = 134 ∧ i < 5 then v.getLsbD i
      else s.alu.getLsbD i := by
  show BitVec.getLsbD (if n = 132 then _ else if n = 133 then _ else if n = 134 then _ else _) i = _
  by_cases h132 : n = 132
  · rw [if_pos h132, if_pos h132, getLsbD_low12]
  · by_cases h133 : n = 133
    · simp [h133, getLsbD_alias, aluBP]
    · by_cases h134 : n = 134
      · simp [h134, getLsbD_alias, aluFC]
      · simp [h132, h133, h134]

/-- `CPS` after a move has ended: the trace bit of a move to `CPS` is set where the move or TE sets it (60 R600; entry 20). -/
theorem moveResult_cps (s : State) (sa : BitVec 8) (v : Word) (m : List OldMap)
    (hm : s.writeSpecial sa v = s.specialRecord sa.toNat v m) (i : Nat) :
    (s.moveResult sa v).cps.getLsbD i =
      if sa.toNat = 2 then
        if i = 12 then v.getLsbD 12 || v.getLsbD 13 else decide (i < 16 ∧ i ≠ 14) && v.getLsbD i
      else if i = 12 then s.cps.getLsbD 13
      else s.cps.getLsbD i := by
  have hsa : sa = 2#8 ↔ sa.toNat = 2 := by
    rw [← BitVec.toNat_inj]
    rfl
  rw [State.moveResult, hm]
  by_cases h2 : sa.toNat = 2
  · have hcps : (s.specialRecord sa.toNat v m).cps = putBit (v &&& 0x0000FFFF#32) cpsIP false := if_pos h2
    rw [if_pos (hsa.mpr h2), if_pos h2, State.advance_cps]
    show (putBit _ cpsTP _).getLsbD i = _
    rw [getLsbD_putBit _ _ _ _ (by decide), hcps, getLsbD_cpsMove, getLsbD_cpsMove, getLsbD_cpsMove]
    rfl
  · have hcps : (s.specialRecord sa.toNat v m).cps = s.cps := if_neg h2
    rw [if_neg (hsa.not.mpr h2), if_neg h2, State.retire_cps, State.traceCopy_cps, hcps]
    rfl

theorem advance_pcAdvances {s u : State} (hpc : u.pc = s.pc) (hnpc : u.npc = s.npc) (hppc : u.ppc = s.ppc)
    (ht : u.testing = s.testing) : PcAdvances s u.advance := by
  unfold PcAdvances
  split
  · next h => simp [State.advance, State.advanceTo, h, hpc, hnpc, hppc, ht]
  · next h => simp [State.advance, State.advanceTo, h, hpc, hnpc, ht]

/-- The present value after a write that is made in one case, one instruction later (10 R39). -/
theorem Delayed.write_if_now {α : Type} {b : Prop} [Decidable b] (d : Delayed α) (v : α) :
    (if b then d.write v else d).older.now = if b then v else d.now := by split <;> rfl

/-- How a move ends: everything but `CPS` is in the record, or is aged or advanced by the end of the instruction. -/
theorem moveResult_written {s : State} (sa : BitVec 8) (v : Word)
    (hpc : s.testing = false ∨ s.cps.getLsbD 10 = true ∨ sa.toNat ∉ [10, 11, 12]) :
    SpecialWritten s (s.moveResult sa v) sa.toNat v ∧ PcAdvances s (s.moveResult sa v) := by
  obtain ⟨m, hm⟩ := writeSpecial_record sa v hpc
  have hcps := moveResult_cps s sa v m hm
  obtain ⟨c, hend⟩ : ∃ c, s.moveResult sa v = ({ s.specialRecord sa.toNat v m with cps := c } : State).advance := by
    rw [State.moveResult, hm]
    split
    · exact ⟨_, rfl⟩
    · exact ⟨_, rfl⟩
  rw [hend] at hcps ⊢
  refine ⟨?_, advance_pcAdvances rfl rfl rfl rfl⟩
  exact {
    vab := State.advance_vab _
    ops := State.advance_ops _
    cps := hcps
    cfg := State.advance_cfg _
    cha := State.advance_cha _
    chd := State.advance_chd _
    chc := fun i => by rw [State.advance_chc]; exact specialRecord_chc s sa.toNat v m i
    rbp := State.advance_rbp _
    tmc := State.advance_tmc _
    tmr := State.advance_tmr _
    pc0 := State.advance_pc0 _
    pc1 := State.advance_pc1 _
    pc2 := State.advance_pc2 _
    mmu := by rw [State.advance_mmu]; exact Delayed.write_if_now _ _
    lru := State.advance_lru _
    ipc := by rw [State.advance_ipc]; exact Delayed.write_if_now _ _
    ipa := by rw [State.advance_ipa]; exact Delayed.write_if_now _ _
    ipb := by rw [State.advance_ipb]; exact Delayed.write_if_now _ _
    q := State.advance_q _
    alu := fun i => by rw [State.advance_alu]; exact specialRecord_alu s sa.toNat v m i
    regs := fun a ha _ => State.readReg_congr (State.advance_gpr _) (State.advance_gr1 _) .A ha
    shadow := by rw [State.advance_sps]; rfl
    memory := fun a => by rw [State.advance_idm, State.advance_rom]; exact ⟨rfl, rfl⟩
    tlb := State.advance_tlb _
    inflight := State.advance_inflight _
    mode := State.advance_mode _ }

/-- An instruction that waits for the access in flight goes on where it completes (44 R401). -/
theorem State.finishAccess_ends {s : State} (h : s.settlement = .ends) (k : State → Result) : s.finishAccess k = k s.drain := by
  rw [State.finishAccess, h]

theorem drain_testing_fz (s : State) : s.drain.testing = s.testing ∧ s.drain.cps.getLsbD 10 = s.fz := by
  rw [State.drain_testing, State.drain_cps]
  exact ⟨rfl, rfl⟩

/-- Settles O23: once the access in flight has completed, `MTSRIM` and `MTSR` end as a move of their value does. -/
theorem moveToSpecial : Obligations.MoveToSpecial := by
  intro sa s hends hsuper hpc s1
  have hpc1 : s1.testing = false ∨ s1.cps.getLsbD 10 = true ∨ sa.toNat ∉ [10, 11, 12] := by
    obtain ⟨ht, hfz⟩ := drain_testing_fz s
    rwa [ht, hfz]
  have hallowed : s1.specialForbidden sa = false :=
    specialForbidden_eq (by rwa [drain_supervisor])
  refine ⟨fun i16 => ?_, fun rb hb => ?_⟩
  · have hexec : exec (.mtsrim sa i16) s = .next (s1.moveResult sa (0#16 ++ i16)) := by
      show execMtsrim sa i16 s = _
      rw [execMtsrim, State.finishAccess_ends hends, hallowed]
      rfl
    refine ⟨_, hexec, ?_⟩
    rw [append16_eq_ofNat, BitVec.toNat_zero, Nat.zero_mul, Nat.zero_add]
    exact moveResult_written sa _ hpc1
  · have hidle : s1.inflight = none := drain_inflight s
    obtain ⟨hready, hwait⟩ := ready_none hidle [s1.absReg .B rb]
    have hexec : exec (.mtsr sa rb) s = .next (s1.moveResult sa (s1.readReg .B (s1.absReg .B rb))) := by
      show execMtsr sa rb s = _
      rw [execMtsr, State.finishAccess_ends hends, hallowed, if_neg Bool.false_ne_true, State.readB_ready hb hready, hwait]
    exact ⟨_, hexec, moveResult_written sa _ hpc1⟩

end Sys2Proof.Machine

/-! Proofs for the family `other`: asserts, byte and half-word instructions, reads of special-purpose and TLB registers, `CLZ`,
`SETIP` and `INV`. -/

namespace Sys2Proof.Machine

/-- Each of the ten asserts tests, by one Boolean function, the relation that it asserts (41 R305 to R314). -/
theorem asserts_decide (vn : BitVec 8) (ra : RegNum) (rb : Src2) :
    ∀ i ∈ asserts vn ra rb, ∃ rel : Word → Word → Bool, (∀ s, exec i s = s.assert vn ra rb rel) ∧
      ∀ a b, rel a b = true ↔ assertRelation i a b := by
  simp only [asserts, List.forall_mem_cons]
  exact ⟨⟨fun a b => a == b, fun _ => rfl, fun _ _ => beq_iff_eq⟩, ⟨fun a b => a != b, fun _ => rfl, fun _ _ => bne_iff_ne⟩,
    ⟨fun a b => a.slt b, fun _ => rfl, fun _ _ => BitVec.slt_iff_toInt_lt⟩,
    ⟨fun a b => a.ult b, fun _ => rfl, fun _ _ => BitVec.ult_iff_toNat_lt⟩,
    ⟨fun a b => a.sle b, fun _ => rfl, fun _ _ => BitVec.sle_iff_toInt_le⟩,
    ⟨fun a b => a.ule b, fun _ => rfl, fun _ _ => BitVec.ule_iff_toNat_le⟩,
    ⟨fun a b => b.slt a, fun _ => rfl, fun _ _ => BitVec.slt_iff_toInt_lt⟩,
    ⟨fun a b => b.ult a, fun _ => rfl, fun _ _ => BitVec.ult_iff_toNat_lt⟩,
    ⟨fun a b => b.sle a, fun _ => rfl, fun _ _ => BitVec.sle_iff_toInt_le⟩,
    ⟨fun a b => b.ule a, fun _ => rfl, fun _ _ => BitVec.ule_iff_toNat_le⟩, List.forall_mem_nil _⟩

/-- An assert whose operands may be used and can be had (41 R304). -/
theorem State.assert_ready {s : State} {ra : RegNum} {rb : Src2} (h : s.SourcesReady ra rb) (vn : BitVec 8)
    (rel : Word → Word → Bool) :
    s.assert vn ra rb rel =
      let s1 := s.atRead ra rb
      if rel (s.srcA ra rb) (s.srcB ra rb) || s1.da then .next s1.retire
      else if !s1.supervisor && decide (vn.toNat < 64) then s1.protectionViolation
      else s1.retire.raiseNext vn :=
  State.sources_ready h fun a b s1 =>
    if rel a b || s1.da then .next s1.retire
    else if !s1.supervisor && decide (vn.toNat < 64) then s1.protectionViolation
    else s1.retire.raiseNext vn

theorem retire_ends (s : State) : WritesNothing s s.retire ∧ PcAdvances s s.retire :=
  ⟨writesNothing_retire s, retire_pcAdvances rfl rfl rfl rfl⟩

theorem alarm_retire (s : State) : s.retire.alarm = s.alarm := by simp [State.alarm, State.nextPins]

/-- Settles O16: an assert whose test is true ends as an instruction that does nothing. -/
theorem assertsThatHoldChangeNothing : Obligations.AssertsThatHoldChangeNothing := by
  intro vn ra rb s h i hi hholds
  obtain ⟨rel, hexec, hrel⟩ := asserts_decide vn ra rb i hi
  refine ⟨_, ?_, retire_ends _⟩
  rw [hexec, State.assert_ready h, (hrel _ _).mpr hholds]
  rfl

/-- An assert whose test is false: `CPS.DA`, the mode and the vector decide among three ends (41 R304, 60 R553). -/
theorem State.assert_fails {s : State} {ra : RegNum} {rb : Src2} (h : s.SourcesReady ra rb) {vn : BitVec 8}
    {rel : Word → Word → Bool} (hfalse : rel (s.srcA ra rb) (s.srcB ra rb) = false) :
    (s.da = true → s.assert vn ra rb rel = .next (s.atRead ra rb).retire) ∧
      (s.da = false → s.supervisor = false → vn.toNat < 64 → s.assert vn ra rb rel = (s.atRead ra rb).takeTrap 14 5#8) ∧
      (s.da = false → (s.supervisor = true ∨ 64 ≤ vn.toNat) →
        s.assert vn ra rb rel = (s.atRead ra rb).retire.raiseNext vn) := by
  rw [State.assert_ready h, hfalse]
  dsimp only
  rw [da_atRead, supervisor_atRead]
  refine ⟨fun hon => ?_, fun hoff huser hlow => ?_, fun hoff hallowed => ?_⟩
  · rw [hon]
    rfl
  · rw [hoff, huser, decide_eq_true hlow]
    show (if (s.atRead ra rb).da && 5#8 != 6#8 then _ else _) = _
    rw [da_atRead, hoff]
    rfl
  · have hnone : (!s.supervisor && decide (vn.toNat < 64)) = false := by
      rcases hallowed with hs | hhigh
      · rw [hs]
        rfl
      · rw [decide_eq_false (by omega), Bool.and_false]
    rw [hoff, hnone]
    rfl

/-- Settles O17: an assert whose test is false goes on, takes Protection Violation, or raises its trap. -/
theorem assertsThatFailTrap : Obligations.AssertsThatFailTrap := by
  intro vn ra rb s h s1 i hi hfails
  obtain ⟨rel, hexec, hrel⟩ := asserts_decide vn ra rb i hi
  obtain ⟨hlost, hviolation, hraise⟩ :=
    State.assert_fails (vn := vn) h ((Bool.not_eq_true _).mp fun ht => hfails ((hrel _ _).mp ht))
  obtain ⟨hwrites, hpc⟩ := retire_ends s1
  obtain ⟨-, htaken, hor⟩ := raiseNext_or s1.retire vn
  rw [hexec]
  refine ⟨s1.retire, hwrites, hpc, hlost, hviolation, fun hoff hallowed => ⟨fun hcalm => ?_, ?_⟩⟩
  · refine (hraise hoff hallowed).trans (htaken ?_ ?_)
    · exact (da_retire s1).trans ((da_atRead s ra rb).trans hoff)
    · exact (alarm_retire s1).trans ((alarm_atRead s ra rb).trans hcalm)
  · rw [hraise hoff hallowed]
    exact hor

/-- `ALU.BP` as a number (10 R77). -/
theorem State.bytePointer_toNat (s : State) : s.bytePointer.toNat = s.alu.toNat / 2 ^ 5 % 4 := by
  rw [State.bytePointer, aluBP, BitVec.extractLsb'_toNat, Nat.shiftRight_eq_div_pow]

theorem byteLow_eq (bo : Bool) (bp : BitVec 2) : byteLow bo bp = byteStart bo bp.toNat := by
  have := bp.isLt
  cases bo with
  | true => rfl
  | false =>
    show 8 * (3 - bp.toNat) = 24 - 8 * bp.toNat
    omega

theorem halfLow_eq (bo : Bool) (bp : BitVec 2) : halfLow bo bp = halfStart bo bp.toNat := by
  revert bo bp
  decide

/-- A field of a word is the number that `fieldOf` gives. -/
theorem extract_eq_fieldOf (w : Word) (i n : Nat) : w.extractLsb' i n = BitVec.ofNat n (fieldOf w i n) := by
  apply BitVec.eq_of_toNat_eq
  rw [BitVec.extractLsb'_toNat, Nat.shiftRight_eq_div_pow, fieldOf, BitVec.toNat_ofNat, Nat.mod_mod]

theorem fieldOf_lt (w : Word) (i n : Nat) : fieldOf w i n < 2 ^ n := Nat.mod_lt _ (Nat.two_pow_pos n)

/-- A word of which the low `n` bits are replaced by a number (44 R393, R394). -/
theorem replaceLow_toNat {m n : Nat} (b : Word) (v : Nat) (hmn : m + n = 32) (hv : v < 2 ^ n) :
    (b.extractLsb' n m ++ BitVec.ofNat n v : BitVec (m + n)).toNat = b.toNat / 2 ^ n * 2 ^ n + v := by
  have hb := b.isLt
  have hdiv : b.toNat / 2 ^ n < 2 ^ m := by
    rw [Nat.div_lt_iff_lt_mul (Nat.two_pow_pos n), ← Nat.pow_add, hmn]
    exact hb
  rw [BitVec.toNat_append, BitVec.toNat_ofNat, Nat.mod_eq_of_lt hv, BitVec.extractLsb'_toNat, Nat.shiftRight_eq_div_pow,
    Nat.mod_eq_of_lt hdiv, ← Nat.shiftLeft_add_eq_or_of_lt hv, Nat.shiftLeft_eq]

theorem word_eq_ofNat {w : Word} {x : Nat} (h : w.toNat = x) : w = BitVec.ofNat 32 x := by
  rw [← h, BitVec.ofNat_toNat, BitVec.setWidth_eq]

theorem replaceByte_eq (a b : Word) (i : Nat) :
    (b.extractLsb' 8 24 ++ a.extractLsb' i 8 : Word) = BitVec.ofNat 32 (b.toNat / 2 ^ 8 * 2 ^ 8 + fieldOf a i 8) := by
  rw [extract_eq_fieldOf a]
  exact word_eq_ofNat (replaceLow_toNat (m := 24) (n := 8) b _ rfl (fieldOf_lt a i 8))

theorem replaceHalf_eq (a b : Word) (i : Nat) :
    (b.extractLsb' 16 16 ++ a.extractLsb' i 16 : Word) = BitVec.ofNat 32 (b.toNat / 2 ^ 16 * 2 ^ 16 + fieldOf a i 16) := by
  rw [extract_eq_fieldOf a]
  exact word_eq_ofNat (replaceLow_toNat (m := 16) (n := 16) b _ rfl (fieldOf_lt a i 16))

/-- The bits of a word of which the field at `i` is replaced by the low end of another (44 R396, R397). -/
theorem insertLow_bits (a b : Word) (i n : Nat) (h : i + n ≤ 32) (k : Nat) :
    (putField a i (b.extractLsb' 0 n)).getLsbD k =
      if i ≤ k ∧ k < i + n then b.getLsbD (k - i) else a.getLsbD k := getLsbD_alias a b i n k h

/-- Settles O21: each instruction writes one word, and its field is the one that BP and BO select. -/
theorem byteAndHalfWordResults : Obligations.ByteAndHalfWordResults := by
  intro rc ra s
  have hbyte (s1 : State) : byteLow s1.byteOrder s1.bytePointer = byteStart (s1.cfg.getLsbD 2) (s1.alu.toNat / 2 ^ 5 % 4) := by
    rw [byteLow_eq, State.bytePointer_toNat]
    rfl
  have hhalf (s1 : State) : halfLow s1.byteOrder s1.bytePointer = halfStart (s1.cfg.getLsbD 2) (s1.alu.toNat / 2 ^ 5 % 4) := by
    rw [halfLow_eq, State.bytePointer_toNat]
    rfl
  have hbyteFits (bo : Bool) (k : Nat) (hk : k < 4) : byteStart bo k + 8 ≤ 32 := by
    unfold byteStart
    split <;> omega
  have hhalfFits (bo : Bool) (k : Nat) (hk : k < 4) : halfStart bo k + 16 ≤ 32 := by
    unfold halfStart
    split <;> omega
  have hlt (x : Nat) : x % 4 < 4 := Nat.mod_lt _ (by decide)
  refine ⟨fun rb h => ⟨?exbyte, ?exhw, ?inbyte, ?inhw⟩, fun hc ha hr => ?exhws⟩
  case exbyte =>
    refine plainBinary_ends h (fun a b s1 => b.extractLsb' 8 24 ++ s1.selectedByte a) rfl ?_
    rw [State.selectedByte, hbyte]
    exact replaceByte_eq _ _ _
  case exhw =>
    refine plainBinary_ends h (fun a b s1 => b.extractLsb' 16 16 ++ s1.selectedHalf a) rfl ?_
    rw [State.selectedHalf, hhalf]
    exact replaceHalf_eq _ _ _
  case inbyte =>
    refine ⟨_, plainBinary_ends h (fun a b s1 => putField a (byteLow s1.byteOrder s1.bytePointer) (b.extractLsb' 0 8)) rfl rfl,
      fun k _ => ?_⟩
    rw [hbyte]
    exact insertLow_bits _ _ _ _ (hbyteFits _ _ (hlt _)) k
  case inhw =>
    refine ⟨_, plainBinary_ends h (fun a b s1 => putField a (halfLow s1.byteOrder s1.bytePointer) (b.extractLsb' 0 16)) rfl rfl,
      fun k _ => ?_⟩
    rw [hhalf]
    exact insertLow_bits _ _ _ _ (hhalfFits _ _ (hlt _)) k
  case exhws =>
    refine ⟨_, exec_exhws_ready hc ha hr, ?_⟩
    rw [State.selectedHalf, hhalf, extract_eq_fieldOf]
    exact plainResult_ends _ _ _

/-- Settles O22: the value read is the one that the register's number names. -/
theorem moveFromSpecial : Obligations.MoveFromSpecial := fun _ sa s hc hs =>
  ⟨_, _, exec_mfsr_ready hs hc, readSpecial_reads s sa, plainResult_ends _ _ _⟩

/-- Settles O26: the count is that of the zeros above the highest 1. -/
theorem clzResult : Obligations.ClzResult := by
  intro rc rb s hc hb hr s1 b
  obtain ⟨hle, hzero, hone⟩ := leadingZeros_bits b 32
  obtain ⟨hwrites, halu, hq, hpc⟩ := plainResult_ends s1 (s.absReg .C rc) (BitVec.ofNat 32 (leadingZeros b 32))
  exact ⟨_, _, exec_clz_ready hc hb hr, hwrites, hle, hzero, hone, halu, hq, hpc⟩

/-- The implemented bits of a TLB register (10 R81, R82). -/
theorem tlbMask_eq (n : BitVec 7) : tlbMask n = tlbBits n.toNat := by
  have hodd : n.getLsbD 0 = decide (n.toNat % 2 = 1) := by
    rw [BitVec.getLsbD, Nat.testBit_zero]
  simp only [tlbMask, tlbBits, hodd, decide_eq_true_eq]

theorem low7_toNat (w : Word) : (w.extractLsb' 0 7).toNat = w.toNat % 2 ^ 7 := by
  rw [BitVec.extractLsb'_toNat, Nat.shiftRight_zero]

/-- A write of a TLB register changes that register, under its mask, and nothing else but the record of old mappings. -/
theorem writeTlb_record (s : State) (n : BitVec 7) (v : Word) :
    ∃ m, s.writeTlb n v = { s with tlb := s.tlb.setIfInBounds n.toNat (v &&& tlbBits n.toNat), oldMaps := m } := by
  rw [← tlbMask_eq]
  unfold State.writeTlb
  dsimp only
  split
  · exact ⟨s.oldMaps, rfl⟩
  · exact ⟨s.rememberMap.oldMaps, rfl⟩

/-- The end of an instruction does not look at the TLB. -/
theorem retire_withTlb (s : State) (x y : Vector Word 128) :
    { ({ s with tlb := x } : State).retire with tlb := y } = ({ s with tlb := y } : State).retire := by
  unfold State.retire State.advance State.advanceTo
  cases ht : s.testing <;> simp [State.traceCopy, State.ageEffects]

/-- An instruction that changes the record of old mappings, or leaves an `INV` pending, and nothing else. -/
theorem writesNothing_hidden {s u : State} (h : u = { s with oldMaps := u.oldMaps, invPending := u.invPending }) :
    WritesNothing s u.retire := by
  rw [h]
  refine ⟨?_, by simp [SamePointers], by simp⟩
  constructor
  case regs => exact fun a ha _ => State.readReg_congr (by simp) (by simp) _ ha
  case memory => exact fun a => by simp
  case special => constructor <;> simp
  case status => exact fun i => by rw [State.retire_cps, State.traceCopy_cps]
  all_goals simp [SameChannel]

/-- Settles O25: `MFTLB` writes one register; `MTTLB` writes one TLB register once the access in flight has completed. -/
theorem tlbMoves : Obligations.TlbMoves := by
  refine ⟨fun rc ra s hs hc ha hr => ⟨_, exec_mftlb_ready hs hc ha hr, ?_⟩, fun ra rb s hs hends => ?_⟩
  · rw [State.readTlb, low7_toNat]
    exact plainResult_ends _ _ _
  · intro s1 ha hb n v
    have hidle : s1.inflight = none := drain_inflight s
    obtain ⟨hready, hwait⟩ := ready_none hidle (s1.sourceRegs ra (.reg rb))
    have hsuper : s1.supervisor = true := (drain_supervisor s).trans hs
    have hat : s1.atRead ra (.reg rb) = s1 := hwait
    have hexec : exec (.mttlb ra rb) s =
        .next (s1.writeTlb ((s1.readReg .A (s1.absReg .A ra)).extractLsb' 0 7) v).retire := by
      show execMttlb ra rb s = _
      rw [execMttlb, State.finishAccess_ends hends, hsuper]
      refine (State.sources_ready (rb := .reg rb) ⟨ha, hb, hready⟩
          fun a b s2 => .next (s2.writeTlb (a.extractLsb' 0 7) b).retire).trans ?_
      rw [State.srcA, State.srcB, hat]
      rfl
    obtain ⟨m, hm⟩ := writeTlb_record s1 ((s1.readReg .A (s1.absReg .A ra)).extractLsb' 0 7) v
    rw [low7_toNat] at hm
    rw [hm] at hexec
    refine ⟨_, hexec, ?_, retire_pcAdvances rfl rfl rfl rfl, fun k hk => ?_⟩
    · rw [retire_withTlb { s1 with oldMaps := m }]
      exact writesNothing_hidden rfl
    · rw [State.retire_tlb]
      show (s1.tlb.setIfInBounds n (v &&& tlbBits n))[k]?.getD 0#32 = _
      rw [Vector.getElem?_setIfInBounds]
      by_cases hkn : n = k
      · rw [if_pos hkn, if_pos hkn.symm, if_pos (hkn ▸ hk)]
        rfl
      · rw [if_neg hkn, if_neg (Ne.symm hkn)]

/-- What a taken branch makes of a pending `INV`: the Branch Target Cache is invalid from the branch on (20 R174). -/
theorem branchTo_invalidates {u : State} (x : IAddr) (h : u.invPending = true) :
    (u.branchTo x).cacheUndefined = false ∧ (u.branchTo x).invPending = false ∧ (u.branchTo x).cacheSince = u.clock := by
  have hpending : u.traceCopy.windowTarget.pendingInvalidate =
      { u.traceCopy.windowTarget with cacheSince := u.clock, cacheUndefined := false, invPending := false } := by
    have hw : u.traceCopy.windowTarget.invPending = true := by simpa using h
    have hc : u.traceCopy.windowTarget.clock = u.clock := by simp
    rw [State.pendingInvalidate, if_pos hw, ← hc]
    rfl
  simp [State.branchTo, hpending]

/-- Settles O27: `SETIP` writes the three pointers alone; after `INV` a branch leaves no copy usable that a block holds. -/
theorem setipAndInv : Obligations.SetipAndInv := by
  refine ⟨fun rc ra rb s ha hb hc => ⟨_, exec_setip_ready ha hb hc, ?setip⟩, fun s hs =>
    ⟨({ s with invPending := true } : State).retire, ?inv, writesNothing_hidden rfl, ?_, ?_, fun u x hu => ?_⟩⟩
  case setip =>
    refine ⟨sameData_retire rfl, State.retire_mode _, retire_pcAdvances rfl rfl rfl rfl, ?_⟩
    rw [State.retire_ipa, State.retire_ipb, State.retire_ipc]
    exact ⟨rfl, rfl, rfl⟩
  case inv =>
    show execInv s = _
    rw [execInv, hs]
    rfl
  · exact retire_pcAdvances rfl rfl rfl rfl
  · exact State.retire_invPending _
  · obtain ⟨hdef, hdone, hsince⟩ := branchTo_invalidates x hu
    refine ⟨hdef, hdone, fun made hmade fits husable => ?_⟩
    rw [State.copyUsable, hsince, decide_eq_false (p := u.clock < made) (Nat.not_lt.mpr hmade), Bool.and_false,
      Bool.or_false] at husable
    exact of_decide_eq_true husable

end Sys2Proof.Machine

/-! Proofs for the family `other`: single loads and stores, and the access in flight. -/

namespace Sys2Proof.Machine

theorem loadForms_exec (ctl : BitVec 8) (ra : RegNum) (rb : Src2) :
    ∀ f ∈ loadForms ctl ra rb, (∀ s, exec f.1 s = s.loadStore true f.2.1 f.2.2 ctl ra rb) ∧
      f.1 ∈ accessForms ctl ra rb := by
  simp only [loadForms, List.forall_mem_cons]
  exact ⟨⟨fun _ => rfl, by simp [accessForms]⟩, ⟨fun _ => rfl, by simp [accessForms]⟩, ⟨fun _ => rfl, by simp [accessForms]⟩,
    List.forall_mem_nil _⟩

theorem storeForms_exec (ctl : BitVec 8) (ra : RegNum) (rb : Src2) :
    ∀ f ∈ storeForms ctl ra rb, (∀ s, exec f.1 s = s.loadStore false false f.2 ctl ra rb) := by
  simp only [storeForms, List.forall_mem_cons]
  exact ⟨fun _ => rfl, fun _ => rfl, List.forall_mem_nil _⟩

theorem retire_stores {s u : State} {ctl : BitVec 8} {pa w : Word} (h : StoresWord s u ctl pa w) :
    StoresWord s u.retire ctl pa w := fun a => by
  rw [State.retire_idm, State.retire_rom]
  exact h a

theorem retire_sameMemory {s u : State} (h : SameMemory s u) : SameMemory s u.retire := fun a => by
  rw [State.retire_idm, State.retire_rom]
  exact h a

theorem retire_tlbIs {u : State} {tlb : Nat → Word} (h : u.TlbIs tlb) : u.retire.TlbIs tlb := fun k hk => by
  rw [State.tlbReg, State.retire_tlb]
  exact h k hk

theorem retire_readReg (u : State) {a : RegNum} (ha : implemented a = true) : u.retire.readReg .A a = u.readReg .A a :=
  State.readReg_congr (State.retire_gpr u) (State.retire_gr1 u) .A ha

theorem retire_spsNow (u : State) : u.retire.sps.now = u.sps.now := by
  rw [State.retire_sps]
  rfl

/-- Settles O31: what the completed access leaves, the instruction's end leaves too. -/
theorem loadCompletes : Obligations.LoadCompletes := by
  intro ctl ra rb s h s1 tr addr f hf pa tlb hgoes hans hlat
  obtain ⟨u, hu, hends, hidle, htlb, hload, -⟩ := loadStore_now h true f.2.1 f.2.2 pa tlb (fun _ => rfl) hgoes hans hlat
  obtain ⟨w, hbrings, hdest, hregs, hnone, hkept, hmem⟩ := hload rfl
  refine ⟨u.retire, w, ((loadForms_exec ctl ra rb f hf).1 s).trans hu, hbrings,
      fun hi => (retire_readReg u hi).trans (hdest hi),
    retire_regs hregs, fun h1 => (retire_spsNow u).trans (hnone h1), fun h1 => (retire_spsNow u).trans ?_, ?_,
    retire_tlbIs htlb, (State.retire_inflight u).trans hidle, hends⟩
  · rw [hkept h1]
  · by_cases hset : f.2.1 = true
    · rw [if_pos hset] at hmem ⊢
      exact retire_stores hmem
    · rw [if_neg hset] at hmem ⊢
      exact retire_sameMemory hmem

/-- Settles O32. -/
theorem storeCompletes : Obligations.StoreCompletes := by
  intro ctl ra rb s h s1 tr addr data f hf pa tlb hgoes hans hlat
  obtain ⟨u, hu, hends, hidle, htlb, -, hstore⟩ :=
    loadStore_now h false false f.2 pa tlb (fun hset => absurd hset Bool.false_ne_true) hgoes hans hlat
  obtain ⟨hregs, hsps, hmem⟩ := hstore rfl
  refine ⟨u.retire, (storeForms_exec ctl ra rb f hf s).trans hu, retire_regs hregs, (retire_spsNow u).trans ?_,
    retire_stores hmem, retire_tlbIs htlb, (State.retire_inflight u).trans hidle, hends⟩
  rw [hsps]

/-- Settles O33: loads and stores alike, an access with a latency stays in flight. -/
theorem overlappedAccess : Obligations.OverlappedAccess := by
  intro ctl ra rb s h s1 tr addr
  refine ⟨fun f hf pa tlb hgoes n hn => ?_, fun f hf pa tlb hgoes n hn => ?_⟩
  · rw [(loadForms_exec ctl ra rb f hf).1 s]
    exact loadStore_late h true f.2.1 f.2.2 pa tlb hgoes n hn
  · rw [storeForms_exec ctl ra rb f hf s]
    exact loadStore_late h false false f.2 pa tlb hgoes n hn

theorem drain_of_inflight {s : State} {d : Access} (hd : s.inflight = some d) : s.drain = s.complete d := by
  rw [State.drain, hd]

theorem drain_sameSpecial (s : State) : SameSpecial s s.drain := by constructor <;> simp

theorem drain_samePointers (s : State) : SamePointers s s.drain := by simp [SamePointers]

/-- Settles O34: the completion of the access, bit by bit of `CHC`. -/
theorem accessCompletes : Obligations.AccessCompletes := by
  intro s d hd hans
  have hdone := complete_ok hans
  rw [← drain_of_inflight hd] at hdone
  refine ⟨settlement_ends hd hans, hdone.inflight, hdone.load, hdone.store, fun i => ?_, State.drain_alu s, State.drain_q s,
    State.drain_cps s, State.drain_cha s, State.drain_chd s, State.drain_tlb s, drain_sameSpecial s, drain_samePointers s⟩
  rw [hdone.chc]
  cases s.frozen with
  | true => simp
  | false =>
    rw [if_neg Bool.false_ne_true, getLsbD_putBit _ _ _ _ (by decide)]
    by_cases hi : i = 0 <;> simp [chcCV, hi]

theorem errorVector_eq (d : Access) : d.errorVector = if d.ctl.getLsbD 7 then 4#8 else 7#8 := rfl

/-- Settles O35: an access that fails leaves its trace in TF, or outside the frozen registers. -/
theorem accessFails : Obligations.AccessFails := by
  intro s d hd hrefused
  have hdrain : s.drain = (s.endAccess d).failAccess d := (drain_of_inflight hd).trans (complete_err hrefused)
  rw [← errorVector_eq, hdrain]
  refine ⟨settlement_error hd hrefused, ?_, fun a ha _ => State.readReg_congr (by simp) (by simp) .A ha, fun a => by simp,
    fun hfree => ?_, fun hfrozen => ?_⟩
  · unfold State.failAccess
    split <;> rfl
  · have hends : (s.endAccess d).frozen = false := hfree
    rw [State.failAccess, hends, if_neg Bool.false_ne_true]
    exact ⟨rfl, fun i => getLsbD_putBit _ _ _ _ (by decide)⟩
  · have hends : (s.endAccess d).frozen = true := hfrozen
    rw [State.failAccess, hends, if_pos rfl]
    exact ⟨rfl, rfl⟩

/-- The completion of an access changes no register but the target of a load that has not been overwritten (20 R146, R147). -/
theorem complete_readReg (s : State) (d : Access) {c : RegNum} (hc : implemented c = true)
    (h : d.isLoad = true → d.tr = c → d.discard = true) : (s.complete d).readReg .A c = s.readReg .A c := by
  unfold State.complete
  split
  · exact State.readReg_congr (by simp) (by simp) .A hc
  · refine (State.readReg_congr (State.clearCv_gpr _) (State.clearCv_gr1 _) .A hc).trans ?_
    have hbus (u : State) (w : Word) : (u.busWrite d w).readReg .A c = u.readReg .A c :=
      State.readReg_congr (State.busWrite_gpr u d w) (State.busWrite_gr1 u d w) .A hc
    have hend : (s.endAccess d).readReg .A c = s.readReg .A c :=
      State.readReg_congr (State.endAccess_gpr s d) (State.endAccess_gr1 s d) .A hc
    have hset : (if d.set then (s.endAccess d).busWrite d 0xFFFFFFFF#32 else s.endAccess d).readReg .A c = s.readReg .A c := by
      split
      · exact (hbus _ _).trans hend
      · exact hend
    unfold State.transfer
    cases hl : d.isLoad with
    | false => exact (hbus _ _).trans hend
    | true =>
      rw [if_pos rfl]
      cases hdis : d.discard with
      | true => exact hset
      | false =>
        have hne : c ≠ d.tr := fun e => absurd (hdis.symm.trans (h hl e.symm)) Bool.false_ne_true
        refine (State.readReg_storeReg _ _ _ _ _ _ hc).trans ?_
        rw [if_neg hne]
        exact hset

theorem writeReg_inflight_eq (s : State) (shadow : Bool) (c : RegNum) (w : Word) :
    (s.writeReg shadow c w).inflight = s.inflightAfterWrite c := by
  rw [State.writeReg, State.storeReg_inflight, State.noteOverwrite_inflight]

/-- After a write of its target a load in flight drops its data (20 R146). -/
theorem discard_of_overwritten {s : State} {shadow : Bool} {c : RegNum} {w : Word} {d : Access}
    (hd : (s.writeReg shadow c w).inflight = some d) (hl : d.isLoad = true) (ht : d.tr = c) : d.discard = true := by
  rw [writeReg_inflight_eq, State.inflightAfterWrite] at hd
  cases hin : s.inflight with
  | none =>
    rw [hin] at hd
    split at hd
    · simp at hd
    · simp at hd
  | some e =>
    have hover : s.overwrites c = (e.isLoad && e.tr == c) := by rw [State.overwrites, hin]
    rw [hin] at hd
    split at hd
    · simp only [Option.map_some, Option.some.injEq] at hd
      rw [← hd]
    · rename_i hno
      simp only [Option.some.injEq] at hd
      rw [hover, hd, hl, ht] at hno
      simp at hno

/-- Settles O36: the write drops the data of a load to its register, and the completion of an access changes no other. -/
theorem overwrittenLoadDropped : Obligations.OverwrittenLoadDropped := by
  intro s shadow c w hc
  have hwritten : (s.writeReg shadow c w).readReg .A c = w := by
    rw [State.readReg_writeReg _ _ _ _ _ _ hc, if_pos rfl]
  refine ⟨?_, fun hover hfree => ?_⟩
  · cases hd : (s.writeReg shadow c w).inflight with
    | none => rw [State.drain, hd, hwritten]
    | some d => rw [drain_of_inflight hd, complete_readReg _ d hc (discard_of_overwritten hd), hwritten]
  · have hchc : (s.writeReg shadow c w).chc = s.chc ||| 2#32 := by
      rw [State.writeReg, State.storeReg_chc, State.noteOverwrite_chc, State.chcAfterWrite, hover, hfree]
      rfl
    rw [hchc, BitVec.getLsbD_or]
    simp

/-- A trap of a load or store that has ended, with no access in flight: it stops with `CPS.DA` = 1, and enters its handler where
nothing of the pins takes its place (60 R547, R553). -/
theorem raiseAccess_disabled {t : State} (hda : t.da = true) (vn : Byte) : t.raiseAccess vn = .refused (.disabledTrap vn) := by
  rw [State.raiseAccess, hda]
  rfl

theorem raiseAccess_entered {t : State} {vn : Byte} (hda : t.da = false) (hidle : t.inflight = none)
    (hlost : t.trapLost = false) (hv : t.vectorReadable = true) : ∃ u, t.raiseAccess vn = .next u ∧ TrapEntered t u vn := by
  have hdrain : t.drain = t := by rw [State.drain, hidle]
  have hends : t.settlement = .ends := by rw [State.settlement, hidle]
  obtain ⟨u, hu, hentered⟩ := takeTrap_entered (s := t) (prio := 2) (vn := vn) (by rwa [hdrain]) (.inl hends)
  rw [hdrain] at hentered
  refine ⟨u, ?_, hentered⟩
  rw [State.raiseAccess, hda, hlost]
  exact hu

/-- What the taking of a trap looks at is untouched by the issue of an access and the end of the instruction. -/
theorem retire_touched_mayTrap {s t : State} (hm : s.MayTrap) (ht : Touched s.drain t) :
    t.retire.trapLost = false ∧ t.retire.vectorReadable = true := by
  obtain ⟨hreset, hwarn, -, hv⟩ := hm
  have hpins : t.retire.pins = s.pins := by rw [State.retire_pins, ht, State.drain_pins]
  have henv : t.retire.env = s.drain.env := by rw [State.retire_env, ht]
  have hevents : s.drain.env.events = s.env.events := by
    rw [State.drain_env]
    split <;> rfl
  have hnext : t.retire.nextPins = s.nextPins := by rw [State.nextPins, henv, hevents, hpins, State.nextPins]
  refine ⟨trapLost_false (hnext ▸ hreset) (by rw [hnext, hpins]; exact hwarn), ?_⟩
  have hcfg : t.retire.cfg = s.drain.cfg := by rw [State.retire_cfg, ht]
  rw [State.vectorReadable, hcfg, henv]
  exact hv

/-- What the issue of an access and the end of the instruction leave as it was, but for `LRU` and what `Touched` names. -/
structure EndsTouched (s t : State) : Prop where
  special : SameSpecial s { t with lru := s.lru }
  pointers : SamePointers s t
  q : t.q = s.q
  mode : t.mode = s.mode
  pc : PcAdvances s t
  regs : SameRegs s t []
  memory : SameMemory s t
  shadow : t.sps.now = s.sps.now
  inflight : t.inflight = s.inflight

theorem Touched.retire {s t : State} (h : Touched s t) : EndsTouched s t.retire := by
  rw [h]
  constructor
  case special => constructor <;> simp
  case pc => exact retire_pcAdvances rfl rfl rfl rfl
  case regs => exact fun a ha _ => State.readReg_congr (by simp) (by simp) .A ha
  case memory => exact fun a => by simp
  all_goals simp [SamePointers]

theorem ChannelIs.retire {s t : State} {ctl : BitVec 8} {isLoad ml set la : Bool} {cr : BitVec 8} {tr : RegNum}
    {addr data : Word} {cv : Bool} (h : ChannelIs s t ctl isLoad ml set la cr tr addr data cv) :
    ChannelIs s t.retire ctl isLoad ml set la cr tr addr data cv :=
  ⟨(State.retire_cha t).trans h.cha, by rw [State.retire_chd]; exact h.chd, (State.retire_chc t).trans h.chc⟩

/-- What a single load or store leaves whose issue raises a trap (20 R149 (d)). -/
theorem accessTraps_of_issue {s : State} {ctl : BitVec 8} {ra : RegNum} {rb : Src2} (h : s.MayAccess ctl ra rb)
    (hda : s.da = false) (hm : s.MayTrap) {isLoad set la : Bool} {i : Instr}
    (hexec : exec i s = s.loadStore isLoad set la ctl ra rb) {vn : Byte} {tlb : Nat → Word} {lru : Word → Prop}
    (hissue :
      let d := s.drain.descriptor isLoad set la ctl (s.absReg .A ra) (s.drain.srcValue (s.resolve rb))
        (if isLoad then 0#32 else s.drain.readReg .A (s.absReg .A ra))
      ∃ t, s.drain.issue d false s.drain.countRemaining = .trap vn t ∧ Issue s.drain t d false s.drain.countRemaining ∧
        t.TlbIs tlb ∧ lru t.lru ∧ t.cps = s.drain.cps) :
    AccessTraps s.drain i s ctl isLoad set la (s.absReg .A ra) (s.drain.srcValue (s.resolve rb))
      (if isLoad then 0#32 else s.drain.readReg .A (s.absReg .A ra)) vn tlb lru := by
  obtain ⟨t, ht, hi, htlb, hlru, hcps⟩ := hissue
  have hto := hi.touched
  obtain ⟨hlost, hv⟩ := retire_touched_mayTrap hm hto
  have hidle : t.retire.inflight = none := by rw [State.retire_inflight, hto, drain_inflight]
  have htda : t.retire.da = false := by rw [da_retire, State.da, hcps, State.drain_cps]; exact hda
  obtain ⟨u, hu, hentered⟩ := raiseAccess_entered htda hidle hlost hv
  have hrun : exec i s = .next u := by
    rw [hexec, loadStore_run h, ht]
    exact hu
  have hends := hto.retire
  exact ⟨t.retire, u, hrun, hentered, hi.channel.retire, fun k => by rw [State.retire_alu]; exact hi.alu k,
    fun k => by rw [State.retire_cps, State.traceCopy_cps, hcps], hends.special, hends.pointers, hends.q, hends.mode, hends.pc,
    hends.regs, hends.memory, retire_tlbIs htlb, by rw [State.retire_lru]; exact hlru, hends.shadow, hidle⟩

/-- Settles O37: the four traps in the order in which the issue of an access tests for them. -/
theorem dataAccessTraps : Obligations.DataAccessTraps := by
  intro ctl ra rb s h hda hm s1 tr addr traps
  have htraps (i : Instr) (isLoad set la : Bool) (hexec : exec i s = s.loadStore isLoad set la ctl ra rb) :
      traps i isLoad set la (if isLoad then 0#32 else s1.readReg .A tr) := by
    refine ⟨fun hce hcp => ?absent, fun htx hage hmiss => ?miss, fun e htx hage hhit hperm => ?prot,
      fun hmis => ⟨fun htx => ?physical, fun e htx hage hhit hperm => ?translated⟩⟩
    case absent =>
      exact accessTraps_of_issue h hda hm hexec (lru := (· = s1.lru)) (issue_absent hce hcp)
    case miss => exact accessTraps_of_issue h hda hm hexec (issue_miss rfl htx hage hmiss)
    case prot =>
      exact accessTraps_of_issue h hda hm hexec (lru := fun lru => lru &&& 0xFFFFFF81#32 = 0#32)
        (issue_prot rfl htx hage hhit hperm)
    case physical =>
      refine accessTraps_of_issue h hda hm hexec (lru := (· = s1.lru)) (issue_unaligned rfl hmis ?_)
      exact (if_neg fun ht => absurd (htx.symm.trans ht) Bool.false_ne_true).mpr rfl
    case translated =>
      refine accessTraps_of_issue h hda hm hexec (lru := (· = s1.lru)) (issue_unaligned rfl hmis ?_)
      exact (if_pos htx).mpr ⟨hage, e, hhit, hperm, rfl⟩
  exact ⟨fun f hf => htraps f.1 true f.2.1 f.2.2 ((loadForms_exec ctl ra rb f hf).1 s),
    fun f hf => htraps f.1 false false f.2 (storeForms_exec ctl ra rb f hf s)⟩

/-- A load or store, single or multiple, that may begin: its first access is issued, and a trap of it is raised (20 R149). -/
theorem accessForms_first {s : State} {ctl : BitVec 8} {ra : RegNum} {rb : Src2} (h : s.MayAccess ctl ra rb) :
    ∀ i ∈ accessForms ctl ra rb, (i ∈ [Instr.loadm ctl ra rb, .storem ctl ra rb] → s.MaySequence ctl ra rb) →
      ∃ d ml cr, d.ctl = ctl ∧ d.addr = s.drain.srcValue (s.resolve rb) ∧ d.want = wantOf i ∧ d.user = s.drain.asUser ctl ∧
        ∀ vn t, s.drain.issue d ml cr = .trap vn t → exec i s = t.retire.raiseAccess vn := by
  have hsingle (i : Instr) (isLoad set la : Bool) (hexec : exec i s = s.loadStore isLoad set la ctl ra rb)
      (hwant : (if isLoad then (if set then Want.loadset else .load) else .store) = wantOf i) :
      ∃ d ml cr, d.ctl = ctl ∧ d.addr = s.drain.srcValue (s.resolve rb) ∧ d.want = wantOf i ∧ d.user = s.drain.asUser ctl ∧
        ∀ vn t, s.drain.issue d ml cr = .trap vn t → exec i s = t.retire.raiseAccess vn :=
    ⟨s.drain.descriptor isLoad set la ctl (s.absReg .A ra) (s.drain.srcValue (s.resolve rb))
      (if isLoad then 0#32 else s.drain.readReg .A (s.absReg .A ra)), false, _, rfl, rfl, hwant, rfl,
      fun vn t ht => by rw [hexec, loadStore_run h, ht]⟩
  have hmultiple (i : Instr) (isLoad : Bool) (hm : s.MaySequence ctl ra rb)
      (hexec : exec i s = s.loadStoreMultiple isLoad ctl ra rb)
      (hwant : (if isLoad then Want.load else .store) = wantOf i) :
      ∃ d ml cr, d.ctl = ctl ∧ d.addr = s.drain.srcValue (s.resolve rb) ∧ d.want = wantOf i ∧ d.user = s.drain.asUser ctl ∧
        ∀ vn t, s.drain.issue d ml cr = .trap vn t → exec i s = t.retire.raiseAccess vn :=
    ⟨s.drain.descriptor isLoad false false ctl (s.absReg .A ra) (s.drain.srcValue (s.resolve rb))
      (if isLoad then 0#32 else s.drain.readReg .A (s.absReg .A ra)), true, _, rfl, rfl, hwant, rfl, fun vn t ht => by
      rw [hexec, mult_start isLoad hm, State.runMultiple, ht]
      rfl⟩
  simp only [accessForms, List.forall_mem_cons]
  exact ⟨fun _ => hsingle _ true false false rfl rfl, fun _ => hsingle _ true false true rfl rfl,
    fun _ => hsingle _ true true false rfl rfl, fun _ => hsingle _ false false false rfl rfl,
    fun _ => hsingle _ false false true rfl rfl, fun hm => hmultiple _ true (hm (by simp)) rfl rfl,
    fun hm => hmultiple _ false (hm (by simp)) rfl rfl, List.forall_mem_nil _⟩

/-- Where a multiple sequence stops before it begins (44 R389, 60 R614). -/
theorem loadStoreMultiple_stops {s : State} {ctl : BitVec 8} {ra : RegNum} {rb : Src2}
    (hallowed : s.accessForbidden ctl (s.absReg .A ra) (s.resolve rb) = false) (isLoad : Bool) :
    (s.testing = true → s.loadStoreMultiple isLoad ctl ra rb = .refused .excludedFromTest) ∧
      (s.testing = false → s.cps.getLsbD 10 = true → s.loadStoreMultiple isLoad ctl ra rb = .refused .multipleFrozen) ∧
      (s.testing = false → s.cps.getLsbD 10 = false → s.afterMultiple = true →
        s.loadStoreMultiple isLoad ctl ra rb = .refused .multipleAdjacent) ∧
      (s.testing = false → s.cps.getLsbD 10 = false → s.afterMultiple = false → s.mlByMove = true →
        s.chc.getLsbD 14 = true → s.loadStoreMultiple isLoad ctl ra rb = .refused .multipleSetByMove) := by
  unfold State.loadStoreMultiple
  dsimp only
  rw [hallowed, if_neg Bool.false_ne_true]
  refine ⟨fun ht => if_pos ht, fun ht hfz => ?_, fun ht hfz ha => ?_, fun ht hfz ha hml h14 => ?_⟩
  · rw [ht, show s.fz = true from hfz]
    rfl
  · rw [ht, show s.fz = false from hfz, ha]
    rfl
  · have hmove : s.multipleByMove = true := by
      rw [State.multipleByMove, hml, show s.chc.getLsbD chcML = true from h14, State.frozen, ht, show s.fz = false from hfz]
      rfl
    rw [ht, show s.fz = false from hfz, ha, hmove]
    rfl

/-- Settles O60: the refusals are read off the beginning of each instruction; a trap of the first access stops with
`CPS.DA` = 1. -/
theorem stops : Obligations.Stops := by
  intro ctl ra rb s hallowed
  refine ⟨fun hfree hml h14 i hi => ?_, ?_, ?_, fun h hda i hi hm => ?_⟩
  · have hmove : s.multipleByMove = true := by
      rw [State.multipleByMove, hml, show s.chc.getLsbD chcML = true from h14, hfree]
      rfl
    have hsingle (isLoad set la : Bool) : s.loadStore isLoad set la ctl ra rb = .refused .multipleSetByMove := by
      unfold State.loadStore
      dsimp only
      rw [hallowed, hmove]
      rfl
    revert i
    simp only [List.forall_mem_cons]
    exact ⟨hsingle true false false, hsingle true false true, hsingle true true false, hsingle false false false,
      hsingle false false true, List.forall_mem_nil _⟩
  · simp only [List.forall_mem_cons]
    exact ⟨loadStoreMultiple_stops hallowed true, loadStoreMultiple_stops hallowed false, List.forall_mem_nil _⟩
  · have hreturn (b : Bool) (ht : s.testing = true) : s.interruptReturn b = .refused .excludedFromTest := if_pos ht
    simp only [List.forall_mem_cons]
    exact ⟨hreturn false, hreturn true, List.forall_mem_nil _⟩
  · obtain ⟨d, ml, cr, rfl, haddr, hwant, huser, hfirst⟩ := accessForms_first h i hi hm
    have hstops (vn : Byte) (hissue : ∃ t, s.drain.issue d ml cr = .trap vn t ∧ t.cps = s.drain.cps) :
        exec i s = .refused (.disabledTrap vn) := by
      obtain ⟨t, ht, hcps⟩ := hissue
      refine (hfirst vn t ht).trans (raiseAccess_disabled ?_ vn)
      rw [da_retire, State.da, hcps, State.drain_cps]
      exact hda
    intro s1 addr
    rw [← hwant]
    have haddr1 : addr = d.addr := haddr.symm
    rw [haddr1]
    refine ⟨fun hce hcp => hstops _ ?absent, fun htx hage hmiss => hstops _ ?miss, fun e htx hage hhit hperm => hstops _ ?prot,
      fun hmis => ⟨fun htx => hstops _ ?physical, fun e htx hage hhit hperm => hstops _ ?translated⟩⟩
    case absent =>
      obtain ⟨t, ht, -, -, -, hcps⟩ := issue_absent (ml := ml) (cr := cr) hce hcp
      exact ⟨t, ht, hcps⟩
    case miss =>
      obtain ⟨t, ht, -, -, -, hcps⟩ := issue_miss (ml := ml) (cr := cr) huser htx hage hmiss
      exact ⟨t, ht, hcps⟩
    case prot =>
      obtain ⟨t, ht, -, -, -, hcps⟩ := issue_prot (ml := ml) (cr := cr) huser htx hage hhit hperm
      exact ⟨t, ht, hcps⟩
    case physical =>
      obtain ⟨t, ht, -, -, -, hcps⟩ := issue_unaligned (ml := ml) (cr := cr) (tlb := s1.tlbReg) huser hmis
        ((if_neg fun ht => absurd (htx.symm.trans ht) Bool.false_ne_true).mpr rfl)
      exact ⟨t, ht, hcps⟩
    case translated =>
      obtain ⟨t, ht, -, -, -, hcps⟩ := issue_unaligned (ml := ml) (cr := cr) (tlb := s1.usedTlb d.addr e) huser hmis
        ((if_pos htx).mpr ⟨hage, e, hhit, hperm, rfl⟩)
      exact ⟨t, ht, hcps⟩

end Sys2Proof.Machine

/-! Proofs for the family `other`: bank protection, privileged instructions, and the instructions that software emulates. -/

namespace Sys2Proof.Machine

/-- Protection Violation, with `CPS.DA` written out (60 R538, R553). -/
theorem State.protectionViolation_eq (s : State) :
    s.protectionViolation = if s.cps.getLsbD 0 then .refused (.disabledTrap 5#8) else s.takeTrap 14 5#8 := by
  rw [State.protectionViolation, State.raiseCurr, show s.da = s.cps.getLsbD 0 from rfl, show (5#8 != 6#8) = true from rfl,
    Bool.and_true]

/-- A register of a protected bank, for a program without access to protected state (10 R35). -/
theorem isProtected_of_bank {s : State} {a : RegNum} (ht : s.testing = false) (huser : s.cps.getLsbD 4 = false)
    (h2 : 2 ≤ a.toNat) (hbank : s.rbp.getLsbD (a.toNat / 16) = true) : s.isProtected a = true ∧ s.supervisor = false := by
  have hsuper : s.supervisor = false := by
    rw [State.supervisor, show s.cps.getLsbD cpsSM = false from huser, ht]
    rfl
  refine ⟨?_, hsuper⟩
  rw [State.isProtected, hsuper, decide_eq_true h2, hbank]
  rfl

/-- The operand `RB or I` is protected if one of the registers that it reads is. -/
theorem protectedSrc_of_mem {s : State} {b : Src2} {a : RegNum} (ha : a ∈ srcRegs b) (h : s.isProtected a = true) :
    s.protectedSrc b = true := by
  cases b with
  | reg n => exact (List.mem_singleton.mp ha) ▸ h
  | imm i => exact absurd ha List.not_mem_nil

theorem protected_of_sources {s : State} {ra r : RegNum} {rb : Src2} (hr : r ∈ s.sourceRegs ra rb)
    (h : s.isProtected r = true) : (s.isProtected (s.absReg .A ra) || s.protectedSrc (s.resolve rb)) = true := by
  rcases List.mem_cons.mp hr with rfl | hsrc
  · rw [h, Bool.true_or]
  · rw [protectedSrc_of_mem hsrc h, Bool.or_true]

theorem protected_of_pair {s : State} {x y r : RegNum} (hr : r ∈ [x, y]) (h : s.isProtected r = true) :
    (s.isProtected x || s.isProtected y) = true := by
  rcases List.mem_cons.mp hr with rfl | hy
  · rw [h, Bool.true_or]
  · rw [← List.mem_singleton.mp hy, h, Bool.or_true]

section Forms

variable {s : State} {rc ra n : RegNum} {rb : Src2}

/-! Every instruction of a form tests the registers of the form before it does anything else (10 R35). -/

theorem binaryForms_protected
    (h : (s.isProtected (s.absReg .C rc) || s.isProtected (s.absReg .A ra) || s.protectedSrc (s.resolve rb)) = true) :
    ∀ i ∈ binaryForms rc ra rb, exec i s = s.protectionViolation := by
  simp only [binaryForms, List.forall_mem_cons, List.not_mem_nil, false_implies, implies_true, and_true]
  and_intros
  all_goals exact if_pos h

theorem unaryB_protected (h : (s.isProtected (s.absReg .C rc) || s.protectedSrc (s.resolve rb)) = true) :
    ∀ i ∈ [Instr.div0 rc rb, .clz rc rb], exec i s = s.protectionViolation := by
  simp only [List.forall_mem_cons, List.not_mem_nil, false_implies, implies_true, and_true]
  exact ⟨if_pos h, if_pos h⟩

theorem asserts_protected {vn : BitVec 8} (h : (s.isProtected (s.absReg .A ra) || s.protectedSrc (s.resolve rb)) = true) :
    ∀ i ∈ asserts vn ra rb, exec i s = s.protectionViolation := by
  simp only [asserts, List.forall_mem_cons, List.not_mem_nil, false_implies, implies_true, and_true]
  and_intros
  all_goals exact if_pos h

/-- What forbids an access is tested before anything else of a load or store (20 R149 (a)). -/
theorem accessForms_forbidden {ctl : BitVec 8} (h : s.accessForbidden ctl (s.absReg .A ra) (s.resolve rb) = true) :
    ∀ i ∈ accessForms ctl ra rb, exec i s = s.protectionViolation := by
  simp only [accessForms, List.forall_mem_cons, List.not_mem_nil, false_implies, implies_true, and_true]
  and_intros
  all_goals exact if_pos h

theorem unaryA_protected (h : (s.isProtected (s.absReg .A ra) || s.isProtected (s.absReg .C rc)) = true) :
    ∀ i ∈ Instr.exhws rc ra :: (conversionForms rc ra).map Prod.fst, exec i s = s.protectionViolation := by
  simp only [conversionForms, List.map_cons, List.map_nil, List.forall_mem_cons, List.not_mem_nil, false_implies, implies_true,
    and_true]
  refine ⟨if_pos (by rwa [Bool.or_comm]), ?_⟩
  and_intros
  all_goals exact if_pos h

theorem oneA_protected {abs : Bool} {i16 : BitVec 16} (h : s.isProtected (s.absReg .A ra) = true) :
    ∀ i ∈ [Instr.const ra i16, .consth ra i16, .constn ra i16, .jmpt abs ra i16, .jmpf abs ra i16, .jmpfdec abs ra i16,
      .call abs ra i16], exec i s = s.protectionViolation := by
  simp only [List.forall_mem_cons, List.not_mem_nil, false_implies, implies_true, and_true]
  and_intros
  all_goals exact if_pos h

theorem twoJumps_protected (h : (s.isProtected (s.absReg .A ra) || s.isProtected (s.absReg .B n)) = true) :
    ∀ i ∈ [Instr.jmpti ra n, .jmpfi ra n], exec i s = s.protectionViolation := by
  simp only [List.forall_mem_cons, List.not_mem_nil, false_implies, implies_true, and_true]
  exact ⟨if_pos h, if_pos h⟩

theorem calli_protected (h : (s.isProtected (s.absReg .A ra) || s.isProtected (s.absReg .B n)) = true) :
    exec (.calli ra n) s = s.protectionViolation := by
  show execCalli ra n s = _
  rw [execCalli]
  cases ha : s.isProtected (s.absReg .A ra) with
  | true => rfl
  | false =>
    rw [ha, Bool.false_or] at h
    exact if_pos h

theorem emulate_protected {vn : BitVec 8} (h : (s.isProtected (s.absReg .A ra) || s.isProtected (s.absReg .B n)) = true) :
    exec (.emulate vn ra n) s = s.protectionViolation := by
  show execEmulate vn ra n s = _
  rw [execEmulate, h]
  exact ite_self _

theorem three_protected
    (h : (s.isProtected (s.absReg .A ra) || s.isProtected (s.absReg .B n) || s.isProtected (s.absReg .C rc)) = true) :
    ∀ i ∈ Instr.setip rc ra n :: (emulatedForms rc ra n).map Prod.fst, exec i s = s.protectionViolation := by
  simp only [emulatedForms, List.map_cons, List.map_nil, List.forall_mem_cons, List.not_mem_nil, false_implies, implies_true,
    and_true]
  and_intros
  all_goals exact if_pos h

theorem mfsr_protected {sa : BitVec 8} (h : s.isProtected (s.absReg .C rc) = true) :
    exec (.mfsr rc sa) s = s.protectionViolation := if_pos (by rw [h, Bool.or_true])

theorem mftlb_user (h : s.supervisor = false) : exec (.mftlb rc ra) s = s.protectionViolation :=
  if_pos (by rw [h]; rfl)

theorem mtsr_protected {sa : BitVec 8} (hends : s.settlement = .ends) (h : s.drain.isProtected (s.drain.absReg .B n) = true) :
    exec (.mtsr sa n) s = s.drain.protectionViolation := by
  show execMtsr sa n s = _
  rw [execMtsr, State.finishAccess_ends hends]
  cases s.drain.specialForbidden sa with
  | true => rfl
  | false => exact if_pos h

end Forms

/-- Settles O41: form by form, the test of the registers comes first. -/
theorem bankProtection : Obligations.BankProtection := by
  intro rc ra n rb ctl vn sa abs i16 s ht isProtected a b c traps
  have hbank (u : State) (hu : u.testing = false) (regs : List RegNum) (h : isProtected u regs) :
      ∃ r ∈ regs, u.isProtected r = true ∧ u.supervisor = false := by
    obtain ⟨r, hr, huser, h2, hrbp⟩ := h
    exact ⟨r, hr, isProtected_of_bank hu huser h2 hrbp⟩
  have htraps (regs : List RegNum) (forms : List Instr)
      (h : ∀ r ∈ regs, s.isProtected r = true → s.supervisor = false → ∀ i ∈ forms, exec i s = s.protectionViolation) :
      traps regs forms := by
    intro hp i hi
    obtain ⟨r, hr, hprot, huser⟩ := hbank s ht regs hp
    rw [h r hr hprot huser i hi, State.protectionViolation_eq]
  refine ⟨htraps _ _ fun r hr hp _ => binaryForms_protected ?_, htraps _ _ fun r hr hp _ => unaryB_protected ?_,
    htraps _ _ fun r hr hp _ i hi => ?_, htraps _ _ fun r hr hp huser i hi => ?_, htraps _ _ fun r hr hp _ => oneA_protected ?_,
    htraps _ _ fun r hr hp _ i hi => ?_, htraps _ _ fun r hr hp _ => three_protected ?_,
    htraps _ _ fun r hr hp _ i hi => ?_, htraps _ _ fun r hr hp _ i hi => ?_, fun hends hp => ?_⟩
  · rw [Bool.or_assoc]
    rcases List.mem_cons.mp hr with rfl | hsrc
    · rw [hp, Bool.true_or]
    · rw [protected_of_sources hsrc hp, Bool.or_true]
  · rcases List.mem_cons.mp hr with rfl | hsrc
    · rw [hp, Bool.true_or]
    · rw [protectedSrc_of_mem hsrc hp, Bool.or_true]
  · have hsrc := protected_of_sources hr hp
    rcases List.mem_append.mp hi with hassert | haccess
    · exact asserts_protected hsrc i hassert
    · refine accessForms_forbidden ?_ i haccess
      rw [State.accessForbidden, Bool.or_assoc, hsrc, Bool.or_true]
  · rcases List.mem_cons.mp hi with rfl | hrest
    · exact unaryA_protected (by rw [Bool.or_comm]; exact protected_of_pair hr hp) _ (List.mem_cons_self ..)
    · rcases List.mem_cons.mp hrest with rfl | hconv
      · exact mftlb_user huser
      · exact unaryA_protected (by rw [Bool.or_comm]; exact protected_of_pair hr hp) i (List.mem_cons_of_mem _ hconv)
  · have hra : r = s.absReg .A ra := List.mem_singleton.mp hr
    rwa [← hra]
  · have hpair := protected_of_pair hr hp
    revert i
    simp only [List.forall_mem_cons, List.not_mem_nil, false_implies, implies_true, and_true]
    exact ⟨calli_protected hpair, twoJumps_protected hpair _ (by simp), twoJumps_protected hpair _ (by simp),
      emulate_protected hpair⟩
  · rcases List.mem_cons.mp hr with rfl | hrest
    · rw [hp, Bool.true_or, Bool.true_or]
    · rw [Bool.or_assoc, protected_of_pair hrest hp, Bool.or_true]
  · have hrb : r = s.absReg .B n := List.mem_singleton.mp hr
    rw [List.mem_singleton.mp hi]
    exact if_pos (hrb ▸ hp)
  · have hrc : r = s.absReg .C rc := List.mem_singleton.mp hr
    rw [List.mem_singleton.mp hi]
    exact mfsr_protected (hrc ▸ hp)
  · obtain ⟨r, hr, hprot, -⟩ := hbank s.drain ((State.drain_testing s).trans ht) _ hp
    rw [List.mem_singleton.mp hr] at hprot
    rw [mtsr_protected hends hprot, State.protectionViolation_eq, State.drain_cps]

/-- Protection Violation where it can be taken, before or after the wait for the access in flight. -/
theorem protectionViolation_entered {s : State} (hda : s.cps.getLsbD 0 = false) (hends : s.settlement = .ends)
    (hv : s.drain.vectorReadable = true) :
    (∃ t, s.protectionViolation = .next t ∧ TrapEntered s.drain t 5#8) ∧
      ∃ t, s.drain.protectionViolation = .next t ∧ TrapEntered s.drain t 5#8 := by
  have hidle : s.drain.inflight = none := drain_inflight s
  have hdrain : s.drain.drain = s.drain := by rw [State.drain.eq_def s.drain, hidle]
  refine ⟨raiseCurr_entered (.inl hda) hends hv, ?_⟩
  have h := raiseCurr_entered (s := s.drain) (vn := 5#8) (.inl (by rwa [State.drain_cps])) (by rw [State.settlement, hidle])
    (by rwa [hdrain])
  rwa [hdrain] at h

/-- A User-mode program may not name a special-purpose register below 128 (10 R41). -/
theorem specialForbidden_user {s : State} {sa : BitVec 8} (huser : s.supervisor = false) (h : sa.toNat < 128) :
    s.specialForbidden sa = true := by
  have htop : sa.getLsbD 7 = false := by
    rw [getLsbD_top sa rfl]
    exact decide_eq_false (by omega)
  rw [State.specialForbidden, huser, htop]
  rfl

/-- Every privileged instruction is a Protection Violation in User mode; the moves to registers wait for the access in flight
first (60 R590, 44 R401). -/
theorem privileged_user {rc ra rb : RegNum} {sa : BitVec 8} {i16 : BitVec 16} {s : State} (huser : s.supervisor = false)
    (ht : s.testing = false) (hends : s.settlement = .ends) (hsa : sa.toNat < 128) :
    ∀ i ∈ privileged rc ra rb sa i16, exec i s = s.protectionViolation ∨ exec i s = s.drain.protectionViolation := by
  have huser' : s.drain.supervisor = false := (drain_supervisor s).trans huser
  have hnot : (!s.supervisor) = true := by rw [huser]; rfl
  have hnot' : (!s.drain.supervisor) = true := by rw [huser']; rfl
  have hreturn (b : Bool) : s.interruptReturn b = s.protectionViolation := by
    rw [State.interruptReturn, ht, if_neg Bool.false_ne_true, if_pos hnot]
  simp only [privileged, List.forall_mem_cons, List.not_mem_nil, false_implies, implies_true, and_true]
  refine ⟨.inl (if_pos ?_), .inr ?_, .inr ?_, .inl (mftlb_user huser), .inr ?_, .inl (if_pos hnot), .inl (if_pos hnot),
    .inl (hreturn false), .inl (hreturn true)⟩
  · rw [specialForbidden_user huser hsa, Bool.true_or]
  · show execMtsr sa rb s = _
    rw [execMtsr, State.finishAccess_ends hends]
    exact if_pos (specialForbidden_user huser' hsa)
  · show execMtsrim sa i16 s = _
    rw [execMtsrim, State.finishAccess_ends hends]
    exact if_pos (specialForbidden_user huser' hsa)
  · show execMttlb ra rb s = _
    rw [execMttlb, State.finishAccess_ends hends]
    exact if_pos hnot'

/-- Settles O42: each is a Protection Violation, which is taken. -/
theorem privilegedInstructionsTrap : Obligations.PrivilegedInstructionsTrap := by
  intro rc ra rb sa ctl i16 src s ht huser hda hends hv
  have hsuper : s.supervisor = false := by
    rw [State.supervisor, show s.cps.getLsbD cpsSM = false from huser, ht]
    rfl
  obtain ⟨hhere, hafter⟩ := protectionViolation_entered hda hends hv
  refine ⟨fun hsa i hi => ?_, fun hce hpa i hi => ?_⟩
  · rcases privileged_user hsuper ht hends hsa i hi with he | he
    · rw [he]
      exact hhere
    · rw [he]
      exact hafter
  · have hforbidden : s.accessForbidden ctl (s.absReg .A ra) (s.resolve src) = true := by
      rw [State.accessForbidden, hsuper, show ctl.getLsbD ctlCE = false from hce, show ctl.getLsbD ctlPA = true from hpa]
      rfl
    rw [accessForms_forbidden hforbidden i hi]
    exact hhere

/-- An instruction that has set the pointers and traps to software (46 R430). -/
theorem setPointers_raises {s : State} (a b c : RegNum) (vn : Byte) {i : Instr}
    (hexec : exec i s = (s.setPointers a b c).retire.raiseNext vn) :
    let t := (s.setPointers a b c).retire
    SameData s t ∧ t.mode = s.mode ∧ PcAdvances s t ∧ t.ipa.now = a ∧ t.ipb.now = b ∧ t.ipc.now = c ∧
      (s.cps.getLsbD 0 = true → exec i s = .next t) ∧
      (s.cps.getLsbD 0 = false → s.MayTrap → ∃ u, exec i s = .next u ∧ TrapEntered t.drain u vn) := by
  intro t
  have hcps : t.cps.getLsbD 0 = s.cps.getLsbD 0 := by
    rw [State.retire_cps, State.traceCopy_cps]
    rfl
  have hmay (hm : s.MayTrap) : t.MayTrap :=
    mayTrap_congr (s := s) (t := t) (State.retire_inflight _) (State.retire_env _) (State.retire_cfg _) (State.retire_pins _) hm
  rw [hexec]
  refine ⟨sameData_retire rfl, State.retire_mode _, retire_pcAdvances rfl rfl rfl rfl, ?_, ?_, ?_,
    fun hon => raiseNext_disabled (hcps.trans hon), fun hoff hm => raiseNext_entered (hcps.trans hoff) (hmay hm)⟩
  · rw [State.retire_ipa]
    rfl
  · rw [State.retire_ipb]
    rfl
  · rw [State.retire_ipc]
    rfl

theorem emulatedForms_exec {s : State} {rc ra rb : RegNum} (ha : s.isProtected (s.absReg .A ra) = false)
    (hb : s.isProtected (s.absReg .B rb) = false) (hc : s.isProtected (s.absReg .C rc) = false) :
    ∀ p ∈ emulatedForms rc ra rb,
      exec p.1 s = (s.setPointers (s.absReg .A ra) (s.absReg .B rb) (s.absReg .C rc)).retire.raiseNext p.2 := by
  have h : ¬(s.isProtected (s.absReg .A ra) || s.isProtected (s.absReg .B rb) || s.isProtected (s.absReg .C rc)) = true := by
    rw [ha, hb, hc]
    exact Bool.false_ne_true
  simp only [emulatedForms, List.forall_mem_cons, List.not_mem_nil, false_implies, implies_true, and_true]
  and_intros
  all_goals exact if_neg h

theorem conversionForms_exec {s : State} {rc ra : RegNum} (ha : s.isProtected (s.absReg .A ra) = false)
    (hc : s.isProtected (s.absReg .C rc) = false) :
    ∀ p ∈ conversionForms rc ra, exec p.1 s =
      (s.setPointers (s.absReg .A ra) ((s.free .pointer).extractLsb' 0 8) (s.absReg .C rc)).retire.raiseNext p.2 := by
  have h : ¬(s.isProtected (s.absReg .A ra) || s.isProtected (s.absReg .C rc)) = true := by
    rw [ha, hc]
    exact Bool.false_ne_true
  simp only [conversionForms, List.forall_mem_cons, List.not_mem_nil, false_implies, implies_true, and_true]
  and_intros
  all_goals exact if_neg h

theorem exec_emulate_ready {s : State} {vn : BitVec 8} {ra rb : RegNum} (ha : s.isProtected (s.absReg .A ra) = false)
    (hb : s.isProtected (s.absReg .B rb) = false) (hallowed : s.supervisor = true ∨ 64 ≤ vn.toNat) :
    exec (.emulate vn ra rb) s =
      (s.setPointers (s.absReg .A ra) (s.absReg .B rb) ((s.free .pointer).extractLsb' 0 8)).retire.raiseNext vn := by
  have hlow : (!s.supervisor && decide (vn.toNat < 64)) = false := by
    rcases hallowed with hs | hhigh
    · rw [hs]
      rfl
    · rw [decide_eq_false (by omega), Bool.and_false]
  show execEmulate vn ra rb s = _
  rw [execEmulate, hlow, ha, hb]
  rfl

/-- Settles O43: each sets the pointers and raises its trap. -/
theorem emulationTraps : Obligations.EmulationTraps := by
  refine ⟨fun rc ra rb s ha hb hc p hp => ⟨_, setPointers_raises _ _ _ _ (emulatedForms_exec ha hb hc p hp)⟩,
    fun rc ra s ha hc p hp => ?_, fun vn ra rb s ha hb => ⟨fun hallowed => ?_, fun huser hlow hoff => ?_⟩⟩
  · obtain ⟨hdata, hmode, hpc, hipa, -, hipc, hon, hoff⟩ := setPointers_raises _ _ _ _ (conversionForms_exec ha hc p hp)
    exact ⟨_, hdata, hmode, hpc, hipa, hipc, hon, hoff⟩
  · obtain ⟨hdata, hmode, hpc, hipa, hipb, -, hon, hoff⟩ := setPointers_raises _ _ _ _ (exec_emulate_ready ha hb hallowed)
    exact ⟨_, hdata, hmode, hpc, hipa, hipb, hon, hoff⟩
  · have hviolation : exec (.emulate vn ra rb) s = s.protectionViolation :=
      if_pos (by rw [huser, decide_eq_true hlow]; rfl)
    rw [hviolation, State.protectionViolation_eq, hoff]
    rfl

end Sys2Proof.Machine

/-! Proofs for the family `other`: undisturbed multiple sequences. -/

namespace Sys2Proof.Machine

theorem frozen_of_maySequence {s : State} {ctl : BitVec 8} {ra : RegNum} {rb : Src2} (h : s.MaySequence ctl ra rb) :
    s.drain.frozen = false := by
  obtain ⟨-, ht, hfz, -⟩ := h
  rw [State.frozen, State.fz, State.drain_testing, State.drain_cps, ht, show s.cps.getLsbD cpsFZ = false from hfz]
  rfl

/-- A sequence that may begin and that nothing disturbs runs to its end (44 R386). -/
theorem multiple_done {s : State} {ctl : BitVec 8} {ra : RegNum} {rb : Src2} (h : s.MaySequence ctl ra rb) (isLoad : Bool)
    (hquiet : s.drain.Undisturbed)
    (hprot : ∀ k ≤ s.drain.countRemaining.toNat, s.drain.isProtected (seqReg (s.absReg .A ra) k) = false) (pa : Nat → Word)
    (hgoes : ∀ k ≤ s.drain.countRemaining.toNat, ∃ tlb,
      s.drain.Goes ctl (if isLoad then .load else .store) (seqAddr (s.drain.srcValue (s.resolve rb)) k) (pa k) tlb) :
    ∃ t w, s.loadStoreMultiple isLoad ctl ra rb = .next { t.retire with afterMultiple := true } ∧
      SeqDone s.drain t
        (s.drain.descriptor isLoad false false ctl (s.absReg .A ra) (s.drain.srcValue (s.resolve rb))
          (if isLoad then 0#32 else s.drain.readReg .A (s.absReg .A ra)))
        s.drain.countRemaining.toNat pa w := by
  obtain ⟨t, w, ht, hdone⟩ := runMultiple_done true s.drain.countRemaining.toNat s.drain
    (s.drain.descriptor isLoad false false ctl (s.absReg .A ra) (s.drain.srcValue (s.resolve rb))
      (if isLoad then 0#32 else s.drain.readReg .A (s.absReg .A ra)))
    pa rfl rfl rfl rfl (frozen_of_maySequence h) hquiet.toCalm (fun _ => hquiet) hgoes (fun k hk _ => hprot k hk)
  exact ⟨t, w, by rw [mult_start isLoad h, ht]; rfl, hdone⟩

theorem retire_readReg' (t : State) (b : Bool) {a : RegNum} (ha : implemented a = true) :
    State.readReg { t.retire with afterMultiple := b } .A a = t.readReg .A a :=
  State.readReg_congr (State.retire_gpr t) (State.retire_gr1 t) .A ha

/-- Settles O38: the words loaded, read after the instruction has ended. -/
theorem loadMultipleCompletes : Obligations.LoadMultipleCompletes := by
  intro ctl ra rb s h s1 tr addr n hquiet hprot pa hgoes
  have hn : s1.countRemaining.toNat = n := count_eq s1
  rw [← hn] at hprot hgoes ⊢
  obtain ⟨t, w, hexec, hdone⟩ := multiple_done h true hquiet hprot pa hgoes
  obtain ⟨hends, hstatus, hpc⟩ := seq_result hdone 0#32 (fun hl => Bool.noConfusion (show true = false from hl))
  obtain ⟨hbrings, ⟨hregs, hwords⟩, hmem⟩ := hdone.load rfl
  refine ⟨_, w, hexec, hbrings, ⟨fun a ha hnot => ?_, fun k hk hlast hi => ?_⟩, retire_sameMemory hmem, hends, hstatus, hpc⟩
  · exact (retire_readReg' t true ha).trans (hregs a ha hnot)
  · exact (retire_readReg' t true hi).trans (hwords k hk hlast hi)

/-- Settles O39: the words stored, the first of which is RA. -/
theorem storeMultipleCompletes : Obligations.StoreMultipleCompletes := by
  intro ctl ra rb s h s1 tr addr n hquiet hprot pa hgoes
  have hn : s1.countRemaining.toNat = n := count_eq s1
  rw [← hn] at hprot hgoes ⊢
  obtain ⟨t, w, hexec, hdone⟩ := multiple_done h false hquiet hprot pa hgoes
  obtain ⟨hends, hstatus, hpc⟩ := seq_result hdone (w s1.countRemaining.toNat) (fun _ => rfl)
  obtain ⟨hfirst, hrest, hregs, hmem⟩ := hdone.store rfl
  refine ⟨_, w, hexec, fun k hk hi => ?_, fun a => ?_, fun a ha hnot => (retire_readReg' t true ha).trans (hregs a ha hnot),
    hends, hstatus, hpc⟩
  · rcases Nat.eq_zero_or_pos k with rfl | hpos
    · exact hfirst
    · exact hrest k hk hpos hi
  · show Memory.read t.retire.rom a = _ ∧ Memory.read t.retire.idm a = _
    rw [State.retire_rom, State.retire_idm]
    exact hmem a

end Sys2Proof.Machine

/-! Proofs for the family `other`: the instruction boundary, the Timer, Wait mode, and the asynchronous events. -/

namespace Sys2Proof.Machine

theorem timerCycles_add (m n : Nat) (tmc tmr : Word) :
    timerCycles (m + n) tmc tmr = timerCycles n (timerCycles m tmc tmr).1 (timerCycles m tmc tmr).2 := by
  induction m generalizing tmc tmr with
  | zero => rw [Nat.zero_add]; rfl
  | succ m ih => rw [Nat.succ_add_eq_add_succ, Nat.add_succ]; exact ih _ _

/-- Until the counter has reached 0 it goes down by one a cycle. -/
theorem timerCycles_of_le (k : Nat) (tmc tmr : Word) (h : k ≤ tmc.toNat) :
    timerCycles k tmc tmr = (BitVec.ofNat 32 (tmc.toNat - k), tmr) := by
  induction k generalizing tmc with
  | zero => rw [timerCycles, Nat.sub_zero, BitVec.ofNat_toNat, BitVec.setWidth_eq]
  | succ k ih =>
    have hne : tmc ≠ 0#32 := fun e => by rw [e] at h; exact absurd h (Nat.not_succ_le_zero k)
    have hsub : (tmc - 1#32).toNat = tmc.toNat - 1 := by
      have := tmc.isLt
      rw [BitVec.toNat_sub]
      show (2 ^ 32 - 1 + tmc.toNat) % 2 ^ 32 = _
      omega
    have hle : k ≤ (tmc - 1#32).toNat := by omega
    rw [timerCycles, timerCycle, if_neg hne, ih _ hle, hsub, Nat.sub_sub, Nat.add_comm 1 k]

/-- The cycle in which the counter is 0 reloads it. -/
theorem timerCycle_reload (tmr : Word) :
    (timerCycle 0#32 tmr).1 = BitVec.ofNat 32 (tmr.toNat % 2 ^ 24) ∧
      ∀ i, (timerCycle 0#32 tmr).2.getLsbD i =
        if i = 25 then true else if i = 26 then tmr.getLsbD 26 || tmr.getLsbD 25 else tmr.getLsbD i := by
  refine ⟨BitVec.eq_of_toNat_eq ?_, fun i => ?_⟩
  · have hlt : tmr.toNat % 2 ^ 24 < 2 ^ 32 := by omega
    calc (tmr &&& 0x00FFFFFF#32).toNat = tmr.toNat &&& (2 ^ 24 - 1) := BitVec.toNat_and _ _
      _ = tmr.toNat % 2 ^ 24 := Nat.and_two_pow_sub_one_eq_mod _ 24
      _ = (BitVec.ofNat 32 (tmr.toNat % 2 ^ 24)).toNat := by rw [BitVec.toNat_ofNat, Nat.mod_eq_of_lt hlt]
  · show (putBit (putBit tmr 26 (tmr.getLsbD 26 || tmr.getLsbD 25)) 25 true).getLsbD i = _
    rw [getLsbD_putBit _ _ _ _ (by decide), getLsbD_putBit _ _ _ _ (by decide)]

/-- Settles O55: by induction on the cycles. -/
theorem timerCounts : Obligations.TimerCounts := by
  refine ⟨fun tmc tmr k h => timerCycles_of_le k tmc tmr h, fun tmc tmr => ?_, timerCycles_add,
    fun s => (atBoundary_same s).2.2.2.2.2.2.2.2⟩
  have hzero : timerCycles (tmc.toNat + 1) tmc tmr = timerCycle 0#32 tmr := by
    rw [timerCycles_add, timerCycles_of_le _ _ _ (Nat.le_refl _), Nat.sub_self]
    rfl
  rw [hzero]
  exact timerCycle_reload tmr

/-- Settles O3: the boundary is quiet, and the fetch brings the word. -/
theorem stepRunsTheDecodedInstruction : Obligations.StepRunsTheDecodedInstruction := by
  intro s i rom pa tlb h s1 hasync hwm hf hat hdec
  obtain ⟨t, hfetch, hfetches⟩ := fetch_word hat hf
  have hir : s1.irValid = false := (atBoundary_same s).1.trans h.irValid
  refine ⟨t, ?_, hfetches, fun hidle => ?_⟩
  · rw [step_quiet h, prepare_eq, hasync]
    simp only [show s.atBoundary.cps.getLsbD cpsWM = false from hwm, show s.atBoundary.irValid = false from hir,
      Bool.false_eq_true, if_false, show s.atBoundary.fetch = _ from hfetch]
    rw [runWord, hdec]
  · have hw : ((s.warnPending || (s.nextPins.warn && !s.pins.warn)) && !s.nextPins.reset) = false := by
      rw [h.warn.1, Bool.false_or]
      cases hn : s.nextPins.warn with
      | false => rfl
      | true => rw [h.warn.2 hn]; rfl
    have hq := atBoundary_quiet s hidle
    rw [hw] at hq
    have hclock : s.atBoundary.clock = s.clock + 1 := congrArg State.clock hq
    show s.atBoundary = { s with
      clock := s.atBoundary.clock, pins := s.nextPins, warnPending := false, tmc := s.atBoundary.tmc,
      tmr := s.atBoundary.tmr, env := s.atBoundary.env }
    rw [hclock]
    exact hq

/-- An asynchronous event is taken after the access in flight has completed. -/
theorem takeAsync_entered {s : State} {p : Nat} {vn : Byte} (hends : s.settlement = .ends)
    (hv : s.drain.vectorReadable = true) : ∃ t, s.takeAsync p vn = .next t ∧ TrapEntered s.drain t vn := by
  unfold State.takeAsync
  split
  · obtain ⟨x, hx⟩ := drain_derr hends
    have hv' : ({ s with derr := none } : State).drain.vectorReadable = true := by rw [hx]; exact hv
    obtain ⟨t, ht, hent⟩ := takeTrap_entered (prio := p) (vn := vn) hv' (.inl hends)
    rw [hx] at hent
    exact ⟨t, ht, hent.of_derr⟩
  · exact takeTrap_entered hv (.inl hends)

/-- Settles O52: the order of the tests is that of the priorities. -/
theorem highestPriorityEventIsTaken : Obligations.HighestPriorityEventIsTaken := by
  intro s p h s1 h4 _ hp hfirst hends hv
  have hstep : step s = s1.takeAsync p (s1.eventVector p) := by
    rw [step_quiet h, prepare_eq, show s.atBoundary.asyncEvent = _ from pending_some h4 hp hfirst]
  rw [hstep]
  exact takeAsync_entered hends hv

/-- What becomes of the access in flight at a boundary (20 R144). -/
theorem accessTick_inflight {s : State} {d : Access} (hd : s.inflight = some d) :
    (d.left ≠ 0 → s.accessTick.inflight = some { d with left := d.left - 1 }) ∧
      (d.left = 0 → s.accessTick.inflight = if s.settlement = .never then some d else none) := by
  unfold State.accessTick
  rw [hd]
  refine ⟨fun hl => by simp only [if_neg hl], fun hl => ?_⟩
  simp only [if_pos hl]
  unfold State.settle
  split
  · exact hd
  · exact (drain_same s).2.2.2.2

/-- Settles O53: nothing but the boundary. -/
theorem waitModeHolds : Obligations.WaitModeHolds := by
  intro s h hnone hwm
  obtain ⟨-, hpc, hnpc, hppc, hmode, hcps, hfetches, hpins, -⟩ := atBoundary_same s
  refine ⟨s.atBoundary, ?_, hpc, hnpc, hppc, hmode, hcps, hfetches, hpins, fun hidle => ?_, fun d hd => ?_, fun d hd => ?_⟩
  · rw [step_quiet h, prepare_eq, pending_none hnone]
    simp only [show s.atBoundary.cps.getLsbD cpsWM = true from hwm, if_true]
  · have hq := atBoundary_quiet s hidle
    have hregs : SameRegs s s.atBoundary [] := fun _ ha _ =>
      State.readReg_congr (by rw [hq]) (by rw [hq]) .A ha
    refine ⟨hregs, ?_⟩
    rw [hq]
    exact ⟨ fun _ => ⟨rfl, rfl⟩, ⟨rfl, rfl, rfl, rfl, rfl, rfl, rfl, rfl, rfl, rfl, rfl⟩, rfl, hidle⟩
  · exact (accessTick_inflight (s := s.samplePins.stepCycles) hd).1
  · exact (accessTick_inflight (s := s.samplePins.stepCycles) hd).2

end Sys2Proof.Machine

/-! Proofs for the family `other`: translation, the traps of an instruction fetch, and Pipeline Hold. -/

namespace Sys2Proof.Machine

/-- Settles O49: a translation has three outcomes. -/
theorem translation : Obligations.Translation := by
  intro s va want user hage hps
  refine ⟨fun e hit => ?_, fun hmiss => ?_⟩
  · obtain ⟨tlb, lru, htlb, hlru, heq⟩ := State.translate_hit_pgm (user := user) hage hps hit
    cases hperm : permits (s.entry0 va e) want user with
    | true =>
      rw [hperm, if_pos rfl] at heq
      exact ⟨{ s with tlb := tlb }, htlb, fun _ => ⟨heq, rfl⟩, fun h => absurd h (by decide)⟩
    | false =>
      rw [hperm, if_neg Bool.false_ne_true] at heq
      exact ⟨{ s with tlb := tlb, lru := lru }, htlb, fun h => absurd h (by decide), fun _ => ⟨heq, rfl, hlru⟩⟩
  · obtain ⟨lru, hline, hmask, hset, heq⟩ := State.translate_miss (user := user) hage hps hmiss
    exact ⟨lru, heq, hline, hmask, hset⟩

/-! The traps of a fetch that the prefetch stream does not serve (20 R141). -/

/-- The state in which a fetch translates its address: the choice of the environment used, the prefetched words discarded. -/
def State.fetchStart (s : State) : State :=
  ({ s with env := { s.env with fetches := s.env.fetches.drop 1 } } : State).discardPrefetch

theorem fetchStart_eq (s : State) : s.fetchStart = { s with
    env := { s.env with fetches := s.env.fetches.drop 1 }, lastNonseq := s.fetchStart.lastNonseq
    block := s.fetchStart.block } := discardPrefetch_eq _

theorem fetch_of_trap {s t : State} {vn : Byte} (hch : s.fetchChoice.oldStream = false)
    (h : s.fetchStart.fetchSource false = .trap vn t) : s.fetch = .trap vn t := by
  have h' : ({ s with env := { s.env with fetches := s.env.fetches.drop 1 } } : State).discardPrefetch.fetchSource
    s.fetchChoice.oldStream = .trap vn t := by rw [hch]; exact h
  unfold State.fetch
  simp only [h']

theorem fetch_of_error {s t : State} {rom : Bool} {pa : IAddr} (hch : s.fetchChoice.oldStream = false)
    (herr : s.fetchChoice.answer = .error) (h : s.fetchStart.fetchSource false = .ok rom pa t) :
    s.fetch = .trap 6#8 t.turned := by
  have h' : ({ s with env := { s.env with fetches := s.env.fetches.drop 1 } } : State).discardPrefetch.fetchSource
    s.fetchChoice.oldStream = .ok rom pa t := by rw [hch]; exact h
  unfold State.fetch
  simp only [h', herr]

/-- The source of a translated fetch (20 R141). -/
theorem fetchSource_translated {s : State} (h5 : s.cps.getLsbD 5 = false) (h8 : s.cps.getLsbD 8 = false) :
    s.fetchSource false =
      match s.translate (s.pc ++ 0#2) .fetch (!s.cps.getLsbD 4) with
      | .miss u => .trap (if s.cps.getLsbD 4 then 10#8 else 8#8) u
      | .prot u => .trap 12#8 u
      | .ok pa _ u => .ok false (wordAddr pa) u := by
  have hgo : (!s.cps.getLsbD cpsPI && !s.cps.getLsbD cpsRE) = true := by
    rw [show s.cps.getLsbD cpsPI = false from h5, show s.cps.getLsbD cpsRE = false from h8]; rfl
  unfold State.fetchSource
  simp only [show s.streamServes false = none from rfl, hgo, if_true]
  rfl

theorem fetchSource_of_miss {s u : State} (h5 : s.cps.getLsbD 5 = false) (h8 : s.cps.getLsbD 8 = false)
    (h : s.translate (s.pc ++ 0#2) .fetch (!s.cps.getLsbD 4) = .miss u) :
    s.fetchSource false = .trap (if s.cps.getLsbD 4 then 10#8 else 8#8) u := by rw [fetchSource_translated h5 h8, h]

theorem fetchSource_of_prot {s u : State} (h5 : s.cps.getLsbD 5 = false) (h8 : s.cps.getLsbD 8 = false)
    (h : s.translate (s.pc ++ 0#2) .fetch (!s.cps.getLsbD 4) = .prot u) :
    s.fetchSource false = .trap 12#8 u := by rw [fetchSource_translated h5 h8, h]

/-- What the trap of a fetch leaves of the state at the boundary. -/
structure FetchTrapped (s t : State) (tlb : Nat → Word) (lru : Word → Prop) (cd : Bool) : Prop where
  rest : t = { s with
    tlb := t.tlb, lru := t.lru, env := { s.env with fetches := s.env.fetches.drop 1 }, lastNonseq := t.lastNonseq
    turn := t.turn, cdInForce := t.cdInForce, block := t.block }
  tlb : t.TlbIs tlb
  lru : lru t.lru
  cd : t.cdInForce = cd

theorem fetch_miss {s : State} (hch : s.fetchChoice.oldStream = false) (h5 : s.cps.getLsbD 5 = false)
    (h8 : s.cps.getLsbD 8 = false) (hage : s.mmu.age ≠ 1) (hps : s.psTarget ≠ 1) (hmiss : s.TlbMiss (s.pc ++ 0#2)) :
    ∃ t, s.fetch = .trap (if s.cps.getLsbD 4 then 10#8 else 8#8) t ∧
      FetchTrapped s t s.tlbReg (RecommendsFor s (s.pc ++ 0#2)) s.cdInForce := by
  let start : State := { s with
    env := { s.env with fetches := s.env.fetches.drop 1 }, lastNonseq := s.fetchStart.lastNonseq
    block := s.fetchStart.block }
  obtain ⟨lru, hline, hmask, hset, heq⟩ := State.translate_miss (s := start) (want := .fetch) (va := s.pc ++ 0#2)
    (user := !s.cps.getLsbD 4) hage (fun _ => hps) hmiss
  have hsrc : s.fetchStart.fetchSource false = .trap (if s.cps.getLsbD 4 then 10#8 else 8#8) { start with lru := lru } :=
    (congrArg (State.fetchSource · false) (fetchStart_eq s)).trans (fetchSource_of_miss (s := start) h5 h8 heq)
  exact ⟨_, fetch_of_trap hch hsrc, rfl, fun _ _ => rfl, ⟨hline, hmask, hset⟩, rfl⟩

theorem fetch_prot {s : State} {e : Nat} (hch : s.fetchChoice.oldStream = false) (h5 : s.cps.getLsbD 5 = false)
    (h8 : s.cps.getLsbD 8 = false) (hage : s.mmu.age ≠ 1) (hps : s.psTarget ≠ 1) (hit : s.TlbHit (s.pc ++ 0#2) e)
    (hperm : permits (s.entry0 (s.pc ++ 0#2) e) .fetch (!s.cps.getLsbD 4) = false) :
    ∃ t, s.fetch = .trap 12#8 t ∧
      FetchTrapped s t (s.usedTlb (s.pc ++ 0#2) e) (fun lru => lru &&& 0xFFFFFF81#32 = 0#32) s.cdInForce := by
  let start : State := { s with
    env := { s.env with fetches := s.env.fetches.drop 1 }, lastNonseq := s.fetchStart.lastNonseq
    block := s.fetchStart.block }
  obtain ⟨pgm, tlb, lru, htlb, hmask, heq⟩ := State.translate_hit (s := start) (want := .fetch) (va := s.pc ++ 0#2)
    (user := !s.cps.getLsbD 4) hage (fun _ => hps) hit
  have hprot := heq.trans (if_neg (Bool.eq_false_iff.mp hperm))
  have hsrc : s.fetchStart.fetchSource false = .trap 12#8 { start with tlb := tlb, lru := lru } :=
    (congrArg (State.fetchSource · false) (fetchStart_eq s)).trans (fetchSource_of_prot (s := start) h5 h8 hprot)
  exact ⟨_, fetch_of_trap hch hsrc, rfl, htlb, hmask, rfl⟩

theorem fetch_error {s : State} {rom : Bool} {pa : IAddr} {tlb : Nat → Word} (hch : s.fetchChoice.oldStream = false)
    (hat : s.FetchesAt rom pa tlb) (herr : s.fetchChoice.answer = .error) :
    ∃ t, s.fetch = .trap 6#8 t ∧
      FetchTrapped s t tlb (· = s.lru) (if s.turn = none then s.cdInForce else s.cfg.getLsbD 0) := by
  obtain ⟨tl, htlb, hsrc⟩ := fetchSource_at hat { s.env with fetches := s.env.fetches.drop 1 } s.fetchStart.lastNonseq
    s.fetchStart.block
  refine ⟨_, fetch_of_error hch herr (by rw [fetchStart_eq s]; exact hsrc), ?_⟩
  unfold State.turned
  cases hturn : s.turn with
  | none => exact ⟨by simp, htlb, rfl, rfl⟩
  | some x => exact ⟨by simp, htlb, rfl, rfl⟩

/-- The fetches after a trap is taken go by the `CFG.CD` that was in force (20 R172). -/
theorem takeTrap_cd {s t : State} {prio : Nat} {vn : Byte} (h : s.takeTrap prio vn = .next t) : t.cdInForce = s.cdInForce := by
  have henter : ∀ {u v : State} {n : Byte}, u.enterTrap n = .next v → v.cdInForce = u.cdInForce := by
    intro u v n he
    unfold State.enterTrap at he
    split at he
    · split at he
      · cases he; simp
      · cases he
      · cases he; simp
    · cases he; simp
  rcases takeTrap_cases s prio vn with ⟨e, _⟩ | ⟨_, _, _, e⟩ | ⟨_, e⟩
  · exact (henter (e.symm.trans h)).trans (by simp)
  · exact (henter (e.symm.trans h)).trans (by simp)
  · cases e.symm.trans h; rfl

theorem raiseCurr_cd {s t : State} {vn : Byte} (h : s.raiseCurr vn = .next t) : t.cdInForce = s.cdInForce := by
  unfold State.raiseCurr at h
  split at h
  · cases h
  · exact takeTrap_cd h

/-- The trap of a fetch is taken where nothing is in the way (60 R545, R553). -/
theorem FetchTrapped.entered {s t : State} {tlb : Nat → Word} {lru : Word → Prop} {cd : Bool} {vn : Byte}
    (h : FetchTrapped s t tlb lru cd) (hda : s.cps.getLsbD 0 = false ∨ vn = 6#8) (hends : s.settlement = .ends)
    (hv : s.drain.vectorReadable = true) : ∃ u, t.raiseCurr vn = .next u ∧ TrapEntered t.drain u vn ∧
        u.cdInForce = t.cdInForce := by
  have hrest := h.rest
  have hvr : t.drain.vectorReadable = s.drain.vectorReadable := by
    have hin : t.inflight = s.inflight := by rw [hrest]
    have hans : t.env.answers = s.env.answers := by rw [hrest]
    have hcfg : t.cfg = s.cfg := by rw [hrest]
    unfold State.vectorReadable
    rw [State.drain_cfg, State.drain_cfg, hcfg, State.drain_env, State.drain_env, hin]
    cases s.inflight <;> simp only [hans]
  obtain ⟨u, hu, hent⟩ := raiseCurr_entered (s := t) (vn := vn) (by rw [hrest]; exact hda) (by rw [hrest]; exact hends)
    (hvr.trans hv)
  exact ⟨u, hu, hent, raiseCurr_cd hu⟩

/-- Settles O51: the three ways in which a fetch traps. -/
theorem fetchTraps : Obligations.FetchTraps := by
  intro s h s1 va hasync hwm hends hv hch traps translated
  have hstep : ∀ {vn : Byte} {t : State}, s1.fetch = .trap vn t → step s = t.raiseCurr vn := by
    intro vn t hf
    rw [step_quiet h, prepare_eq, show s.atBoundary.asyncEvent = none from hasync]
    simp only [show s.atBoundary.cps.getLsbD cpsWM = false from hwm,
      show s.atBoundary.irValid = false from (atBoundary_same s).1.trans h.irValid, Bool.false_eq_true, if_false,
      show s.atBoundary.fetch = _ from hf]
  have htaken : ∀ {vn : Byte} {t : State} {tlb : Nat → Word} {lru : Word → Prop}, s1.fetch = .trap vn t →
      FetchTrapped s1 t tlb lru (if vn = 6#8 ∧ s1.turn ≠ none then s1.cfg.getLsbD 0 else s1.cdInForce) →
      (s1.cps.getLsbD 0 = false ∨ vn = 6#8) → traps vn tlb lru := by
    intro vn t tlb lru hf ht hda
    obtain ⟨u, hu, hent, hcd⟩ := ht.entered hda hends hv
    exact ⟨t, u, (hstep hf).trans hu, hent, by rw [ht.rest], ht.tlb, ht.lru, ht.cd, hcd⟩
  refine ⟨fun ⟨h5, h8, hage, hps⟩ hda hmiss => ?_, fun e ⟨h5, h8, hage, hps⟩ hda hit hperm => ?_, fun rom pa tlb hat herr => ?_⟩
  · obtain ⟨t, hf, ht⟩ := fetch_miss hch h5 h8 hage hps hmiss
    refine htaken hf ?_ (.inl hda)
    rw [if_neg]
    · exact ht
    · cases s1.cps.getLsbD 4 <;> exact fun ⟨hsix, _⟩ => absurd hsix (by decide)
  · obtain ⟨t, hf, ht⟩ := fetch_prot hch h5 h8 hage hps hit hperm
    refine htaken (tlb := s1.usedTlb va e) (lru := fun lru => lru &&& 0xFFFFFF81#32 = 0#32) hf ?_ (.inl hda)
    rw [if_neg fun ⟨hsix, _⟩ => absurd hsix (by decide)]
    exact ht
  · obtain ⟨t, hf, ht⟩ := fetch_error hch hat herr
    refine htaken (tlb := tlb) (lru := (· = s1.lru)) hf ?_ (.inr rfl)
    cases hturn : s1.turn with
    | none => rw [hturn, if_pos rfl] at ht; rw [if_neg fun ⟨_, hne⟩ => hne rfl]; exact ht
    | some x => rw [hturn, if_neg (by simp)] at ht; rw [if_pos ⟨rfl, by simp⟩]; exact ht

/-! Pipeline Hold (20 R144, 70 R650). -/

theorem finishAccess_never {s : State} (h : s.settlement = .never) (k : State → Result) : s.finishAccess k = .next s.hold := by
  rw [State.finishAccess, h]

/-- A single load or store waits (20 R144). -/
theorem loadStore_never {s : State} {ctl : BitVec 8} {ra : RegNum} {rb : Src2} (hn : s.settlement = .never)
    (hf : s.accessForbidden ctl (s.absReg .A ra) (s.resolve rb) = false) (hml : s.multipleByMove = false)
        (isLoad set la : Bool) :
    s.loadStore isLoad set la ctl ra rb = .next s.hold := by
  unfold State.loadStore
  simp only [hf, hml, Bool.false_eq_true, if_false]
  exact finishAccess_never hn _

theorem loadStoreMultiple_never {s : State} {ctl : BitVec 8} {ra : RegNum} {rb : Src2} (hn : s.settlement = .never)
    (hf : s.accessForbidden ctl (s.absReg .A ra) (s.resolve rb) = false) (hml : s.multipleByMove = false)
    (hm : s.testing = false ∧ s.fz = false ∧ s.afterMultiple = false) (isLoad : Bool) :
    s.loadStoreMultiple isLoad ctl ra rb = .next s.hold := by
  obtain ⟨ht, hfz, ham⟩ := hm
  unfold State.loadStoreMultiple
  simp only [hf, hml, ht, hfz, ham, Bool.false_eq_true, if_false]
  exact finishAccess_never hn _

/-- An instruction that reads the target of the load waits: the second test of the form, after that of its registers (20
R144). -/
theorem binaryForms_never {s : State} {rc ra : RegNum} {rb : Src2} (hn : s.settlement = .never)
    (hc : s.isProtected (s.absReg .C rc) = false) (ha : s.isProtected (s.absReg .A ra) = false)
    (hb : s.protectedSrc (s.resolve rb) = false) (hw : s.waitsFor (s.absReg .A ra :: srcRegs (s.resolve rb)) = true) :
    ∀ i ∈ binaryForms rc ra rb, exec i s = .next s.hold := by
  have hmay : ¬(s.isProtected (s.absReg .C rc) || s.isProtected (s.absReg .A ra) || s.protectedSrc (s.resolve rb)) = true := by
    rw [hc, ha, hb]
    exact Bool.false_ne_true
  simp only [binaryForms, List.forall_mem_cons, List.not_mem_nil, false_implies, implies_true, and_true]
  and_intros
  all_goals exact (if_neg hmay).trans ((if_pos hw).trans (finishAccess_never hn _))

theorem interruptReturn_never {s : State} (hn : s.settlement = .never) (hsup : s.supervisor = true) (ht : s.testing = false)
    (b : Bool) : s.interruptReturn b = .next s.hold := by
  unfold State.interruptReturn
  simp only [hsup, ht, Bool.not_true, Bool.false_eq_true, if_false]
  exact finishAccess_never hn _

theorem execHalt_never {s : State} (hn : s.settlement = .never) (hsup : s.supervisor = true) : execHalt s = .next s.hold := by
  unfold execHalt
  simp only [hsup, Bool.not_true, Bool.false_eq_true, if_false]
  exact finishAccess_never hn _

/-- What becomes of the access in flight depends on it and on the answers of the system alone. -/
theorem settlement_answers {s t : State} (hin : t.inflight = s.inflight) (hans : t.env.answers = s.env.answers) :
    t.settlement = s.settlement := by
  unfold State.settlement
  rw [hin]
  cases s.inflight with
  | none => rfl
  | some d => simp only [State.answer, hans]

/-- Where there is no access in flight, or one that is never answered, a boundary only counts for it. -/
theorem accessTick_waits {s : State} (h : s.inflight = none ∨ s.settlement = .never) :
    s.accessTick = { s with inflight := s.accessTick.inflight } ∧ s.accessTick.settlement = s.settlement := by
  cases hd : s.inflight with
  | none =>
    have hs : s.accessTick = s := by unfold State.accessTick; simp only [hd]
    rw [hs]
    exact ⟨rfl, rfl⟩
  | some d =>
    have hn : s.settlement = .never := h.resolve_left (by rw [hd]; exact Option.some_ne_none d)
    by_cases hl : d.left = 0
    · have hs : s.accessTick = s := by
        unfold State.accessTick State.settle
        simp only [hd, if_pos hl, if_pos hn]
      rw [hs]
      exact ⟨rfl, rfl⟩
    · have hs : s.accessTick = { s with inflight := some { d with left := d.left - 1 } } := by
        unfold State.accessTick
        simp only [hd, if_neg hl]
      rw [hs]
      refine ⟨rfl, ?_⟩
      unfold State.settlement
      simp only [hd]
      rfl

/-- Settles O54: what waits for the access in flight, and a step in Pipeline Hold. -/
theorem pipelineHold : Obligations.PipelineHold := by
  refine ⟨fun s hn => ⟨fun prio vn => ?_, fun ctl ra rb hf hml => ?_, fun sa ra rb i16 => ?_, fun hsup ht => ?_,
    fun rc ra rb hc ha hb hw => ?_⟩, fun s => rfl, fun s hmode hr hw hw2 hj => ?_⟩
  · rw [State.takeTrap, hn]
  · have one := loadStore_never hn hf hml
    have multiple := loadStoreMultiple_never hn hf hml
    simp only [accessForms, List.forall_mem_cons]
    unfold exec
    exact ⟨fun _ => one true false false, fun _ => one true false true, fun _ => one true true false,
      fun _ => one false false false, fun _ => one false false true, fun h => multiple (h (by simp)) true,
      fun h => multiple (h (by simp)) false, List.forall_mem_nil _⟩
  · simp only [List.forall_mem_cons, List.not_mem_nil, false_implies, implies_true, and_true]
    unfold exec
    exact ⟨finishAccess_never hn _, finishAccess_never hn _, finishAccess_never hn _⟩
  · simp only [List.forall_mem_cons, List.not_mem_nil, false_implies, implies_true, and_true]
    unfold exec
    exact ⟨interruptReturn_never hn hsup ht false, interruptReturn_never hn hsup ht true, execHalt_never hn hsup⟩
  · exact binaryForms_never hn hc ha hb hw
  · have hstep : step s = .next s.atBoundary := by
      unfold step
      rw [boundary_mode hr hw hw2, hj]
      simp only [Bool.false_and, Bool.false_eq_true, if_false, State.modeStep, show s.samplePins.mode = .held from hmode]
      rfl
    obtain ⟨-, hpc, hnpc, hppc, hm, hcps, -, hpins, htimer⟩ := atBoundary_same s
    refine ⟨s.atBoundary, hstep, hm.trans hmode, hpc, hnpc, hppc, hcps, hpins, htimer, fun hwait => ?_⟩
    have hsettled : s.samplePins.stepCycles.settlement = s.settlement := settlement_answers rfl rfl
    obtain ⟨hsame, hsettle⟩ := accessTick_waits (s := s.samplePins.stepCycles) (by rw [hsettled]; exact hwait)
    have hbound : s.atBoundary = { s.samplePins.stepCycles with inflight := s.atBoundary.inflight } := hsame
    refine ⟨fun _ ha _ => State.readReg_congr (by rw [hbound]; rfl) (by rw [hbound]; rfl) .A ha, ?_, ?_,
      hsettle.trans hsettled, ?_⟩
    all_goals rw [hbound]
    · exact fun _ => ⟨rfl, rfl⟩
    · rfl
    · exact ⟨rfl, rfl, rfl, rfl, rfl, rfl, rfl, rfl, rfl, rfl, rfl⟩

end Sys2Proof.Machine

/-! Proofs for the family `other`: `*RESET`, `*WARN`, and the operating modes. -/

namespace Sys2Proof.Machine

/-- The bits of `CPS` that `*RESET` and `*WARN` set (70 R631; entry 3). -/
theorem resetCps_bit (s : State) (i : Nat) : s.resetCps.getLsbD i =
    if i ∈ [0, 4, 5, 6, 8] then true
    else if i ∈ [1, 2, 3, 9, 10, 11, 12, 13, 15] then s.sys.resetImage.getLsbD i
    else false := by
  unfold State.resetCps
  rw [BitVec.getLsbD_or, BitVec.getLsbD_and]
  rcases Nat.lt_or_ge i 32 with hi | hi
  · interval_cases i <;> simp [-BitVec.getLsbD_eq_getElem]
  · have hset : i ∉ [0, 4, 5, 6, 8] := by simp only [List.mem_cons, List.not_mem_nil, or_false]; omega
    have hopen : i ∉ [1, 2, 3, 9, 10, 11, 12, 13, 15] := by simp only [List.mem_cons, List.not_mem_nil, or_false]; omega
    rw [if_neg hset, if_neg hopen, BitVec.getLsbD_of_ge _ _ hi, BitVec.getLsbD_of_ge (0x0171#32) _ hi]
    rfl

theorem step_of_ended {s : State} {r : Result} (h : s.boundary = .ended r) : step s = r := by
  unfold step
  rw [h]

theorem step_of_boundary {s t : State} (h : s.boundary = t.boundary) : step s = step t := by
  unfold step
  rw [h]

/-! `*RESET` (70 R630, R631). -/

theorem step_reset {s : State} (h : s.nextPins.reset = true) :
    step s = .next (if s.mode = .reset then s.samplePins else s.samplePins.enterReset) := by
  refine step_of_ended ?_
  unfold State.boundary
  exact if_pos h

/-- The store in flight, or the second half of a `LOADSET`, may have been made (92 D28). -/
theorem abandonedStore_cases (s : State) : s.abandonedStore = s.idm ∨
    ∃ d, s.inflight = some d ∧ (d.isLoad = false ∨ d.set = true) ∧
      s.abandonedStore = (s.busWrite d (if d.isLoad then 0xFFFFFFFF#32 else d.data)).idm := by
  unfold State.abandonedStore
  cases hd : s.inflight with
  | none => exact .inl rfl
  | some d =>
    simp only
    split
    · cases hl : d.isLoad with
      | false => exact .inr ⟨d, rfl, .inl hl, by rw [hl]; rfl⟩
      | true =>
        cases hset : d.set with
        | false => exact .inl rfl
        | true => exact .inr ⟨d, rfl, .inr hset, by rw [hl]; rfl⟩
    · exact .inl rfl

theorem enterReset_rom (s : State) : s.enterReset.rom = s.rom := by unfold State.enterReset; rfl

theorem enterReset_idm (s : State) : s.enterReset.idm = s.abandonedStore := by unfold State.enterReset; rfl

/-- Memory after a reset: as before, but for the word of a store in flight. -/
theorem enterReset_memory (s : State) : SameMemory s s.enterReset ∨
    ∃ d, s.inflight = some d ∧ (d.isLoad = false ∨ d.set = true) ∧
      StoresWord s s.enterReset d.ctl d.pa (if d.isLoad then 0xFFFFFFFF#32 else d.data) := by
  rcases abandonedStore_cases s with h | ⟨d, hd, hstore, h⟩
  · exact .inl fun a => ⟨by rw [enterReset_idm, h], by rw [enterReset_rom]⟩
  · refine .inr ⟨d, hd, hstore, fun a => ⟨?_, by rw [enterReset_rom]⟩⟩
    rw [enterReset_idm, h]
    exact ((busWrite_stores s d _) a).1

theorem enterReset_untouched (s : State) (a : Nat)
    (h : ∀ d, s.inflight = some d → (d.isLoad = false ∨ d.set = true) → s.movesByte d.ctl d.pa a = false) :
    Memory.read s.enterReset.idm a = Memory.read s.idm a := by
  rcases enterReset_memory s with hsame | ⟨d, hd, hstore, hword⟩
  · exact (hsame a).1
  · rw [(hword a).1, State.bytesAfter, h d hd hstore]
    rfl

/-- Settles O56: *RESET decides at the boundary, whatever the mode. -/
theorem resetPin : Obligations.ResetPin := by
  intro s hr
  refine ⟨fun hm => ?_, fun hm => ?_⟩
  · refine ⟨s.samplePins.enterReset, by rw [step_reset hr, if_neg hm], rfl, rfl, rfl, resetCps_bit s.samplePins, ?_,
      fun i hi => ?_, ?_,
      rfl, rfl, rfl, rfl, rfl, rfl, rfl, enterReset_memory s.samplePins, enterReset_untouched s.samplePins⟩
    · show ((s.samplePins.undefinedReg 196 &&& 0x0000001E#32) ||| 1#32).getLsbD 0 = true
      simp
    · show ((s.samplePins.undefinedReg 196 &&& 0x0000001E#32) ||| 1#32).getLsbD i = false
      have hmask : (0x0000001E#32).getLsbD i = false ∧ (1#32).getLsbD i = false := by
        rcases Nat.lt_or_ge i 32 with h32 | h32
        · interval_cases i <;> decide
        · exact ⟨BitVec.getLsbD_of_ge _ _ h32, BitVec.getLsbD_of_ge _ _ h32⟩
      rw [BitVec.getLsbD_or, BitVec.getLsbD_and, hmask.1, hmask.2, Bool.and_false, Bool.or_false]
    · show (s.samplePins.undefinedReg 199 &&& 0xFFFFF7FE#32).getLsbD 0 = false
      simp
  · have hw : s.samplePins.warnPending = false := by
      show ((s.warnPending || (s.nextPins.warn && !s.pins.warn)) && !s.nextPins.reset) = false
      rw [hr, Bool.not_true, Bool.and_false]
    refine ⟨s.samplePins, by rw [step_reset hr, if_pos hm], ?_⟩
    exact congrArg (fun b : Bool => ({ s.samplePins with warnPending := b } : State)) hw

/-! `*WARN` (60 R580). -/

theorem abandon_record (s : State) : ∃ e, s.abandon = { s with inflight := none, env := e } := by
  cases hd : s.inflight with
  | none =>
    have hs : s.abandon = s := by unfold State.abandon; simp only [hd]
    exact ⟨s.env, hs.trans (by rw [← hd])⟩
  | some d => exact ⟨_, by unfold State.abandon; simp only [hd]; rfl⟩

/-- The state after *WARN has been taken. -/
theorem takeWarn_record (s : State) : ∃ e m, s.takeWarn = { s with
    pc0 := s.pc0View, pc1 := s.pc1View, pc2 := s.pc2View, inflight := none, env := e, ops := s.cpsView, derr := none
    cps := putBit s.resetCps cpsIP false, oldMaps := m, sps := s.sps.settle, mmu := s.mmu.settle, psTarget := 0
    ipa := s.ipa.settle, ipb := s.ipb.settle, ipc := s.ipc.settle, turn := some s.clock, nextTurn := none, stream := none
    pc := 4#30, npc := 5#30, afterMultiple := false, irValid := false, warnPending := false, mode := .starting } := by
  obtain ⟨e, he⟩ := abandon_record s.capturePcs
  obtain ⟨m, hm⟩ := setCps_record { s.capturePcs.abandon with ops := s.cpsView, derr := none } s.resetCps
  have hwarn : s.takeWarn =
      { (({ s.capturePcs.abandon with ops := s.cpsView, derr := none } : State).setCps s.resetCps).settleEffects.turnHere with
        pc := 4#30, npc := 5#30, afterMultiple := false, irValid := false, warnPending := false, mode := .starting } := rfl
  refine ⟨e, m, ?_⟩
  rw [hwarn, hm, he]
  rfl

/-- The cycles of a step that takes *WARN. -/
theorem warnCycles_record (s : State) : s.warnCycles = { s with
    tmc := s.warnCycles.tmc, tmr := s.warnCycles.tmr, env := s.warnCycles.env } := by
  unfold State.warnCycles
  split <;> rfl

theorem ticks_iff (m : Mode) : m.ticks = true ↔ m ∈ [Mode.executing, .starting, .held] := by
  cases m <;> decide

theorem warnCycles_timer (s : State) : (s.samplePins.warnCycles.tmc, s.samplePins.warnCycles.tmr) =
    if s.mode ∈ [.executing, .starting, .held] then timerCycles (1 + s.env.cycles.headD 0) s.tmc s.tmr else (s.tmc, s.tmr) := by
  unfold State.warnCycles
  by_cases h : s.mode ∈ [Mode.executing, .starting, .held]
  · rw [if_pos h, if_pos (show s.samplePins.mode.ticks = true from (ticks_iff _).mpr h)]
    rfl
  · rw [if_neg h, if_neg (show ¬s.samplePins.mode.ticks = true from mt (ticks_iff _).mp h)]
    rfl

theorem step_warn {s : State} (hr : s.nextPins.reset = false)
    (hw : s.warnPending = true ∨ (s.nextPins.warn = true ∧ s.pins.warn = false)) :
    step s = .next s.samplePins.warnCycles.takeWarn := by
  have hp : s.samplePins.warnPending = true := by
    show ((s.warnPending || (s.nextPins.warn && !s.pins.warn)) && !s.nextPins.reset) = true
    rcases hw with hw | ⟨h1, h2⟩
    · rw [hr, hw]; rfl
    · rw [hr, h1, h2]; simp
  refine step_of_ended ?_
  unfold State.boundary
  exact (if_neg (show ¬s.nextPins.reset = true by rw [hr]; exact Bool.false_ne_true)).trans (if_pos hp)

theorem resetCps_move (s : State) (i : Nat) : (putBit s.resetCps cpsIP false).getLsbD i = s.resetCps.getLsbD i := by
  rw [getLsbD_putBit _ _ _ _ (by decide)]
  split
  · next h => rw [h, resetCps_bit]; rfl
  · rfl

/-- What *WARN leaves of the state in which it is taken. -/
structure Warned (s t : State) : Prop where
  pcs : t.pc = 4#30 ∧ t.npc = 5#30
  cps : t.cps = putBit s.resetCps cpsIP false
  ops : t.ops = s.cpsView
  captured : t.pc0 = s.pc0View ∧ t.pc1 = s.pc1View ∧ t.pc2 = s.pc2View
  ended : t.inflight = none ∧ t.warnPending = false ∧ t.derr = none ∧ t.mode = .starting
  regs : t.gpr = s.gpr ∧ t.gr1 = s.gr1
  memory : t.idm = s.idm ∧ t.rom = s.rom
  tlb : t.tlb = s.tlb
  channel : t.cha = s.cha ∧ t.chd = s.chd ∧ t.chc = s.chc
  flags : t.alu = s.alu ∧ t.q = s.q
  pointers : SamePointers s t
  others : t.vab = s.vab ∧ t.cfg = s.cfg ∧ t.rbp = s.rbp ∧ t.mmu.now = s.mmu.now ∧ t.lru = s.lru ∧ t.sps.now = s.sps.now
  timer : t.tmc = s.tmc ∧ t.tmr = s.tmr

theorem takeWarn_warned (s : State) : Warned s s.takeWarn := by
  obtain ⟨e, m, h⟩ := takeWarn_record s
  rw [h]
  exact ⟨⟨rfl, rfl⟩, rfl, rfl, ⟨rfl, rfl, rfl⟩, ⟨rfl, rfl, rfl, rfl⟩, ⟨rfl, rfl⟩, ⟨rfl, rfl⟩, rfl, ⟨rfl, rfl, rfl⟩, ⟨rfl, rfl⟩,
    ⟨rfl, rfl, rfl⟩, ⟨rfl, rfl, rfl, rfl, rfl, rfl⟩, ⟨rfl, rfl⟩⟩

/-- Settles O57: what `takeWarn` leaves, the Timer apart of the state that the pins leave. -/
theorem warnIsTaken : Obligations.WarnIsTaken := by
  intro s hr hw
  have htimer := warnCycles_timer s
  have hcycles := warnCycles_record s.samplePins
  have hstep := step_warn hr hw
  generalize s.samplePins.warnCycles = u at hcycles htimer hstep
  obtain ⟨⟨hpc, hnpc⟩, hcps, hops, ⟨hpc0, hpc1, hpc2⟩, ⟨hin, hwp, hderr, hmode⟩, ⟨hgpr, hgr1⟩, ⟨hidm, hrom⟩, htlb,
    ⟨hcha, hchd, hchc⟩, ⟨halu, hq⟩, hptr, ⟨hvab, hcfg, hrbp, hmmu, hlru, hsps⟩, ⟨htmc, htmr⟩⟩ := takeWarn_warned u
  generalize u.takeWarn = t at *
  have hsame : u = { s.samplePins with tmc := u.tmc, tmr := u.tmr, env := u.env } := hcycles
  have hreset : u.resetCps = s.resetCps := by rw [hsame]; rfl
  have hregs : SameRegs s t [] := fun a ha _ =>
    State.readReg_congr (hgpr.trans (by rw [hsame]; rfl)) (hgr1.trans (by rw [hsame]; rfl)) .A ha
  have hmem : SameMemory s t := fun a => ⟨by rw [hidm, hsame]; rfl, by rw [hrom, hsame]; rfl⟩
  have hpointers : SamePointers s t := by
    obtain ⟨ha, hb, hc⟩ := hptr
    exact ⟨ha.trans (by rw [hsame]; rfl), hb.trans (by rw [hsame]; rfl), hc.trans (by rw [hsame]; rfl)⟩
  refine ⟨t, hstep, hpc, hnpc, fun i => ?_, ?_, ?_, ?_, ?_, hin, hwp, hregs, hmem, ?_, ⟨?_, ?_⟩, ?_, ?_, ?_, hpointers,
      ?_, ?_, ?_,
    ?_, ?_, ?_, ?_, hderr, hmode⟩
  · rw [hcps, hreset, resetCps_move, resetCps_bit]
  · rw [hops, hsame]; rfl
  · rw [hpc0, hsame]; rfl
  · rw [hpc1, hsame]; rfl
  · rw [hpc2, hsame]; rfl
  · rw [htlb, hsame]; rfl
  · rw [hcha, hsame]; rfl
  · rw [hchd, hsame]; rfl
  · rw [hchc, hsame]; rfl
  · rw [halu, hsame]; rfl
  · rw [hq, hsame]; rfl
  · rw [hvab, hsame]; rfl
  · rw [hcfg, hsame]; rfl
  · rw [hrbp, hsame]; rfl
  · rw [htmc, htmr]; exact htimer
  · rw [hmmu, hsame]; rfl
  · rw [hlru, hsame]; rfl
  · rw [hsps, hsame]; rfl

end Sys2Proof.Machine

/-! Proofs for the family `other`: `HALT`, and the operating modes. -/

namespace Sys2Proof.Machine

/-! A fetch that is not translated (20 R141). -/

theorem fetchSource_untranslated {s : State} (h : s.cps.getLsbD 5 = true ∨ s.cps.getLsbD 8 = true) (oldStream : Bool) :
    ∃ rom pa, s.fetchSource oldStream = .ok rom pa s := by
  unfold State.fetchSource
  cases s.streamServes oldStream with
  | some p => exact ⟨p.rom, p.pa, rfl⟩
  | none =>
    have hno : (!s.cps.getLsbD cpsPI && !s.cps.getLsbD cpsRE) = false := by
      rcases h with h | h
      · rw [show s.cps.getLsbD cpsPI = true from h]; rfl
      · rw [show s.cps.getLsbD cpsRE = true from h, Bool.not_true, Bool.and_false]
    exact ⟨_, _, by simp only [hno, Bool.false_eq_true, if_false]; rfl⟩

/-- Where the system answers it, such a fetch brings a word or the exception of vector 6. -/
theorem fetch_untranslated {s : State} (h : s.cps.getLsbD 5 = true ∨ s.cps.getLsbD 8 = true) :
    (s.fetchChoice.answer = .ready → ∃ w t, s.fetch = .word w t) ∧
      (s.fetchChoice.answer = .error → s.fetch = .trap 6#8 s.fetchStart.turned) := by
  obtain ⟨rom, pa, hsrc⟩ := fetchSource_untranslated (s := s.fetchStart) (by rw [fetchStart_eq]; exact h)
    s.fetchChoice.oldStream
  have hsrc' : ({ s with env := { s.env with fetches := s.env.fetches.drop 1 } } : State).discardPrefetch.fetchSource
    s.fetchChoice.oldStream = .ok rom pa s.fetchStart := hsrc
  unfold State.fetch
  simp only [hsrc']
  refine ⟨fun ha => ?_, fun ha => ?_⟩
  · simp only [ha]
    exact ⟨_, _, rfl⟩
  · simp only [ha]

theorem haltAt_ready {s : State} (h : s.cps.getLsbD 5 = true ∨ s.cps.getLsbD 8 = true) (ha : s.fetchChoice.answer = .ready)
    (m : Mode) : s.haltAt m = .next { s with mode := m, irValid := false } := by
  obtain ⟨w, t, hf⟩ := (fetch_untranslated (s := { s with clock := s.clock + 1 }) h).1 ha
  unfold State.haltAt
  simp only [hf]

theorem turned_eq (s : State) : s.turned = { s with
    block := s.turned.block, turn := s.turned.turn, cdInForce := s.turned.cdInForce } := by
  unfold State.turned
  split <;> rfl

/-- The state in which the exception of the fetch before Halt or Step mode is taken. -/
def HaltFetchFails (s t : State) (m : Mode) : Prop :=
  t = { s with
    clock := s.clock + 1, env := { s.env with fetches := s.env.fetches.drop 1 }, lastNonseq := t.lastNonseq
    block := t.block, turn := t.turn, cdInForce := t.cdInForce, mode := m, irValid := false }

theorem haltAt_error {s : State} (h : s.cps.getLsbD 5 = true ∨ s.cps.getLsbD 8 = true) (ha : s.fetchChoice.answer = .error)
    (m : Mode) : ∃ t, HaltFetchFails s t m ∧ s.haltAt m = t.takeTrap 14 6#8 := by
  have hf := (fetch_untranslated (s := { s with clock := s.clock + 1 }) h).2 ha
  have hstart := fetchStart_eq { s with clock := s.clock + 1 }
  have hturned := turned_eq (State.fetchStart { s with clock := s.clock + 1 })
  generalize (State.fetchStart { s with clock := s.clock + 1 }).turned = t at hturned hf
  rw [hstart] at hturned
  refine ⟨{ t with mode := m, irValid := false }, by unfold HaltFetchFails; rw [hturned], ?_⟩
  unfold State.haltAt
  simp only [hf, bne_self_eq_false, Bool.and_false, Bool.false_eq_true, if_false]

/-- The general registers are those of the register file. -/
theorem SameRegs.congr {s s' t t' : State} {except : List RegNum} (h : SameRegs s t except)
    (hs : s'.gpr = s.gpr ∧ s'.gr1 = s.gr1) (ht : t'.gpr = t.gpr ∧ t'.gr1 = t.gr1) : SameRegs s' t' except := fun a ha hn =>
  (State.readReg_congr ht.1 ht.2 .A ha).trans ((h a ha hn).trans (State.readReg_congr hs.1 hs.2 .A ha).symm)

/-- Where the fetch is, and what the mode is, is nothing that the taking of a trap looks at. -/
theorem TrapEntered.of_hidden {s x t : State} {vn : Byte} (hx : x = { s with
      clock := x.clock, env := x.env, lastNonseq := x.lastNonseq, block := x.block, turn := x.turn, cdInForce := x.cdInForce
      mode := x.mode, irValid := x.irValid }) (h : TrapEntered x t vn) : TrapEntered s { t with mode := s.mode } vn := by
  rw [hx] at h
  exact { h with regs := h.regs.congr ⟨rfl, rfl⟩ ⟨rfl, rfl⟩, mode := rfl }

/-- Nothing is waited for where no access is in flight. -/
theorem takeTrap_idle {s : State} (h : s.inflight = none) (prio : Nat) (vn : Byte) : s.takeTrap prio vn = s.enterTrap vn := by
  have hdrain : s.drain = s := by unfold State.drain; simp only [h]
  rw [State.takeTrap, show s.settlement = .ends by rw [State.settlement, h]]
  simp only [hdrain]

theorem exec_halt {s : State} (hsup : s.supervisor = true) (hends : s.settlement = .ends) :
    exec .halt s = s.drain.retire.haltAt .halt := by
  show execHalt s = _
  unfold execHalt
  simp only [hsup, Bool.not_true, Bool.false_eq_true, if_false]
  exact State.finishAccess_ends hends _

/-- Settles O28: `HALT` retires, and the fetch before Halt mode decides. -/
theorem haltEntersHaltMode : Obligations.HaltEntersHaltMode := by
  intro s hsup hends huntr s1
  have hcps : s1.retire.cps.getLsbD 5 = true ∨ s1.retire.cps.getLsbD 8 = true := by
    rw [State.retire_cps, State.traceCopy_cps, State.traceCopy_cps, if_neg (by decide), if_neg (by decide),
      show s1.cps = s.cps from State.drain_cps s]
    exact huntr
  have hfetches : s1.retire.fetchChoice = s.fetchChoice := by
    have henv : s1.retire.env.fetches = s.env.fetches := by
      rw [State.retire_env, show s1.env = _ from State.drain_env s]
      cases s.inflight <;> rfl
    rw [State.fetchChoice, henv]
    rfl
  have hidle : s1.retire.inflight = none := (State.retire_inflight s1).trans (drain_same s).2.2.2.2
  obtain ⟨hnothing, hpc⟩ := retire_ends s1
  rw [exec_halt hsup hends, ← hfetches]
  refine ⟨fun ha => ?_, fun ha hv => ?_, fun ha hcfg hans => ?_⟩
  · have hleft : WritesNothing s1 { s1.retire with mode := s1.mode, irValid := false } :=
      ⟨{ hnothing.data with
          regs := hnothing.data.regs.congr ⟨rfl, rfl⟩ ⟨rfl, rfl⟩, special := { hnothing.data.special with } },
        hnothing.pointers, rfl⟩
    exact ⟨_, haltAt_ready hcps ha .halt, rfl, hleft, hpc⟩
  · obtain ⟨x, hx, hhalt⟩ := haltAt_error hcps ha .halt
    rw [hhalt, takeTrap_idle ((congrArg State.inflight hx).trans hidle)]
    have hv' : x.vectorReadable = true := by
      rw [hx]
      unfold State.vectorReadable
      simp only [State.retire_cfg, State.retire_env]
      exact hv
    obtain ⟨t, ht, hent⟩ := enterTrap_entered (vn := 6#8) hv'
    have hin : TrapEntered s1.retire { t with mode := s1.retire.mode } 6#8 :=
      TrapEntered.of_hidden (by unfold HaltFetchFails at hx; rw [hx]) hent
    rw [State.retire_mode] at hin
    exact ⟨t, ht, hent.mode.trans (congrArg State.mode hx), hin⟩
  · obtain ⟨x, hx, hhalt⟩ := haltAt_error hcps ha .halt
    rw [hhalt, takeTrap_idle ((congrArg State.inflight hx).trans hidle)]
    have hcfg' : x.cfg.getLsbD 4 = true := by
      rw [hx]
      simp only [State.retire_cfg]
      exact hcfg
    have hans' : x.env.answers.headD .ready = .never := by
      rw [hx]
      simp only [State.retire_env]
      exact hans
    obtain ⟨t, ht, hheld, hops, hpc'⟩ := enterTrap_held (vn := 6#8) hcfg' hans'
    exact ⟨t, ht, hheld, hops.trans (by rw [hx]; rfl), hpc'.trans (by rw [hx])⟩

/-! The operating modes (60 R612 to R615). -/

theorem startUp_mode {s : State} (hm : s.mode = .reset ∨ s.mode = .starting) (old : Cntl) : s.modeStep old = s.startUp := by
  rcases hm with hm | hm <;> simp only [State.modeStep, hm]

theorem enterHalt_answered {s : State} (h : s.settlement ≠ .never) :
    s.enterHalt = { s.drain with mode := .halt, irValid := false } :=
  if_neg h

theorem enterStep_answered {s : State} (h : s.settlement ≠ .never) : s.enterStep = { s.drain with mode := .step } := if_neg h

section Modes

variable {s : State} (hr : s.nextPins.reset = false) (hw : s.warnPending = false)
    (hw2 : s.nextPins.warn = true → s.pins.warn = true)
include hr hw hw2

/-- No forbidden change of `CNTL0-CNTL1`: the mode decides. -/
theorem boundary_settled (hj : cntlJump s.pins.cntl s.nextPins.cntl = false) : s.boundary = s.samplePins.modeStep s.pins.cntl := by
  rw [boundary_mode hr hw hw2, hj]
  rfl

/-- At a start-up every change of `CNTL0-CNTL1` is looked at as a level (70 R632). -/
theorem boundary_start (hm : s.mode = .reset ∨ s.mode = .starting) : s.boundary = s.samplePins.startUp := by
  have hno : (cntlJump s.pins.cntl s.nextPins.cntl && s.mode != .reset && s.mode != .starting) = false := by
    rcases hm with hm | hm <;> rw [hm] <;> simp
  rw [boundary_mode hr hw hw2, hno]
  exact startUp_mode (s := s.samplePins) hm _

/-- A mode that ends the step at the boundary. -/
theorem step_settled {r : Result} (hj : cntlJump s.pins.cntl s.nextPins.cntl = false)
    (h : s.samplePins.modeStep s.pins.cntl = .ended r) : step s = r :=
  step_of_ended ((boundary_settled hr hw hw2 hj).trans h)

theorem step_jump (hj : cntlJump s.pins.cntl s.nextPins.cntl = true) (h1 : s.mode ≠ .reset) (h2 : s.mode ≠ .starting) :
    step s = .fault .cntlTransition := by
  refine step_of_ended ?_
  rw [boundary_mode hr hw hw2, hj, bne_iff_ne.mpr h1, bne_iff_ne.mpr h2]
  rfl

end Modes

theorem cntlJump_halt {old new : Cntl} (hn : new = .halt) (h : old ≠ .step) : cntlJump old new = false := by
  subst hn
  cases old <;> simp_all [cntlJump]

theorem cntlJump_step {old new : Cntl} (hn : new = .step) (h : old ≠ .halt) : cntlJump old new = false := by
  subst hn
  cases old <;> simp_all [cntlJump]

theorem cntlJump_eq {old new : Cntl} (hn : new = old) : cntlJump old new = false := by
  subst hn
  cases new <;> rfl

/-- Execution resumes from Halt mode as it goes on in Executing mode with new fetches (60 R612). -/
theorem boundary_resumes {s : State} (hr : s.nextPins.reset = false) (hw : s.warnPending = false)
    (hw2 : s.nextPins.warn = true → s.pins.warn = true) (hm : s.mode = .halt) (hn : s.nextPins.cntl = .normal)
    (ho : s.pins.cntl = .halt) :
    s.boundary = ({ s with
      mode := .executing, turn := some s.samplePins.clock, nextTurn := some s.samplePins.clock,
          stream := none } : State).boundary := by
  have hj : cntlJump s.pins.cntl s.nextPins.cntl = false := by rw [hn, ho]; rfl
  calc s.boundary = s.samplePins.modeStep s.pins.cntl := boundary_settled hr hw hw2 hj
    _ = .run s.samplePins.resume := by
      simp only [State.modeStep, show s.samplePins.mode = .halt from hm, show s.samplePins.pins.cntl = .normal from hn,
          ho, if_true]
    _ = s.samplePins.resume.modeStep s.pins.cntl := by
      simp only [State.modeStep, show s.samplePins.resume.mode = .executing from rfl,
        show s.samplePins.resume.pins.cntl = .normal from hn]
    _ = _ := (boundary_settled (s := { s with
      mode := .executing, turn := some s.samplePins.clock, nextTurn := some s.samplePins.clock,
          stream := none }) hr hw hw2 hj).symm

/-- A start-up into Executing mode is a step of that mode with the pins as they are (70 R632). -/
theorem boundary_starts {s : State} (hr : s.nextPins.reset = false) (hw : s.warnPending = false)
    (hw2 : s.nextPins.warn = true → s.pins.warn = true) (hm : s.mode = .reset ∨ s.mode = .starting)
    (hn : s.nextPins.cntl = .normal) :
    s.boundary = ({ s with mode := .executing, pins := { s.pins with cntl := .normal } } : State).boundary := by
  let t : State := { s with mode := .executing, pins := { s.pins with cntl := .normal } }
  have hnext : t.nextPins = s.nextPins := by
    have hcntl : s.env.events = [] → s.pins.cntl = .normal := fun he => by rw [← hn, State.nextPins, he]; rfl
    show s.env.events.headD { s.pins with cntl := .normal } = s.env.events.headD s.pins
    cases he : s.env.events with
    | nil => exact congrArg (fun c => ({ s.pins with cntl := c } : Pins)) (hcntl he).symm
    | cons p _ => rfl
  have hsample : t.samplePins = { s.samplePins with mode := .executing } := by unfold State.samplePins; rw [hnext]
  have hj : cntlJump t.pins.cntl t.nextPins.cntl = false := by rw [hnext, hn]; rfl
  calc s.boundary = s.samplePins.startUp := boundary_start hr hw hw2 hm
    _ = .run { s.samplePins with mode := .executing } := by
      simp only [State.startUp, show s.samplePins.pins.cntl = .normal from hn]
    _ = t.samplePins.modeStep .normal := by
      rw [hsample]
      simp only [State.modeStep, show s.samplePins.pins.cntl = .normal from hn]
    _ = t.boundary := (boundary_settled (s := t) (by rw [hnext]; exact hr) hw (by rw [hnext]; exact hw2) hj).symm

/-- Settles O58: `modeStep` and `startUp`, for each mode and each change of the pins. -/
theorem operatingModes : Obligations.OperatingModes := by
  intro s hr hw hw2 s1 old new
  have hs1 : s1.settlement = s.settlement := settlement_answers rfl rfl
  have ends := fun {r : Result} (hj : cntlJump old new = false) (h : s1.modeStep old = .ended r) =>
    step_settled hr hw hw2 hj h
  have answered : s.settlement ≠ .never → s1.settlement ≠ .never := fun h e => h (hs1.symm.trans e)
  have decides : ∀ {m : Mode} {c : Cntl}, s.mode = m → new = c → s1.mode = m ∧ s1.pins.cntl = c := fun hm hn => ⟨hm, hn⟩
  refine ⟨fun hm hn ho hs => ends (cntlJump_halt hn ho) ?_, fun hm hn ho hs => ends (cntlJump_step hn ho) ?_,
    fun hm hn ho => step_of_boundary ?_, fun hm hn ho => ends (cntlJump_step hn (by rw [ho]; decide)) ?_,
    fun hm hn ho hs => ends (cntlJump_halt hn (by rw [ho]; decide)) ?_,
    fun hm => ⟨fun hn => step_of_boundary ?_, fun m hnm huntr ha => step_of_ended ?_⟩,
    fun hm hn ho => ends (cntlJump_halt hn ho) ?_, fun hm hn ho => ends (cntlJump_eq (hn.trans ho.symm)) ?_,
    fun hm hn ho => ends (cntlJump_step hn ho) ?_, fun hm hn ho => ends (cntlJump_eq (hn.trans ho.symm)) ?_,
    fun hm hn ho => ends ?_ ?_, fun hm hn ho => ends (cntlJump_eq (hn.trans ho.symm)) ?_,
    fun hm hn ho => ends (by rw [hn, ho]; rfl) ?_, fun hm hn ho => ends (by rw [hn, ho]; rfl) ?_,
    fun h1 h2 hj => step_jump hr hw hw2 hj h1 h2, fun hm hn => step_of_ended ?_⟩
  · simp only [State.modeStep, decides hm hn]
    rw [enterHalt_answered (answered hs)]
  · simp only [State.modeStep, decides hm hn]
    rw [enterStep_answered (answered hs)]
  · exact boundary_resumes hr hw hw2 hm hn ho
  · simp only [State.modeStep, decides hm hn]
  · simp only [State.modeStep, decides hm hn]
    rw [enterHalt_answered (answered hs)]
  · exact boundary_starts hr hw hw2 hm hn
  · rw [boundary_start hr hw hw2 hm, ← haltAt_ready (s := s.samplePins) huntr ha m]
    rcases hnm with ⟨hn, rfl⟩ | ⟨hn, rfl⟩ <;> simp only [State.startUp, show s.samplePins.pins.cntl = _ from hn]
  · simp only [State.modeStep, decides hm hn]
  · simp only [State.modeStep, decides hm hn]
    exact if_neg (by rw [ho]; decide)
  · simp only [State.modeStep, decides hm hn]
  · simp only [State.modeStep, decides hm hn]
    exact if_neg (by rw [ho]; decide)
  · rcases ho with ho | ho <;> rw [hn, ho] <;> rfl
  · rcases hm with hm | hm <;> simp only [State.modeStep, decides hm hn] <;> rfl
  · simp only [State.modeStep, decides hm hn]
    rfl
  · simp only [State.modeStep, decides hm hn]
  · simp only [State.modeStep, decides hm hn]
  · rw [boundary_start hr hw hw2 hm]
    simp only [State.startUp, show s.samplePins.pins.cntl = .loadTest from hn]

end Sys2Proof.Machine

/-! Proofs for the family `other`: a step of Step mode. -/

namespace Sys2Proof.Machine

theorem frozen_of_testing {s : State} (h : s.testing = true) : s.frozen = true := by rw [State.frozen, h, Bool.or_true]

/-- The channel registers keep their values while they are frozen, the completion of an access included (20 R145). -/
theorem drain_chc_of_testing {s : State} (h : s.testing = true) : s.drain.chc = s.chc := by
  have hcomplete : ∀ d, (s.complete d).chc = s.chc := by
    intro d
    unfold State.complete
    split
    · rw [State.failAccess, if_pos (frozen_of_testing (s := s.endAccess d) h)]
      rfl
    · have ht : ((s.endAccess d).transfer d).frozen = true := frozen_of_testing (by simpa using h)
      rw [State.clearCv, if_pos ht, State.transfer_chc]
      rfl
  cases hd : s.inflight with
  | none => unfold State.drain; simp only [hd]
  | some d => rw [drain_of_inflight hd]; exact hcomplete d

theorem atRead_cases (s : State) (ra : RegNum) (rb : Src2) : s.atRead ra rb = s ∨ s.atRead ra rb = s.drain := by
  unfold State.atRead State.afterWait
  split
  · exact .inr rfl
  · exact .inl rfl

theorem drain_settlement (s : State) : s.drain.settlement = .ends := by rw [State.settlement, (drain_same s).2.2.2.2]

theorem inflightAfterWrite_cases (s : State) (c : RegNum) : s.inflightAfterWrite c = s.inflight ∨
    ∃ d, s.inflight = some d ∧ s.inflightAfterWrite c = some { d with discard := true } := by
  unfold State.inflightAfterWrite
  split
  · cases hd : s.inflight with
    | none => exact .inl rfl
    | some d => exact .inr ⟨d, rfl, rfl⟩
  · exact .inl rfl

/-- A load whose target is overwritten is still waited for (20 R146). -/
theorem settlement_overwritten {s t : State} {c : RegNum} (hin : t.inflight = s.inflightAfterWrite c) (henv : t.env = s.env) :
    t.settlement = s.settlement := by
  rcases inflightAfterWrite_cases s c with hsame | ⟨d, hd, hdrop⟩
  · exact settlement_congr (hin.trans hsame) henv
  · unfold State.settlement
    rw [hin, hdrop, hd]
    simp only [State.answer, henv]
    rfl

/-- What one result leaves once the access in flight has completed: the program counters, the mode, and, for an instruction of
the development system, all that is frozen then (60 R614). -/
theorem OneResult.drained {sets : Bool} {s u : State} {ra : RegNum} {rb : Src2} {c : RegNum}
    (h : OneResult sets (s.atRead ra rb) u c) (hn : s.settlement ≠ .never) :
    u.settlement ≠ .never ∧ PcAdvances s u.drain ∧ u.drain.mode = s.mode ∧
      (s.testing = true → SameChannel s u.drain ∧ u.drain.chc = s.chc ∧ u.drain.alu = s.alu) := by
  obtain ⟨al, qq, w, rfl, hal⟩ := h
  have hread : ∀ {α : Type} (f : State → α), f s.drain = f s → f (s.atRead ra rb) = f s := by
    intro α f hf
    rcases atRead_cases s ra rb with e | e <;> rw [e]
    exact hf
  have hsettled : (s.atRead ra rb).settlement ≠ .never := by
    rcases atRead_cases s ra rb with e | e <;> rw [e]
    · exact hn
    · rw [drain_settlement]; decide
  have hpc := hread State.pc (State.drain_pc s)
  have hnpc := hread State.npc (State.drain_npc s)
  have hppc := hread State.ppc (State.drain_ppc s)
  have hmode := hread State.mode (State.drain_mode s)
  have htesting := hread State.testing (State.drain_testing s)
  have hcha := hread State.cha (State.drain_cha s)
  have hchd := hread State.chd (State.drain_chd s)
  have halu := hread State.alu (State.drain_alu s)
  have hchc : s.testing = true → (s.atRead ra rb).chc = s.chc := fun ht => hread State.chc (drain_chc_of_testing ht)
  generalize s.atRead ra rb = v at *
  let x : State := ({ v with alu := al, q := qq } : State).writeReg sets c w
  have hin : x.retire.inflight = v.inflightAfterWrite c :=
    (State.retire_inflight x).trans (writeReg_inflight_eq { v with alu := al, q := qq } sets c w)
  have henv : x.retire.env = v.env := (State.retire_env x).trans (by simp [x])
  have hadv : PcAdvances v x.retire := retire_pcAdvances (by simp [x]) (by simp [x]) (by simp [x]) (by simp [x])
  have hframe : x.retire.mode = v.mode ∧ x.retire.cha = v.cha ∧ x.retire.chd = v.chd ∧ x.retire.alu = al ∧
      x.retire.testing = v.testing := by simp [x]
  obtain ⟨hm, hxcha, hxchd, hxalu, hxt⟩ := hframe
  refine ⟨?_, ?_, (State.drain_mode _).trans (hm.trans hmode), fun ht => ⟨⟨?_, ?_⟩, ?_, ?_⟩⟩
  · rw [settlement_overwritten hin henv]
    exact hsettled
  · show PcAdvances s x.retire.drain
    simpa only [PcAdvances, State.drain_pc, State.drain_npc, State.drain_ppc, hpc, hnpc, hppc, htesting] using hadv
  · exact (State.drain_cha _).trans (hxcha.trans hcha)
  · exact (State.drain_chd _).trans (hxchd.trans hchd)
  · have hvt : v.testing = true := htesting.trans ht
    have hstays : ({ v with alu := al, q := qq } : State).chcAfterWrite c = v.chc := by
      rw [State.chcAfterWrite, frozen_of_testing (s := { v with alu := al, q := qq }) hvt, Bool.not_true, Bool.and_false]
      rfl
    rw [drain_chc_of_testing (hxt.trans hvt), State.retire_chc, State.writeReg_chc, hstays, hchc ht]
  · rw [State.drain_alu, hxalu, hal (frozen_of_testing (htesting.trans ht)), halu]

/-! A step of Step mode (60 R613, R614). -/

theorem finishStep_next {t : State} (h : t.settlement ≠ .never) :
    finishStep true (.next t) = .next { t.drain with testing := false } := by
  show (if t.settlement = .never then _ else _) = _
  exact if_neg h

section Stepping

variable {s : State} {i : Instr}

/-- What a step of Step mode does with the instruction at hand (60 R613). -/
theorem step_stepping (hr : s.nextPins.reset = false) (hw : s.warnPending = false)
    (hw2 : s.nextPins.warn = true → s.pins.warn = true)
    (hm : s.mode = .step) (ho : s.pins.cntl = .step) (hn : s.nextPins.cntl = .normal) {w : Word} {t : State}
    (hprep : s.samplePins.prepare = .instr w t) : step s = finishStep true (runWord w t) := by
  have hj : cntlJump s.pins.cntl s.nextPins.cntl = false := by rw [hn, ho]; rfl
  have hmode : s.samplePins.modeStep s.pins.cntl = .run s.samplePins := by
    simp only [State.modeStep, show s.samplePins.mode = .step from hm, show s.samplePins.pins.cntl = .normal from hn]
    exact if_pos ho
  unfold step
  rw [boundary_settled hr hw hw2 hj, hmode]
  simp only [hprep, show (s.samplePins.mode == Mode.step) = true by rw [show s.samplePins.mode = .step from hm]; rfl]

theorem runWord_decoded {w : Word} (h : decode w = .ok i) (t : State) : runWord w t = exec i t := by rw [runWord, h]

theorem accessTick_ir (s : State) : s.accessTick.ir = s.ir := by
  unfold State.accessTick State.settle
  split
  · rfl
  · split
    · split
      · rfl
      · exact State.drain_ir s
    · rfl

end Stepping

/-- Settles O59: the instruction at hand is run, then the access that it starts completes. -/
theorem stepModeExecutesOneInstruction : Obligations.StepModeExecutesOneInstruction := by
  intro s i hr hw hw2 hm ho hn hasync hwm
  have hstep := fun {w : Word} {t : State} => step_stepping (w := w) (t := t) hr hw hw2 hm ho hn
  obtain ⟨hirv, hpc, hnpc, hppc, hmode, -⟩ := atBoundary_same s
  refine ⟨fun hir hdec => ?_, fun hir rom pa tlb hf hat hdec => ?_⟩
  · intro s1
    have hprep : s.samplePins.prepare = .instr s.ir s1 := by
      rw [prepare_eq, hasync]
      have hgo : ¬s.atBoundary.cps.getLsbD cpsWM = true := Bool.eq_false_iff.mp hwm
      exact (if_neg hgo).trans ((if_pos (hirv.trans hir)).trans
        (congrArg (Prepared.instr · s1) (accessTick_ir s.samplePins.stepCycles)))
    have hrun : ∀ t, exec i s1 = .next t → t.settlement ≠ .never → step s = .next { t.drain with testing := false } := by
      intro t ht hs
      rw [hstep hprep, runWord_decoded hdec, ht]
      exact finishStep_next hs
    refine ⟨by simp [s1, State.supervisor], frozen_of_testing rfl, hrun, fun rc ra rb hi hready hs hrange => ?_⟩
    obtain ⟨sets, hends⟩ := binaryForms_end hready i hi
    obtain ⟨u, hu, hexec, -⟩ := hends.next_or
    obtain ⟨hus, hadv, hum, hfrozen⟩ := hu.drained hs
    obtain ⟨hchannel, hchc, halu⟩ := hfrozen rfl
    obtain ⟨hp1, hp2, hp3⟩ : u.drain.pc = s1.pc ∧ u.drain.npc = s1.npc ∧ u.drain.ppc = s1.ppc := hadv
    exact ⟨_, hrun u (hexec hrange) hus, hp1.trans hpc, hp2.trans hnpc, hp3.trans hppc, hchannel, hchc, halu,
      hum.trans (hmode.trans hm), rfl⟩
  · obtain ⟨t, hfetch, hfetches⟩ := fetch_word hat hf
    generalize Memory.readWord (if rom then s.atBoundary.rom else s.atBoundary.idm) pa = word at hfetch hdec
    have hprep : s.samplePins.prepare = .instr word t := by
      rw [prepare_eq, hasync]
      simp only [show s.atBoundary.cps.getLsbD cpsWM = false from hwm, hirv.trans hir, Bool.false_eq_true, if_false, hfetch]
    have hrun : ∀ u, exec i t = .next u → u.settlement ≠ .never → step s = .next { u.drain with testing := false } := by
      intro u hu hs
      rw [hstep hprep, runWord_decoded hdec, hu]
      exact finishStep_next hs
    refine ⟨t, hfetches, hrun, fun rc ra rb hi hready hs hrange => ?_⟩
    obtain ⟨sets, hends⟩ := binaryForms_end hready i hi
    obtain ⟨u, hu, hexec, -⟩ := hends.next_or
    obtain ⟨hus, hadv, hum, -⟩ := hu.drained hs
    refine ⟨_, hrun u (hexec hrange) hus, ?_, ?_⟩
    · have htest : t.testing = s.testing :=
        (congrArg State.testing hfetches.rest).trans (accessTick_same s.samplePins.stepCycles).2.2.2.2.2.2.2.2.2.2
      show PcAdvances s u.drain
      simpa only [PcAdvances, htest, (congrArg State.pc hfetches.rest).trans hpc,
        (congrArg State.npc hfetches.rest).trans hnpc, (congrArg State.ppc hfetches.rest).trans hppc] using hadv
    · exact hum.trans ((congrArg State.mode hfetches.rest).trans (hmode.trans hm))

end Sys2Proof.Machine

/-! Proofs for the family `other`: the interrupt returns. -/

namespace Sys2Proof.Machine

/-- The two returns, once nothing is in their way, restart what the channel registers describe (60 R570). -/
theorem returns_exec {s : State} (ht : s.testing = false) (hsm : s.cps.getLsbD 4 = true) (hends : s.settlement = .ends) :
    ∀ f ∈ returns, exec f.1 s =
      s.drain.restoreStatus.restart (wordAddr s.drain.pc1View) (wordAddr s.drain.pc0View) f.2 := by
  have hreturn : ∀ b, s.interruptReturn b =
      s.drain.restoreStatus.restart (wordAddr s.drain.pc1View) (wordAddr s.drain.pc0View) b := by
    intro b
    have hsup : s.supervisor = true := by rw [State.supervisor, show s.cps.getLsbD cpsSM = true from hsm, Bool.true_or]
    unfold State.interruptReturn
    simp only [ht, hsup, Bool.not_true, Bool.false_eq_true, if_false]
    exact State.finishAccess_ends hends _
  simp only [returns, List.forall_mem_cons]
  exact ⟨hreturn false, hreturn true, List.forall_mem_nil _⟩

/-- The end of a return: what it writes (60 R570, 20 R161, R175, 70 R656). -/
theorem resumeAt_record (s : State) (t1 t0 : IAddr) (invalidate : Bool) : s.resumeAt t1 t0 invalidate = { s with
    sps := s.sps.settle, mmu := s.mmu.settle, psTarget := 0, ipa := s.ipa.settle, ipb := s.ipb.settle, ipc := s.ipc.settle
    turn := some s.clock, nextTurn := some s.clock, stream := none, pc := t1, npc := t0, afterMultiple := false
    cacheSince := if invalidate then s.clock else s.cacheSince
    cacheUndefined := if invalidate then false else s.cacheUndefined } := by
  cases invalidate <;> rfl

theorem wordAddr_byteAddr (a : IAddr) : wordAddr (byteAddr a) = a := by
  apply BitVec.eq_of_getLsbD_eq
  intro i hi
  rw [wordAddr, byteAddr, BitVec.getLsbD_extractLsb', BitVec.getLsbD_append]
  simp [hi, show 1 < 2 + i by omega]

theorem pcViews (s : State) :
    wordAddr s.pc1View = (if s.cps.getLsbD 10 then s.pc1.extractLsb' 2 30 else s.pc) ∧
      wordAddr s.pc0View = (if s.cps.getLsbD 10 then s.pc0.extractLsb' 2 30 else s.npc) := by
  unfold State.pc1View State.pc0View State.fz cpsFZ
  cases s.cps.getLsbD 10 with
  | true => exact ⟨rfl, rfl⟩
  | false => exact ⟨wordAddr_byteAddr _, wordAddr_byteAddr _⟩

/-- What the accesses of a return leave of the state with the restored status. -/
structure ReturnKeeps (r u : State) : Prop where
  status : ∀ i < 14, u.cps.getLsbD i = r.cps.getLsbD i
  ppc : u.ppc = r.ppc
  special : SameSpecial r u
  pointers : SamePointers r u
  q : u.q = r.q
  mode : u.mode = r.mode

theorem underOps_bit (s : State) {i : Nat} (hi : i ≠ 14) : s.underOps.cps.getLsbD i = s.ops.getLsbD i := by
  show (s.ops &&& 0xFFFFBFFF#32).getLsbD i = _
  rw [BitVec.getLsbD_and]
  rcases Nat.lt_or_ge i 32 with h32 | h32
  · have hmask : ∀ j < 32, j ≠ 14 → (0xFFFFBFFF#32).getLsbD j = true := by decide
    rw [hmask i h32 hi, Bool.and_true]
  · rw [BitVec.getLsbD_of_ge _ _ h32, Bool.false_and]

/-- A return has ended, whatever accesses it has made on the way (60 R570, R571). -/
theorem ReturnKeeps.returned {s u : State} (h : ReturnKeeps s.restoreStatus u) (invalidate : Bool) :
    Returned s (u.resumeAt (wordAddr s.pc1View) (wordAddr s.pc0View) invalidate) := by
  obtain ⟨hstatus, hppc, hspecial, hptr, hq, hmode⟩ := h
  obtain ⟨hpc1, hpc0⟩ := pcViews s
  obtain ⟨m, hm⟩ := restoreStatus_eq s
  rw [hm] at hstatus hppc hspecial hptr hq hmode
  rw [resumeAt_record]
  exact {
    status := fun i hi => (hstatus i hi).trans (underOps_bit s (by omega))
    pc := hpc1, npc := hpc0, ppc := hppc
    pc0 := hspecial.pc0, pc1 := hspecial.pc1, pc2 := hspecial.pc2
    special := { hspecial with pc0 := rfl, pc1 := rfl, pc2 := rfl }
    pointers := hptr, q := hq, mode := hmode }

/-! After `IRETINV` no copy of an instruction that was made before is of use (20 R175). -/

section Copies

variable {s : State} {c : Nat} (hfetch : c ≤ s.lastNonseq) (hcache : c ≤ s.cacheSince)
include hfetch hcache

theorem usableCopy_nil {t : Nat} (ht : t ≤ c) (fits : Bool) (w : Word) : s.usableCopy t fits w = [] := by
  have hno : s.copyUsable t fits = false := by
    have h1 : ¬s.lastNonseq < t := by omega
    have h2 : ¬s.cacheSince < t := by omega
    rw [State.copyUsable, decide_eq_false h1, decide_eq_false h2, Bool.and_false, Bool.or_false]
  rw [State.usableCopy, hno]
  rfl

theorem overwrittenCopies_nil (hw : ∀ o ∈ s.oldWords, o.time ≤ c) (pa : IAddr) (t : Nat) (fits : Bool) :
    s.overwrittenCopies pa t fits = [] := by
  refine List.flatMap_eq_nil_iff.mpr fun o ho => ?_
  have ht : min o.time t ≤ c := (Nat.min_le_left _ _).trans (hw o ho)
  simp only [usableCopy_nil hfetch hcache ht, ite_self]

theorem hiddenCopies_nil (hw : ∀ o ∈ s.oldWords, o.time ≤ c) (hm : ∀ m ∈ s.oldMaps, m.time ≤ c)
    (hdef : s.cacheUndefined = false) (rom : Bool) (va pa : IAddr) : s.hiddenCopies rom va pa = [] := by
  have hmaps : s.oldMaps.flatMap (s.mapCopies va) = [] := by
    refine List.flatMap_eq_nil_iff.mpr fun m hmem => ?_
    have hold := usableCopy_nil hfetch hcache (hm m hmem)
    unfold State.mapCopies
    simp only [hold, overwrittenCopies_nil hfetch hcache hw, List.append_nil]
    split
    · rfl
    · split <;> rfl
  unfold State.hiddenCopies
  simp only [hmaps, hdef, overwrittenCopies_nil hfetch hcache hw, Bool.false_and, Bool.false_eq_true, if_false, ite_self,
    List.append_nil]

end Copies

/-- The mapping that a return leaves is remembered at its own time (20 R177). -/
theorem restoreStatus_oldMaps {s : State} (h : ∀ m ∈ s.oldMaps, m.time ≤ s.clock) :
    ∀ m ∈ s.restoreStatus.oldMaps, m.time ≤ s.clock := by
  have hset : ∀ u : State, u.oldMaps = s.oldMaps → u.clock = s.clock → ∀ c, ∀ m ∈ (u.setCps c).oldMaps, m.time ≤ s.clock := by
    intro u hmaps hclock c m hm
    unfold State.setCps at hm
    split at hm
    · exact h m (hmaps ▸ hm)
    · rcases List.mem_cons.mp hm with rfl | hm
      · exact hclock.le
      · exact h m (hmaps ▸ hm)
  unfold State.restoreStatus
  split
  · exact hset s.capturePcs rfl rfl _
  · exact hset s rfl rfl _

/-- Settles O46: a return without an access to restart is the restored status, gone on with at `PC1`. -/
theorem interruptReturn : Obligations.InterruptReturn := by
  intro s ht hsm hends s1 hcv f hf
  have hno : (s1.restoreStatus.chc.getLsbD chcCV && !s1.restoreStatus.chc.getLsbD chcNN) = false := by
    obtain ⟨m, hm⟩ := restoreStatus_eq s1
    rw [hm]
    show (s1.chc.getLsbD 0 && !s1.chc.getLsbD 1) = false
    rcases hcv with h | h <;> rw [h] <;> simp
  have hexec : exec f.1 s = .next (s1.restoreStatus.resumeAt (wordAddr s1.pc1View) (wordAddr s1.pc0View) f.2) := by
    rw [returns_exec ht hsm hends f hf, State.restart, hno]
    rfl
  have hreturned : Returned s1 (s1.restoreStatus.resumeAt (wordAddr s1.pc1View) (wordAddr s1.pc0View) f.2) :=
    ReturnKeeps.returned ⟨fun _ _ => rfl, rfl, ⟨rfl, rfl, rfl, rfl, rfl, rfl, rfl, rfl, rfl, rfl, rfl⟩, ⟨rfl, rfl, rfl⟩,
        rfl, rfl⟩ f.2
  have hmaps := restoreStatus_oldMaps (s := s1)
  obtain ⟨m, hm⟩ := restoreStatus_eq s1
  rw [resumeAt_record] at hexec hreturned
  rw [hm] at hexec hreturned hmaps
  refine ⟨_, hexec, hreturned, underOps_bit s1 (by decide), ?_, fun a => ⟨rfl, rfl⟩, rfl, ⟨rfl, rfl⟩, rfl, rfl, rfl,
    (drain_same s).2.2.2.2, rfl, ?_⟩
  · exact fun a ha _ => State.readReg_congr (s := s1) rfl rfl .A ha
  · cases hinv : f.2 with
    | false => exact ⟨rfl, rfl⟩
    | true =>
      intro hwords hold rom va pa
      refine hiddenCopies_nil (c := s1.clock) ?_ ?_ ?_ ?_ rfl rom va pa
      · exact Nat.le_max_right _ _
      · exact Nat.le_refl _
      · exact hwords
      · exact hmaps hold

end Sys2Proof.Machine

/-! Proofs for the family `other`: the access that an interrupt return makes again. -/

namespace Sys2Proof.Machine

/-- An access that goes out and is completed at once, whoever makes it (20 R147, R149): what it leaves but for the end of the
instruction. -/
structure AccessMade (s u : State) (d : Access) (pa : Word) (tlb : Nat → Word) : Prop where
  ends : AccessEnds s u.retire d.ctl d.isLoad d.set d.la d.tr d.addr d.data false
  cps : u.cps = if d.ctl.getLsbD 7 && d.ctl.getLsbD 5 then putBit s.cps cpsCA !d.isLoad else s.cps
  ppc : u.ppc = s.ppc
  inflight : u.inflight = none
  tlb : u.TlbIs tlb
  load : d.isLoad = true → ∃ w, s.Brings d.ctl pa w ∧ (implemented d.tr = true → u.readReg .A d.tr = w) ∧
    SameRegs s u [d.tr] ∧ (if d.set then StoresWord s u d.ctl pa 0xFFFFFFFF#32 else SameMemory s u)
  store : d.isLoad = false → SameRegs s u [] ∧ StoresWord s u d.ctl pa d.data

theorem access_made {s : State} {d : Access} {pa : Word} {tlb : Nat → Word} (huser : d.user = s.asUser d.ctl)
    (hkeep : d.discard = false) (hgoes : s.Goes d.ctl d.want d.addr pa tlb) (hans : s.answered (d.isLoad && d.set) = true)
    (hlat : s.env.latency.headD 0 = 0) :
    ∃ d1 s2, s.issue d false s.countRemaining = .ok d1 s2 ∧ AccessMade s (s2.startAccess d1) d pa tlb := by
  obtain ⟨pgm, s2, hissue, hi, htlb, hlru, hcps⟩ := issue_goes (ml := false) (cr := s.countRemaining) huser hgoes
  have ht := hi.touched
  refine ⟨_, s2, hissue, ?_⟩
  rw [startAccess_now (d := { d with pa := pa, pgm := pgm }) (by rw [ht]; exact hlat)
    ((touched_answered ht _).trans hans)]
  generalize hv : ({ s2 with env := { s2.env with latency := s2.env.latency.drop 1 } } : State) = v
  generalize hd : ({ d with pa := pa, pgm := pgm, left := 0 } : Access) = e
  have hc : Completed v (v.complete e) e := complete_ok (by rw [← hv, ← hd]; exact (touched_answered ht _).trans hans)
  have hidm : v.idm = s.idm := by rw [← hv, ht]
  have hrom : v.rom = s.rom := by rw [← hv, ht]
  have hsame := access_congr (s := s) (t := v) (by rw [← hv, ht]) hidm hrom
  have hregs : ∀ a, implemented a = true → v.readReg .A a = s.readReg .A a := fun a ha =>
    State.readReg_congr (by rw [← hv, ht]) (by rw [← hv, ht]) .A ha
  have hfrozen : v.frozen = s.frozen := by rw [← issue_frozen hi hcps, ← hv]; rfl
  subst hd
  refine
    { ends := accessEnds_of hi rfl hlru hcps (u := v.complete _) false (by rw [hc.chc, hfrozen, ← hv]) (by rw [← hv]; simp)
        (by rw [← hv]; simp)
      cps := (State.complete_cps _ _).trans (by rw [← hv]; exact hcps)
      ppc := (State.complete_ppc _ _).trans (by rw [← hv, ht])
      inflight := hc.inflight
      tlb := fun k hk => by rw [← htlb k hk, State.tlbReg, State.complete_tlb, ← hv]; rfl
      load := fun hl => ?_
      store := fun hl => ?_ }
  · obtain ⟨w, hbrings, hdest, hother, hmem⟩ := hc.load hl
    refine ⟨w, (hsame _ _ _).1.mp hbrings, hdest hkeep, fun a ha hn => ?_, ?_⟩
    · rw [← hregs a ha]
      exact hother a ha (by simp only [hkeep]; exact hn)
    · cases hset : d.set with
      | true =>
        simp only [hset, if_true] at hmem ⊢
        exact ((hsame _ _ _).2 _).mp hmem
      | false =>
        simp only [hset, Bool.false_eq_true, if_false] at hmem ⊢
        exact fun a => by rw [← hidm, ← hrom]; exact hmem a
  · obtain ⟨hother, hword⟩ := hc.store hl
    exact ⟨fun a ha hn => (hother a ha hn).trans (hregs a ha), ((hsame _ _ _).2 _).mp hword⟩

/-- What the end of an instruction leaves was so before it. -/
theorem SameSpecial.of_retire {s u : State} (h : SameSpecial s u.retire) : SameSpecial s u := by
  have hu := retire_sameSpecial u
  exact ⟨hu.vab.symm.trans h.vab, hu.ops.symm.trans h.ops, hu.cfg.symm.trans h.cfg, hu.rbp.symm.trans h.rbp,
    hu.tmc.symm.trans h.tmc, hu.tmr.symm.trans h.tmr, hu.pc0.symm.trans h.pc0, hu.pc1.symm.trans h.pc1,
    hu.pc2.symm.trans h.pc2, hu.mmu.symm.trans h.mmu, hu.lru.symm.trans h.lru⟩

theorem retire_pointers (u : State) : SamePointers u u.retire := by simp [SamePointers]

/-- The access of a return changes of the restored state only what a return may (60 R570, R572). -/
theorem AccessMade.keeps {r u : State} {d : Access} {pa : Word} {tlb : Nat → Word} (h : AccessMade r u d pa tlb) :
    ReturnKeeps r u := by
  obtain ⟨ha, hb, hc⟩ := h.ends.pointers
  obtain ⟨hra, hrb, hrc⟩ := retire_pointers u
  refine ⟨fun i hi => ?_, h.ppc, h.ends.special.of_retire, ⟨hra.symm.trans ha, hrb.symm.trans hb, hrc.symm.trans hc⟩,
    (State.retire_q u).symm.trans h.ends.q, (State.retire_mode u).symm.trans h.ends.mode⟩
  rw [h.cps]
  split
  · exact putBit_ca _ _ i (by omega)
  · rfl

/-- CA after the access of a return (44 R392). -/
theorem AccessMade.active {r u : State} {d : Access} {pa : Word} {tlb : Nat → Word} (h : AccessMade r u d pa tlb) :
    u.cps.getLsbD 15 = if d.ctl.getLsbD 7 && d.ctl.getLsbD 5 then !d.isLoad else r.cps.getLsbD 15 := by
  rw [h.cps]
  split
  · exact (getLsbD_putBit _ _ _ _ (by decide)).trans (if_pos rfl)
  · rfl

/-- The channel registers after the access of a return. -/
theorem AccessMade.channel {r u : State} {d : Access} {pa : Word} {tlb : Nat → Word} (h : AccessMade r u d pa tlb) :
    ChannelIs r u d.ctl d.isLoad false d.set d.la (r.chc.extractLsb' 16 8) d.tr d.addr d.data false := by
  obtain ⟨hcha, hchd, hchc⟩ := h.ends.channel
  rw [State.retire_cha] at hcha
  rw [State.retire_chd] at hchd
  rw [State.retire_chc] at hchc
  exact ⟨hcha, hchd, hchc⟩

/-- Settles O47: the access of the channel registers is made in the restored state, which differs from the state under `OPS`
only in the captured program counters. -/
theorem returnRestartsAccess : Obligations.ReturnRestartsAccess := by
  intro s ht hsm hends s1 hcv hnn hml r ctl isLoad set tr pa tlb hgoes hans hlat f hf
  obtain ⟨m, hm⟩ := restoreStatus_eq s1
  let d : Access :=
    { ctl := ctl, isLoad := isLoad, set := set, la := s1.chc.getLsbD 12, user := r.asUser ctl
      lock := r.lockActive set (s1.chc.getLsbD 12), tr := tr, addr := s1.cha, pa := s1.cha, pgm := 0#2, data := s1.chd
      discard := false, left := 0 }
  have hchannel : s1.restoreStatus.channelAccess = d := by
    rw [hm]
    unfold State.channelAccess chcML
    simp only [State.underOps, hml, Bool.not_false, Bool.true_and]
    rfl
  obtain ⟨d1, s2, hissue, hmade⟩ := access_made (s := s1.restoreStatus) (d := d) (pa := pa) (tlb := tlb)
    (by rw [hm]; rfl) rfl (by rw [hm]; exact hgoes) (by rw [hm]; exact hans) (by rw [hm]; exact hlat)
  have hexec : exec f.1 s = .next ((s2.startAccess d1).resumeAt (wordAddr s1.pc1View) (wordAddr s1.pc0View) f.2) := by
    have hrestart : (s1.restoreStatus.chc.getLsbD chcCV && !s1.restoreStatus.chc.getLsbD chcNN) = true ∧
        s1.restoreStatus.chc.getLsbD chcML = false := by
      rw [hm]
      exact ⟨by show (s1.chc.getLsbD 0 && !s1.chc.getLsbD 1) = true; rw [hcv, hnn]; rfl, hml⟩
    rw [returns_exec ht hsm hends f hf, State.restart, if_pos hrestart.1, if_neg (Bool.eq_false_iff.mp hrestart.2),
        hchannel, hissue]
  generalize s2.startAccess d1 = u at hmade hexec
  have hreturned := hmade.keeps.returned f.2
  have hactive := hmade.active
  have hchan := hmade.channel
  have hbp := hmade.ends.alu
  obtain ⟨-, -, -, hidle, htlb, hload, hstore⟩ := hmade
  rw [hm] at hactive hchan hbp hload hstore
  rw [resumeAt_record] at hexec hreturned
  rw [show (_ : Word).getLsbD 15 = s1.ops.getLsbD 15 from underOps_bit s1 (by decide)] at hactive
  have hbytes : BytePointerIs r u ctl s1.cha := fun i => by rw [← State.retire_alu u]; exact hbp i
  have hmoved : ∃ w, (isLoad = true → s1.Brings ctl pa w ∧ (implemented tr = true → u.readReg .A tr = w) ∧ SameRegs s1 u [tr] ∧
        (if set then StoresWord s1 u ctl pa 0xFFFFFFFF#32 else SameMemory s1 u)) ∧
      (isLoad = false → SameRegs s1 u [] ∧ StoresWord s1 u ctl pa s1.chd) := by
    cases hl : isLoad with
    | true =>
      obtain ⟨w, hbrings, hdest, hother, hmem⟩ := hload hl
      exact ⟨w, fun _ => ⟨hbrings, hdest, hother.congr ⟨rfl, rfl⟩ ⟨rfl, rfl⟩, hmem⟩, fun h => absurd h (by decide)⟩
    | false =>
      obtain ⟨hother, hmem⟩ := hstore hl
      exact ⟨0#32, fun h => absurd h (by decide), fun _ => ⟨hother.congr ⟨rfl, rfl⟩ ⟨rfl, rfl⟩, hmem⟩⟩
  obtain ⟨w, hloaded, hstored⟩ := hmoved
  refine ⟨_, w, hexec, hreturned, hactive, fun hl => ?_, fun hl => ?_, htlb, hidle, ⟨hchan.cha, hchan.chd, hchan.chc⟩, hbytes⟩
  · obtain ⟨hbrings, hdest, hother, hmem⟩ := hloaded hl
    exact ⟨hbrings, fun hi => (State.readReg_congr rfl rfl .A hi).trans (hdest hi), hother.congr ⟨rfl, rfl⟩ ⟨rfl, rfl⟩, hmem⟩
  · obtain ⟨hother, hmem⟩ := hstored hl
    exact ⟨hother.congr ⟨rfl, rfl⟩ ⟨rfl, rfl⟩, hmem⟩

end Sys2Proof.Machine

/-! Proofs for the family `other`: an interrupt return that goes on with a multiple sequence. -/

namespace Sys2Proof.Machine

/-- The TLB after a translation that an entry matches differs in Usage bits alone (20 R156). -/
theorem sameTlb_used {s t : State} {va : Word} {e : Nat} (h : t.TlbIs (s.usedTlb va e)) : SameTlbButUsage s t := by
  intro k i hk
  rcases Nat.lt_or_ge k 128 with hlt | hge
  · rw [h k hlt, State.usedTlb]
    split
    · next hodd =>
      have hi : i ≠ 1 := hk.resolve_left (by omega)
      have htwo : (2#32).getLsbD i = false := by
        rw [show (2#32) = BitVec.twoPow 32 1 from rfl, BitVec.getLsbD_twoPow]
        simp [Ne.symm hi]
      split
      · rw [BitVec.getLsbD_or, htwo, Bool.or_false]
      · rw [show (0xFFFFFFFD#32) = ~~~(2#32) from rfl, BitVec.getLsbD_and, BitVec.getLsbD_not, htwo]
        rcases Nat.lt_or_ge i 32 with h32 | h32
        · simp [h32]
        · rw [BitVec.getLsbD_of_ge _ _ h32, Bool.false_and]
    · rfl
  · rw [State.tlbReg, State.tlbReg, Vector.getElem?_eq_none hge, Vector.getElem?_eq_none hge]

theorem sameTlb_same {s t : State} (h : t.TlbIs s.tlbReg) : SameTlbButUsage s t := by
  intro k i _
  rcases Nat.lt_or_ge k 128 with hlt | hge
  · rw [h k hlt]
  · rw [State.tlbReg, State.tlbReg, Vector.getElem?_eq_none hge, Vector.getElem?_eq_none hge]

theorem sameTlb_fetched {s t : State} {rom : Bool} {pa : IAddr} {tlb : Nat → Word} (hat : s.FetchesAt rom pa tlb)
    (h : t.TlbIs tlb) : SameTlbButUsage s t := by
  unfold State.FetchesAt at hat
  simp only at hat
  split at hat
  · obtain ⟨-, -, -, e, -, -, -, rfl⟩ := hat
    exact sameTlb_used h
  · obtain ⟨-, -, rfl⟩ := hat
    exact sameTlb_same h

/-! The state in which the instruction returned to is fetched. -/

/-- The state of a return that has a sequence to go on with, at the fetch of the instruction at `PC1` (60 R570 step 10). -/
def State.returnedTo (s : State) (invalidate : Bool) : State :=
  ({ s.restoreStatus with mlByMove := false } : State).resumeAt (wordAddr s.pc1View) (wordAddr s.pc0View) invalidate

/-- The same before the delayed effects are settled, as the accesses of the sequence see it. -/
def State.goingOn (s : State) (invalidate : Bool) : State :=
  ({ s.restoreStatus with mlByMove := false } : State).goOnAt (wordAddr s.pc1View) (wordAddr s.pc0View) invalidate

theorem restoreStatus_unfrozen {s : State} (h : s.ops.getLsbD 10 = false) :
    ∃ m, s.restoreStatus = { s.underOps with oldMaps := m } := by
  obtain ⟨m, hm⟩ := restoreStatus_eq s
  have hno : ¬(s.cps.getLsbD 10 = false ∧ s.ops.getLsbD 10 = true) := fun hx => absurd (h.symm.trans hx.2) Bool.false_ne_true
  simp only [if_neg hno] at hm
  exact ⟨m, hm⟩

/-- Where the program goes on after a return. -/
def State.resumePc (s : State) : IAddr := if s.cps.getLsbD 10 then s.pc1.extractLsb' 2 30 else s.pc

theorem goingOn_record {s : State} (h : s.ops.getLsbD 10 = false) (invalidate : Bool) : ∃ npc since undef m,
    s.goingOn invalidate = { s.underOps with
      mlByMove := false, pc := s.resumePc, npc := npc, turn := some s.clock, nextTurn := some s.clock, stream := none
      afterMultiple := false, cacheSince := since, cacheUndefined := undef, oldMaps := m } := by
  obtain ⟨m, hm⟩ := restoreStatus_unfrozen h
  refine ⟨wordAddr s.pc0View, if invalidate then s.clock else s.cacheSince,
      if invalidate then false else s.cacheUndefined, m, ?_⟩
  unfold State.goingOn
  rw [hm, (pcViews s).1]
  cases invalidate <;> rfl

theorem returnedTo_eq (s : State) (invalidate : Bool) : s.returnedTo invalidate = (s.goingOn invalidate).settleEffects := rfl

theorem returnedTo_returned (s : State) (invalidate : Bool) : Returned s (s.returnedTo invalidate) :=
  ReturnKeeps.returned (u := { s.restoreStatus with mlByMove := false })
    ⟨fun _ _ => rfl, rfl, ⟨rfl, rfl, rfl, rfl, rfl, rfl, rfl, rfl, rfl, rfl, rfl⟩, ⟨rfl, rfl, rfl⟩, rfl, rfl⟩ invalidate

/-- What a return leaves that has not made the accesses of its sequence: all is described for the next one. -/
def SequenceWaits (s t : State) (lru : Word → Prop) : Prop :=
  Returned s { t with lru := s.lru } ∧ t.cps.getLsbD 15 = s.ops.getLsbD 15 ∧ SameRegs s t [] ∧ SameMemory s t ∧
    SameChannel s t ∧ t.chc = s.chc ∧ t.alu = s.alu ∧ SameTlbButUsage s t ∧ lru t.lru ∧ t.sps.now = s.sps.now ∧
    t.inflight = none

/-- What a fetch that traps leaves. -/
def FetchLeft (x t : State) : Prop :=
  ∃ tlb lru env last block turn cd, t = { x with
    tlb := tlb, lru := lru, env := env, lastNonseq := last, block := block, turn := turn, cdInForce := cd }

theorem sequenceWaits_of {s t : State} {invalidate : Bool} {lru : Word → Prop} (hops : s.ops.getLsbD 10 = false)
    (hidle : s.inflight = none) (ht : FetchLeft (s.returnedTo invalidate) t) (htlb : SameTlbButUsage s t) (hlru : lru t.lru) :
    SequenceWaits s t lru := by
  have hreturned := returnedTo_returned s invalidate
  obtain ⟨npc, since, undef, m, hg⟩ := goingOn_record hops invalidate
  obtain ⟨tlb, lru', env, last, block, turn, cd, rfl⟩ := ht
  rw [returnedTo_eq, hg] at hreturned htlb hlru ⊢
  exact ⟨{ hreturned with special := { hreturned.special with lru := rfl } }, underOps_bit s (by decide),
    fun a ha _ => State.readReg_congr (s := s) rfl rfl .A ha, fun a => ⟨rfl, rfl⟩, ⟨rfl, rfl⟩, rfl, rfl, htlb, hlru, rfl, hidle⟩

/-- The state in which the specification tells what the fetch of a return meets and what is pending then. -/
def State.resumeView (s : State) : State :=
  { s.underOps with pc := s.resumePc, mmu := s.mmu.settle, psTarget := 0 }

/-- The fetch of the instruction returned to raises the trap `vn` and leaves `t`. -/
structure FetchFails (s : State) (invalidate : Bool) (vn : Byte) (t : State) : Prop where
  fetch : (s.returnedTo invalidate).fetch = .trap vn t
  left : FetchLeft (s.returnedTo invalidate) t
  answers : t.env.answers = s.env.answers
  tlb : SameTlbButUsage s t

theorem returnedTo_record {s : State} (hops : s.ops.getLsbD 10 = false) (invalidate : Bool) : ∃ npc since undef m,
    s.returnedTo invalidate = { s.underOps with
      mlByMove := false, pc := s.resumePc, npc := npc, turn := some s.clock, nextTurn := some s.clock, stream := none
      afterMultiple := false, cacheSince := since, cacheUndefined := undef, oldMaps := m, sps := s.sps.settle
      mmu := s.mmu.settle, psTarget := 0, ipa := s.ipa.settle, ipb := s.ipb.settle, ipc := s.ipc.settle } := by
  obtain ⟨npc, since, undef, m, hg⟩ := goingOn_record hops invalidate
  exact ⟨npc, since, undef, m, by rw [returnedTo_eq, hg]; rfl⟩

/-- The traps of the fetch of a return (20 R141, R153, R157, R166). -/
theorem resumed_traps {s : State} (hops : s.ops.getLsbD 10 = false) (invalidate : Bool) :
    let f := s.resumeView
    let va : Word := f.pc ++ 0#2
    let translated := f.cps.getLsbD 5 = false ∧ f.cps.getLsbD 8 = false
    (translated → f.TlbMiss va → ∃ t, FetchFails s invalidate (if f.cps.getLsbD 4 then 10#8 else 8#8) t ∧
      RecommendsFor f va t.lru) ∧
    (∀ e, translated → f.TlbHit va e → permits (f.entry0 va e) .fetch (!f.cps.getLsbD 4) = false →
      ∃ t, FetchFails s invalidate 12#8 t ∧ t.lru &&& 0xFFFFFF81#32 = 0#32) ∧
    ∀ rom pa tlb, f.FetchesAt rom pa tlb → s.fetchChoice.answer = .error → ∃ t, FetchFails s invalidate 6#8 t ∧
        t.lru = s.lru := by
  obtain ⟨npc, since, undef, m, hx⟩ := returnedTo_record hops invalidate
  have hlaw := fetch_traps (x := s.returnedTo invalidate)
  have hfails : ∀ {vn : Byte} {t : State},
      (s.returnedTo invalidate).fetch = .trap vn t → FetchLeft (s.returnedTo invalidate) t →
    t.env.answers = s.env.answers → SameTlbButUsage s t → FetchFails s invalidate vn t := fun h1 h2 h3 h4 => ⟨h1, h2, h3, h4⟩
  rw [hx] at hlaw hfails
  obtain ⟨hmiss, hprot, herror⟩ := hlaw rfl Nat.zero_ne_one Nat.zero_ne_one
  refine ⟨fun htr hm => ?_, fun e htr hit hperm => ?_, fun rom pa tlb hat herr => ?_⟩
  · obtain ⟨t, hfetch, hlru, ht⟩ := hmiss htr hm
    refine ⟨t, hfails hfetch ⟨_, _, _, _, _, _, _, ht⟩ (by rw [ht]; rfl) (by rw [ht]; exact sameTlb_same fun _ _ => rfl), hlru⟩
  · obtain ⟨t, hfetch, hlru, htlb, ht⟩ := hprot e htr hit hperm
    refine ⟨t, hfails hfetch ⟨_, _, _, _, _, _, _, ht⟩ (by rw [ht]; rfl) (sameTlb_used htlb), hlru⟩
  · obtain ⟨t, hfetch, htlb, ht⟩ := herror rom pa tlb hat herr
    refine ⟨t, hfails hfetch ⟨_, _, _, _, _, _, _, ht⟩ (by rw [ht]; rfl) ?_, by rw [ht]; rfl⟩
    exact sameTlb_fetched (s := s.resumeView) (t := t) hat htlb

/-- With no access in flight and every access answered, nothing stands in the way of a trap. -/
theorem idle_ready {s : State} (hidle : s.inflight = none) (hans : s.env.answers = []) :
    s.drain = s ∧ s.settlement = .ends ∧ s.drain.vectorReadable = true := by
  have hdrain : s.drain = s := by unfold State.drain; simp only [hidle]
  refine ⟨hdrain, by rw [State.settlement, hidle], ?_⟩
  rw [hdrain, State.vectorReadable, hans]
  exact Bool.or_true _

theorem takeAsync_idle {s : State} {p : Nat} {vn : Byte} (hidle : s.inflight = none) (hans : s.env.answers = []) :
    ∃ u, s.takeAsync p vn = .next u ∧ TrapEntered s u vn := by
  obtain ⟨hdrain, hends, hread⟩ := idle_ready hidle hans
  obtain ⟨u, hu, hent⟩ := takeAsync_entered (p := p) (vn := vn) hends hread
  rw [hdrain] at hent
  exact ⟨u, hu, hent⟩

theorem raiseCurr_idle {s : State} {vn : Byte} (hda : s.cps.getLsbD 0 = false ∨ vn = 6#8) (hidle : s.inflight = none)
    (hans : s.env.answers = []) : ∃ u, s.raiseCurr vn = .next u ∧ TrapEntered s u vn := by
  obtain ⟨hdrain, hends, hread⟩ := idle_ready hidle hans
  obtain ⟨u, hu, hent⟩ := raiseCurr_entered hda hends hread
  rw [hdrain] at hent
  exact ⟨u, hu, hent⟩

/-! What follows a fetch of a return that has raised a trap (60 R545, R546, R574). -/

theorem afterReturn_waits {s : State} {invalidate : Bool} {vn : Byte} {t : State} (hops : s.ops.getLsbD 10 = false)
    (hnone : ∀ p, 4 ≤ p → p ≤ 12 → ¬s.resumeView.Pending p)
    (hwm : s.resumeView.cps.getLsbD 7 = true) :
    (s.returnedTo invalidate).afterReturn vn t = .next { s.returnedTo invalidate with env := t.env } := by
  obtain ⟨npc, since, undef, m, hx⟩ := returnedTo_record hops invalidate
  have hcases := afterReturn_cases (s.returnedTo invalidate) t vn
  rw [hx] at hcases ⊢
  rcases hcases with ⟨p, h4, h12, hp, -⟩ | ⟨-, -, he⟩ | ⟨-, hw, -⟩
  · exact absurd hp (hnone p h4 h12)
  · exact he
  · exact absurd (hw.symm.trans hwm) (by decide)

section AfterFetch

variable {s : State} {invalidate : Bool} {vn : Byte} {t : State} (hops : s.ops.getLsbD 10 = false)
  (hidle : s.inflight = none) (hcalm : s.Calm) (h : FetchFails s invalidate vn t)
include hops hidle hcalm h

theorem afterReturn_trap (hnone : ∀ p, 4 ≤ p → p ≤ 12 → ¬s.resumeView.Pending p) (hwm : s.resumeView.cps.getLsbD 7 = false)
    (hda : s.resumeView.cps.getLsbD 0 = false ∨ vn = 6#8) :
    ∃ u, (s.returnedTo invalidate).afterReturn vn t = .next u ∧ TrapEntered t u vn := by
  obtain ⟨npc, since, undef, m, hx⟩ := returnedTo_record hops invalidate
  have hcases := afterReturn_cases (s.returnedTo invalidate) t vn
  obtain ⟨-, ⟨tlb, lru, env, last, block, turn, cd, ht⟩, hans, -⟩ := h
  rw [hx] at hcases ht ⊢
  rcases hcases with ⟨p, h4, h12, hp, -⟩ | ⟨-, hw, -⟩ | ⟨-, -, he⟩
  · exact absurd hp (hnone p h4 h12)
  · exact absurd (hw.symm.trans hwm) (by decide)
  · have hin : t.inflight = none := by rw [ht]; exact hidle
    obtain ⟨u, hu, hent⟩ := raiseCurr_idle (s := t) (hda.imp (fun h => by rw [ht]; exact h) id) hin (hans.trans hcalm.answers)
    exact ⟨u, he.trans hu, hent⟩

theorem afterReturn_event {p : Nat} (h4 : 4 ≤ p) (h12 : p ≤ 12) (hp : s.resumeView.Pending p)
    (hfirst : ∀ q, 4 ≤ q → q < p → ¬s.resumeView.Pending q) :
    ∃ u, (s.returnedTo invalidate).afterReturn vn t = .next u ∧
      TrapEntered { s.returnedTo invalidate with env := t.env } u (s.resumeView.eventVector p) := by
  obtain ⟨npc, since, undef, m, hx⟩ := returnedTo_record hops invalidate
  have hcases := afterReturn_cases (s.returnedTo invalidate) t vn
  obtain ⟨-, -, hans, -⟩ := h
  have hin : (s.returnedTo invalidate).inflight = none := by rw [hx]; exact hidle
  rw [hx] at hcases
  rcases hcases with ⟨q, h4', h12', hq, hfirst', he⟩ | ⟨hno, -⟩ | ⟨hno, -⟩
  · obtain rfl : q = p := by
      rcases Nat.lt_trichotomy q p with hlt | rfl | hgt
      · exact absurd hq (hfirst q h4' hlt)
      · rfl
      · exact absurd hp (hfirst' p h4 hgt)
    have hvector : (s.returnedTo invalidate).eventVector q = s.resumeView.eventVector q := by rw [hx]; rfl
    rw [← hx, hvector] at he
    obtain ⟨u, hu, hent⟩ := takeAsync_idle (s := { s.returnedTo invalidate with env := t.env }) (p := q)
      (vn := s.resumeView.eventVector q) hin (hans.trans hcalm.answers)
    exact ⟨u, he.trans hu, hent⟩
  · exact absurd hp (hno p)
  · exact absurd hp (hno p)

end AfterFetch

/-! The return goes on with the sequence that the channel registers describe (60 R570 step 10, R572). -/

/-- The next access of the sequence, made under the restored status (44 R386, R390). -/
def State.sequenceAccess (s : State) : Access :=
  { ctl := s.chc.extractLsb' 24 8, isLoad := s.chc.getLsbD 15, set := false, la := false
    user := s.underOps.asUser (s.chc.extractLsb' 24 8), lock := s.underOps.lockActive false false
    tr := s.chc.extractLsb' 2 8, addr := s.cha, pa := s.cha, pgm := 0#2, data := s.chd, discard := false, left := 0 }

theorem returns_goOn {s : State} (ht : s.testing = false) (hsm : s.cps.getLsbD 4 = true) (hends : s.settlement = .ends)
    (hcv : s.drain.chc.getLsbD 0 = true) (hnn : s.drain.chc.getLsbD 1 = false) (hml : s.drain.chc.getLsbD 14 = true) :
    ∀ g ∈ returns, exec g.1 s = (s.drain.goingOn g.2).resumeMultiple s.drain.sequenceAccess := by
  intro g hg
  obtain ⟨m, hm⟩ := restoreStatus_eq s.drain
  have hchannel : s.drain.restoreStatus.channelAccess = s.drain.sequenceAccess := by
    rw [hm]
    unfold State.channelAccess chcML
    simp only [State.underOps, hml, Bool.not_true, Bool.false_and]
    rfl
  have hchc : s.drain.restoreStatus.chc = s.drain.chc := by rw [hm]; rfl
  have hvalid : (s.drain.restoreStatus.chc.getLsbD chcCV && !s.drain.restoreStatus.chc.getLsbD chcNN) = true := by
    rw [hchc, show s.drain.chc.getLsbD chcCV = true from hcv, show s.drain.chc.getLsbD chcNN = false from hnn]; rfl
  have hmultiple : s.drain.restoreStatus.chc.getLsbD chcML = true := by rw [hchc]; exact hml
  rw [returns_exec ht hsm hends g hg, State.restart, if_pos hvalid, if_pos hmultiple, hchannel]
  rfl

theorem resumeMultiple_fails {s : State} {invalidate : Bool} {vn : Byte} {t : State} (h : FetchFails s invalidate vn t)
    (d : Access) : (s.goingOn invalidate).resumeMultiple d = (s.returnedTo invalidate).afterReturn vn t := by
  have hfetch : (s.goingOn invalidate).settleEffects.fetch = .trap vn t := h.fetch
  unfold State.resumeMultiple
  rw [hfetch]
  rfl

/-- A fetch that is answered, where nothing has been prefetched (20 R141). -/
theorem fetch_ready {x : State} {rom : Bool} {pa : IAddr} {tlb : Nat → Word} (hstream : x.stream = none)
    (hat : x.FetchesAt rom pa tlb) (hready : x.fetchChoice.answer = .ready) : ∃ w t, x.fetch = .word w t := by
  obtain ⟨tl, -, hsrc⟩ := fetchSource_at hat { x.env with fetches := x.env.fetches.drop 1 } x.fetchStart.lastNonseq
    x.fetchStart.block
  rw [← fetchStart_eq x] at hsrc
  have hnone : x.fetchStart.streamServes x.fetchChoice.oldStream = none := by
    rw [fetchStart_eq, State.streamServes, hstream]
    cases x.fetchChoice.oldStream <;> rfl
  have hold : x.fetchStart.fetchSource x.fetchChoice.oldStream = x.fetchStart.fetchSource false := by
    unfold State.fetchSource
    rw [hnone]
    rfl
  rw [hsrc] at hold
  have hstart : ({ x with env := { x.env with fetches := x.env.fetches.drop 1 } } : State).discardPrefetch.fetchSource
    x.fetchChoice.oldStream = _ := hold
  unfold State.fetch
  simp only [hstart, hready]
  exact ⟨_, _, rfl⟩

/-- The sequence of a return that nothing prevents is carried out (60 R572, 44 R386). -/
theorem resumeMultiple_done {s : State} (ht : s.testing = false) (hops : s.ops.getLsbD 10 = false) (hcalm : s.Calm) {rom : Bool}
    {ipa : IAddr} {itlb : Nat → Word} (hat : s.resumeView.FetchesAt rom ipa itlb) (hready : s.fetchChoice.answer = .ready)
    (hprot : ∀ k ≤ s.countRemaining.toNat,
        1 ≤ k → s.underOps.isProtected (seqReg s.sequenceAccess.tr k) = false) {pa : Nat → Word}
    (hgoes : ∀ k ≤ s.countRemaining.toNat, ∃ tlb,
      s.underOps.Goes s.sequenceAccess.ctl s.sequenceAccess.want (seqAddr s.cha k) (pa k) tlb) (invalidate : Bool) :
    ∃ u w, (s.goingOn invalidate).resumeMultiple s.sequenceAccess = .next { u.settleEffects with afterMultiple := true } ∧
      SeqDone (s.goingOn invalidate) u s.sequenceAccess s.countRemaining.toNat pa w := by
  obtain ⟨npc, since, undef, m, hg⟩ := goingOn_record hops invalidate
  obtain ⟨w, x, hfetch⟩ : ∃ w x, (s.goingOn invalidate).settleEffects.fetch = .word w x := by
    rw [hg]
    exact fetch_ready (x := State.settleEffects _) rfl hat hready
  have hfrozen : (s.goingOn invalidate).frozen = false := by
    have hfz : (s.goingOn invalidate).fz = false := by
      rw [hg]
      exact (underOps_bit s (by decide)).trans hops
    have htest : (s.goingOn invalidate).testing = false := by rw [hg]; exact ht
    rw [State.frozen, hfz, htest]
    rfl
  have hdone := runMultiple_done false s.countRemaining.toNat (s.goingOn invalidate) s.sequenceAccess pa
    (by rw [hg]; rfl) rfl rfl rfl hfrozen
    (by rw [hg]; exact ⟨hcalm.events, hcalm.cycles, hcalm.answers, hcalm.warn, hcalm.reset⟩)
    (fun h => absurd h (by decide)) (by rw [hg]; exact hgoes) (by rw [hg]; exact hprot)
  obtain ⟨u, w', hrun, hdone⟩ := hdone
  refine ⟨u, w', ?_, hdone⟩
  have hcount : (s.goingOn invalidate).countRemaining = s.countRemaining := by rw [hg]; rfl
  unfold State.resumeMultiple
  rw [hfetch, hcount]
  simp only [hrun]
  rfl

theorem bytesAfterAll_congr {s t : State} (hsys : t.sys = s.sys) (hidm : t.idm = s.idm) (ctl : BitVec 8) (pa w : Nat → Word)
    (n : Nat) : t.bytesAfterAll ctl pa w n = s.bytesAfterAll ctl pa w n := by
  induction n with
  | zero => rw [State.bytesAfterAll, State.bytesAfterAll, hidm]
  | succ n ih =>
    rw [State.bytesAfterAll, State.bytesAfterAll, ih]
    unfold State.bytesAfter State.movesByte State.leftWord State.romAccess State.narrowAccess
    rw [hsys]

section Frame

variable {s t : State} (h : SeqFrame s t)
include h

theorem SeqFrame.special (hlru : t.lru = s.lru) : SameSpecial s t :=
  { vab := (congrArg State.vab h :), ops := (congrArg State.ops h :), cfg := (congrArg State.cfg h :)
    rbp := (congrArg State.rbp h :), tmc := (congrArg State.tmc h :), tmr := (congrArg State.tmr h :)
    pc0 := (congrArg State.pc0 h :), pc1 := (congrArg State.pc1 h :)
    pc2 := (congrArg State.pc2 h :), mmu := congrArg (fun x => x.mmu.now) h, lru := hlru }

theorem SeqFrame.pointers : SamePointers s t :=
  ⟨congrArg (fun x => x.ipa.now) h, congrArg (fun x => x.ipb.now) h, congrArg (fun x => x.ipc.now) h⟩

theorem SeqFrame.q : t.q = s.q := (congrArg State.q h :)

theorem SeqFrame.mode : t.mode = s.mode := (congrArg State.mode h :)

end Frame

/-- What is left of the state with the restored status once the sequence and the return have ended (60 R571, 44 R386). -/
theorem resumed_ends {s u : State} {invalidate : Bool} {n : Nat} {pa w : Nat → Word} (hops : s.ops.getLsbD 10 = false)
    (h : SeqDone (s.goingOn invalidate) u s.sequenceAccess n pa w) :
    let t : State := { u.settleEffects with afterMultiple := true }
    let ctl := s.sequenceAccess.ctl
    let isLoad := s.sequenceAccess.isLoad
    Returned s t ∧ t.cps.getLsbD 15 = (if ctl.getLsbD 7 && ctl.getLsbD 5 then !isLoad else s.ops.getLsbD 15) ∧
      SequenceEnds { s.underOps with pc0 := t.pc0, pc1 := t.pc1, pc2 := t.pc2 } t ctl isLoad s.sequenceAccess.tr s.cha n
        (w n) := by
  intro t ctl isLoad
  have hreturned := returnedTo_returned s invalidate
  obtain ⟨npc, since, undef, m, hg⟩ := goingOn_record hops invalidate
  rw [returnedTo_eq, hg] at hreturned
  rw [hg] at h
  have hf := h.frame
  have hcps : u.cps = if ctl.getLsbD 7 && ctl.getLsbD 5 then putBit s.underOps.cps cpsCA !isLoad else s.underOps.cps := h.cps
  refine ⟨?_, ?_, ?_⟩
  · refine {
      status := fun i hi => ?_
      pc := (congrArg State.pc hf :).trans hreturned.pc, npc := (congrArg State.npc hf :).trans hreturned.npc
      ppc := (congrArg State.ppc hf :).trans hreturned.ppc, pc0 := (congrArg State.pc0 hf :).trans hreturned.pc0
      pc1 := (congrArg State.pc1 hf :).trans hreturned.pc1, pc2 := (congrArg State.pc2 hf :).trans hreturned.pc2
      special := { hf.special h.lru with pc0 := rfl, pc1 := rfl, pc2 := rfl }
      pointers := hf.pointers
      q := hf.q, mode := hf.mode }
    show u.cps.getLsbD i = _
    rw [hcps, ← underOps_bit s (by omega : i ≠ 14)]
    split
    · exact putBit_ca _ _ i (by omega)
    · rfl
  · show u.cps.getLsbD 15 = _
    rw [hcps, ← underOps_bit s (by decide : 15 ≠ 14)]
    split
    · exact (getLsbD_putBit _ _ _ _ (by decide)).trans (if_pos rfl)
    · rfl
  · exact {
      cha := h.cha, chd := h.chd, chc := h.chc, alu := h.alu
      special := { hf.special h.lru with pc0 := rfl, pc1 := rfl, pc2 := rfl }
      pointers := hf.pointers
      q := hf.q, mode := hf.mode, tlb := h.tlb, untranslated := h.untranslated
      inflight := h.inflight, shadow := h.shadow }

/-- Settles O48: the fetch of the return fails, and what is due then is taken, or it succeeds and the sequence is carried
out. -/
theorem returnResumesMultiple : Obligations.ReturnResumesMultiple := by
  intro s ht hsm hends s1 hcv hnn hml hops hcalm r f va described traps translated refused fails noEvent
  have hidle : s1.inflight = none := (drain_same s).2.2.2.2
  have hexec := returns_goOn ht hsm hends hcv hnn hml
  have hlaw := fun invalidate => resumed_traps hops invalidate
  have hdue : fails → ∀ invalidate, ∃ vn t, FetchFails s1 invalidate vn t := by
    rintro (⟨htr, hmiss | ⟨e, hit, hperm⟩⟩ | ⟨herr, rom, ipa, itlb, hat⟩) invalidate
    · obtain ⟨t, hfail, -⟩ := (hlaw invalidate).1 htr hmiss
      exact ⟨_, t, hfail⟩
    · obtain ⟨t, hfail, -⟩ := (hlaw invalidate).2.1 e htr hit hperm
      exact ⟨_, t, hfail⟩
    · obtain ⟨t, hfail, -⟩ := (hlaw invalidate).2.2 rom ipa itlb hat herr
      exact ⟨_, t, hfail⟩
  have hkept : ∀ {vn t} invalidate, FetchFails s1 invalidate vn t →
      SequenceWaits s1 { s1.returnedTo invalidate with env := t.env } (· = s1.lru) := by
    intro vn t invalidate hfail
    obtain ⟨npc, since, undef, m, hx⟩ := returnedTo_record hops invalidate
    refine sequenceWaits_of hops hidle ⟨_, _, _, _, _, _, _, rfl⟩ ?_ ?_
    · rw [hx]; exact sameTlb_same fun _ _ => rfl
    · rw [hx]; rfl
  have htaken : noEvent → f.cps.getLsbD 7 = false → ∀ (vn : Byte) (lru : Word → Prop),
      (f.cps.getLsbD 0 = false ∨ vn = 6#8) → (∀ invalidate, ∃ t, FetchFails s1 invalidate vn t ∧ lru t.lru) → traps vn lru := by
    intro hnone hwm vn lru hda hfails g hg
    obtain ⟨t, hfail, hlru⟩ := hfails g.2
    obtain ⟨u, hu, hent⟩ := afterReturn_trap hops hidle hcalm hfail hnone hwm hda
    exact ⟨t, u, (hexec g hg).trans ((resumeMultiple_fails hfail _).trans hu), hent,
      sequenceWaits_of hops hidle hfail.left hfail.tlb hlru⟩
  refine ⟨fun hnone hwm => ⟨fun htr hda => ⟨fun hmiss => ?_, fun e hrefused => ?_⟩, fun rom ipa itlb hat herr => ?_⟩,
    fun hfails p h4 h12 hp hfirst g hg => ?_, fun hfails hnone hwm g hg => ?_, fun rom ipa itlb hat hready => ?_⟩
  · exact htaken hnone hwm _ _ (.inl hda) fun invalidate => (hlaw invalidate).1 htr hmiss
  · exact htaken hnone hwm _ (fun lru => lru &&& 0xFFFFFF81#32 = 0#32) (.inl hda) fun invalidate =>
      (hlaw invalidate).2.1 e htr hrefused.1 hrefused.2
  · exact htaken hnone hwm _ (· = s1.lru) (.inr rfl) fun invalidate => (hlaw invalidate).2.2 rom ipa itlb hat herr
  · obtain ⟨vn, t, hfail⟩ := hdue hfails g.2
    obtain ⟨u, hu, hent⟩ := afterReturn_event hops hidle hcalm hfail h4 h12 hp hfirst
    exact ⟨_, u, (hexec g hg).trans ((resumeMultiple_fails hfail _).trans hu), hent, hkept g.2 hfail⟩
  · obtain ⟨vn, t, hfail⟩ := hdue hfails g.2
    exact ⟨_, (hexec g hg).trans ((resumeMultiple_fails hfail _).trans (afterReturn_waits hops hnone hwm)), hkept g.2 hfail⟩
  · intro ctl isLoad tr n hprot pa hgoes g hg
    have hn : s1.countRemaining.toNat = n := count_eq s1
    rw [← hn] at hprot hgoes ⊢
    obtain ⟨u, w, hres, hdone⟩ :=
      resumeMultiple_done ((State.drain_testing s).trans ht) hops hcalm hat hready hprot hgoes g.2
    obtain ⟨hreturned, hactive, hsequence⟩ := resumed_ends hops hdone
    obtain ⟨npc, since, undef, m, hrec⟩ := goingOn_record hops g.2
    rw [hrec] at hdone
    refine ⟨_, w, (hexec g hg).trans hres, hreturned, hactive, fun hl => ?_, fun hl => ?_, hsequence⟩
    · obtain ⟨hbrings, ⟨hregs, hwords⟩, hmem⟩ := hdone.load hl
      exact ⟨hbrings, ⟨hregs.congr ⟨rfl, rfl⟩ ⟨rfl, rfl⟩, fun k hk hlast hi => (State.readReg_congr rfl rfl .A hi).trans
        (hwords k hk hlast hi)⟩, hmem⟩
    · obtain ⟨hfirst, hrest, hregs, hmem⟩ := hdone.store hl
      refine ⟨hfirst, fun k hk hpos hi => hrest k hk hpos hi, fun a => ⟨(hmem a).1, (hmem a).2.trans ?_⟩,
        hregs.congr ⟨rfl, rfl⟩ ⟨rfl, rfl⟩⟩
      refine congrFun (bytesAfterAll_congr ?_ ?_ ctl pa w _) a
      · rfl
      · rfl

end Sys2Proof.Machine

/-! Proofs for the family `other`: a multiple sequence that an event, `*RESET` or `*WARN` cuts. -/

namespace Sys2Proof.Machine

theorem seqReg_succ (tr : RegNum) (k : Nat) : seqReg tr (k + 1) = nextReg (seqReg tr k) := (seqReg_next (seqReg tr k) 0).symm

theorem seqAddr_zero (addr : Word) : seqAddr addr 0 = addr := by simp [seqAddr]

theorem seqAddr_succ (addr : Word) (k : Nat) : seqAddr addr (k + 1) = seqAddr addr k + 4#32 := by
  apply BitVec.eq_of_toNat_eq
  unfold seqAddr
  simp only [BitVec.toNat_add, BitVec.toNat_ofNat]
  omega

/-! What the first transfers of a sequence leave. -/

/-- The first `k` transfers of the sequence of `d` have been made, and nothing is in flight (20 R160, 44 R386). -/
structure SequenceSo (s t : State) (d : Access) (k : Nat) (pa w : Nat → Word) : Prop where
  made : Transferred s t d.ctl d.isLoad d.tr k pa w
  first : d.isLoad = false → 0 < k → w 0 = d.data
  frame : SeqFrame s t
  alu : if 0 < k then BytePointerIs s t d.ctl d.addr else t.alu = s.alu
  cps : t.cps = if 0 < k ∧ (d.ctl.getLsbD 7 && d.ctl.getLsbD 5) = true then putBit s.cps cpsCA !d.isLoad else s.cps
  tlb : SameTlbButUsage s t
  lru : t.lru = s.lru
  derr : t.derr = s.derr
  shadow : (d.isLoad = false ∨ ∀ j < k, seqReg d.tr j ≠ 1#8) → t.sps.now = s.sps.now
  noShadow : d.isLoad = true → (∃ j < k, seqReg d.tr j = 1#8) → t.sps.now = none
  inflight : t.inflight = none

theorem SeqPart.so {s t : State} {d : Access} {k : Nat} {pa w : Nat → Word} (h : SeqPart s t d k pa w)
    (hdata : d.isLoad = false → d.data = s.readReg .A d.tr) : SequenceSo s t d (k + 1) pa w := by
  refine
    { made := ⟨fun hl => ?_, fun hl => ?_⟩, first := fun hl _ => (h.store hl).1, frame := h.frame
      alu := (if_pos k.succ_pos).mpr h.alu, cps := ?_, tlb := h.tlb, lru := h.lru, derr := h.derr
      shadow := fun hx => h.shadow (hx.imp id fun hx j hj => hx j (Nat.lt_succ_of_le hj))
      noShadow := fun hl ⟨j, hj, e⟩ => h.noShadow hl ⟨j, Nat.le_of_lt_succ hj, e⟩, inflight := h.inflight }
  · obtain ⟨hbrings, ⟨hregs, hwords⟩, hmem⟩ := h.load hl
    exact ⟨fun j hj => hbrings j (Nat.le_of_lt_succ hj), ⟨hregs, fun j hj hlast hi =>
      hwords j (Nat.le_of_lt_succ hj) (fun i hi' => hlast i (Nat.lt_succ_of_le hi')) hi⟩, hmem⟩
  · obtain ⟨hfirst, hrest, hregs, hmem⟩ := h.store hl
    refine ⟨fun j hj hi => ?_, hregs, hmem⟩
    rcases Nat.eq_zero_or_pos j with rfl | hpos
    · exact hfirst.trans (hdata hl)
    · exact hrest j (Nat.le_of_lt_succ hj) hpos hi
  · rw [h.cps]
    simp only [Nat.succ_pos, true_and]

theorem SequenceSo.cps_bit {s x : State} {d : Access} {k : Nat} {pa w : Nat → Word} (h : SequenceSo s x d k pa w) {i : Nat}
    (hi : i ≠ 15) : x.cps.getLsbD i = s.cps.getLsbD i := by
  rw [h.cps]
  split
  · exact putBit_ca _ _ i hi
  · rfl

/-- The registers and the memories are the same. -/
def SameStore (x t : State) : Prop := t.gpr = x.gpr ∧ t.gr1 = x.gr1 ∧ t.idm = x.idm ∧ t.rom = x.rom

theorem Transferred.congr {s x t : State} {ctl : BitVec 8} {isLoad : Bool} {tr : RegNum} {k : Nat} {pa w : Nat → Word}
    (h : Transferred s x ctl isLoad tr k pa w) (hsame : SameStore x t) : Transferred s t ctl isLoad tr k pa w := by
  obtain ⟨hgpr, hgr1, hidm, hrom⟩ := hsame
  have hread : ∀ a, implemented a = true → t.readReg .A a = x.readReg .A a := fun a ha => State.readReg_congr hgpr hgr1 .A ha
  refine ⟨fun hl => ?_, fun hl => ?_⟩
  · obtain ⟨hbrings, ⟨hregs, hwords⟩, hmem⟩ := h.load hl
    exact ⟨hbrings, ⟨fun a ha hn => (hread a ha).trans (hregs a ha hn), fun j hj hlast hi => (hread _ hi).trans
      (hwords j hj hlast hi)⟩, fun a => by rw [hidm, hrom]; exact hmem a⟩
  · obtain ⟨hwords, hregs, hmem⟩ := h.store hl
    exact ⟨hwords, fun a ha hn => (hread a ha).trans (hregs a ha hn), fun a => by rw [hidm, hrom]; exact hmem a⟩

/-- What the recording of the next access and the end of the instruction leave of the state after a transfer. -/
structure SequenceKept (x t : State) : Prop where
  store : SameStore x t
  special : SameSpecial { x with lru := t.lru, tmc := t.tmc, tmr := t.tmr } t
  pointers : SamePointers x t
  q : t.q = x.q
  mode : t.mode = x.mode
  tlb : SameTlbButUsage x t
  shadow : t.sps.now = x.sps.now
  inflight : t.inflight = none

theorem SequenceKept.refl {x : State} (h : x.inflight = none) : SequenceKept x x :=
  ⟨⟨rfl, rfl, rfl, rfl⟩, ⟨rfl, rfl, rfl, rfl, rfl, rfl, rfl, rfl, rfl, rfl, rfl⟩, ⟨rfl, rfl, rfl⟩, rfl, rfl,
      fun _ _ _ => rfl, rfl, h⟩

theorem SequenceSo.at {s x t : State} {d : Access} {k : Nat} {pa w : Nat → Word} (h : SequenceSo s x d k pa w)
    (hkept : SequenceKept x t) (halu : BytePointerIs s t d.ctl d.addr) :
    SequenceAt { s with tmc := t.tmc, tmr := t.tmr } t d.ctl d.isLoad d.tr d.addr k pa w := by
  have hspecial := h.frame.special h.lru
  have hpointers := h.frame.pointers
  have hmade := h.made.congr hkept.store
  have hk := hkept.special
  refine
    { load := fun hl => ?_, store := fun hl => ?_, alu := halu
      special := ⟨hk.vab.trans hspecial.vab, hk.ops.trans hspecial.ops, hk.cfg.trans hspecial.cfg,
          hk.rbp.trans hspecial.rbp, rfl,
        rfl, hk.pc0.trans hspecial.pc0, hk.pc1.trans hspecial.pc1, hk.pc2.trans hspecial.pc2, hk.mmu.trans hspecial.mmu, rfl⟩
      pointers := ?_, q := hkept.q.trans h.frame.q, mode := hkept.mode.trans h.frame.mode, tlb := h.tlb.trans hkept.tlb
      shadow := fun hx => hkept.shadow.trans (h.shadow hx), noShadow := fun hl hx => hkept.shadow.trans (h.noShadow hl hx)
      inflight := hkept.inflight }
  · obtain ⟨hbrings, hloads, hmem⟩ := hmade.load hl
    exact ⟨hbrings, hloads, hmem⟩
  · obtain ⟨hwords, hregs, hmem⟩ := hmade.store hl
    refine ⟨hwords, hregs, fun a => ⟨(hmem a).1, (hmem a).2.trans ?_⟩⟩
    exact (congrFun (bytesAfterAll_congr (s := s) (t := { s with tmc := t.tmc, tmr := t.tmr }) rfl rfl d.ctl pa w k) a).symm
  · obtain ⟨ha, hb, hc⟩ := hkept.pointers
    obtain ⟨ha', hb', hc'⟩ := hpointers
    exact ⟨ha.trans ha', hb.trans hb', hc.trans hc'⟩

theorem SequenceKept.retire {x t : State} (h : SequenceKept x t) : SequenceKept x t.retire := by
  obtain ⟨⟨hgpr, hgr1, hidm, hrom⟩, hspecial, ⟨ha, hb, hc⟩, hq, hmode, htlb, hshadow, hin⟩ := h
  obtain ⟨ra, rb, rc⟩ := retire_pointers t
  have hr := retire_sameSpecial t
  exact {
    store := ⟨(State.retire_gpr t).trans hgpr, (State.retire_gr1 t).trans hgr1, (State.retire_idm t).trans hidm,
      (State.retire_rom t).trans hrom⟩
    special := ⟨hr.vab.trans hspecial.vab, hr.ops.trans hspecial.ops, hr.cfg.trans hspecial.cfg, hr.rbp.trans hspecial.rbp, rfl,
      rfl, hr.pc0.trans hspecial.pc0, hr.pc1.trans hspecial.pc1, hr.pc2.trans hspecial.pc2, hr.mmu.trans hspecial.mmu, rfl⟩
    pointers := ⟨ra.trans ha, rb.trans hb, rc.trans hc⟩
    q := (State.retire_q t).trans hq, mode := (State.retire_mode t).trans hmode
    tlb := fun k i hk => by rw [State.tlbReg, State.retire_tlb]; exact htlb k i hk
    shadow := (by simp : t.retire.sps.now = t.sps.now).trans hshadow
    inflight := (State.retire_inflight t).trans hin }

/-- The status after a transfer (44 R392). -/
theorem statusButActive_of {s x : State} {ctl : BitVec 8} {isLoad : Bool}
    (h : x.cps = if (ctl.getLsbD 7 && ctl.getLsbD 5) = true then putBit s.cps cpsCA !isLoad else s.cps) :
    StatusButActive s x ctl isLoad := by
  intro j
  rw [h]
  cases h7 : ctl.getLsbD 7 <;> cases h5 : ctl.getLsbD 5 <;> simp only [Bool.and_self, Bool.and_true, Bool.and_false,
    Bool.false_eq_true, and_false, and_true, if_false, if_true]
  exact getLsbD_putBit _ _ _ _ (by decide)

/-- The status after a sequence has ended, whatever ended it (44 R392, 60 R600). -/
theorem StatusButActive.retire {s x : State} {ctl : BitVec 8} {isLoad : Bool} (h : StatusButActive s x ctl isLoad) :
    StatusAfterAccess s x.retire ctl isLoad := by
  intro i
  have hte : x.cps.getLsbD 13 = s.cps.getLsbD 13 := (h 13).trans (if_neg fun hx => absurd hx.1 (by decide))
  rw [State.retire_cps, State.traceCopy_cps, ← h i, ← hte]
  rfl

theorem frame_retire {s x : State} (h : SeqFrame s x) : PcAdvances s x.retire :=
  retire_pcAdvances (congrArg State.pc h :) (congrArg State.npc h :) (congrArg State.ppc h :) (congrArg State.testing h :)

/-! The gap between two transfers (60 R554). -/

theorem sequenceGap_reset {t : State} {d : Access} (hprot : t.isProtected (nextReg d.tr) = false)
    (hreset : t.nextPins.reset = true) (m : Nat) (b : Bool) : t.sequenceGap m d b = .reset t :=
  (if_neg (Bool.eq_false_iff.mp hprot)).trans (if_pos hreset)

theorem sequenceGap_warn {t : State} {d : Access} (hprot : t.isProtected (nextReg d.tr) = false)
    (hreset : t.nextPins.reset = false) (hwarn : t.betweenAccesses.warnPending = true) (m : Nat) (b : Bool) :
    t.sequenceGap m d b = .warn (t.betweenAccesses.record (t.nextAccess d) true (BitVec.ofNat 8 m)) :=
  (if_neg (Bool.eq_false_iff.mp hprot)).trans ((if_neg (Bool.eq_false_iff.mp hreset)).trans (if_pos hwarn))

theorem sequenceGap_event {t : State} {d : Access} {prio : Nat} {vn : Byte} (hprot : t.isProtected (nextReg d.tr) = false)
    (hreset : t.nextPins.reset = false) (hwarn : t.betweenAccesses.warnPending = false)
    (hevent : t.betweenAccesses.asyncEvent = some (prio, vn)) (m : Nat) :
    t.sequenceGap m d true = .event prio vn (t.betweenAccesses.record (t.nextAccess d) true (BitVec.ofNat 8 m)) := by
  refine (if_neg (Bool.eq_false_iff.mp hprot)).trans ((if_neg (Bool.eq_false_iff.mp hreset)).trans
    ((if_neg (Bool.eq_false_iff.mp hwarn)).trans ?_))
  rw [if_pos rfl, hevent]

/-- What passes in a gap depends on the pins, the environment and the Timer alone. -/
theorem between_record {s t : State} (hpins : t.pins = s.pins) (hpending : t.warnPending = s.warnPending) (henv : t.env = s.env)
    (htmc : t.tmc = s.tmc) (htmr : t.tmr = s.tmr) : ∃ c, t.betweenAccesses = { t with
      clock := c, pins := s.betweenAccesses.pins, warnPending := s.betweenAccesses.warnPending, tmc := s.betweenAccesses.tmc
      tmr := s.betweenAccesses.tmr, env := s.betweenAccesses.env } := by
  have hnext : t.nextPins = s.nextPins := by rw [State.nextPins, State.nextPins, henv, hpins]
  have halarm : t.alarm = s.alarm := by rw [State.alarm, State.alarm, hnext, hpins]
  unfold State.betweenAccesses
  rw [hnext, hpins, halarm]
  split
  · refine ⟨t.clock, ?_⟩
    unfold State.timer
    simp only [henv, htmc, htmr, hpins, hpending]
  · refine ⟨t.clock + 1, ?_⟩
    unfold State.timer State.samplePins
    simp only [hnext, henv, htmc, htmr, hpins, hpending]

/-- The next access of a sequence is recorded (44 R386). -/
theorem record_next {x : State} {d : Access} (hfree : x.frozen = false) (cr : BitVec 8) (hset : d.set = false)
    (hla : d.la = false) :
    ∃ chd, (d.isLoad = false → chd = d.data) ∧ x.record d true cr = { x with
      cha := d.addr, chd := chd, mlByMove := false
      chc := d.ctl ++ cr ++ BitVec.ofBool d.isLoad ++ 1#1 ++ 0#4 ++ d.tr ++ 1#2 } := by
  refine ⟨if d.isLoad then x.free .chdLoad else d.data, fun hl => by rw [hl]; rfl, ?_⟩
  rw [State.record, if_neg (Bool.eq_false_iff.mp hfree), channelControl_next d.ctl cr d.isLoad d.tr d rfl rfl hset hla rfl]

/-- `v` is `x` after the gap that left `m`, the next access being recorded. -/
def SequenceCut (x m v : State) : Prop :=
  v = { x with
    clock := v.clock, pins := m.pins, warnPending := m.warnPending, tmc := m.tmc, tmr := m.tmr, env := m.env, cha := v.cha
    chd := v.chd, chc := v.chc, mlByMove := v.mlByMove }

theorem SequenceCut.kept {x m v : State} (h : SequenceCut x m v) (hidle : x.inflight = none) : SequenceKept x v := by
  rw [h]
  exact ⟨⟨rfl, rfl, rfl, rfl⟩, ⟨rfl, rfl, rfl, rfl, rfl, rfl, rfl, rfl, rfl, rfl, rfl⟩, ⟨rfl, rfl, rfl⟩, rfl, rfl,
    fun _ _ _ => rfl, rfl, hidle⟩

/-- The access after transfer `j` of the sequence of `d` is the next one of the sequence. -/
theorem sequence_next {s t x : State} {d e : Access} {j n : Nat} {pa w : Nat → Word} (h : SequenceSo s t d (j + 1) pa w)
    (he : e = { d with addr := seqAddr d.addr j, tr := seqReg d.tr j, data := e.data }) (hset : d.set = false)
        (hla : d.la = false)
    (hfree : x.frozen = false) {m : State} (hx : ∃ c, x = { t with
      clock := c, pins := m.pins, warnPending := m.warnPending, tmc := m.tmc, tmr := m.tmr, env := m.env }) :
    ∃ v, x.record (t.nextAccess e) true (BitVec.ofNat 8 (n - 1 - j)) = v ∧ SequenceCut t m v ∧
      SequenceNext s v d.ctl d.isLoad d.tr d.addr (j + 1) n := by
  obtain ⟨chd, hchd, hrecord⟩ := record_next (d := t.nextAccess e) hfree (BitVec.ofNat 8 (n - 1 - j)) (by rw [he]; exact hset)
    (by rw [he]; exact hla)
  obtain ⟨c, rfl⟩ := hx
  have haddr : (t.nextAccess e).addr = seqAddr d.addr (j + 1) := by rw [seqAddr_succ, he]; rfl
  have htr : (t.nextAccess e).tr = seqReg d.tr (j + 1) := by rw [seqReg_succ, he]; rfl
  have hctl : (t.nextAccess e).ctl = d.ctl := by rw [he]; rfl
  have hload : (t.nextAccess e).isLoad = d.isLoad := by rw [he]; rfl
  refine ⟨_, hrecord, rfl, haddr, fun hl hi => ?_, ?_⟩
  · have hdata : (t.nextAccess e).data = t.readReg .A (seqReg d.tr (j + 1)) := by
      rw [← htr]
      show (if e.isLoad then e.data else t.readReg .A (nextReg e.tr)) = _
      rw [show e.isLoad = false from hload.trans hl]
      rfl
    exact (hchd (hload.trans hl)).trans (hdata.trans ((h.made.store hl).2.1 _ hi (by simp)))
  · rw [show n - (j + 1) = n - 1 - j by omega, ← hctl, ← hload, ← htr]

theorem SequenceNext.retire {s v : State} {ctl : BitVec 8} {isLoad : Bool} {tr : RegNum} {addr : Word} {k n : Nat}
    (h : SequenceNext s v ctl isLoad tr addr k n) : SequenceNext s v.retire ctl isLoad tr addr k n := by
  obtain ⟨hcha, hchd, hchc⟩ := h
  exact ⟨(State.retire_cha v).trans hcha, fun hl hi => (State.retire_chd v).trans (hchd hl hi), (State.retire_chc v).trans hchc⟩

theorem multiple_exec {s : State} {ctl : BitVec 8} {ra : RegNum} {rb : Src2} (isLoad : Bool) (h : s.MaySequence ctl ra rb) :
    exec (if isLoad then .loadm ctl ra rb else .storem ctl ra rb) s =
      (s.drain.runMultiple s.drain.countRemaining.toNat (s.drain.descriptor isLoad false false ctl (s.absReg .A ra)
        (s.drain.srcValue (s.resolve rb)) (if isLoad then 0#32 else s.drain.readReg .A (s.absReg .A ra))) true).result
          State.retire := by
  rw [← mult_start isLoad h]
  cases isLoad <;> rfl

/-- No answer of the system is used between two accesses. -/
theorem between_answers (s : State) : s.betweenAccesses.env.answers = s.env.answers := by
  unfold State.betweenAccesses
  split <;> rfl

/-! What is left once the instruction of a sequence that has been cut after transfer `j` has ended. -/

section Ended

variable {s t : State} {d : Access} {j : Nat} {pa w : Nat → Word} (h : SequenceSo s t d (j + 1) pa w)
include h

theorem SequenceSo.active : StatusButActive s t d.ctl d.isLoad :=
  statusButActive_of (h.cps.trans (by simp only [Nat.succ_pos, true_and]))

theorem SequenceSo.bytePointer : BytePointerIs s t d.ctl d.addr := (if_pos (Nat.succ_pos j)).mp h.alu

/-- `*RESET` came in the gap. -/
theorem SequenceSo.retired : SequenceAt s t.retire d.ctl d.isLoad d.tr d.addr (j + 1) pa w ∧ t.retire.lru = s.lru ∧
    StatusAfterAccess s t.retire d.ctl d.isLoad ∧ PcAdvances s t.retire := by
  have hat := h.at (SequenceKept.refl h.inflight).retire fun i => by rw [State.retire_alu]; exact h.bytePointer i
  rw [State.retire_tmc, State.retire_tmr, show t.tmc = s.tmc from (congrArg State.tmc h.frame :),
    show t.tmr = s.tmr from (congrArg State.tmr h.frame :)] at hat
  exact ⟨hat, (State.retire_lru t).trans h.lru, h.active.retire, frame_retire h.frame⟩

variable {m v : State} (hv : SequenceCut t m v)
include hv

theorem SequenceSo.cut : StatusAfterAccess s v.retire d.ctl d.isLoad ∧ PcAdvances s v.retire := by
  have hcps : v.cps = t.cps := (congrArg State.cps hv :)
  have hactive : StatusButActive s v d.ctl d.isLoad := fun i => by rw [hcps]; exact h.active i
  refine ⟨hactive.retire, retire_pcAdvances ?_ ?_ ?_ ?_⟩
  · exact (congrArg State.pc hv :).trans (congrArg State.pc h.frame :)
  · exact (congrArg State.npc hv :).trans (congrArg State.npc h.frame :)
  · exact (congrArg State.ppc hv :).trans (congrArg State.ppc h.frame :)
  · exact (congrArg State.testing hv :).trans (congrArg State.testing h.frame :)

/-- An event came in the gap. -/
theorem SequenceSo.interrupted :
    SequenceAt { s with tmc := m.tmc, tmr := m.tmr } v.retire d.ctl d.isLoad d.tr d.addr (j + 1) pa w ∧
      v.retire.lru = s.lru := by
  have halu : v.alu = t.alu := (congrArg State.alu hv :)
  have hat := h.at (hv.kept h.inflight).retire fun i => by rw [State.retire_alu, halu]; exact h.bytePointer i
  rw [State.retire_tmc, State.retire_tmr, show v.tmc = m.tmc from (congrArg State.tmc hv :),
    show v.tmr = m.tmr from (congrArg State.tmr hv :)] at hat
  exact ⟨hat, (State.retire_lru v).trans ((congrArg State.lru hv :).trans h.lru)⟩

/-- `*WARN` came in the gap. -/
theorem SequenceSo.warned {n : Nat} (hnext : SequenceNext s v d.ctl d.isLoad d.tr d.addr (j + 1) n) (hrun : s.testing = false)
    (hfz : s.cps.getLsbD 10 = false) :
    Transferred s v.retire.takeWarn d.ctl d.isLoad d.tr (j + 1) pa w ∧
      SequenceNext s v.retire.takeWarn d.ctl d.isLoad d.tr d.addr (j + 1) n ∧ v.retire.takeWarn.mode = .starting ∧
      v.retire.takeWarn.pc = 4#30 ∧ v.retire.takeWarn.pc1 = s.npc ++ 0#2 := by
  obtain ⟨⟨hpc, -⟩, -, -, ⟨-, hpc1, -⟩, ⟨-, -, -, hmode⟩, ⟨hgpr, hgr1⟩, ⟨hidm, hrom⟩, -, ⟨hcha, hchd, hchc⟩, -⟩ :=
    takeWarn_warned v.retire
  obtain ⟨rcha, rchd, rchc⟩ := hnext.retire
  obtain ⟨sgpr, sgr1, sidm, srom⟩ := (hv.kept h.inflight).retire.store
  refine ⟨h.made.congr ⟨hgpr.trans sgpr, hgr1.trans sgr1, hidm.trans sidm, hrom.trans srom⟩,
    ⟨hcha.trans rcha, fun hl hi => hchd.trans (rchd hl hi), hchc.trans rchc⟩, hmode, hpc, hpc1.trans ?_⟩
  obtain ⟨hstatus, hpcs⟩ := h.cut hv
  have hview : v.retire.fz = false :=
    (hstatus 10).trans ((if_neg (by decide)).trans ((if_neg fun hx => absurd hx.1 (by decide)).trans hfz))
  rw [PcAdvances, if_neg (Bool.eq_false_iff.mp hrun)] at hpcs
  rw [State.pc1View, hview, hpcs.2.1]
  rfl

end Ended

/-- Settles O44: the sequence comes to the gap after `k` transfers, and what is looked for there is found. -/
theorem interruptedMultiple : Obligations.InterruptedMultiple := by
  intro ctl ra rb s isLoad h s1 tr addr n i want k pa hk hkn hans hcut hgoes hprot s2 m first
  obtain ⟨j, rfl⟩ : ∃ j, k = j + 1 := ⟨k - 1, by omega⟩
  have hn : s1.countRemaining.toNat = n := count_eq s1
  have hfree := frozen_of_maySequence h
  let d := s1.descriptor isLoad false false ctl tr addr (if isLoad then 0#32 else s1.readReg .A tr)
  obtain ⟨t, w, data, hrun, hpart, htlb⟩ := runMultiple_prefix true j n s1 d pa hkn rfl rfl rfl hfree hans hcut
    (fun l hl => hgoes l (Nat.lt_succ_of_le hl)) (fun l hl h1 => hprot l (Nat.le_succ_of_le hl) h1)
  have hdata : d.isLoad = false → d.data = s1.readReg .A d.tr := fun hl => if_neg (Bool.eq_false_iff.mp hl)
  have hso := hpart.so hdata
  have hf := hpart.frame
  let e : Access := { d with addr := seqAddr addr j, tr := seqReg tr j, data := data }
  have hexec : exec i s = (t.sequenceGap (n - 1 - j) e true).result State.retire := by
    have hstart : exec i s = (s1.runMultiple n d true).result State.retire := by rw [← hn]; exact multiple_exec isLoad h
    exact hstart.trans (congrArg (MultiRun.result · State.retire) hrun)
  have hfirst : first w := fun hl => (hso.first hl (Nat.succ_pos j)).trans (hdata hl)
  have hpins : t.pins = s1.pins := (congrArg State.pins hf :)
  have hnext : t.nextPins = s2.nextPins := by rw [State.nextPins, hpart.env, hpins]; rfl
  have hprotected : t.isProtected (nextReg e.tr) = false := by
    rw [isProtected_congr (s := s1) (hso.cps_bit (by decide)) (congrArg State.rbp hf :) (congrArg State.testing hf :),
      show nextReg e.tr = seqReg tr (j + 1) from (seqReg_succ tr j).symm]
    exact hprot (j + 1) (Nat.le_refl _) (Nat.succ_pos j)
  have htfree : t.frozen = false := by
    rw [State.frozen, State.fz, show t.cps.getLsbD cpsFZ = s1.cps.getLsbD cpsFZ from hso.cps_bit (by decide),
      show t.testing = s1.testing from (congrArg State.testing hf :)]
    exact hfree
  obtain ⟨c, hbetween⟩ := between_record (s := s2) (t := t) hpins (congrArg State.warnPending hf :) hpart.env
    (congrArg State.tmc hf :) (congrArg State.tmr hf :)
  obtain ⟨cm, hm⟩ := between_record (s := s2) (t := s2) rfl rfl rfl rfl rfl
  obtain ⟨v, hrecord, hv, hdescribed⟩ := sequence_next (n := n) hso
    (e := e) rfl rfl rfl (x := t.betweenAccesses)
    (by rw [hbetween]; exact htfree) (m := m) ⟨c, hbetween⟩
  have hresets : t.nextPins.reset = s2.nextPins.reset := congrArg Pins.reset hnext
  have hpending : t.betweenAccesses.warnPending = m.warnPending := (congrArg State.warnPending hbetween :)
  refine ⟨fun hreset => ?_, fun hreset hwarn => ?_, fun hreset hwarn prio vn hevent => ?_⟩
  · obtain ⟨hat, hlru, hstatus, hpcs⟩ := hso.retired
    refine ⟨t.retire, w, ?_, ?_, hat, hfirst, hlru, hstatus, hpcs⟩
    · rw [hexec, sequenceGap_reset (d := e) hprotected (hresets.trans hreset)]
      rfl
    · rw [State.nextPins, State.retire_env, State.retire_pins]
      exact hnext
  · obtain ⟨hmade, hchannel, hmode, hpc, hpc1⟩ := hso.warned hv hdescribed
      ((State.drain_testing s).trans h.2.1) ((congrArg (BitVec.getLsbD · 10) (State.drain_cps s)).trans h.2.2.1)
    refine ⟨v.retire.takeWarn, w, ?_, hmade, hfirst, hchannel, hmode, hpc, hpc1⟩
    rw [hexec, sequenceGap_warn (d := e) hprotected (hresets.trans hreset) (hpending.trans hwarn), hrecord]
    rfl
  · have hasync : t.betweenAccesses.asyncEvent = some (prio, vn) := by
      rw [← hevent, hbetween]
      refine asyncEvent_congr (s := { m with chc := 0#32 }) (fun i hi => ?_) ?_ rfl rfl hpart.tf (by simp)
      · exact (hso.cps_bit hi).trans (congrArg (fun x => x.cps.getLsbD i) hm :).symm
      · exact hpart.derr.trans (congrArg State.derr hm :).symm
    have hidle := (hv.kept hso.inflight).retire.inflight
    obtain ⟨u, hu, hent⟩ := takeAsync_idle (s := v.retire) (p := prio) (vn := vn) hidle (by
      rw [State.retire_env, show v.env = m.env from (congrArg State.env hv :)]
      exact (between_answers s2).trans hans)
    obtain ⟨hat, hlru⟩ := hso.interrupted hv
    obtain ⟨hstatus, hpcs⟩ := hso.cut hv
    refine ⟨v.retire, u, w, ?_, hent, hat, hfirst, hlru, hdescribed.retire, hstatus, fun hk tlb hg => retire_tlbIs ?_, hpcs⟩
    · rw [hexec, sequenceGap_event (d := e) hprotected (hresets.trans hreset) (hpending.trans hwarn) hasync, hrecord]
      exact hu
    · intro a ha
      rw [State.tlbReg, show v.tlb = t.tlb from (congrArg State.tlb hv :)]
      exact htlb (by omega) tlb hg a ha

end Sys2Proof.Machine

/-! Proofs for the family `other`: a multiple sequence that comes to transfer `k`, and what goes wrong there. -/

namespace Sys2Proof.Machine

/-! What a difference in Usage bits alone leaves of a translation (20 R152). -/

section Matches

variable {s t : State} (hmmu : t.mmu = s.mmu) (htlb : SameTlbButUsage s t) (va : Word)
include hmmu htlb

theorem sameTlb_entry0 (k : Nat) : t.entry0 va k = s.entry0 va k := by
  apply BitVec.eq_of_getLsbD_eq
  intro i _
  unfold State.entry0 State.lineOf State.ps
  rw [hmmu]
  exact htlb _ i (.inl (by omega))

theorem sameTlb_matches (k : Nat) : t.EntryMatches va k ↔ s.EntryMatches va k := by
  unfold State.EntryMatches
  rw [sameTlb_entry0 hmmu htlb va k, State.ps, State.ps, hmmu]

theorem sameTlb_miss : t.TlbMiss va ↔ s.TlbMiss va := by
  unfold State.TlbMiss
  rw [sameTlb_matches hmmu htlb va 0, sameTlb_matches hmmu htlb va 1]

theorem sameTlb_hit (e : Nat) : t.TlbHit va e ↔ s.TlbHit va e := by
  unfold State.TlbHit
  rw [sameTlb_matches hmmu htlb va e, sameTlb_matches hmmu htlb va (1 - e)]

end Matches

/-! A sequence that comes to transfer `k`. -/

/-- The access of transfer `k` of the sequence of `d`. -/
def Access.transferAt (d : Access) (k : Nat) (data : Word) : Access :=
  { d with addr := seqAddr d.addr k, tr := seqReg d.tr k, data := data }

/-- In the state `x` transfer `k` of the sequence of `d` comes next, `data` being what a store sends out; the pins keep their
levels, and `answers` are those of the system. -/
structure ReachesTransfer (s x : State) (d : Access) (k : Nat) (pa w : Nat → Word) (data : Word)
    (answers : List Answer) : Prop where
  so : SequenceSo s x d k pa w
  data : d.isLoad = false → implemented (seqReg d.tr k) = true → data = s.readReg .A (seqReg d.tr k)
  events : x.env.events = []
  answers : x.env.answers = answers

theorem SequenceSo.zero {s : State} (hidle : s.inflight = none) (d : Access) (pa w : Nat → Word) : SequenceSo s s d 0 pa w :=
  { made := ⟨fun _ => ⟨fun j hj => absurd hj (Nat.not_lt_zero j), ⟨fun _ _ _ => rfl, fun j hj => absurd hj (Nat.not_lt_zero j)⟩,
      fun _ => ⟨rfl, rfl⟩⟩, fun _ => ⟨fun j hj => absurd hj (Nat.not_lt_zero j), fun _ _ _ => rfl, fun _ => ⟨rfl, rfl⟩⟩⟩
    first := fun _ h => absurd h (Nat.lt_irrefl 0), frame := SeqFrame.refl s, alu := rfl
    cps := (if_neg fun h => absurd h.1 (Nat.lt_irrefl 0)).symm
    tlb := fun _ _ _ => rfl, lru := rfl, derr := rfl, shadow := fun _ => rfl
    noShadow := fun _ ⟨j, hj, _⟩ => absurd hj (Nat.not_lt_zero j), inflight := hidle }

/-- The gap after a transfer that nothing cuts moves the clock and the environment alone. -/
theorem SequenceSo.after {s t : State} {d : Access} {k : Nat} {pa w : Nat → Word} (h : SequenceSo s t d k pa w)
    (c : Nat) (e : Env) :
    SequenceSo s { t with clock := c, env := e } d k pa w :=
  { made := h.made.congr ⟨rfl, rfl, rfl, rfl⟩, first := h.first, frame := h.frame.trans rfl, alu := h.alu, cps := h.cps
    tlb := h.tlb, lru := h.lru, derr := h.derr, shadow := h.shadow, noShadow := h.noShadow, inflight := h.inflight }

section Facts

variable {s x : State} {d : Access} {k : Nat} {pa w : Nat → Word} (h : SequenceSo s x d k pa w)
include h

theorem SequenceSo.cps_same (hk : k = 0 ∨ d.ctl.getLsbD 7 = false) : x.cps = s.cps := by
  rw [h.cps]
  rcases hk with hk | h7
  · exact if_neg fun hx => absurd hx.1 (by omega)
  · rw [h7]
    exact if_neg fun hx => absurd hx.2 (by simp)

theorem SequenceSo.mmu : x.mmu = s.mmu := (congrArg State.mmu h.frame :)

theorem SequenceSo.frozen : x.frozen = s.frozen := by
  rw [State.frozen, State.frozen, State.fz, State.fz, show x.cps.getLsbD cpsFZ = s.cps.getLsbD cpsFZ from h.cps_bit (by decide),
    show x.testing = s.testing from (congrArg State.testing h.frame :)]

theorem SequenceSo.translated (ctl : BitVec 8) : x.translated ctl = s.translated ctl := by
  rw [State.translated, State.translated, h.cps_bit (by decide)]

theorem SequenceSo.asUser (ctl : BitVec 8) : x.asUser ctl = s.asUser ctl := by
  rw [State.asUser, State.asUser, h.cps_bit (by decide)]

theorem SequenceSo.misaligned (ctl : BitVec 8) (va : Word) : x.misaligned ctl va = s.misaligned ctl va := by
  rw [State.misaligned, State.misaligned, h.cps_bit (by decide)]

end Facts

theorem seqAddr_low (addr : Word) (k : Nat) {i : Nat} (hi : i < 2) : (seqAddr addr k).getLsbD i = addr.getLsbD i := by
  induction k with
  | zero => simp [seqAddr]
  | succ k ih => rw [seqAddr_succ, low_bits _ _ hi, ih]

/-- BP is that of the first address, whichever transfer has set it (20 R138). -/
theorem SequenceSo.bytePointer_later {s x y : State} {d : Access} {k : Nat} {pa w : Nat → Word} (h : SequenceSo s x d k pa w)
    (hy : BytePointerIs x y d.ctl (seqAddr d.addr k)) : BytePointerIs s y d.ctl d.addr := by
  intro i
  rw [hy i, h.frozen]
  have halu := h.alu
  split at halu
  · have hi := halu i
    split
    · next hc => exact seqAddr_low _ _ (by omega)
    · next hc => rw [hi, if_neg hc]
  · rw [halu]
    split
    · next hc => exact seqAddr_low _ _ (by omega)
    · rfl

theorem SequenceSo.at_still {s x t : State} {d : Access} {k : Nat} {pa w : Nat → Word} (h : SequenceSo s x d k pa w)
    (hkept : SequenceKept x t) (halu : BytePointerIs s t d.ctl d.addr) (htimer : t.tmc = x.tmc ∧ t.tmr = x.tmr) :
    SequenceAt s t d.ctl d.isLoad d.tr d.addr k pa w := by
  have hat := h.at hkept halu
  rwa [htimer.1.trans (congrArg State.tmc h.frame :), htimer.2.trans (congrArg State.tmr h.frame :)] at hat

/-! The access of transfer `k` is recorded (20 R149 (c)). -/

theorem Issue.kept {x y : State} {e : Access} {ml : Bool} {cr : BitVec 8} (h : Issue x y e ml cr) (htlb : SameTlbButUsage x y)
    (hidle : x.inflight = none) : SequenceKept x y := by
  have ht := h.touched
  exact {
    store := ⟨(congrArg State.gpr ht :), (congrArg State.gr1 ht :), (congrArg State.idm ht :), (congrArg State.rom ht :)⟩
    special := ⟨(congrArg State.vab ht :), (congrArg State.ops ht :), (congrArg State.cfg ht :),
        (congrArg State.rbp ht :), rfl, rfl,
      (congrArg State.pc0 ht :), (congrArg State.pc1 ht :), (congrArg State.pc2 ht :),
          (congrArg (fun x => x.mmu.now) ht :), rfl⟩
    pointers := ⟨(congrArg (fun x => x.ipa.now) ht :), (congrArg (fun x => x.ipb.now) ht :),
        (congrArg (fun x => x.ipc.now) ht :)⟩
    q := (congrArg State.q ht :), mode := (congrArg State.mode ht :), tlb := htlb
    shadow := (congrArg (fun x => x.sps.now) ht :), inflight := (congrArg State.inflight ht :).trans hidle }

theorem Issue.pcs {s x y v : State} {e : Access} {ml : Bool} {cr : BitVec 8} (h : Issue x y e ml cr) (hf : SeqFrame s x)
    (hv : v.pc = y.pc ∧ v.npc = y.npc ∧ v.ppc = y.ppc ∧ v.testing = y.testing) : PcAdvances s v.retire := by
  have ht := h.touched
  obtain ⟨hpc, hnpc, hppc, htest⟩ := hv
  refine retire_pcAdvances (hpc.trans ?_) (hnpc.trans ?_) (hppc.trans ?_) (htest.trans ?_)
  · exact (congrArg State.pc ht :).trans (congrArg State.pc hf :)
  · exact (congrArg State.npc ht :).trans (congrArg State.npc hf :)
  · exact (congrArg State.ppc ht :).trans (congrArg State.ppc hf :)
  · exact (congrArg State.testing ht :).trans (congrArg State.testing hf :)

section Transfer

variable {s x y : State} {d : Access} {k n : Nat} {pa w : Nat → Word} {data : Word} {answers : List Answer}
  (h : ReachesTransfer s x d k pa w data answers)
include h

theorem ReachesTransfer.next (hfree : s.frozen = false) (hset : d.set = false) (hla : d.la = false)
    (hi : Issue x y (d.transferAt k data) true (BitVec.ofNat 8 (n - k))) :
    SequenceNext s y d.ctl d.isLoad d.tr d.addr k n := by
  have hno : ¬x.frozen = true := Bool.eq_false_iff.mp (h.so.frozen.trans hfree)
  obtain ⟨hcha, hchd, hchc⟩ := hi.channel
  rw [if_neg hno] at hcha hchd hchc
  refine ⟨hcha, fun hl hr => (hchd hl).trans (h.data hl hr), hchc.trans ?_⟩
  exact (channelControl_true (d.transferAt k data) true _).symm.trans (channelControl_next _ _ _ _ _ rfl rfl hset hla rfl)

/-- A transfer whose access raises a trap: the trap is taken once the instruction has ended (20 R149 (d), 60 R545). -/
theorem ReachesTransfer.traps {vn : Byte} {lru : State → Prop} (hnone : answers = []) (hfree : s.frozen = false)
    (hset : d.set = false) (hla : d.la = false) (hreset : s.pins.reset = false) (hda : s.da = false)
    (hcop : k = 0 ∨ d.ctl.getLsbD 7 = false)
    (hissue : x.issue (d.transferAt k data) true (BitVec.ofNat 8 (n - k)) = .trap vn y)
    (hi : Issue x y (d.transferAt k data) true (BitVec.ofNat 8 (n - k))) (htlb : SameTlbButUsage x y) (hlru : lru y.retire)
    (hcps : y.cps = x.cps) :
    ∃ t u, (x.runMultiple (n - k) (d.transferAt k data) true).result State.retire = .next u ∧ TrapEntered t u vn ∧
      SequenceAt s t d.ctl d.isLoad d.tr d.addr k pa w ∧ SequenceNext s t d.ctl d.isLoad d.tr d.addr k n ∧ SameStatus s t ∧
      lru t ∧ PcAdvances s t := by
  have ht := hi.touched
  have hkept := (hi.kept htlb h.so.inflight).retire
  have hpins : y.retire.pins = s.pins :=
    (State.retire_pins y).trans ((congrArg State.pins ht :).trans (congrArg State.pins h.so.frame :))
  have henv : y.retire.env = x.env := (State.retire_env y).trans (congrArg State.env ht :)
  have hnext : y.retire.nextPins = y.retire.pins := by rw [State.nextPins, henv, h.events]; rfl
  have hsame : y.cps = s.cps := hcps.trans (h.so.cps_same hcop)
  have hretired : y.retire.da = false := by rw [da_retire, State.da, hsame]; exact hda
  obtain ⟨u, hu, hent⟩ := raiseAccess_entered (t := y.retire) (vn := vn) hretired hkept.inflight
    (trapLost_false (by rw [hnext, hpins]; exact hreset) (by rw [hnext]; exact id))
    (by rw [State.vectorReadable, henv, h.answers, hnone]; exact Bool.or_true _)
  refine ⟨y.retire, u, ?_, hent, h.so.at_still hkept ?_ ?_, (h.next hfree hset hla hi).retire, ?_, hlru,
    hi.pcs h.so.frame ⟨rfl, rfl, rfl, rfl⟩⟩
  · rw [State.runMultiple, hissue]
    exact hu
  · have hbp := h.so.bytePointer_later hi.alu
    exact fun i => by rw [State.retire_alu]; exact hbp i
  · exact ⟨(State.retire_tmc y).trans (congrArg State.tmc ht :), (State.retire_tmr y).trans (congrArg State.tmr ht :)⟩
  · exact fun i => by rw [State.retire_cps, State.traceCopy_cps, hsame]

end Transfer

theorem Access.transferAt_zero (d : Access) : d.transferAt 0 d.data = d := by
  unfold Access.transferAt
  rw [seqAddr_zero]
  rfl

theorem State.Undisturbed.uncut {s : State} (h : s.Undisturbed) (k : Nat) : s.Uncut k :=
  ⟨by rw [h.events]; simp, by rw [h.cycles]; simp, fun _ => ⟨h.warn, h.reset, h.async⟩⟩

/-- A sequence that nothing disturbs comes to its transfer `k`. -/
theorem reaches_undisturbed {s : State} {d : Access} {k n : Nat} {pa : Nat → Word} (hquiet : s.Undisturbed)
    (hidle : s.inflight = none) (hfree : s.frozen = false) (hu : d.user = s.asUser d.ctl) (hset : d.set = false)
    (hdis : d.discard = false) (hdata : d.isLoad = false → d.data = s.readReg .A d.tr) (hk : k ≤ n)
    (hg : ∀ j < k, ∃ tlb, s.Goes d.ctl d.want (seqAddr d.addr j) (pa j) tlb)
    (hp : ∀ j ≤ k, 1 ≤ j → s.isProtected (seqReg d.tr j) = false) :
    ∃ x w data, s.runMultiple n d true = x.runMultiple (n - k) (d.transferAt k data) true ∧
      ReachesTransfer s x d k pa w data [] := by
  rcases runMultiple_reach true k n s d pa hk hu hset hdis hfree hquiet.answers (hquiet.uncut k) hg hp with
    ⟨rfl, -⟩ | ⟨t, w, data, c, hpos, hpart, hrun⟩
  · exact ⟨s, fun _ => 0#32, d.data, by rw [Access.transferAt_zero]; rfl, SequenceSo.zero hidle d pa _, fun hl _ => hdata hl,
      hquiet.events, hquiet.answers⟩
  · obtain ⟨j, rfl⟩ : ∃ j, k = j + 1 := ⟨k - 1, by omega⟩
    have hso := hpart.so hdata
    have henv := hpart.env
    refine ⟨_, w, _, hrun, hso.after c _, fun hl hi => ?_, ?_, ?_⟩
    · rw [hl]
      exact (hso.made.store hl).2.1 _ hi (by simp)
    · show t.env.events.drop 1 = []
      rw [henv]
      show (s.env.events.drop j).drop 1 = []
      rw [hquiet.events]
      simp
    · show t.env.answers = []
      rw [henv]
      exact hquiet.answers

/-! The answers of the system are used one by one, and decide nothing else (20 R139). -/

/-- The state with another environment. -/
def State.withEnv (s : State) (e : Env) : State := { s with env := e }

/-- The outcome of an issue, with another environment. -/
def Issued.withEnv (e : Env) : Issued → Issued
  | .ok d t => .ok d (t.withEnv e)
  | .trap vn t => .trap vn (t.withEnv e)

section WithEnv

variable (s : State) (e : Env)

theorem record_withEnv (d : Access) (ml : Bool) (cr : BitVec 8) :
    (s.withEnv e).record d ml cr = (s.record d ml cr).withEnv e := by
  unfold State.record
  rw [show (s.withEnv e).frozen = s.frozen from rfl]
  split <;> rfl

theorem setBp_withEnv (d : Access) : (s.withEnv e).setBp d = (s.setBp d).withEnv e := by
  unfold State.setBp State.setBytePointer
  rw [show (s.withEnv e).frozen = s.frozen from rfl]
  split
  · split <;> rfl
  · rfl

theorem coprocessorActive_withEnv (d : Access) : (s.withEnv e).coprocessorActive d = (s.coprocessorActive d).withEnv e := by
  unfold State.coprocessorActive
  split <;> rfl

theorem issueAligned_withEnv (d : Access) : (s.withEnv e).issueAligned d = (s.issueAligned d).withEnv e := by
  unfold State.issueAligned
  rw [show (s.withEnv e).unaligned d.ctl d.addr = s.unaligned d.ctl d.addr from rfl]
  split <;> rfl

theorem translate_withEnv (va : Word) (want : Want) (user : Bool) : (s.withEnv e).translate va want user =
    match s.translate va want user with
    | .miss t => .miss (t.withEnv e)
    | .prot t => .prot (t.withEnv e)
    | .ok pa pgm t => .ok pa pgm (t.withEnv e) := by
  have hps : (s.withEnv e).pageSize want = s.pageSize want := rfl
  have hmatch : ∀ ps b, (s.withEnv e).tlbMatch va ps b = s.tlbMatch va ps b := fun _ _ => rfl
  have hset : ∀ ps, (s.withEnv e).matchingSet va ps want = s.matchingSet va ps want := fun _ => rfl
  have hread : ∀ i, (s.withEnv e).readTlb i = s.readTlb i := fun _ => rfl
  unfold State.translate
  simp only [hps, hmatch, hset, hread]
  split
  · rfl
  · split <;> rfl

theorem issue_withEnv (d : Access) (ml : Bool) (cr : BitVec 8) :
    (s.withEnv e).issue d ml cr = (s.issue d ml cr).withEnv e := by
  unfold State.issue
  rw [record_withEnv, setBp_withEnv]
  generalize (s.record d ml cr).setBp d = u
  have hcp : (u.withEnv e).cfg = u.cfg := rfl
  have htr : (u.withEnv e).translates d.ctl = u.translates d.ctl := rfl
  simp only [hcp, htr, translate_withEnv, issueAligned_withEnv, coprocessorActive_withEnv]
  split
  · split <;> rfl
  · split
    · cases u.translate d.addr d.want d.user with
      | miss v => rfl
      | prot v => rfl
      | ok pa pgm v => exact issueAligned_withEnv v e _
    · rfl

theorem transfer_withEnv (d : Access) : (s.withEnv e).transfer d = (s.transfer d).withEnv e := by
  have hread : (s.withEnv e).busRead d = s.busRead d := rfl
  have hwrite : ∀ v, (s.withEnv e).busWrite d v = (s.busWrite d v).withEnv e := by
    intro v
    unfold State.busWrite
    rw [show (s.withEnv e).accessSpace d.ctl = s.accessSpace d.ctl from rfl]
    cases s.accessSpace d.ctl <;> rfl
  have hstore : ∀ (u : State) a v, (u.withEnv e).storeReg false a v = (u.storeReg false a v).withEnv e := by
    intro u a v
    unfold State.storeReg
    split
    · rfl
    · split <;> rfl
  have hset : (if d.set then (s.withEnv e).busWrite d 0xFFFFFFFF#32 else s.withEnv e) =
      (if d.set then s.busWrite d 0xFFFFFFFF#32 else s).withEnv e := by
    rw [hwrite]
    split <;> rfl
  unfold State.transfer
  simp only [hread, hset]
  generalize (if d.set then s.busWrite d 0xFFFFFFFF#32 else s) = u
  split
  · split
    · rfl
    · exact hstore _ _ _
  · exact hwrite _

theorem clearCv_withEnv : (s.withEnv e).clearCv = s.clearCv.withEnv e := by
  unfold State.clearCv
  rw [show (s.withEnv e).frozen = s.frozen from rfl]
  split <;> rfl

theorem complete_withEnv {s : State} {d : Access} (hs : s.answer d ≠ .error) {e : Env} (he : (s.withEnv e).answer d ≠ .error) :
    (s.withEnv e).complete d = (s.complete d).withEnv { e with answers := answersAfter d e.answers } := by
  have hend : (s.withEnv e).endAccess d = (s.endAccess d).withEnv { e with answers := answersAfter d e.answers } := rfl
  rw [State.complete, State.complete, if_neg hs, if_neg he, hend, transfer_withEnv, clearCv_withEnv]

end WithEnv

/-- What a transfer makes of the machine does not depend on the environment. -/
theorem OneTransfer.withEnv {s t : State} {d : Access} {cr : BitVec 8} {pa : Word} {tl : Nat → Word} {w : Word}
    (h : OneTransfer s t d cr pa tl w) (e : Env) : OneTransfer (s.withEnv e) (t.withEnv e) d cr pa tl w :=
  { frame := (congrArg (State.withEnv · e) h.frame :), inflight := h.inflight, env := rfl, derr := h.derr, lru := h.lru
    cps := h.cps, cha := h.cha, chd := h.chd, chc := h.chc, alu := h.alu, tlb := h.tlb
    load := fun hl => by
      obtain ⟨hbrings, hdest, hother, hmem⟩ := h.load hl
      exact ⟨hbrings, fun hi => (State.readReg_congr rfl rfl .A hi).trans (hdest hi), hother.congr ⟨rfl, rfl⟩ ⟨rfl, rfl⟩, hmem⟩
    store := fun hl => by
      obtain ⟨hother, hword⟩ := h.store hl
      exact ⟨hother.congr ⟨rfl, rfl⟩ ⟨rfl, rfl⟩, hword⟩
    sps := h.sps, untranslated := h.untranslated }

/-- A transfer that the next answer of the system completes (20 R139). -/
theorem transfer_answered {s : State} {d : Access} {cr : BitVec 8} {pa : Word} {tlb : Nat → Word} {answers : List Answer}
    (hu : d.user = s.asUser d.ctl) (hg : s.Goes d.ctl d.want d.addr pa tlb) (hans : s.env.answers = .ready :: answers)
    (hf : s.frozen = false) (hset : d.set = false) (hdis : d.discard = false) :
    ∃ d1 s1 z w, s.issue d true cr = .ok d1 s1 ∧ s1.answer d1 = .ready ∧
      s1.complete d1 = z.withEnv { s.env with answers := answers } ∧ OneTransfer (s.withEnv z.env) z d cr pa tlb w := by
  let e0 : Env := { s.env with answers := [] }
  obtain ⟨d1, y, w, hissue, hready, htransfer⟩ := transfer_one (s := s.withEnv e0) (cr := cr) hu hg rfl hf hset hdis
  have hd1 : d1.set = false := by
    obtain ⟨pgm, t, hissue', -⟩ := issue_goes (s := s.withEnv e0) (ml := true) (cr := cr) hu hg
    obtain ⟨rfl, -⟩ := Issued.ok.inj (hissue.symm.trans hissue')
    exact hset
  have hfull : s.issue d true cr = .ok d1 (y.withEnv s.env) := by
    have hcomm := issue_withEnv (s.withEnv e0) s.env d true cr
    rw [hissue] at hcomm
    exact hcomm
  have hans' : (y.withEnv s.env).answer d1 = .ready := by
    unfold State.answer
    rw [show (y.withEnv s.env).env.answers = .ready :: answers from hans, hd1, Bool.and_false]
    rfl
  refine ⟨d1, _, y.complete d1, w, hfull, hans', ?_, ?_⟩
  · rw [complete_withEnv (by rw [hready]; decide) (by rw [hans']; decide), hans, answersAfter, hd1, Bool.and_false]
    rfl
  · exact htransfer.withEnv _

/-- The answers of the system apart, nothing disturbs a sequence. -/
def State.Still (s : State) : Prop := (s.withEnv { s.env with answers := [] }).Undisturbed

section Still

variable {s : State} (h : s.Still)
include h

theorem State.Still.uncut (answers : List Answer) (j : Nat) : (s.withEnv { s.env with answers := answers }).Uncut j := by
  have hevents : s.env.events = [] := h.events
  have hcycles : s.env.cycles = [] := h.cycles
  refine ⟨fun e he => ?_, fun c hc => ?_, fun _ => ⟨h.warn, h.reset, h.async⟩⟩
  · have he' : e ∈ s.env.events.take j := he
    rw [hevents] at he'
    simp at he'
  · have hc' : c ∈ s.env.cycles.take j := hc
    rw [hcycles] at hc'
    simp at hc'

theorem State.Still.afterGaps (answers : List Answer) (j : Nat) :
    (s.withEnv { s.env with answers := answers }).envAfterGaps j = { s.env with answers := answers } := by
  have hevents : s.env.events = [] := h.events
  have hcycles : s.env.cycles = [] := h.cycles
  show ({ s.env with events := s.env.events.drop j, cycles := s.env.cycles.drop j, answers := answers } : Env) = _
  rw [hevents, hcycles, List.drop_nil, List.drop_nil, ← hevents, ← hcycles]

end Still

/-- The first transfer of a sequence, which the system answers, and the gap after it. -/
theorem first_answered {s : State} {d : Access} {m : Nat} {pa : Word} {tlb : Nat → Word} {answers : List Answer} (hstill : s.Still)
    (hu : d.user = s.asUser d.ctl) (hg : s.Goes d.ctl d.want d.addr pa tlb) (hans : s.env.answers = .ready :: answers)
    (hf : s.frozen = false) (hset : d.set = false) (hdis : d.discard = false)
        (hp : s.isProtected (seqReg d.tr 1) = false) (b : Bool) :
    ∃ z w c, OneTransfer (s.withEnv z.env) z d (BitVec.ofNat 8 (m + 1)) pa tlb w ∧
      s.runMultiple (m + 1) d b =
        State.runMultiple m (d.transferAt 1 (if d.isLoad then d.data else z.readReg .A (seqReg d.tr 1))) b
          { z.withEnv { s.env with answers := answers } with clock := c } := by
  obtain ⟨d1, s1, z, w, hissue, hready, hcomplete, hone⟩ :=
    transfer_answered (cr := BitVec.ofNat 8 (m + 1)) hu hg hans hf hset hdis
  let e : Env := { s.env with answers := answers }
  have hpart := seqPart_first (s := s.withEnv e) (t := z.withEnv e) (pa := fun _ => pa) hg (hone.withEnv e)
  obtain ⟨c, hgap⟩ := sequenceGap_uncut hpart (hstill.uncut answers 1) hp m d.data b
  have hrun : s.runMultiple (m + 1) d b = (z.withEnv e).sequenceGap m d b := by
    rw [runMultiple_gap hissue hready, hcomplete]
  have hquiet := hstill.afterGaps answers 1
  rw [seqAddr_zero] at hgap
  refine ⟨z, w, c, hone, hrun.trans (hgap.trans ?_)⟩
  show State.runMultiple m _ b { z with clock := c, env := (s.withEnv e).envAfterGaps 1 } = _
  rw [hquiet]
  rfl

theorem State.Still.after_transfer {s z : State} {d : Access} {cr : BitVec 8} {pa : Word} {tlb : Nat → Word} {w : Word} {e : Env}
    (hstill : s.Still) (h : OneTransfer (s.withEnv e) z d cr pa tlb w) (answers : List Answer) (c : Nat) :
    ({ z.withEnv { s.env with answers := answers } with clock := c } : State).Still := by
  have hwarn : z.warnPending = s.warnPending := (congrArg State.warnPending h.frame :)
  have hpins : z.pins = s.pins := (congrArg State.pins h.frame :)
  refine ⟨⟨hstill.events, hstill.cycles, rfl, hwarn.trans hstill.warn, (congrArg Pins.reset hpins).trans hstill.reset⟩, ?_⟩
  rw [← hstill.async]
  exact asyncEvent_congr h.status h.derr hpins (congrArg State.tmr h.frame :) (by simp) (by simp)

theorem transferAt_transferAt (d : Access) (k : Nat) (x y : Word) :
    (d.transferAt 1 x).transferAt k y = d.transferAt (k + 1) y := by
  have haddr : seqAddr (seqAddr d.addr 1) k = seqAddr d.addr (k + 1) := by
    rw [show seqAddr d.addr 1 = d.addr + 4#32 by simp [seqAddr]]
    exact seqAddr_next _ _
  have htr : seqReg (seqReg d.tr 1) k = seqReg d.tr (k + 1) := by
    rw [show seqReg d.tr 1 = nextReg d.tr from seqReg_succ d.tr 0]
    exact seqReg_next _ _
  unfold Access.transferAt
  rw [haddr, htr]

/-- A sequence whose first `k + 1` transfers the system answers, nothing else disturbing it, comes to the next one. -/
theorem runMultiple_answered (b : Bool) (answers : List Answer) (k : Nat) : ∀ (n : Nat) (s : State) (d : Access)
    (pa : Nat → Word),
    k < n → s.Still → d.user = s.asUser d.ctl → d.set = false → d.discard = false → s.frozen = false →
    s.env.answers = List.replicate (k + 1) .ready ++ answers →
    (∀ j ≤ k, ∃ tlb, s.Goes d.ctl d.want (seqAddr d.addr j) (pa j) tlb) →
    (∀ j ≤ k + 1, 1 ≤ j → s.isProtected (seqReg d.tr j) = false) →
    ∃ t w data c, SeqPart (s.withEnv { s.env with answers := answers }) t d k pa w ∧
      s.runMultiple n d b = State.runMultiple (n - (k + 1))
        (d.transferAt (k + 1) (if d.isLoad then data else t.readReg .A (seqReg d.tr (k + 1)))) b { t with clock := c } := by
  induction k with
  | zero =>
    intro n s d pa hn hstill hu hset hdis hf hans hg hp
    obtain ⟨m, rfl⟩ : ∃ m, n = m + 1 := ⟨n - 1, by omega⟩
    obtain ⟨tlb, hg0⟩ := hg 0 (Nat.le_refl 0)
    rw [seqAddr_zero] at hg0
    obtain ⟨z, w, c, hone, hrun⟩ := first_answered hstill hu hg0 hans hf hset hdis (hp 1 (Nat.le_refl 1) (Nat.le_refl 1)) b
    exact ⟨z.withEnv { s.env with answers := answers }, _, d.data, c, seqPart_first hg0 (hone.withEnv _), hrun⟩
  | succ k ih =>
    intro n s d pa hn hstill hu hset hdis hf hans hg hp
    obtain ⟨m, rfl⟩ : ∃ m, n = m + 1 := ⟨n - 1, by omega⟩
    obtain ⟨tlb, hg0⟩ := hg 0 (Nat.zero_le _)
    rw [seqAddr_zero] at hg0
    obtain ⟨z, w0, c, hone, hrun⟩ :=
      first_answered (m := m) hstill hu hg0 (answers := List.replicate (k + 1) Answer.ready ++ answers) hans hf hset
      hdis (hp 1 (by omega) (Nat.le_refl 1)) b
    let data := if d.isLoad then d.data else z.readReg .A (seqReg d.tr 1)
    let y : State := { z.withEnv { s.env with answers := List.replicate (k + 1) .ready ++ answers } with clock := c }
    have hy : y.Still := hstill.after_transfer hone _ c
    have hcps : ∀ i, i ≠ 15 → y.cps.getLsbD i = s.cps.getLsbD i := hone.status
    have htlb : SameTlbButUsage s y := sameTlb_of_goes (t := y) hg0 hone.tlb
    obtain ⟨t, w, data', c', hpart, hrest⟩ := ih m y (d.transferAt 1 data) (fun j => pa (j + 1)) (by omega) hy
      (by
        show d.user = y.asUser d.ctl
        rw [hu, State.asUser, State.asUser, hcps 4 (by decide)])
      hset hdis (hone.frozen.trans hf) rfl
      (fun j hj => by
        obtain ⟨tlb', hg'⟩ := hg (j + 1) (by omega)
        have hsame : seqAddr (d.transferAt 1 data).addr j = seqAddr d.addr (j + 1) :=
          congrArg Access.addr (transferAt_transferAt d j data data)
        rw [hsame]
        exact goes_congr (t := y) hcps (congrArg State.cfg hone.frame :) (congrArg State.mmu hone.frame :) htlb hg')
      (fun j hj h1 => by
        have hsame : seqReg (d.transferAt 1 data).tr j = seqReg d.tr (j + 1) :=
          congrArg Access.tr (transferAt_transferAt d j data data)
        rw [hsame, isProtected_congr (s := s) (t := y) (hcps 4 (by decide)) (congrArg State.rbp hone.frame :)
          (congrArg State.testing hone.frame :)]
        exact hp (j + 1) (by omega) (by omega))
    have hcompose := seqPart_step (s := s.withEnv { s.env with answers := answers })
      (t := z.withEnv { s.env with answers := answers }) (c := c) (data := data) (u := t) hg0 (hone.withEnv _) (n := k) (w := w)
      (fun hl _ => (if_neg (Bool.eq_false_iff.mp hl)).trans (congrArg (z.readReg .A) (seqReg_succ d.tr 0))) (by
        have hafter : (z.withEnv { s.env with answers := answers }).envAfterGaps 1 = { s.env with answers := answers } :=
          hstill.afterGaps answers 1
        rw [hafter]
        have haddr : seqAddr d.addr 1 = d.addr + 4#32 := by simp [seqAddr]
        rw [← haddr, ← show seqReg d.tr 1 = nextReg d.tr from seqReg_succ d.tr 0]
        exact hpart)
    refine ⟨t, _, data', c', hcompose, ?_⟩
    rw [show m + 1 - (k + 1 + 1) = m - (k + 1) by omega, hrun]
    rw [transferAt_transferAt] at hrest
    refine hrest.trans ?_
    rw [show seqReg (d.transferAt 1 data).tr (k + 1) = seqReg d.tr (k + 1 + 1) from
      congrArg Access.tr (transferAt_transferAt d (k + 1) data data)]
    rfl

/-- What transfers leave is told of the state before them whatever its environment. -/
theorem SequenceSo.of_withEnv {s x : State} {d : Access} {k : Nat} {pa w : Nat → Word} {e : Env}
    (h : SequenceSo (s.withEnv e) x d k pa w) : SequenceSo s x d k pa w := by
  refine
    { made := ⟨fun hl => ?_, fun hl => ?_⟩, first := h.first, frame := h.frame, alu := h.alu, cps := h.cps, tlb := h.tlb
      lru := h.lru, derr := h.derr, shadow := h.shadow, noShadow := h.noShadow, inflight := h.inflight }
  · obtain ⟨hbrings, ⟨hregs, hwords⟩, hmem⟩ := h.made.load hl
    exact ⟨hbrings, ⟨hregs.congr ⟨rfl, rfl⟩ ⟨rfl, rfl⟩, hwords⟩, hmem⟩
  · obtain ⟨hwords, hregs, hmem⟩ := h.made.store hl
    refine ⟨hwords, hregs.congr ⟨rfl, rfl⟩ ⟨rfl, rfl⟩, fun a => ⟨(hmem a).1, (hmem a).2.trans ?_⟩⟩
    exact congrFun (bytesAfterAll_congr (s := s) (t := s.withEnv e) rfl rfl d.ctl pa w k) a

/-- A sequence that nothing disturbs but the answer to its transfer `k` comes to that transfer. -/
theorem reaches_answered {s : State} {d : Access} {k n : Nat} {pa : Nat → Word} {answers : List Answer} (hstill : s.Still)
    (hidle : s.inflight = none) (hfree : s.frozen = false) (hu : d.user = s.asUser d.ctl) (hset : d.set = false)
    (hdis : d.discard = false) (hdata : d.isLoad = false → d.data = s.readReg .A d.tr) (hk : k ≤ n)
    (hans : s.env.answers = List.replicate k .ready ++ answers)
    (hg : ∀ j < k, ∃ tlb, s.Goes d.ctl d.want (seqAddr d.addr j) (pa j) tlb)
    (hp : ∀ j ≤ k, 1 ≤ j → s.isProtected (seqReg d.tr j) = false) :
    ∃ x w data, s.runMultiple n d true = x.runMultiple (n - k) (d.transferAt k data) true ∧
      ReachesTransfer s x d k pa w data answers := by
  cases k with
  | zero =>
    exact ⟨s, fun _ => 0#32, d.data, by rw [Access.transferAt_zero]; rfl, SequenceSo.zero hidle d pa _, fun hl _ => hdata hl,
      hstill.events, hans⟩
  | succ k =>
    obtain ⟨t, w, data, c, hpart, hrun⟩ := runMultiple_answered true answers k n s d pa hk hstill hu hset hdis hfree hans
      (fun j hj => hg j (Nat.lt_succ_of_le hj)) hp
    have hso : SequenceSo s t d (k + 1) pa w := (hpart.so hdata).of_withEnv
    have henv : t.env = { s.env with answers := answers } := hpart.env.trans (hstill.afterGaps answers k)
    refine ⟨_, w, _, hrun, hso.after c t.env, fun hl hi => ?_, ?_, ?_⟩
    · rw [hl]
      exact (hso.made.store hl).2.1 _ hi (by simp)
    · rw [henv]
      exact hstill.events
    · rw [henv]

/-! The system answers transfer `k` with `*DERR` (20 R165). -/

theorem putBit_undo {c : Word} {i : Nat} (hi : i < 32) (h : c.getLsbD i = false) : putBit (putBit c i true) i false = c := by
  apply BitVec.eq_of_getLsbD_eq
  intro j _
  rw [getLsbD_putBit _ _ _ _ hi, getLsbD_putBit _ _ _ _ hi]
  split
  · next e => rw [e, h]
  · rfl

theorem sequenceNext_tf {s y : State} {ctl : BitVec 8} {isLoad : Bool} {tr : RegNum} {addr : Word} {k n : Nat}
    (h : SequenceNext s y ctl isLoad tr addr k n) : y.chc.getLsbD 10 = false := by
  rw [h.2.2]
  simp only [BitVec.getLsbD_append]
  simp

theorem SequenceKept.failed {x y : State} (h : SequenceKept x y) (c : Nat) (e : Env) (chc : Word) :
    SequenceKept x { y with inflight := none, clock := c, env := e, chc := chc } :=
  { store := h.store, special := ⟨h.special.vab, h.special.ops, h.special.cfg, h.special.rbp, rfl, rfl, h.special.pc0,
      h.special.pc1, h.special.pc2, h.special.mmu, rfl⟩
    pointers := h.pointers, q := h.q, mode := h.mode, tlb := h.tlb, shadow := h.shadow, inflight := rfl }

theorem SequenceKept.withChc {x y : State} (h : SequenceKept x y) (chc : Word) : SequenceKept x { y with chc := chc } :=
  { store := h.store, special := ⟨h.special.vab, h.special.ops, h.special.cfg, h.special.rbp, rfl, rfl, h.special.pc0,
      h.special.pc1, h.special.pc2, h.special.mmu, rfl⟩
    pointers := h.pointers, q := h.q, mode := h.mode, tlb := h.tlb, shadow := h.shadow, inflight := h.inflight }

theorem runMultiple_failed {s s1 : State} {d d1 : Access} {n : Nat} {b : Bool}
    (hissue : s.issue d true (BitVec.ofNat 8 n) = .ok d1 s1) (herror : s1.answer d1 = .error) :
    s.runMultiple n d b = .failed (s1.complete d1) := by
  rw [State.runMultiple, hissue]
  simp only [herror]

/-- CA after one more transfer (44 R392). -/
theorem SequenceSo.active_after {s x y : State} {d : Access} {k : Nat} {pa w : Nat → Word} (h : SequenceSo s x d k pa w)
    (hcps : y.cps = if (d.ctl.getLsbD 7 && d.ctl.getLsbD 5) = true then putBit x.cps cpsCA !d.isLoad else x.cps) :
    StatusButActive s y d.ctl d.isLoad := by
  intro j
  refine (statusButActive_of hcps j).trans ?_
  by_cases hc : j = 15 ∧ d.ctl.getLsbD 7 = true ∧ d.ctl.getLsbD 5 = true
  · rw [if_pos hc, if_pos hc]
  · rw [if_neg hc, if_neg hc]
    rcases eq_or_ne j 15 with rfl | hj
    · rw [h.cps, if_neg fun hx => hc ⟨rfl, by simpa [-BitVec.getLsbD_eq_getElem] using hx.2⟩]
    · exact h.cps_bit hj

/-- A transfer answered with `*DERR` ends the instruction, and stays described (20 R165, R167). -/
theorem ReachesTransfer.fails {s x : State} {d : Access} {k n : Nat} {pa w : Nat → Word} {data : Word} {rest : List Answer}
    (h : ReachesTransfer s x d k pa w data (.error :: rest)) (hfree : s.frozen = false) (hset : d.set = false)
        (hla : d.la = false)
    (hu : d.user = s.asUser d.ctl) {p : Word} {tlb : Nat → Word} (hg : s.Goes d.ctl d.want (seqAddr d.addr k) p tlb) :
    ∃ t, (x.runMultiple (n - k) (d.transferAt k data) true).result State.retire = .next t ∧ t.env.answers = rest ∧
      SequenceAt s { t with chc := putBit t.chc chcTF false } d.ctl d.isLoad d.tr d.addr k pa w ∧ t.lru = s.lru ∧
      SequenceNext s { t with chc := putBit t.chc chcTF false } d.ctl d.isLoad d.tr d.addr k n ∧ t.chc.getLsbD 10 = true ∧
      StatusAfterAccess s t d.ctl d.isLoad ∧ PcAdvances s t := by
  have hso := h.so
  obtain ⟨tlb', hg'⟩ := goes_congr (t := x) (fun i hi => hso.cps_bit hi) (congrArg State.cfg hso.frame :) hso.mmu hso.tlb hg
  obtain ⟨pgm, y, hissue, hi, htlb, hlru, hcps⟩ := issue_goes (d := d.transferAt k data) (ml := true)
      (cr := BitVec.ofNat 8 (n - k))
    (hu.trans (hso.asUser d.ctl).symm) hg'
  have hnext := h.next hfree hset hla hi
  have ht := hi.touched
  have hanswers : y.env.answers = .error :: rest := (congrArg (fun u => u.env.answers) ht :).trans h.answers
  have hyfree : y.frozen = false := (issue_frozen hi hcps).trans (hso.frozen.trans hfree)
  let d1 : Access := { d.transferAt k data with pa := p, pgm := pgm }
  have herror : y.answer d1 = .error := by rw [State.answer, hanswers]
  let v : State := { y with
    inflight := none, clock := y.clock + 1, env := { y.env with answers := rest }, chc := putBit y.chc chcTF true }
  have hcomplete : y.complete d1 = v := by
    have hend : y.endAccess d1 = { y with
        inflight := none, clock := y.clock + 1, env := { y.env with answers := rest } } := by
      rw [State.endAccess, hanswers]
      rfl
    rw [State.complete, if_pos herror, hend]
    exact if_neg (Bool.eq_false_iff.mp hyfree)
  have hchc : v.retire.chc = putBit y.chc chcTF true := State.retire_chc v
  have hback : putBit v.retire.chc chcTF false = y.chc := by
    rw [hchc]
    exact putBit_undo (by decide) (sequenceNext_tf hnext)
  have hkept := ((hi.kept (sameTlb_of_goes hg' htlb) hso.inflight).failed (y.clock + 1) { y.env with answers := rest }
    (putBit y.chc chcTF true)).retire
  have hbp := hso.bytePointer_later hi.alu
  have hactive : StatusButActive s v d.ctl d.isLoad := hso.active_after hcps
  refine ⟨v.retire, ?_, ?_, ?_, ?_, ?_, ?_, hactive.retire, ?_⟩
  · rw [runMultiple_failed hissue herror, hcomplete]
    rfl
  · rw [State.retire_env]
  · rw [hback]
    refine hso.at_still (hkept.withChc y.chc) (fun j => ?_) ⟨?_, ?_⟩
    · show v.retire.alu.getLsbD j = _
      rw [State.retire_alu]
      exact hbp j
    · exact (State.retire_tmc v).trans (congrArg State.tmc ht :)
    · exact (State.retire_tmr v).trans (congrArg State.tmr ht :)
  · rw [State.retire_lru]
    exact hlru.trans hso.lru
  · rw [hback]
    obtain ⟨hcha, hchd, hchc'⟩ := hnext
    exact ⟨(State.retire_cha v).trans hcha, fun hl hr => (State.retire_chd v).trans (hchd hl hr), hchc'⟩
  · rw [hchc]
    exact (getLsbD_putBit _ _ _ _ (by decide)).trans (if_pos rfl)
  · exact hi.pcs hso.frame ⟨rfl, rfl, rfl, rfl⟩

end Sys2Proof.Machine

/-! Proofs for the family `other`: what goes wrong at any access of a multiple sequence. -/

namespace Sys2Proof.Machine

/-- What a miss recommends depends on the TLB and the page size alone (20 R157). -/
theorem RecommendsFor.congr {x t : State} {va lru : Word} (h : RecommendsFor x va lru) (hmmu : t.mmu.now = x.mmu.now)
    (htlb : t.TlbIs x.tlbReg) : RecommendsFor t va lru := by
  have hline : t.lineOf va = x.lineOf va := by rw [State.lineOf, State.lineOf, State.ps, State.ps, hmmu]
  have hlt : x.lineOf va < 32 := Nat.mod_lt _ (by decide)
  have hentry : ∀ k < 2, t.entry1 va k = x.entry1 va k := by
    intro k hk
    rw [State.entry1, State.entry1, hline]
    exact htlb _ (by omega)
  obtain ⟨hrow, hmask, hset⟩ := h
  refine ⟨hrow.trans hline.symm, hmask, fun heq => ?_⟩
  rw [hentry 0 (by decide), hentry 1 (by decide)] at heq
  rw [hentry 0 (by decide)]
  exact hset heq

theorem notCop_of_translated {s : State} {ctl : BitVec 8} (h : s.translated ctl = true) : ctl.getLsbD 7 = false := by
  rw [State.translated, Bool.and_eq_true, Bool.and_eq_true, Bool.and_eq_true] at h
  obtain ⟨⟨⟨h7, -⟩, -⟩, -⟩ := h
  exact (Bool.not_eq_true' _).mp h7

theorem notCop_of_misaligned {s : State} {ctl : BitVec 8} {va : Word} (h : s.misaligned ctl va = true) :
    ctl.getLsbD 7 = false := by
  rw [State.misaligned, Bool.and_eq_true, Bool.and_eq_true, Bool.and_eq_true] at h
  obtain ⟨⟨⟨-, h7⟩, -⟩, -⟩ := h
  exact (Bool.not_eq_true' _).mp h7

theorem sequenceGap_prot {t : State} {d : Access} (hprot : t.isProtected (nextReg d.tr) = true) (m : Nat) (b : Bool) :
    t.sequenceGap m d b = .prot t := if_pos hprot

/-- A protected register that comes next ends the sequence with the instruction not completed (44 R391, 60 R545). -/
theorem SequenceSo.protected {s t : State} {d : Access} {k : Nat} {pa w : Nat → Word} (h : SequenceSo s t d (k + 1) pa w) :
    SequenceAt s t.undefinedChannel d.ctl d.isLoad d.tr d.addr (k + 1) pa w ∧
      StatusButActive s t.undefinedChannel d.ctl d.isLoad ∧ t.undefinedChannel.lru = s.lru ∧ t.undefinedChannel.pc = s.pc ∧
      t.undefinedChannel.npc = s.npc ∧ t.undefinedChannel.ppc = s.ppc :=
  ⟨h.at_still ⟨⟨rfl, rfl, rfl, rfl⟩, ⟨rfl, rfl, rfl, rfl, rfl, rfl, rfl, rfl, rfl, rfl, rfl⟩, ⟨rfl, rfl, rfl⟩, rfl, rfl,
      fun _ _ _ => rfl, rfl, h.inflight⟩ h.bytePointer ⟨rfl, rfl⟩,
    h.active, h.lru, (congrArg State.pc h.frame :), (congrArg State.npc h.frame :), (congrArg State.ppc h.frame :)⟩

/-- Settles O45: the sequence comes to its access `k`, whose issue or answer, or the register after it, ends it. -/
theorem multipleSequenceTraps : Obligations.MultipleSequenceTraps := by
  intro ctl ra rb s isLoad h hda s1 tr addr n i want k pa hkn hgoes hprot
  have hn : s1.countRemaining.toNat = n := count_eq s1
  have hfree := frozen_of_maySequence h
  have hidle : s1.inflight = none := (drain_same s).2.2.2.2
  have hda1 : s1.da = false := (congrArg (BitVec.getLsbD · cpsDA) (State.drain_cps s)).trans hda
  let d := s1.descriptor isLoad false false ctl tr addr (if isLoad then 0#32 else s1.readReg .A tr)
  have hdata : d.isLoad = false → d.data = s1.readReg .A d.tr := fun hl => if_neg (Bool.eq_false_iff.mp hl)
  have hstart : exec i s = (s1.runMultiple n d true).result State.retire := by rw [← hn]; exact multiple_exec isLoad h
  refine ⟨?_, ?_⟩
  · intro hquiet va first traps keeps
    obtain ⟨x, w, data, hrun, hr⟩ := reaches_undisturbed hquiet hidle hfree rfl rfl rfl hdata hkn hgoes hprot
    have hso := hr.so
    have hexec : exec i s = (x.runMultiple (n - k) (d.transferAt k data) true).result State.retire :=
      hstart.trans (congrArg (MultiRun.result · State.retire) hrun)
    have htraps : ∀ {vn : Byte} {lru : State → Prop} {y : State}, (k = 0 ∨ ctl.getLsbD 7 = false) →
        x.issue (d.transferAt k data) true (BitVec.ofNat 8 (n - k)) = .trap vn y →
        Issue x y (d.transferAt k data) true (BitVec.ofNat 8 (n - k)) → SameTlbButUsage x y → lru y.retire → y.cps = x.cps →
        traps vn lru := by
      intro vn lru y hcop hissue hi htlb hlru hcps
      obtain ⟨t, u, hres, hent, hat, hnext, hstatus, hl, hpcs⟩ :=
        hr.traps rfl hfree rfl rfl hquiet.reset hda1 hcop hissue hi htlb hlru hcps
      exact ⟨t, u, w, hexec.trans hres, hent, hat, fun hl hpos => (hso.first hl hpos).trans (hdata hl), hnext, hstatus,
          hl, hpcs⟩
    have husr : (d.transferAt k data).user = x.asUser ctl := (hso.asUser ctl).symm
    have hmmu : x.mmu.age = s1.mmu.age := congrArg Delayed.age hso.mmu
    have hperms : ∀ {e : Nat}, permits (x.entry0 va e) (d.transferAt k data).want (x.asUser ctl) =
        permits (s1.entry0 va e) want (s1.asUser ctl) := by
      intro e
      rw [sameTlb_entry0 hso.mmu hso.tlb va e, hso.asUser ctl]
      rfl
    refine ⟨fun hzero h7 hcp => ?_, fun htx hage hmiss => ?_, fun e htx hage hhit hperm => ?_, fun hmis => ⟨fun htx => ?_,
      fun e htx hage hhit hperm => ?_⟩, fun hlt tlb hg hnextprot => ?_⟩
    · obtain ⟨y, hissue, hi, htlb, hlru, hcps⟩ := issue_absent (s := x) (d := d.transferAt k data) (ml := true)
        (cr := BitVec.ofNat 8 (n - k)) h7 ((congrArg (fun u => u.cfg.getLsbD 1) hso.frame :).trans hcp)
      exact htraps (.inl hzero) hissue hi (sameTlb_same htlb) ((State.retire_lru y).trans (hlru.trans hso.lru)) hcps
    · obtain ⟨y, hissue, hi, htlb, hlru, hcps⟩ := issue_miss (s := x) (d := d.transferAt k data) (ml := true)
        (cr := BitVec.ofNat 8 (n - k)) husr ((hso.translated ctl).trans htx) (hmmu ▸ hage)
        ((sameTlb_miss hso.mmu hso.tlb va).mpr hmiss)
      rw [show x.asUser (d.transferAt k data).ctl = s1.asUser ctl from hso.asUser ctl] at hissue
      refine htraps (lru := fun t => RecommendsFor t va t.lru)
          (.inr (notCop_of_translated htx)) hissue hi (sameTlb_same htlb) ?_ hcps
      show RecommendsFor y.retire va y.retire.lru
      rw [State.retire_lru]
      refine hlru.congr ?_ (retire_tlbIs htlb)
      exact (retire_sameSpecial y).mmu.trans (congrArg (fun u => u.mmu.now) hi.touched :)
    · obtain ⟨y, hissue, hi, htlb, hlru, hcps⟩ := issue_prot (s := x) (d := d.transferAt k data) (ml := true)
        (cr := BitVec.ofNat 8 (n - k)) husr ((hso.translated ctl).trans htx) (hmmu ▸ hage)
        ((sameTlb_hit hso.mmu hso.tlb va e).mpr hhit) (hperms.trans hperm)
      refine htraps (lru := fun t => t.lru &&& 0xFFFFFF81#32 = 0#32)
          (.inr (notCop_of_translated htx)) hissue hi (sameTlb_used htlb)
        ?_ hcps
      show y.retire.lru &&& 0xFFFFFF81#32 = 0#32
      rw [State.retire_lru]
      exact hlru
    · obtain ⟨y, hissue, hi, htlb, hlru, hcps⟩ := issue_unaligned (s := x) (d := d.transferAt k data) (ml := true)
        (cr := BitVec.ofNat 8 (n - k)) (tlb := x.tlbReg) husr ((hso.misaligned ctl va).trans hmis)
        ((if_neg (Bool.eq_false_iff.mp ((hso.translated ctl).trans htx))).mpr rfl)
      exact htraps (.inr (notCop_of_misaligned hmis)) hissue hi (sameTlb_same htlb)
          ((State.retire_lru y).trans (hlru.trans hso.lru)) hcps
    · obtain ⟨y, hissue, hi, htlb, hlru, hcps⟩ := issue_unaligned (s := x) (d := d.transferAt k data) (ml := true)
        (cr := BitVec.ofNat 8 (n - k)) (tlb := x.usedTlb va e) husr ((hso.misaligned ctl va).trans hmis)
        ((if_pos ((hso.translated ctl).trans htx)).mpr ⟨hmmu ▸ hage, e, (sameTlb_hit hso.mmu hso.tlb va e).mpr hhit,
          hperms.trans hperm, rfl⟩)
      exact htraps (.inr (notCop_of_misaligned hmis)) hissue hi (sameTlb_used htlb)
          ((State.retire_lru y).trans (hlru.trans hso.lru)) hcps
    · obtain ⟨t, w, data, hrun, hpart, -⟩ := runMultiple_prefix true k n s1 d pa hlt rfl rfl rfl hfree hquiet.answers (hquiet.uncut k)
        (fun j hj => (Nat.lt_or_eq_of_le hj).elim (hgoes j) fun hjk => hjk ▸ ⟨tlb, hg⟩) hprot
      have hso := hpart.so hdata
      let e : Access := { d with addr := seqAddr addr k, tr := seqReg tr k, data := data }
      have hprotected : t.isProtected (nextReg e.tr) = true := by
        rw [isProtected_congr (s := s1) (hso.cps_bit (by decide)) (congrArg State.rbp hso.frame :)
          (congrArg State.testing hso.frame :), show nextReg e.tr = seqReg tr (k + 1) from (seqReg_succ tr k).symm]
        exact hnextprot
      have hgap : t.sequenceGap (n - 1 - k) e true = .prot t := sequenceGap_prot hprotected _ _
      obtain ⟨u, hu, hent⟩ := raiseCurr_idle (s := t.undefinedChannel) (vn := 5#8) (.inl ((hso.cps_bit (by decide)).trans hda1))
        hso.inflight ((congrArg Env.answers hpart.env).trans hquiet.answers)
      obtain ⟨hat, hstatus, hlru, hpcs⟩ := hso.protected
      refine ⟨t.undefinedChannel, u, w, ?_, hent, hat, fun hl => (hso.first hl (Nat.succ_pos k)).trans (hdata hl),
          hstatus, hlru, hpcs⟩
      exact hstart.trans ((congrArg (MultiRun.result · State.retire) (hrun.trans hgap)).trans hu)
  · intro rest hans hstill tlb hg
    obtain ⟨x, w, data, hrun, hr⟩ :=
      reaches_answered (s := s1) hstill hidle hfree (d := d) rfl rfl rfl hdata hkn hans hgoes hprot
    obtain ⟨t, ht, hrest, hat, hlru, hnext, htf, hstatus, hpcs⟩ := hr.fails (n := n) hfree rfl rfl rfl hg
    exact ⟨t, w, (hstart.trans (congrArg (MultiRun.result · State.retire) hrun)).trans ht, hrest, hat, hlru, hnext, htf,
        hstatus, hpcs⟩

end Sys2Proof.Machine
